-- ==== Sys2Proof/Word.lean ====
section
/-! DEFINITION. The two widths of the Z80: the byte and the 16-bit word (00_scope.md R6, R8). -/

namespace Sys2Proof

/-- A byte: a register, a memory cell, the data of a port (R6, R8). -/
abbrev Byte := BitVec 8

/-- A 16-bit word: a register pair, an address, a port number (R6, R8). -/
abbrev Word := BitVec 16

end Sys2Proof
end

