-- ==== Sys2Proof/Machine/Bits.lean ====
section
/-! DEFINITION. Bit fields, byte order, sign extension and parity (00_scope.md R9, R12; 30_encoding.md R110). -/

namespace Sys2Proof

/-- `hi(w) = w[15:8]` (00_scope.md R9). -/
def hi (w : Word) : Byte := w.extractLsb' 8 8

/-- `lo(w) = w[7:0]` (00_scope.md R9). -/
def lo (w : Word) : Byte := w.extractLsb' 0 8

/-- `h:l`, the word `h*256 + l` (00_scope.md R9). -/
def join (h l : Byte) : Word := h ++ l

/-- `sext_16(v)` (00_scope.md R12). -/
def sext16 (v : Byte) : Word := v.signExtend 16

/-- `parity(v)`: true when the number of one bits of `v` is even (00_scope.md R12). -/
def parity (v : Byte) : Bool :=
  !((v.getLsbD 0 ^^ v.getLsbD 1) ^^ (v.getLsbD 2 ^^ v.getLsbD 3) ^^
    ((v.getLsbD 4 ^^ v.getLsbD 5) ^^ (v.getLsbD 6 ^^ v.getLsbD 7)))

/-- A byte that is 0 or 1, the value of one bit. -/
def bitByte (t : Bool) : Byte := (BitVec.ofBool t).setWidth 8

/-- `1 << b`, the mask of bit `b` (46_bit.md R423). -/
def bitMask (b : BitVec 3) : Byte := 1#8 <<< b.toNat

/-- Field `x = op[7:6]` of an opcode byte (30_encoding.md R110). -/
def xField (op : Byte) : BitVec 2 := op.extractLsb' 6 2

/-- Field `y = op[5:3]` of an opcode byte (30_encoding.md R110). -/
def yField (op : Byte) : BitVec 3 := op.extractLsb' 3 3

/-- Field `z = op[2:0]` of an opcode byte (30_encoding.md R110). -/
def zField (op : Byte) : BitVec 3 := op.extractLsb' 0 3

/-- The opcode byte `xx yyy zzz` (30_encoding.md R110). -/
def opByte (x : BitVec 2) (y z : BitVec 3) : Byte := x ++ y ++ z

end Sys2Proof
end

