-- ==== Sys2Proof/Machine/Flags.lean ====
section
/-! DEFINITION. The flag register and every flag computation of the spec: 10_state.md R36 to R44, 42_alu8.md R240 to
R247, R303 to R307, 43_alu16.md R320 to R322, 45_rotate_shift.md R370, R409, R410, 46_bit.md R427 to R429,
47_block.md R445, R450, 48_io.md R461. -/

namespace Sys2Proof.Machine

/-! ## The flag byte -/

/-- `flags(S,Z,F5,H,F3,PV,N,C)`: S in bit 7 down to C in bit 0 (42_alu8.md section 1, 10_state.md R36). -/
def mkFlags (sf zf f5 hf f3 pv nf cf : Bool) : Byte :=
  BitVec.ofBool sf ++ BitVec.ofBool zf ++ BitVec.ofBool f5 ++ BitVec.ofBool hf ++
    BitVec.ofBool f3 ++ BitVec.ofBool pv ++ BitVec.ofBool nf ++ BitVec.ofBool cf

/-- `F.S = F[7]` (00_scope.md R11). -/
def flagS (f : Byte) : Bool := f.getLsbD 7
/-- `F.Z = F[6]`. -/
def flagZ (f : Byte) : Bool := f.getLsbD 6
/-- `F.5 = F[5]`. -/
def flag5 (f : Byte) : Bool := f.getLsbD 5
/-- `F.H = F[4]`. -/
def flagH (f : Byte) : Bool := f.getLsbD 4
/-- `F.3 = F[3]`. -/
def flag3 (f : Byte) : Bool := f.getLsbD 3
/-- `F.PV = F[2]`. -/
def flagPV (f : Byte) : Bool := f.getLsbD 2
/-- `F.N = F[1]`. -/
def flagN (f : Byte) : Bool := f.getLsbD 1
/-- `F.C = F[0]`. -/
def flagC (f : Byte) : Bool := f.getLsbD 0

/-! ## 8-bit arithmetic and logic: each gives the result and the new F -/

/-- `add8(a, b, cin)` (42_alu8.md R240). -/
def add8 (a b : Byte) (cin : Bool) : Byte × Byte :=
  let r9 := a.toNat + b.toNat + cin.toNat
  let res : Byte := BitVec.ofNat 8 r9
  (res, mkFlags (res.getLsbD 7) (res == 0) (res.getLsbD 5)
    (decide (a.toNat % 16 + b.toNat % 16 + cin.toNat > 15)) (res.getLsbD 3)
    (a.getLsbD 7 == b.getLsbD 7 && res.getLsbD 7 != a.getLsbD 7) false (decide (r9 > 255)))

/-- `sub8(a, b, cin)` (42_alu8.md R241). -/
def sub8 (a b : Byte) (cin : Bool) : Byte × Byte :=
  let d : Int := a.toNat - b.toNat - cin.toNat
  let res : Byte := BitVec.ofInt 8 d
  (res, mkFlags (res.getLsbD 7) (res == 0) (res.getLsbD 5)
    (decide (a.toNat % 16 < b.toNat % 16 + cin.toNat)) (res.getLsbD 3)
    (a.getLsbD 7 != b.getLsbD 7 && res.getLsbD 7 != a.getLsbD 7) true (decide (d < 0)))

/-- The row `+ + 5 h 3 P 0 c`: S, Z, flags 5 and 3 and parity from the byte, N = 0. -/
def parityFlags (res : Byte) (hf cf : Bool) : Byte :=
  mkFlags (res.getLsbD 7) (res == 0) (res.getLsbD 5) hf (res.getLsbD 3) (parity res) false cf

/-- `and8(a, b)` (42_alu8.md R242). -/
def and8 (a b : Byte) : Byte × Byte := (a &&& b, parityFlags (a &&& b) true false)

/-- `or8(a, b)` (42_alu8.md R243). -/
def or8 (a b : Byte) : Byte × Byte := (a ||| b, parityFlags (a ||| b) false false)

/-- `xor8(a, b)` (42_alu8.md R244). -/
def xor8 (a b : Byte) : Byte × Byte := (a ^^^ b, parityFlags (a ^^^ b) false false)

/-- `inc8(v, F)` (42_alu8.md R245). -/
def inc8 (v f : Byte) : Byte × Byte :=
  let res := v + 1
  (res, mkFlags (res.getLsbD 7) (res == 0) (res.getLsbD 5) (decide (v.toNat % 16 = 15)) (res.getLsbD 3)
    (v == 0x7F) false (flagC f))

/-- `dec8(v, F)` (42_alu8.md R246). -/
def dec8 (v f : Byte) : Byte × Byte :=
  let res := v - 1
  (res, mkFlags (res.getLsbD 7) (res == 0) (res.getLsbD 5) (decide (v.toNat % 16 = 0)) (res.getLsbD 3)
    (v == 0x80) true (flagC f))

/-- `cp8(a, b)` (42_alu8.md R247): the flags of the difference, flags 5 and 3 from the operand compared. -/
def cp8 (a b : Byte) : Byte :=
  let f := (sub8 a b false).2
  mkFlags (flagS f) (flagZ f) (b.getLsbD 5) (flagH f) (b.getLsbD 3) (flagPV f) (flagN f) (flagC f)

/-- F after CPL, `A'` the new A (42_alu8.md R303). -/
def cplFlags (a' f : Byte) : Byte :=
  mkFlags (flagS f) (flagZ f) (a'.getLsbD 5) true (a'.getLsbD 3) (flagPV f) true (flagC f)

/-- F after CCF (42_alu8.md R305). -/
def ccfFlags (a f : Byte) : Byte :=
  mkFlags (flagS f) (flagZ f) (a.getLsbD 5) (flagC f) (a.getLsbD 3) (flagPV f) false (!flagC f)

/-- F after SCF (42_alu8.md R307). -/
def scfFlags (a f : Byte) : Byte :=
  mkFlags (flagS f) (flagZ f) (a.getLsbD 5) false (a.getLsbD 3) (flagPV f) false true

/-- The correction of DAA before the addition or subtraction (42_alu8.md R306). -/
def daaCorrection (a f : Byte) : Byte :=
  (if flagH f ∨ a.toNat % 16 > 9 then 0x06#8 else 0x00#8) |||
    (if flagC f ∨ a.toNat > 0x99 then 0x60#8 else 0x00#8)

/-- `DAA_FN`, the default algorithm (42_alu8.md R306, log 12): the new A and the new F. -/
def daa (a f : Byte) : Byte × Byte :=
  let res := if flagN f then a - daaCorrection a f else a + daaCorrection a f
  (res, mkFlags (res.getLsbD 7) (res == 0) (res.getLsbD 5) ((a ^^^ res).getLsbD 4) (res.getLsbD 3) (parity res)
    (flagN f) (flagC f || decide (a.toNat > 0x99)))

/-! ## 16-bit arithmetic -/

/-- `add16(a, b, cin)` with all flags and N = 0 (43_alu16.md R320, R321). -/
def add16 (a b : Word) (cin : Bool) : Word × Byte :=
  let r17 := a.toNat + b.toNat + cin.toNat
  let res : Word := BitVec.ofNat 16 r17
  (res, mkFlags (res.getLsbD 15) (res == 0) (res.getLsbD 13)
    (decide (a.toNat % 4096 + b.toNat % 4096 + cin.toNat > 4095)) (res.getLsbD 11)
    (a.getLsbD 15 == b.getLsbD 15 && res.getLsbD 15 != a.getLsbD 15) false (decide (r17 > 65535)))

/-- `sbc16(a, b, cin)` (43_alu16.md R322). -/
def sbc16 (a b : Word) (cin : Bool) : Word × Byte :=
  let d : Int := a.toNat - b.toNat - cin.toNat
  let res : Word := BitVec.ofInt 16 d
  (res, mkFlags (res.getLsbD 15) (res == 0) (res.getLsbD 13)
    (decide (a.toNat % 4096 < b.toNat % 4096 + cin.toNat)) (res.getLsbD 11)
    (a.getLsbD 15 != b.getLsbD 15 && res.getLsbD 15 != a.getLsbD 15) true (decide (d < 0)))

/-- F after ADD HL/IX/IY,RR: C, H, 5, 3 of the sum, N = 0, S, Z and P/V kept (43_alu16.md R323). -/
def add16KeepFlags (g f : Byte) : Byte :=
  mkFlags (flagS f) (flagZ f) (flag5 g) (flagH g) (flag3 g) (flagPV f) false (flagC g)

/-! ## Rotates and shifts: the result and the bit that leaves the byte (45_rotate_shift.md R370) -/

/-- `rlc(v, c)`. -/
def rlc (v : Byte) (_c : Bool) : Byte × Bool := ((v <<< 1) ||| bitByte (v.getLsbD 7), v.getLsbD 7)
/-- `rrc(v, c)`. -/
def rrc (v : Byte) (_c : Bool) : Byte × Bool := ((v >>> 1) ||| (bitByte (v.getLsbD 0) <<< 7), v.getLsbD 0)
/-- `rl(v, c)`. -/
def rl (v : Byte) (c : Bool) : Byte × Bool := ((v <<< 1) ||| bitByte c, v.getLsbD 7)
/-- `rr(v, c)`. -/
def rr (v : Byte) (c : Bool) : Byte × Bool := ((v >>> 1) ||| (bitByte c <<< 7), v.getLsbD 0)
/-- `sla(v, c)`. -/
def sla (v : Byte) (_c : Bool) : Byte × Bool := (v <<< 1, v.getLsbD 7)
/-- `sra(v, c)`. -/
def sra (v : Byte) (_c : Bool) : Byte × Bool := ((v >>> 1) ||| (v &&& 0x80), v.getLsbD 0)
/-- `sli(v, c)`. -/
def sli (v : Byte) (_c : Bool) : Byte × Bool := ((v <<< 1) ||| 1, v.getLsbD 7)
/-- `srl(v, c)`. -/
def srl (v : Byte) (_c : Bool) : Byte × Bool := (v >>> 1, v.getLsbD 0)

/-- F after a CB, DDCB or FDCB rotate or shift (45_rotate_shift.md R409). -/
def shiftFlags (res : Byte) (cout : Bool) : Byte := parityFlags res false cout

/-- F after RLCA, RRCA, RLA, RRA (45_rotate_shift.md R410). -/
def accShiftFlags (res : Byte) (cout : Bool) (f : Byte) : Byte :=
  mkFlags (flagS f) (flagZ f) (res.getLsbD 5) false (res.getLsbD 3) (flagPV f) false cout

/-- F after RLD and RRD (45_rotate_shift.md R407, R408) and after IN r,(C) and INF (48_io.md R461, R462): S, Z, 5, 3
and parity from the byte, H = 0, N = 0, C unchanged. -/
def byteFlagsKeepC (v f : Byte) : Byte := parityFlags v false (flagC f)

/-! ## Bit test, block instructions, LD A,I -/

/-- F after BIT: `t` the tested bit, `b` its number, flags 5 and 3 as given, C unchanged (46_bit.md R427 to R429). -/
def bitFlags (t : Bool) (b : BitVec 3) (f5 f3 : Bool) (f : Byte) : Byte :=
  mkFlags (b == 7 && t) (!t) f5 true f3 (!t) false (flagC f)

/-- F after LD A,I and LD A,R, `v` the byte loaded (40_load8.md R174, R175). -/
def ldAFlags (v : Byte) (iff2 : Bool) (f : Byte) : Byte :=
  mkFlags (v.getLsbD 7) (v == 0) (flag5 f) false (flag3 f) iff2 false (flagC f)

/-- F after the element step of a block transfer: `v` the byte moved, `bc` the new BC (47_block.md R445). -/
def blockLdFlags (v a : Byte) (bc : Word) (f : Byte) : Byte :=
  let n := v + a
  mkFlags (flagS f) (flagZ f) (n.getLsbD 1) false (n.getLsbD 3) (bc != 0) false (flagC f)

/-- F after the element step of a block search: `x` the byte compared, `bc` the new BC (47_block.md R450). -/
def blockCpFlags (a x : Byte) (bc : Word) (f : Byte) : Byte :=
  let g := (sub8 a x false).2
  let n := a - x - bitByte (flagH g)
  mkFlags (flagS g) (flagZ g) (n.getLsbD 1) (flagH g) (n.getLsbD 3) (bc != 0) true (flagC f)

end Sys2Proof.Machine
end

