-- ==== Sys2Proof/Config.lean ====
section
/-! DEFINITION. The parameters of 00_scope.md R7 that an implementation or the platform fixes, and the free
values: opaque constants, so that nothing can be proved of their value. The parameters for which the
spec's default is a formula (DAA_FN, R_MODEL) are written where they act, in Machine/Flags.lean and
Machine/Ops.lean; MEM_MAP and the interrupt inputs are data of State. -/

namespace Sys2Proof

/-- Whether a port access read a byte from a port or wrote one to it (20_memory.md R92). -/
inductive PortDirection where
  | input
  | output
  deriving DecidableEq, Repr, Inhabited

/-- One access to the port space: direction, 16-bit port address, byte (20_memory.md R92, 48_io.md R476). -/
structure PortEvent where
  direction : PortDirection
  port : Word
  value : Byte
  deriving DecidableEq, Repr, Inhabited

/-- The registers that a reset event leaves at any value (10_state.md R54, 70_reset_and_hazards.md R550). -/
structure OpenRegisters where
  a : Byte
  f : Byte
  b : Byte
  c : Byte
  d : Byte
  e : Byte
  h : Byte
  l : Byte
  a' : Byte
  f' : Byte
  b' : Byte
  c' : Byte
  d' : Byte
  e' : Byte
  h' : Byte
  l' : Byte
  ix : Word
  iy : Word
  sp : Word
  temp : Byte
  deriving DecidableEq, Repr, Inhabited

/-- `IO_DEVICE` (20_memory.md R92, 92_eei_decisions.md D7): the byte that a read of a port returns, as a function of
the accesses made so far (newest first) and the port. FREE VALUE, log 5. -/
opaque Config.portInput : List PortEvent → Word → Byte

/-- `UNPOPULATED_READ` (20_memory.md R84, 92_eei_decisions.md D6): the byte read at an address where there is no
memory. FREE VALUE, log 4. -/
opaque Config.unpopulatedRead : Word → Byte

/-- `BLOCK_IO_FLAGS` (48_io.md R471, 92_eei_decisions.md D13): the flag byte after a block input or output
instruction, for the n-th free value drawn. FREE VALUE, log 9. -/
opaque Config.blockIoFlags : Nat → Byte

/-- `TEMP_MODEL` (10_state.md R49, 92_eei_decisions.md D12): the hidden temporary register, for the n-th free value
drawn. FREE VALUE, log 10. -/
opaque Config.tempValue : Nat → Byte

/-- `RESET_VALUES` (10_state.md R54, 92_eei_decisions.md D21): the registers a reset event leaves at any value, for
the n-th free value drawn. FREE VALUE, log 8. -/
opaque Config.resetRegisters : Nat → OpenRegisters

/-- `OUTF_VALUE` (48_io.md R470, 92_eei_decisions.md D25): "0x00 for the Z80". Log 14. -/
def Config.outfValue : Byte := 0x00

end Sys2Proof
end

