-- ==== Sys2Proof/Machine/State.lean ====
section
/-! DEFINITION. The state of the Z80 (10_state.md), the machine right after reset, and the reasons a step can stop. -/

namespace Sys2Proof.Machine

/-- What stands at an address (20_memory.md R83, parameter `MEM_MAP`): writable memory, read-only memory, or no
memory at all (the spec's `none`). -/
inductive MemKind where
  | ram
  | rom
  | unpopulated
  deriving DecidableEq, Repr, Inhabited

/-- A stretch of the address space: `size` addresses from `base` on, all of one kind (20_memory.md R83). -/
structure Region where
  base : Nat
  size : Nat
  kind : MemKind
  deriving DecidableEq, Repr, Inhabited

/-- Memory: the cells that hold something else than what an unlisted cell reads as, addresses strictly rising
(20_memory.md R80), and the memory map (R83): the first region that holds an address gives its kind, and an
address in no region is `ram`, the spec's default (log 3). -/
structure Memory where
  cells : List Host.Cell
  map : List Region
  deriving DecidableEq, Repr, Inhabited

/-- The interrupt mode, one of 0, 1, 2 (10_state.md R48). -/
inductive IntMode where
  | im0
  | im1
  | im2
  deriving DecidableEq, Repr, Inhabited

/-- One sample of the inputs that the environment owns, taken at the start of a machine step: the RESET input
(70_reset_and_hazards.md R550), an NMI event (60_exceptions.md R507), the level INT_LINE (R506) and the byte
INT_BUS_BYTE that the interrupting device would supply (R512). Log 6. -/
structure InputSample where
  reset : Bool
  nmi : Bool
  intLine : Bool
  busByte : Byte
  deriving DecidableEq, Repr, Inhabited

/-- The whole state. Names are those of 00_scope.md R11; a primed name is a shadow register. -/
structure State where
  /-- The main register set (10_state.md R30, R36). -/
  a : Byte
  f : Byte
  b : Byte
  c : Byte
  d : Byte
  e : Byte
  h : Byte
  l : Byte
  /-- The shadow set (R32). -/
  a' : Byte
  f' : Byte
  b' : Byte
  c' : Byte
  d' : Byte
  e' : Byte
  h' : Byte
  l' : Byte
  /-- The index registers (R35). -/
  ix : Word
  iy : Word
  /-- The stack pointer (R34). -/
  sp : Word
  /-- The program counter (R33). -/
  pc : Word
  /-- The interrupt vector register I (R45). -/
  i : Byte
  /-- The refresh register R (R46). -/
  r : Byte
  /-- The interrupt enable flip-flops (R47). -/
  iff1 : Bool
  iff2 : Bool
  /-- The interrupt mode IM (R48). -/
  im : IntMode
  /-- HALTED (R50). -/
  halted : Bool
  /-- NMI_PENDING (R51). -/
  nmiPending : Bool
  /-- INHIBIT (R51): no interrupt is accepted at the next boundary. -/
  inhibit : Bool
  /-- TEMP, the hidden temporary register (R49). -/
  temp : Byte
  /-- RESET, an input of the environment (70_reset_and_hazards.md R550). -/
  resetLine : Bool
  /-- INT_LINE, an input of the environment (R51). -/
  intLine : Bool
  /-- INT_BUS_BYTE, an input of the environment (60_exceptions.md R506). -/
  busByte : Byte
  /-- The coming samples of the environment's inputs, the next one first: the model's own field (log 6). -/
  inputs : List InputSample
  /-- Memory and its map (20_memory.md R80, R83). -/
  mem : Memory
  /-- The port accesses made so far, the newest first (20_memory.md R92). -/
  ports : List PortEvent
  /-- How many free values have been drawn: the model's own field (log 11). -/
  draws : Nat
  deriving DecidableEq, Repr, Inhabited

/-- The reasons for which the machine stops with a fault: none. "The Z80 described by the source has no synchronous
exception, fault or trap of any kind: no instruction can fail" (60_exceptions.md R500). -/
inductive Fault where
  deriving DecidableEq, Repr

/-- The reasons for which a step has no meaning in the model. -/
inductive Refusal where
  /-- Raised by an arm of exec whose instruction has no meaning yet, with its mnemonic. Safe. No arm raises it. -/
  | notModelled (mnemonic : String)
  /-- Raised by the acceptance of INT in mode 0 when the bus byte is not an RST opcode: "a model should refuse the
  configuration" (60_exceptions.md R514, log 7). Safe. -/
  | mode0BusByteNotRst (b : BitVec 8)
  deriving DecidableEq, Repr

/-- The outcome of a step or of an instruction. -/
abbrev Result := Host.Outcome State Fault Refusal

/-- Right after reset (10_state.md R54, 70_reset_and_hazards.md R550, R552). PC, I, R, IFF1, IFF2, IM, HALTED,
NMI_PENDING and INHIBIT are the spec's values; every other register is the value log 1 names, the inputs those of
log 6, memory all RAM with nothing written (log 2, log 3). -/
def State.reset : State where
  a := 0xFF
  f := 0xFF
  b := 0
  c := 0
  d := 0
  e := 0
  h := 0
  l := 0
  a' := 0
  f' := 0
  b' := 0
  c' := 0
  d' := 0
  e' := 0
  h' := 0
  l' := 0
  ix := 0
  iy := 0
  sp := 0xFFFF
  pc := 0x0000
  i := 0x00
  r := 0x00
  iff1 := false
  iff2 := false
  im := .im0
  halted := false
  nmiPending := false
  inhibit := false
  temp := 0
  resetLine := false
  intLine := false
  busByte := 0xFF
  inputs := []
  mem := { cells := [], map := [] }
  ports := []
  draws := 0

end Sys2Proof.Machine
end

