-- ==== Sys2Proof/Machine/Ops.lean ====
section
/-! DEFINITION. The named operations over memory, stack, ports, PC and R, and taking an interrupt and returning from
one: 20_memory.md, 41_load16_exchange_stack.md R219, 10_state.md R46, 60_exceptions.md R510 to R516. -/

namespace Sys2Proof.Machine

/-! ## Memory -/

/-- What a cell that is not listed reads as. DESIGN CHOICE, unsafe: the spec says RAM after power-on is any value
(70_reset_and_hazards.md R552). Log 2. -/
def unlistedByte : Byte := 0x00

/-- The byte of the cell at `k`. -/
def cellAt : List Host.Cell → Nat → Byte
  | [], _ => unlistedByte
  | (j, v) :: rest, k => if j = k then v else cellAt rest k

/-- Put a cell before the first one of a higher address. -/
def insertCell : List Host.Cell → Nat → Byte → List Host.Cell
  | [], k, v => [(k, v)]
  | (j, w) :: rest, k, v => if k < j then (k, v) :: (j, w) :: rest else (j, w) :: insertCell rest k v

/-- Take out every cell at `k`. -/
def eraseCell : List Host.Cell → Nat → List Host.Cell
  | [], _ => []
  | (j, w) :: rest, k => if j = k then eraseCell rest k else (j, w) :: eraseCell rest k

/-- Set the cell at `k` to `v`, keeping the canonical form: a cell equal to what an unlisted one reads as is not
listed. -/
def putCell (cells : List Host.Cell) (k : Nat) (v : Byte) : List Host.Cell :=
  if v = unlistedByte then eraseCell cells k else insertCell (eraseCell cells k) k v

/-- `MEM_MAP` (20_memory.md R83): the kind of the first region that holds `k`, and `ram`, the default, where none
does. -/
def regionKind : List Region → Nat → MemKind
  | [], _ => .ram
  | g :: rest, k => if g.base ≤ k ∧ k < g.base + g.size then g.kind else regionKind rest k

/-- The kind of an address. -/
def Memory.kindAt (m : Memory) (a : Word) : MemKind := regionKind m.map a.toNat

/-- `MemRead(a)` (20_memory.md R84): the content of a ram or rom cell, any byte where there is no memory. -/
def Memory.read (m : Memory) (a : Word) : Byte :=
  match m.kindAt a with
  | .ram => cellAt m.cells a.toNat
  | .rom => cellAt m.cells a.toNat
  | .unpopulated => Config.unpopulatedRead a

/-- `MemWrite(a, v)` (20_memory.md R84): a ram cell takes the byte, elsewhere "a write changes nothing and raises
nothing". -/
def Memory.write (m : Memory) (a : Word) (v : Byte) : Memory :=
  match m.kindAt a with
  | .ram => { m with cells := putCell m.cells a.toNat v }
  | .rom => m
  | .unpopulated => m

/-- Every address listed is above `low`, rising strictly, inside the address space, and no cell is listed that
equals an unlisted one. -/
def cellsWf : Nat → List Host.Cell → Bool
  | _, [] => true
  | low, (k, v) :: rest => decide (low ≤ k) && decide (k < 65536) && decide (v ≠ unlistedByte) && cellsWf (k + 1) rest

/-- The canonical form of memory: equal memories are equal data. -/
def Memory.wf (m : Memory) : Bool := cellsWf 0 m.cells

/-- Place a byte from outside the machine (a loader, not a store of the processor), whatever the map says, and
give the address a ram cell where there is none. -/
def Memory.place (m : Memory) (a : Word) (v : Byte) : Memory where
  cells := putCell m.cells a.toNat v
  map := match m.kindAt a with
    | .ram => m.map
    | .rom => m.map
    | .unpopulated => { base := a.toNat, size := 1, kind := .ram } :: m.map

/-- `MemRead(a)` of the machine's memory (20_memory.md R84). -/
def State.memRead (s : State) (a : Word) : Byte := s.mem.read a

/-- `MemWrite(a, v)` to the machine's memory (20_memory.md R84). -/
def State.memWrite (s : State) (a : Word) (v : Byte) : State := { s with mem := s.mem.write a v }

/-- `MemRead16(a)`: low byte at `a`, high byte at `a + 1` modulo 65536 (20_memory.md R85, R87). -/
def State.memRead16 (s : State) (a : Word) : Word := join (s.memRead (a + 1)) (s.memRead a)

/-- `MemWrite16(a, w)`: the low byte at `a`, then the high byte at `a + 1` (20_memory.md R85, R88 c). -/
def State.memWrite16 (s : State) (a w : Word) : State := (s.memWrite a (lo w)).memWrite (a + 1) (hi w)

/-- A word stored high byte first, as a push and EX (SP) do (20_memory.md R88 d, e). -/
def State.memWrite16HighFirst (s : State) (a w : Word) : State := (s.memWrite (a + 1) (hi w)).memWrite a (lo w)

/-! ## The stack -/

/-- `push16(w)` (41_load16_exchange_stack.md R219). -/
def State.push16 (s : State) (w : Word) : State :=
  { s with sp := s.sp - 2 }.memWrite16HighFirst (s.sp - 2) w

/-- The word `pop16()` returns (41_load16_exchange_stack.md R219). -/
def State.topOfStack (s : State) : Word := s.memRead16 s.sp

/-- What `pop16()` does to SP (41_load16_exchange_stack.md R219). -/
def State.dropWord (s : State) : State := { s with sp := s.sp + 2 }

/-! ## PC and R -/

/-- `R[6:0] <- (R[6:0] + m) mod 128`, R[7] kept: `R_MODEL`, the spec's default (10_state.md R46, log 13). -/
def State.countR (s : State) (m : Nat) : State :=
  { s with r := s.r.extractLsb' 7 1 ++ (s.r.extractLsb' 0 7 + BitVec.ofNat 7 m) }

/-- The fetch of an instruction of `len` bytes with `fetches` opcode fetches: R counts and PC is `next`
(00_scope.md R15, 10_state.md R33, R46). A meaning acts on the state this leaves. -/
def State.begin (s : State) (len fetches : Nat) : State :=
  { s.countR fetches with pc := s.pc + BitVec.ofNat 16 len }

/-- Go back to the instruction of `len` bytes just fetched: `PC <- pc0` (47_block.md R440). -/
def State.again (s : State) (len : Nat) : State := { s with pc := s.pc - BitVec.ofNat 16 len }

/-- `PC <- target`. -/
def State.jump (s : State) (target : Word) : State := { s with pc := target }

/-! ## Ports and free values -/

/-- The byte that `IORead(port)` returns (20_memory.md R92): from `IO_DEVICE`, a free function (log 5). -/
def State.portByte (s : State) (port : Word) : Byte := Config.portInput s.ports port

/-- `IORead(port)` as an access: it enters the history (20_memory.md R91, R92). -/
def State.portRead (s : State) (port : Word) : State :=
  { s with ports := ⟨.input, port, s.portByte port⟩ :: s.ports }

/-- `IOWrite(port, v)`: it enters the history (20_memory.md R91, R92). -/
def State.portWrite (s : State) (port : Word) (v : Byte) : State :=
  { s with ports := ⟨.output, port, v⟩ :: s.ports }

/-- A free value has been drawn (log 11). -/
def State.drawn (s : State) : State := { s with draws := s.draws + 1 }

/-! ## Taking an interrupt and returning from one -/

/-- What the acceptance of NMI and of INT have in common (60_exceptions.md R510, R512): HALTED and IFF1 are
cleared, IFF2 kept or cleared, R counts 1, PC is pushed, and PC becomes the handler's address, which may be read
from memory after the push (R516). -/
def State.takeInterrupt (s : State) (keepIff2 : Bool) (handler : State → Word) : State :=
  let pushed := ({ s with halted := false, iff1 := false, iff2 := keepIff2 && s.iff2 }.countR 1).push16 s.pc
  pushed.jump (handler pushed)

/-- `accept_nmi()` (60_exceptions.md R510). -/
def State.acceptNmi (s : State) : State :=
  { s with nmiPending := false }.takeInterrupt true (fun _ => 0x0066)

/-- The bus byte has the form `11 ppp 111` of an RST opcode (60_exceptions.md R514). -/
def isRst (b : Byte) : Bool := xField b == 3#2 && zField b == 7#3

/-- `ppp * 8`, the target of RST (30_encoding.md R116). -/
def rstTarget (t : BitVec 3) : Word := BitVec.ofNat 16 (t.toNat * 8)

/-- `accept_int()` (60_exceptions.md R512): mode 0 R514, mode 1 R515, mode 2 R516. Log 7. -/
def State.acceptInt (s : State) : Result :=
  match s.im with
  | .im0 =>
    if isRst s.busByte then .next (s.takeInterrupt false (fun _ => rstTarget (yField s.busByte)))
    else .refused (.mode0BusByteNotRst s.busByte)
  | .im1 => .next (s.takeInterrupt false (fun _ => 0x0038))
  | .im2 => .next (s.takeInterrupt false (fun t => t.memRead16 (join t.i t.busByte)))

/-- `PC <- pop16()`, the return of RET, RET c, RETI and RETN (44_control.md R351). -/
def State.ret (s : State) : State := s.dropWord.jump s.topOfStack

/-- The return from an NMI handler: `PC <- pop16(); IFF1 <- IFF2` (49_system.md R486). -/
def State.retFromNmi (s : State) : State := { s.ret with iff1 := s.iff2 }

/-- The reset event (70_reset_and_hazards.md R550): the values of 10_state.md R54, any value in every other
register (free values, log 8), memory and ports untouched. -/
def State.resetEvent (s : State) : State :=
  let o := Config.resetRegisters s.draws
  { s.drawn with
    a := o.a, f := o.f, b := o.b, c := o.c, d := o.d, e := o.e, h := o.h, l := o.l
    a' := o.a', f' := o.f', b' := o.b', c' := o.c', d' := o.d', e' := o.e', h' := o.h', l' := o.l'
    ix := o.ix, iy := o.iy, sp := o.sp, temp := o.temp
    pc := 0x0000, i := 0x00, r := 0x00, iff1 := false, iff2 := false, im := .im0
    halted := false, nmiPending := false, inhibit := false }

end Sys2Proof.Machine
end

