-- ==== Sys2Proof/Syntax.lean ====
section
/-! DEFINITION. The instructions of the Z80: one constructor for each mnemonic of spec/opcode_table.json, with the operand
types (30_encoding.md R114 to R125). -/

namespace Sys2Proof

/-- What stands before an opcode that the DD and FD prefixes do not change (30_encoding.md R134): nothing, DD or
FD. -/
inductive Pfx where
  | plain
  | dd
  | fd
  deriving DecidableEq, Repr, Inhabited

/-- The registers of `r8`, codes 000 to 101 and 111 (30_encoding.md R122); code 110 is memory and makes another
instruction. -/
inductive Reg8 where
  | b
  | c
  | d
  | e
  | h
  | l
  | a
  deriving DecidableEq, Repr, Inhabited

/-- The halves of an index register: XH and XL of IX, YH and YL of IY (10_state.md R35, 30_encoding.md R123). -/
inductive Half where
  | hi
  | lo
  deriving DecidableEq, Repr, Inhabited

/-- The registers of `r8x`: the index halves in the place of H and L (30_encoding.md R123). -/
inductive RegX where
  | b
  | c
  | d
  | e
  | xh
  | xl
  | a
  deriving DecidableEq, Repr, Inhabited

/-- The 16-bit register field RR (30_encoding.md R118). -/
inductive Pair where
  | bc
  | de
  | hl
  | sp
  deriving DecidableEq, Repr, Inhabited

/-- The field RR under DD or FD, where code 10 is the index register (30_encoding.md R118). -/
inductive PairX where
  | bc
  | de
  | xy
  | sp
  deriving DecidableEq, Repr, Inhabited

/-- The stack register field RS (30_encoding.md R119), codes 00 to 10; code 11, AF, makes another row. -/
inductive StackPair where
  | bc
  | de
  | hl
  deriving DecidableEq, Repr, Inhabited

/-- The condition field ccc (30_encoding.md R121). -/
inductive Cond where
  | nz
  | z
  | nc
  | c
  | po
  | pe
  | p
  | m
  deriving DecidableEq, Repr, Inhabited

/-- The condition field cc of JR (30_encoding.md R120). -/
inductive Cond4 where
  | nz
  | z
  | nc
  | c
  deriving DecidableEq, Repr, Inhabited

/-- The index registers (10_state.md R35). -/
inductive Index where
  | ix
  | iy
  deriving DecidableEq, Repr, Inhabited

/-- An instruction. Operands: `r`, `d` 8-bit registers, `n` an immediate byte, `nn` an immediate word, `o` a
displacement byte, `q` a register pair, `x` an index half or an index register, `b` a bit number, `k` bits that the
encoding leaves open, `p` the prefix of a row that the prefix does not change. The rows
of the block instructions and of the prefix bytes, which have no operand, stand last. -/
inductive Instr where
  /-- `NOP`. -/
  | nop (p : Pfx)
  /-- `EX AF,AF'`. -/
  | exAfAf (p : Pfx)
  /-- `DJNZ s`. -/
  | djnz (p : Pfx) (o : Byte)
  /-- `JR s`. -/
  | jr (p : Pfx) (o : Byte)
  /-- `JR cc,s`. -/
  | jrCc (p : Pfx) (cc : Cond4) (o : Byte)
  /-- `LD RR,NN`. -/
  | ldRrNn (p : Pfx) (q : Pair) (nn : Word)
  /-- `ADD HL,RR`. -/
  | addHlRr (q : Pair)
  /-- `LD (BC),A`. -/
  | ldMemBcA (p : Pfx)
  /-- `LD A,(BC)`. -/
  | ldAMemBc (p : Pfx)
  /-- `LD (DE),A`. -/
  | ldMemDeA (p : Pfx)
  /-- `LD A,(DE)`. -/
  | ldAMemDe (p : Pfx)
  /-- `LD (NN),HL`. -/
  | ldMemNnHl (nn : Word)
  /-- `LD HL,(NN)`. -/
  | ldHlMemNn (nn : Word)
  /-- `LD (NN),A`. -/
  | ldMemNnA (p : Pfx) (nn : Word)
  /-- `LD A,(NN)`. -/
  | ldAMemNn (p : Pfx) (nn : Word)
  /-- `INC RR`. -/
  | incRr (p : Pfx) (q : Pair)
  /-- `DEC RR`. -/
  | decRr (p : Pfx) (q : Pair)
  /-- `INC r`. -/
  | incR (p : Pfx) (r : Reg8)
  /-- `INC (HL)`. -/
  | incMemHl
  /-- `DEC r`. -/
  | decR (p : Pfx) (r : Reg8)
  /-- `DEC (HL)`. -/
  | decMemHl
  /-- `LD r,N`. -/
  | ldRN (p : Pfx) (r : Reg8) (n : Byte)
  /-- `LD (HL),N`. -/
  | ldMemHlN (n : Byte)
  /-- `RLCA`. -/
  | rlca (p : Pfx)
  /-- `RRCA`. -/
  | rrca (p : Pfx)
  /-- `RLA`. -/
  | rla (p : Pfx)
  /-- `RRA`. -/
  | rra (p : Pfx)
  /-- `DAA`. -/
  | daa (p : Pfx)
  /-- `CPL`. -/
  | cpl (p : Pfx)
  /-- `SCF`. -/
  | scf (p : Pfx)
  /-- `CCF`. -/
  | ccf (p : Pfx)
  /-- `LD d,r`. -/
  | ldDR (p : Pfx) (rd : Reg8) (r : Reg8)
  /-- `LD d,(HL)`. -/
  | ldDMemHl (rd : Reg8)
  /-- `LD (HL),r`. -/
  | ldMemHlR (r : Reg8)
  /-- `HALT`. -/
  | halt (p : Pfx)
  /-- `ADD A,r`. -/
  | addR (p : Pfx) (r : Reg8)
  /-- `ADD A,(HL)`. -/
  | addMemHl
  /-- `ADC A,r`. -/
  | adcR (p : Pfx) (r : Reg8)
  /-- `ADC A,(HL)`. -/
  | adcMemHl
  /-- `SUB r`. -/
  | subR (p : Pfx) (r : Reg8)
  /-- `SUB (HL)`. -/
  | subMemHl
  /-- `SBC A,r`. -/
  | sbcR (p : Pfx) (r : Reg8)
  /-- `SBC A,(HL)`. -/
  | sbcMemHl
  /-- `AND r`. -/
  | andR (p : Pfx) (r : Reg8)
  /-- `AND (HL)`. -/
  | andMemHl
  /-- `XOR r`. -/
  | xorR (p : Pfx) (r : Reg8)
  /-- `XOR (HL)`. -/
  | xorMemHl
  /-- `OR r`. -/
  | orR (p : Pfx) (r : Reg8)
  /-- `OR (HL)`. -/
  | orMemHl
  /-- `CP r`. -/
  | cpR (p : Pfx) (r : Reg8)
  /-- `CP (HL)`. -/
  | cpMemHl
  /-- `RET c`. -/
  | retC (p : Pfx) (cc : Cond)
  /-- `POP RS`. -/
  | popRs (p : Pfx) (q : StackPair)
  /-- `POP AF`. -/
  | popAf (p : Pfx)
  /-- `RET`. -/
  | ret (p : Pfx)
  /-- `EXX`. -/
  | exx (p : Pfx)
  /-- `JP (HL)`. -/
  | jpHl
  /-- `LD SP,HL`. -/
  | ldSpHl
  /-- `JP c,NN`. -/
  | jpCNn (p : Pfx) (cc : Cond) (nn : Word)
  /-- `JP NN`. -/
  | jpNn (p : Pfx) (nn : Word)
  /-- `OUT (N),A`. -/
  | outNA (p : Pfx) (n : Byte)
  /-- `IN A,(N)`. -/
  | inAN (p : Pfx) (n : Byte)
  /-- `EX (SP),HL`. -/
  | exSpHl
  /-- `EX DE,HL`. -/
  | exDeHl (p : Pfx)
  /-- `DI`. -/
  | di (p : Pfx)
  /-- `EI`. -/
  | ei (p : Pfx)
  /-- `CALL c,NN`. -/
  | callCNn (p : Pfx) (cc : Cond) (nn : Word)
  /-- `PUSH RS`. -/
  | pushRs (p : Pfx) (q : StackPair)
  /-- `PUSH AF`. -/
  | pushAf (p : Pfx)
  /-- `CALL NN`. -/
  | callNn (p : Pfx) (nn : Word)
  /-- `ADD A,N`. -/
  | addN (p : Pfx) (n : Byte)
  /-- `ADC A,N`. -/
  | adcN (p : Pfx) (n : Byte)
  /-- `SUB N`. -/
  | subN (p : Pfx) (n : Byte)
  /-- `SBC A,N`. -/
  | sbcN (p : Pfx) (n : Byte)
  /-- `AND N`. -/
  | andN (p : Pfx) (n : Byte)
  /-- `XOR N`. -/
  | xorN (p : Pfx) (n : Byte)
  /-- `OR N`. -/
  | orN (p : Pfx) (n : Byte)
  /-- `CP N`. -/
  | cpN (p : Pfx) (n : Byte)
  /-- `RST p`. -/
  | rst (p : Pfx) (v : BitVec 3)
  /-- `RLC r`. -/
  | rlcR (r : Reg8)
  /-- `RLC (HL)`. -/
  | rlcMemHl
  /-- `RRC r`. -/
  | rrcR (r : Reg8)
  /-- `RRC (HL)`. -/
  | rrcMemHl
  /-- `RL r`. -/
  | rlR (r : Reg8)
  /-- `RL (HL)`. -/
  | rlMemHl
  /-- `RR r`. -/
  | rrR (r : Reg8)
  /-- `RR (HL)`. -/
  | rrMemHl
  /-- `SLA r`. -/
  | slaR (r : Reg8)
  /-- `SLA (HL)`. -/
  | slaMemHl
  /-- `SRA r`. -/
  | sraR (r : Reg8)
  /-- `SRA (HL)`. -/
  | sraMemHl
  /-- `SLI r`. -/
  | sliR (r : Reg8)
  /-- `SLI (HL)`. -/
  | sliMemHl
  /-- `SRL r`. -/
  | srlR (r : Reg8)
  /-- `SRL (HL)`. -/
  | srlMemHl
  /-- `BIT b,r`. -/
  | bitR (b : BitVec 3) (r : Reg8)
  /-- `BIT b,(HL)`. -/
  | bitMemHl (b : BitVec 3)
  /-- `RES b,r`. -/
  | resR (b : BitVec 3) (r : Reg8)
  /-- `RES b,(HL)`. -/
  | resMemHl (b : BitVec 3)
  /-- `SET b,r`. -/
  | setR (b : BitVec 3) (r : Reg8)
  /-- `SET b,(HL)`. -/
  | setMemHl (b : BitVec 3)
  /-- `no operation: undefined ED opcode`. -/
  | nopEd (op : Byte)
  /-- `IN r,(C)`. -/
  | inRC (r : Reg8)
  /-- `INF`. -/
  | inf
  /-- `OUT (C),r`. -/
  | outCR (r : Reg8)
  /-- `OUTF`. -/
  | outf
  /-- `SBC HL,RR`. -/
  | sbcHlRr (q : Pair)
  /-- `ADC HL,RR`. -/
  | adcHlRr (q : Pair)
  /-- `LD (NN),RR`. -/
  | ldMemNnRr (q : Pair) (nn : Word)
  /-- `LD RR,(NN)`. -/
  | ldRrMemNn (q : Pair) (nn : Word)
  /-- `NEG`. -/
  | neg (k : BitVec 3)
  /-- `RETN`. -/
  | retn (k : BitVec 2)
  /-- `RETI`. -/
  | reti (k : BitVec 2)
  /-- `IM i`. -/
  | im (k : BitVec 1) (m : BitVec 2)
  /-- `LD I,A`. -/
  | ldIA
  /-- `LD R,A`. -/
  | ldRA
  /-- `LD A,I`. -/
  | ldAI
  /-- `LD A,R`. -/
  | ldAR
  /-- `RRD`. -/
  | rrd
  /-- `RLD`. -/
  | rld
  /-- `LD IX,NN`. -/
  | ldIxNn (nn : Word)
  /-- `ADD IX,RR`. -/
  | addIxRr (q : PairX)
  /-- `LD (NN),IX`. -/
  | ldMemNnIx (nn : Word)
  /-- `LD IX,(NN)`. -/
  | ldIxMemNn (nn : Word)
  /-- `INC IX`. -/
  | incIx16
  /-- `DEC IX`. -/
  | decIx16
  /-- `INC XH/XL`. -/
  | incX (x : Half)
  /-- `DEC XH/XL`. -/
  | decX (x : Half)
  /-- `LD XH/XL,N`. -/
  | ldXN (x : Half) (n : Byte)
  /-- `INC (IX+s)`. -/
  | incIx (o : Byte)
  /-- `DEC (IX+s)`. -/
  | decIx (o : Byte)
  /-- `LD (IX+s),N`. -/
  | ldIxN (o : Byte) (n : Byte)
  /-- `LD d,r with XH/XL`. -/
  | ldXX (rd : RegX) (r : RegX)
  /-- `LD d,(IX+s)`. -/
  | ldDIx (rd : Reg8) (o : Byte)
  /-- `LD (IX+s),r`. -/
  | ldIxR (r : Reg8) (o : Byte)
  /-- `ADD A,XH/XL`. -/
  | addX (x : Half)
  /-- `ADD A,(IX+s)`. -/
  | addIx (o : Byte)
  /-- `ADC A,XH/XL`. -/
  | adcX (x : Half)
  /-- `ADC A,(IX+s)`. -/
  | adcIx (o : Byte)
  /-- `SUB XH/XL`. -/
  | subX (x : Half)
  /-- `SUB (IX+s)`. -/
  | subIx (o : Byte)
  /-- `SBC A,XH/XL`. -/
  | sbcX (x : Half)
  /-- `SBC A,(IX+s)`. -/
  | sbcIx (o : Byte)
  /-- `AND XH/XL`. -/
  | andX (x : Half)
  /-- `AND (IX+s)`. -/
  | andIx (o : Byte)
  /-- `XOR XH/XL`. -/
  | xorX (x : Half)
  /-- `XOR (IX+s)`. -/
  | xorIx (o : Byte)
  /-- `OR XH/XL`. -/
  | orX (x : Half)
  /-- `OR (IX+s)`. -/
  | orIx (o : Byte)
  /-- `CP XH/XL`. -/
  | cpX (x : Half)
  /-- `CP (IX+s)`. -/
  | cpIx (o : Byte)
  /-- `POP IX`. -/
  | popIx
  /-- `PUSH IX`. -/
  | pushIx
  /-- `JP (IX)`. -/
  | jpIx
  /-- `LD SP,IX`. -/
  | ldSpIx
  /-- `EX (SP),IX`. -/
  | exSpIx
  /-- `ignored prefix: next byte DD`. -/
  | ignoredNextDd (x : Index)
  /-- `ignored prefix: next byte ED`. -/
  | ignoredNextEd (x : Index)
  /-- `ignored prefix: next byte FD`. -/
  | ignoredNextFd (x : Index)
  /-- `RLC (IX+s)`. -/
  | rlcIx (o : Byte)
  /-- `RLC r,(IX+s)`. -/
  | rlcRIx (r : Reg8) (o : Byte)
  /-- `RRC (IX+s)`. -/
  | rrcIx (o : Byte)
  /-- `RRC r,(IX+s)`. -/
  | rrcRIx (r : Reg8) (o : Byte)
  /-- `RL (IX+s)`. -/
  | rlIx (o : Byte)
  /-- `RL r,(IX+s)`. -/
  | rlRIx (r : Reg8) (o : Byte)
  /-- `RR (IX+s)`. -/
  | rrIx (o : Byte)
  /-- `RR r,(IX+s)`. -/
  | rrRIx (r : Reg8) (o : Byte)
  /-- `SLA (IX+s)`. -/
  | slaIx (o : Byte)
  /-- `SLA r,(IX+s)`. -/
  | slaRIx (r : Reg8) (o : Byte)
  /-- `SRA (IX+s)`. -/
  | sraIx (o : Byte)
  /-- `SRA r,(IX+s)`. -/
  | sraRIx (r : Reg8) (o : Byte)
  /-- `SLI (IX+s)`. -/
  | sliIx (o : Byte)
  /-- `SLI r,(IX+s)`. -/
  | sliRIx (r : Reg8) (o : Byte)
  /-- `SRL (IX+s)`. -/
  | srlIx (o : Byte)
  /-- `SRL r,(IX+s)`. -/
  | srlRIx (r : Reg8) (o : Byte)
  /-- `BIT b,(IX+s)`. -/
  | bitIx (b : BitVec 3) (k : BitVec 3) (o : Byte)
  /-- `RES b,(IX+s)`. -/
  | resIx (b : BitVec 3) (o : Byte)
  /-- `RES b,r,(IX+s)`. -/
  | resRIx (b : BitVec 3) (r : Reg8) (o : Byte)
  /-- `SET b,(IX+s)`. -/
  | setIx (b : BitVec 3) (o : Byte)
  /-- `SET b,r,(IX+s)`. -/
  | setRIx (b : BitVec 3) (r : Reg8) (o : Byte)
  /-- `LD IY,NN`. -/
  | ldIyNn (nn : Word)
  /-- `ADD IY,RR`. -/
  | addIyRr (q : PairX)
  /-- `LD (NN),IY`. -/
  | ldMemNnIy (nn : Word)
  /-- `LD IY,(NN)`. -/
  | ldIyMemNn (nn : Word)
  /-- `INC IY`. -/
  | incIy16
  /-- `DEC IY`. -/
  | decIy16
  /-- `INC YH/YL`. -/
  | incY (x : Half)
  /-- `DEC YH/YL`. -/
  | decY (x : Half)
  /-- `LD YH/YL,N`. -/
  | ldYN (x : Half) (n : Byte)
  /-- `INC (IY+s)`. -/
  | incIy (o : Byte)
  /-- `DEC (IY+s)`. -/
  | decIy (o : Byte)
  /-- `LD (IY+s),N`. -/
  | ldIyN (o : Byte) (n : Byte)
  /-- `LD d,r with YH/YL`. -/
  | ldYY (rd : RegX) (r : RegX)
  /-- `LD d,(IY+s)`. -/
  | ldDIy (rd : Reg8) (o : Byte)
  /-- `LD (IY+s),r`. -/
  | ldIyR (r : Reg8) (o : Byte)
  /-- `ADD A,YH/YL`. -/
  | addY (x : Half)
  /-- `ADD A,(IY+s)`. -/
  | addIy (o : Byte)
  /-- `ADC A,YH/YL`. -/
  | adcY (x : Half)
  /-- `ADC A,(IY+s)`. -/
  | adcIy (o : Byte)
  /-- `SUB YH/YL`. -/
  | subY (x : Half)
  /-- `SUB (IY+s)`. -/
  | subIy (o : Byte)
  /-- `SBC A,YH/YL`. -/
  | sbcY (x : Half)
  /-- `SBC A,(IY+s)`. -/
  | sbcIy (o : Byte)
  /-- `AND YH/YL`. -/
  | andY (x : Half)
  /-- `AND (IY+s)`. -/
  | andIy (o : Byte)
  /-- `XOR YH/YL`. -/
  | xorY (x : Half)
  /-- `XOR (IY+s)`. -/
  | xorIy (o : Byte)
  /-- `OR YH/YL`. -/
  | orY (x : Half)
  /-- `OR (IY+s)`. -/
  | orIy (o : Byte)
  /-- `CP YH/YL`. -/
  | cpY (x : Half)
  /-- `CP (IY+s)`. -/
  | cpIy (o : Byte)
  /-- `POP IY`. -/
  | popIy
  /-- `PUSH IY`. -/
  | pushIy
  /-- `JP (IY)`. -/
  | jpIy
  /-- `LD SP,IY`. -/
  | ldSpIy
  /-- `EX (SP),IY`. -/
  | exSpIy
  /-- `RLC (IY+s)`. -/
  | rlcIy (o : Byte)
  /-- `RLC r,(IY+s)`. -/
  | rlcRIy (r : Reg8) (o : Byte)
  /-- `RRC (IY+s)`. -/
  | rrcIy (o : Byte)
  /-- `RRC r,(IY+s)`. -/
  | rrcRIy (r : Reg8) (o : Byte)
  /-- `RL (IY+s)`. -/
  | rlIy (o : Byte)
  /-- `RL r,(IY+s)`. -/
  | rlRIy (r : Reg8) (o : Byte)
  /-- `RR (IY+s)`. -/
  | rrIy (o : Byte)
  /-- `RR r,(IY+s)`. -/
  | rrRIy (r : Reg8) (o : Byte)
  /-- `SLA (IY+s)`. -/
  | slaIy (o : Byte)
  /-- `SLA r,(IY+s)`. -/
  | slaRIy (r : Reg8) (o : Byte)
  /-- `SRA (IY+s)`. -/
  | sraIy (o : Byte)
  /-- `SRA r,(IY+s)`. -/
  | sraRIy (r : Reg8) (o : Byte)
  /-- `SLI (IY+s)`. -/
  | sliIy (o : Byte)
  /-- `SLI r,(IY+s)`. -/
  | sliRIy (r : Reg8) (o : Byte)
  /-- `SRL (IY+s)`. -/
  | srlIy (o : Byte)
  /-- `SRL r,(IY+s)`. -/
  | srlRIy (r : Reg8) (o : Byte)
  /-- `BIT b,(IY+s)`. -/
  | bitIy (b : BitVec 3) (k : BitVec 3) (o : Byte)
  /-- `RES b,(IY+s)`. -/
  | resIy (b : BitVec 3) (o : Byte)
  /-- `RES b,r,(IY+s)`. -/
  | resRIy (b : BitVec 3) (r : Reg8) (o : Byte)
  /-- `SET b,(IY+s)`. -/
  | setIy (b : BitVec 3) (o : Byte)
  /-- `SET b,r,(IY+s)`. -/
  | setRIy (b : BitVec 3) (r : Reg8) (o : Byte)
  /-- `prefix CB`. -/
  | prefixCb
  /-- `prefix DD`. -/
  | prefixDd
  /-- `prefix ED`. -/
  | prefixEd
  /-- `prefix FD`. -/
  | prefixFd
  /-- `LDI`. -/
  | ldi
  /-- `LDD`. -/
  | ldd
  /-- `LDIR`. -/
  | ldir
  /-- `LDDR`. -/
  | lddr
  /-- `CPI`. -/
  | cpi
  /-- `CPD`. -/
  | cpd
  /-- `CPIR`. -/
  | cpir
  /-- `CPDR`. -/
  | cpdr
  /-- `INI`. -/
  | ini
  /-- `IND`. -/
  | ind
  /-- `INIR`. -/
  | inir
  /-- `INDR`. -/
  | indr
  /-- `OTI`. -/
  | oti
  /-- `OTD`. -/
  | otd
  /-- `OTIR`. -/
  | otir
  /-- `OTDR`. -/
  | otdr
  /-- `prefix DD CB`. -/
  | prefixDdCb
  /-- `prefix FD CB`. -/
  | prefixFdCb
  deriving DecidableEq, Repr

end Sys2Proof
end

