-- ==== Sys2Proof/Machine/Operands.lean ====
section
/-! DEFINITION. The operands: reading and writing a register, an index half and a register pair, the effective
address, the condition (30_encoding.md R114 to R125), and the fetch of an instruction behind a prefix that changes
nothing (R134). -/

namespace Sys2Proof.Machine

/-! ## The prefix that changes nothing -/

/-- How many prefix bytes stand before the opcode (30_encoding.md R134). -/
def prefixLength : Pfx → Nat
  | .plain => 0
  | .dd => 1
  | .fd => 1

/-- The fetch of an instruction of `len` bytes and one opcode fetch, and of the DD or FD before it: one byte and one
opcode fetch more (30_encoding.md R134, 10_state.md R46). -/
def State.beginP (s : State) (p : Pfx) (len : Nat) : State := s.begin (len + prefixLength p) (1 + prefixLength p)

/-! ## 8-bit registers -/

/-- `r8[code]`, a register read (30_encoding.md R122). -/
def State.reg8 (s : State) : Reg8 → Byte
  | .b => s.b
  | .c => s.c
  | .d => s.d
  | .e => s.e
  | .h => s.h
  | .l => s.l
  | .a => s.a

/-- `r8[code] <- v` (30_encoding.md R122). -/
def State.setReg8 (s : State) (r : Reg8) (v : Byte) : State :=
  match r with
  | .b => { s with b := v }
  | .c => { s with c := v }
  | .d => { s with d := v }
  | .e => { s with e := v }
  | .h => { s with h := v }
  | .l => { s with l := v }
  | .a => { s with a := v }

/-- IX or IY. -/
def State.index (s : State) : Index → Word
  | .ix => s.ix
  | .iy => s.iy

/-- `IX <- w` or `IY <- w`. -/
def State.setIndex (s : State) (x : Index) (w : Word) : State :=
  match x with
  | .ix => { s with ix := w }
  | .iy => { s with iy := w }

/-- The half `hf` of a word. -/
def halfOf (hf : Half) (w : Word) : Byte :=
  match hf with
  | .hi => hi w
  | .lo => lo w

/-- A word with the half `hf` replaced: "writing a half changes the pair" (00_scope.md R11). -/
def withHalf (hf : Half) (v : Byte) (w : Word) : Word :=
  match hf with
  | .hi => join v (lo w)
  | .lo => join (hi w) v

/-- XH, XL, YH or YL (10_state.md R35). -/
def State.half (s : State) (x : Index) (hf : Half) : Byte := halfOf hf (s.index x)

/-- `XH <- v` and the like (10_state.md R35). -/
def State.setHalf (s : State) (x : Index) (hf : Half) (v : Byte) : State :=
  s.setIndex x (withHalf hf v (s.index x))

/-- `r8x[code]`, a register read (30_encoding.md R123). -/
def State.regX (s : State) (x : Index) : RegX → Byte
  | .b => s.b
  | .c => s.c
  | .d => s.d
  | .e => s.e
  | .xh => s.half x .hi
  | .xl => s.half x .lo
  | .a => s.a

/-- `r8x[code] <- v` (30_encoding.md R123). -/
def State.setRegX (s : State) (x : Index) (r : RegX) (v : Byte) : State :=
  match r with
  | .b => { s with b := v }
  | .c => { s with c := v }
  | .d => { s with d := v }
  | .e => { s with e := v }
  | .xh => s.setHalf x .hi v
  | .xl => s.setHalf x .lo v
  | .a => { s with a := v }

/-! ## Register pairs -/

/-- BC = B:C (00_scope.md R11). -/
def State.bc (s : State) : Word := join s.b s.c
/-- DE = D:E. -/
def State.de (s : State) : Word := join s.d s.e
/-- HL = H:L. -/
def State.hl (s : State) : Word := join s.h s.l
/-- AF = A:F. -/
def State.af (s : State) : Word := join s.a s.f

/-- `BC <- w`: "writing a pair writes both halves" (00_scope.md R11). -/
def State.setBc (s : State) (w : Word) : State := { s with b := hi w, c := lo w }
/-- `DE <- w`. -/
def State.setDe (s : State) (w : Word) : State := { s with d := hi w, e := lo w }
/-- `HL <- w`. -/
def State.setHl (s : State) (w : Word) : State := { s with h := hi w, l := lo w }
/-- `AF <- w`. -/
def State.setAf (s : State) (w : Word) : State := { s with a := hi w, f := lo w }

/-- `rr[RR]` (30_encoding.md R118). -/
def State.pair (s : State) : Pair → Word
  | .bc => s.bc
  | .de => s.de
  | .hl => s.hl
  | .sp => s.sp

/-- `rr[RR] <- w` (30_encoding.md R118). -/
def State.setPair (s : State) (q : Pair) (w : Word) : State :=
  match q with
  | .bc => s.setBc w
  | .de => s.setDe w
  | .hl => s.setHl w
  | .sp => { s with sp := w }

/-- `rr[RR]` under DD or FD (30_encoding.md R118). -/
def State.pairX (s : State) (x : Index) : PairX → Word
  | .bc => s.bc
  | .de => s.de
  | .xy => s.index x
  | .sp => s.sp

/-- `rs[RS]` (30_encoding.md R119). -/
def State.stackPair (s : State) : StackPair → Word
  | .bc => s.bc
  | .de => s.de
  | .hl => s.hl

/-- `rs[RS] <- w` (30_encoding.md R119). -/
def State.setStackPair (s : State) (q : StackPair) (w : Word) : State :=
  match q with
  | .bc => s.setBc w
  | .de => s.setDe w
  | .hl => s.setHl w

/-! ## Effective address, condition, A and F -/

/-- `(IX + sext_16(s)) mod 65536` and the same for IY (30_encoding.md R114 b). -/
def State.ea (s : State) (x : Index) (o : Byte) : Word := s.index x + sext16 o

/-- The condition table (30_encoding.md R125), as a function of F. -/
def holds (f : Byte) : Cond → Bool
  | .nz => !flagZ f
  | .z => flagZ f
  | .nc => !flagC f
  | .c => flagC f
  | .po => !flagPV f
  | .pe => flagPV f
  | .p => !flagS f
  | .m => flagS f

/-- `cond(c)` (30_encoding.md R125). -/
def State.cond (s : State) (cc : Cond) : Bool := holds s.f cc

/-- The condition of JR cc as a full condition: "the low two bits of the full condition code" (30_encoding.md
R120). -/
def condOfJr : Cond4 → Cond
  | .nz => .nz
  | .z => .z
  | .nc => .nc
  | .c => .c

/-- `(A, F) <- (v, f)`. -/
def State.setAF (s : State) (vf : Byte × Byte) : State := { s with a := vf.1, f := vf.2 }

/-- `(HL, F) <- (w, f)`. -/
def State.setHlF (s : State) (wf : Word × Byte) : State := { s.setHl wf.1 with f := wf.2 }

end Sys2Proof.Machine
end

