-- ==== Sys2Proof/Machine/Alu16.lean ====
section
/-! DEFINITION. The meanings of 16-bit arithmetic (43_alu16.md). Each acts on the state `t` that the fetch leaves. -/

namespace Sys2Proof.Machine

/-- The flags of ADD HL/IX/IY,RR, `g` those of the 16-bit sum (43_alu16.md R323). -/
def State.addKeep (s : State) (g : Byte) : State := { s with f := add16KeepFlags g s.f }

/-- `ADD HL,RR` (43_alu16.md R323). -/
def execAddHlRr (q : Pair) (s : State) : Result :=
  let t := s.begin 1 1
  .next ((t.setHl (add16 t.hl (t.pair q) false).1).addKeep (add16 t.hl (t.pair q) false).2)

/-- `INC RR` (43_alu16.md R328). -/
def execIncRr (p : Pfx) (q : Pair) (s : State) : Result :=
  let t := s.beginP p 1
  .next (t.setPair q (t.pair q + 1))

/-- `DEC RR` (43_alu16.md R329). -/
def execDecRr (p : Pfx) (q : Pair) (s : State) : Result :=
  let t := s.beginP p 1
  .next (t.setPair q (t.pair q - 1))

/-- `SBC HL,RR` (43_alu16.md R327). -/
def execSbcHlRr (q : Pair) (s : State) : Result :=
  let t := s.begin 2 2
  .next (t.setHlF (sbc16 t.hl (t.pair q) (flagC t.f)))

/-- `ADC HL,RR` (43_alu16.md R326). -/
def execAdcHlRr (q : Pair) (s : State) : Result :=
  let t := s.begin 2 2
  .next (t.setHlF (add16 t.hl (t.pair q) (flagC t.f)))

/-- `ADD IX,RR` (43_alu16.md R324). -/
def execAddIxRr (q : PairX) (s : State) : Result :=
  let t := s.begin 2 2
  .next ({ t.addKeep (add16 t.ix (t.pairX .ix q) false).2 with ix := (add16 t.ix (t.pairX .ix q) false).1 })

/-- `INC IX` (43_alu16.md R328). -/
def execIncIx16 (s : State) : Result :=
  let t := s.begin 2 2
  .next ({ t with ix := t.ix + 1 })

/-- `DEC IX` (43_alu16.md R329). -/
def execDecIx16 (s : State) : Result :=
  let t := s.begin 2 2
  .next ({ t with ix := t.ix - 1 })

/-- `ADD IY,RR` (43_alu16.md R325). -/
def execAddIyRr (q : PairX) (s : State) : Result :=
  let t := s.begin 2 2
  .next ({ t.addKeep (add16 t.iy (t.pairX .iy q) false).2 with iy := (add16 t.iy (t.pairX .iy q) false).1 })

/-- `INC IY` (43_alu16.md R328). -/
def execIncIy16 (s : State) : Result :=
  let t := s.begin 2 2
  .next ({ t with iy := t.iy + 1 })

/-- `DEC IY` (43_alu16.md R329). -/
def execDecIy16 (s : State) : Result :=
  let t := s.begin 2 2
  .next ({ t with iy := t.iy - 1 })

end Sys2Proof.Machine
end

