-- ==== Sys2Proof/Machine/Alu8.lean ====
section
/-! DEFINITION. The meanings of 8-bit arithmetic and logic (42_alu8.md). Each acts on the state `t` that the fetch leaves. -/

namespace Sys2Proof.Machine

/-- `(A, F) <- add8(A, x, 0)` (42_alu8.md R260). -/
def State.addA (s : State) (x : Byte) : State := s.setAF (add8 s.a x false)
/-- `(A, F) <- add8(A, x, F.C)` (42_alu8.md R264). -/
def State.adcA (s : State) (x : Byte) : State := s.setAF (add8 s.a x (flagC s.f))
/-- `(A, F) <- sub8(A, x, 0)` (42_alu8.md R270). -/
def State.subA (s : State) (x : Byte) : State := s.setAF (sub8 s.a x false)
/-- `(A, F) <- sub8(A, x, F.C)` (42_alu8.md R274). -/
def State.sbcA (s : State) (x : Byte) : State := s.setAF (sub8 s.a x (flagC s.f))
/-- `(A, F) <- and8(A, x)` (42_alu8.md R285). -/
def State.andA (s : State) (x : Byte) : State := s.setAF (and8 s.a x)
/-- `(A, F) <- xor8(A, x)` (42_alu8.md R293). -/
def State.xorA (s : State) (x : Byte) : State := s.setAF (xor8 s.a x)
/-- `(A, F) <- or8(A, x)` (42_alu8.md R289). -/
def State.orA (s : State) (x : Byte) : State := s.setAF (or8 s.a x)
/-- `F <- cp8(A, x)`, A is not written (42_alu8.md R280). -/
def State.cpA (s : State) (x : Byte) : State := { s with f := cp8 s.a x }

/-- INC r and DEC r with `g` one of inc8, dec8 (42_alu8.md R297, R300). -/
def State.stepReg8 (s : State) (g : Byte → Byte → Byte × Byte) (r : Reg8) : State :=
  { s.setReg8 r (g (s.reg8 r) s.f).1 with f := (g (s.reg8 r) s.f).2 }

/-- INC and DEC of an index half (42_alu8.md R297, R300). -/
def State.stepHalf (s : State) (g : Byte → Byte → Byte × Byte) (x : Index) (hf : Half) : State :=
  { s.setHalf x hf (g (s.half x hf) s.f).1 with f := (g (s.half x hf) s.f).2 }

/-- INC and DEC of the byte at `a`: F is written even when the write is dropped (42_alu8.md R298, R301). -/
def State.stepMem (s : State) (g : Byte → Byte → Byte × Byte) (a : Word) : State :=
  { s.memWrite a (g (s.memRead a) s.f).1 with f := (g (s.memRead a) s.f).2 }

/-- `INC r` (42_alu8.md R297). -/
def execIncR (p : Pfx) (r : Reg8) (s : State) : Result :=
  let t := s.beginP p 1
  .next (t.stepReg8 inc8 r)

/-- `INC (HL)` (42_alu8.md R298). -/
def execIncMemHl (s : State) : Result :=
  let t := s.begin 1 1
  .next (t.stepMem inc8 t.hl)

/-- `DEC r` (42_alu8.md R300). -/
def execDecR (p : Pfx) (r : Reg8) (s : State) : Result :=
  let t := s.beginP p 1
  .next (t.stepReg8 dec8 r)

/-- `DEC (HL)` (42_alu8.md R301). -/
def execDecMemHl (s : State) : Result :=
  let t := s.begin 1 1
  .next (t.stepMem dec8 t.hl)

/-- `DAA` (42_alu8.md R306, the default DAA_FN). -/
def execDaa (p : Pfx) (s : State) : Result :=
  let t := s.beginP p 1
  .next (t.setAF (Sys2Proof.Machine.daa t.a t.f))

/-- `CPL` (42_alu8.md R303). -/
def execCpl (p : Pfx) (s : State) : Result :=
  let t := s.beginP p 1
  .next ({ t with a := t.a ^^^ 0xFF, f := cplFlags (t.a ^^^ 0xFF) t.f })

/-- `SCF` (42_alu8.md R307). -/
def execScf (p : Pfx) (s : State) : Result :=
  let t := s.beginP p 1
  .next ({ t with f := scfFlags t.a t.f })

/-- `CCF` (42_alu8.md R305). -/
def execCcf (p : Pfx) (s : State) : Result :=
  let t := s.beginP p 1
  .next ({ t with f := ccfFlags t.a t.f })

/-- `ADD A,r` (42_alu8.md R260). -/
def execAddR (p : Pfx) (r : Reg8) (s : State) : Result :=
  let t := s.beginP p 1
  .next (t.addA (t.reg8 r))

/-- `ADD A,(HL)` (42_alu8.md R262). -/
def execAddMemHl (s : State) : Result :=
  let t := s.begin 1 1
  .next (t.addA (t.memRead t.hl))

/-- `ADC A,r` (42_alu8.md R264). -/
def execAdcR (p : Pfx) (r : Reg8) (s : State) : Result :=
  let t := s.beginP p 1
  .next (t.adcA (t.reg8 r))

/-- `ADC A,(HL)` (42_alu8.md R266). -/
def execAdcMemHl (s : State) : Result :=
  let t := s.begin 1 1
  .next (t.adcA (t.memRead t.hl))

/-- `SUB r` (42_alu8.md R270). -/
def execSubR (p : Pfx) (r : Reg8) (s : State) : Result :=
  let t := s.beginP p 1
  .next (t.subA (t.reg8 r))

/-- `SUB (HL)` (42_alu8.md R272). -/
def execSubMemHl (s : State) : Result :=
  let t := s.begin 1 1
  .next (t.subA (t.memRead t.hl))

/-- `SBC A,r` (42_alu8.md R274). -/
def execSbcR (p : Pfx) (r : Reg8) (s : State) : Result :=
  let t := s.beginP p 1
  .next (t.sbcA (t.reg8 r))

/-- `SBC A,(HL)` (42_alu8.md R276). -/
def execSbcMemHl (s : State) : Result :=
  let t := s.begin 1 1
  .next (t.sbcA (t.memRead t.hl))

/-- `AND r` (42_alu8.md R285). -/
def execAndR (p : Pfx) (r : Reg8) (s : State) : Result :=
  let t := s.beginP p 1
  .next (t.andA (t.reg8 r))

/-- `AND (HL)` (42_alu8.md R287). -/
def execAndMemHl (s : State) : Result :=
  let t := s.begin 1 1
  .next (t.andA (t.memRead t.hl))

/-- `XOR r` (42_alu8.md R293). -/
def execXorR (p : Pfx) (r : Reg8) (s : State) : Result :=
  let t := s.beginP p 1
  .next (t.xorA (t.reg8 r))

/-- `XOR (HL)` (42_alu8.md R295). -/
def execXorMemHl (s : State) : Result :=
  let t := s.begin 1 1
  .next (t.xorA (t.memRead t.hl))

/-- `OR r` (42_alu8.md R289). -/
def execOrR (p : Pfx) (r : Reg8) (s : State) : Result :=
  let t := s.beginP p 1
  .next (t.orA (t.reg8 r))

/-- `OR (HL)` (42_alu8.md R291). -/
def execOrMemHl (s : State) : Result :=
  let t := s.begin 1 1
  .next (t.orA (t.memRead t.hl))

/-- `CP r` (42_alu8.md R280). -/
def execCpR (p : Pfx) (r : Reg8) (s : State) : Result :=
  let t := s.beginP p 1
  .next (t.cpA (t.reg8 r))

/-- `CP (HL)` (42_alu8.md R282). -/
def execCpMemHl (s : State) : Result :=
  let t := s.begin 1 1
  .next (t.cpA (t.memRead t.hl))

/-- `ADD A,N` (42_alu8.md R261). -/
def execAddN (p : Pfx) (n : Byte) (s : State) : Result :=
  let t := s.beginP p 2
  .next (t.addA n)

/-- `ADC A,N` (42_alu8.md R265). -/
def execAdcN (p : Pfx) (n : Byte) (s : State) : Result :=
  let t := s.beginP p 2
  .next (t.adcA n)

/-- `SUB N` (42_alu8.md R271). -/
def execSubN (p : Pfx) (n : Byte) (s : State) : Result :=
  let t := s.beginP p 2
  .next (t.subA n)

/-- `SBC A,N` (42_alu8.md R275). -/
def execSbcN (p : Pfx) (n : Byte) (s : State) : Result :=
  let t := s.beginP p 2
  .next (t.sbcA n)

/-- `AND N` (42_alu8.md R286). -/
def execAndN (p : Pfx) (n : Byte) (s : State) : Result :=
  let t := s.beginP p 2
  .next (t.andA n)

/-- `XOR N` (42_alu8.md R294). -/
def execXorN (p : Pfx) (n : Byte) (s : State) : Result :=
  let t := s.beginP p 2
  .next (t.xorA n)

/-- `OR N` (42_alu8.md R290). -/
def execOrN (p : Pfx) (n : Byte) (s : State) : Result :=
  let t := s.beginP p 2
  .next (t.orA n)

/-- `CP N` (42_alu8.md R281). -/
def execCpN (p : Pfx) (n : Byte) (s : State) : Result :=
  let t := s.beginP p 2
  .next (t.cpA n)

/-- `NEG` (42_alu8.md R304; `k` is the field of undefined bits (30_encoding.md R139)). -/
def execNeg (_k : BitVec 3) (s : State) : Result :=
  let t := s.begin 2 2
  .next (t.setAF (sub8 0 t.a false))

/-- `INC XH/XL` (42_alu8.md R297). -/
def execIncX (x : Half) (s : State) : Result :=
  let t := s.begin 2 2
  .next (t.stepHalf inc8 .ix x)

/-- `DEC XH/XL` (42_alu8.md R300). -/
def execDecX (x : Half) (s : State) : Result :=
  let t := s.begin 2 2
  .next (t.stepHalf dec8 .ix x)

/-- `INC (IX+s)` (42_alu8.md R299). -/
def execIncIx (o : Byte) (s : State) : Result :=
  let t := s.begin 3 2
  .next (t.stepMem inc8 (t.ea .ix o))

/-- `DEC (IX+s)` (42_alu8.md R302). -/
def execDecIx (o : Byte) (s : State) : Result :=
  let t := s.begin 3 2
  .next (t.stepMem dec8 (t.ea .ix o))

/-- `ADD A,XH/XL` (42_alu8.md R260). -/
def execAddX (x : Half) (s : State) : Result :=
  let t := s.begin 2 2
  .next (t.addA (t.half .ix x))

/-- `ADD A,(IX+s)` (42_alu8.md R263). -/
def execAddIx (o : Byte) (s : State) : Result :=
  let t := s.begin 3 2
  .next (t.addA (t.memRead (t.ea .ix o)))

/-- `ADC A,XH/XL` (42_alu8.md R264). -/
def execAdcX (x : Half) (s : State) : Result :=
  let t := s.begin 2 2
  .next (t.adcA (t.half .ix x))

/-- `ADC A,(IX+s)` (42_alu8.md R267). -/
def execAdcIx (o : Byte) (s : State) : Result :=
  let t := s.begin 3 2
  .next (t.adcA (t.memRead (t.ea .ix o)))

/-- `SUB XH/XL` (42_alu8.md R270). -/
def execSubX (x : Half) (s : State) : Result :=
  let t := s.begin 2 2
  .next (t.subA (t.half .ix x))

/-- `SUB (IX+s)` (42_alu8.md R273). -/
def execSubIx (o : Byte) (s : State) : Result :=
  let t := s.begin 3 2
  .next (t.subA (t.memRead (t.ea .ix o)))

/-- `SBC A,XH/XL` (42_alu8.md R274). -/
def execSbcX (x : Half) (s : State) : Result :=
  let t := s.begin 2 2
  .next (t.sbcA (t.half .ix x))

/-- `SBC A,(IX+s)` (42_alu8.md R277). -/
def execSbcIx (o : Byte) (s : State) : Result :=
  let t := s.begin 3 2
  .next (t.sbcA (t.memRead (t.ea .ix o)))

/-- `AND XH/XL` (42_alu8.md R285). -/
def execAndX (x : Half) (s : State) : Result :=
  let t := s.begin 2 2
  .next (t.andA (t.half .ix x))

/-- `AND (IX+s)` (42_alu8.md R288). -/
def execAndIx (o : Byte) (s : State) : Result :=
  let t := s.begin 3 2
  .next (t.andA (t.memRead (t.ea .ix o)))

/-- `XOR XH/XL` (42_alu8.md R293). -/
def execXorX (x : Half) (s : State) : Result :=
  let t := s.begin 2 2
  .next (t.xorA (t.half .ix x))

/-- `XOR (IX+s)` (42_alu8.md R296). -/
def execXorIx (o : Byte) (s : State) : Result :=
  let t := s.begin 3 2
  .next (t.xorA (t.memRead (t.ea .ix o)))

/-- `OR XH/XL` (42_alu8.md R289). -/
def execOrX (x : Half) (s : State) : Result :=
  let t := s.begin 2 2
  .next (t.orA (t.half .ix x))

/-- `OR (IX+s)` (42_alu8.md R292). -/
def execOrIx (o : Byte) (s : State) : Result :=
  let t := s.begin 3 2
  .next (t.orA (t.memRead (t.ea .ix o)))

/-- `CP XH/XL` (42_alu8.md R280). -/
def execCpX (x : Half) (s : State) : Result :=
  let t := s.begin 2 2
  .next (t.cpA (t.half .ix x))

/-- `CP (IX+s)` (42_alu8.md R283). -/
def execCpIx (o : Byte) (s : State) : Result :=
  let t := s.begin 3 2
  .next (t.cpA (t.memRead (t.ea .ix o)))

/-- `INC YH/YL` (42_alu8.md R297). -/
def execIncY (x : Half) (s : State) : Result :=
  let t := s.begin 2 2
  .next (t.stepHalf inc8 .iy x)

/-- `DEC YH/YL` (42_alu8.md R300). -/
def execDecY (x : Half) (s : State) : Result :=
  let t := s.begin 2 2
  .next (t.stepHalf dec8 .iy x)

/-- `INC (IY+s)` (42_alu8.md R299). -/
def execIncIy (o : Byte) (s : State) : Result :=
  let t := s.begin 3 2
  .next (t.stepMem inc8 (t.ea .iy o))

/-- `DEC (IY+s)` (42_alu8.md R302). -/
def execDecIy (o : Byte) (s : State) : Result :=
  let t := s.begin 3 2
  .next (t.stepMem dec8 (t.ea .iy o))

/-- `ADD A,YH/YL` (42_alu8.md R260). -/
def execAddY (x : Half) (s : State) : Result :=
  let t := s.begin 2 2
  .next (t.addA (t.half .iy x))

/-- `ADD A,(IY+s)` (42_alu8.md R263). -/
def execAddIy (o : Byte) (s : State) : Result :=
  let t := s.begin 3 2
  .next (t.addA (t.memRead (t.ea .iy o)))

/-- `ADC A,YH/YL` (42_alu8.md R264). -/
def execAdcY (x : Half) (s : State) : Result :=
  let t := s.begin 2 2
  .next (t.adcA (t.half .iy x))

/-- `ADC A,(IY+s)` (42_alu8.md R267). -/
def execAdcIy (o : Byte) (s : State) : Result :=
  let t := s.begin 3 2
  .next (t.adcA (t.memRead (t.ea .iy o)))

/-- `SUB YH/YL` (42_alu8.md R270). -/
def execSubY (x : Half) (s : State) : Result :=
  let t := s.begin 2 2
  .next (t.subA (t.half .iy x))

/-- `SUB (IY+s)` (42_alu8.md R273). -/
def execSubIy (o : Byte) (s : State) : Result :=
  let t := s.begin 3 2
  .next (t.subA (t.memRead (t.ea .iy o)))

/-- `SBC A,YH/YL` (42_alu8.md R274). -/
def execSbcY (x : Half) (s : State) : Result :=
  let t := s.begin 2 2
  .next (t.sbcA (t.half .iy x))

/-- `SBC A,(IY+s)` (42_alu8.md R277). -/
def execSbcIy (o : Byte) (s : State) : Result :=
  let t := s.begin 3 2
  .next (t.sbcA (t.memRead (t.ea .iy o)))

/-- `AND YH/YL` (42_alu8.md R285). -/
def execAndY (x : Half) (s : State) : Result :=
  let t := s.begin 2 2
  .next (t.andA (t.half .iy x))

/-- `AND (IY+s)` (42_alu8.md R288). -/
def execAndIy (o : Byte) (s : State) : Result :=
  let t := s.begin 3 2
  .next (t.andA (t.memRead (t.ea .iy o)))

/-- `XOR YH/YL` (42_alu8.md R293). -/
def execXorY (x : Half) (s : State) : Result :=
  let t := s.begin 2 2
  .next (t.xorA (t.half .iy x))

/-- `XOR (IY+s)` (42_alu8.md R296). -/
def execXorIy (o : Byte) (s : State) : Result :=
  let t := s.begin 3 2
  .next (t.xorA (t.memRead (t.ea .iy o)))

/-- `OR YH/YL` (42_alu8.md R289). -/
def execOrY (x : Half) (s : State) : Result :=
  let t := s.begin 2 2
  .next (t.orA (t.half .iy x))

/-- `OR (IY+s)` (42_alu8.md R292). -/
def execOrIy (o : Byte) (s : State) : Result :=
  let t := s.begin 3 2
  .next (t.orA (t.memRead (t.ea .iy o)))

/-- `CP YH/YL` (42_alu8.md R280). -/
def execCpY (x : Half) (s : State) : Result :=
  let t := s.begin 2 2
  .next (t.cpA (t.half .iy x))

/-- `CP (IY+s)` (42_alu8.md R283). -/
def execCpIy (o : Byte) (s : State) : Result :=
  let t := s.begin 3 2
  .next (t.cpA (t.memRead (t.ea .iy o)))

end Sys2Proof.Machine
end

