-- ==== Sys2Proof/Machine/Bit.lean ====
section
/-! DEFINITION. The meanings of SET, RES and BIT (46_bit.md). Each acts on the state `t` that the fetch leaves. -/

namespace Sys2Proof.Machine

/-- The byte with bit `b` set (46_bit.md R420). -/
def setBit (b : BitVec 3) (v : Byte) : Byte := v ||| bitMask b
/-- The byte with bit `b` cleared (46_bit.md R424). -/
def resBit (b : BitVec 3) (v : Byte) : Byte := v &&& ~~~(bitMask b)
/-- The tested bit (46_bit.md R427). -/
def testedBit (b : BitVec 3) (v : Byte) : Bool := v.getLsbD b.toNat

/-- The complex form: the byte goes to memory and to a register (46_bit.md R430, 45_rotate_shift.md R412). -/
def State.storeBoth (s : State) (a : Word) (r : Reg8) (v : Byte) : State := (s.memWrite a v).setReg8 r v

/-- BIT b,r: flags 5 and 3 are bits 5 and 3 of `v & (1 << b)` (46_bit.md R427). -/
def State.testBitReg (s : State) (b : BitVec 3) (v : Byte) : State :=
  { s with f := bitFlags (testedBit b v) b (b == 5 && testedBit b v) (b == 3 && testedBit b v) s.f }

/-- TEMP at the moment it is read: any value, a free value (`TEMP_MODEL`, 10_state.md R49, log 10). -/
def State.readTemp (s : State) : State := { s.drawn with temp := Config.tempValue s.draws }

/-- BIT b,(HL): flags 5 and 3 from TEMP (46_bit.md R428). -/
def State.testBitTemp (s : State) (b : BitVec 3) (v : Byte) : State :=
  { s with f := bitFlags (testedBit b v) b (s.temp.getLsbD 5) (s.temp.getLsbD 3) s.f }

/-- TEMP after BIT b,(IX+s): bits 5 and 3 are those of the high byte of the address, the others any value
(10_state.md R49, 46_bit.md R429, log 10). -/
def tempOfAddress (a : Word) (other : Byte) : Byte := (hi a &&& 0x28) ||| (other &&& 0xD7)

/-- BIT b,(IX+s): flags 5 and 3 from the high byte of the address `a` (46_bit.md R429). -/
def State.testBitIndexed (s : State) (b : BitVec 3) (a : Word) : State :=
  { s.drawn with
    temp := tempOfAddress a (Config.tempValue s.draws)
    f := bitFlags (testedBit b (s.memRead a)) b (a.getLsbD 13) (a.getLsbD 11) s.f }

/-- `BIT b,r` (46_bit.md R427). -/
def execBitR (b : BitVec 3) (r : Reg8) (s : State) : Result :=
  let t := s.begin 2 2
  .next (t.testBitReg b (t.reg8 r))

/-- `BIT b,(HL)` (46_bit.md R428: flags 5 and 3 from TEMP, which is a free value (log 10)). -/
def execBitMemHl (b : BitVec 3) (s : State) : Result :=
  let t := s.begin 2 2
  .next (t.readTemp.testBitTemp b (t.memRead t.hl))

/-- `RES b,r` (46_bit.md R424). -/
def execResR (b : BitVec 3) (r : Reg8) (s : State) : Result :=
  let t := s.begin 2 2
  .next (t.setReg8 r (resBit b (t.reg8 r)))

/-- `RES b,(HL)` (46_bit.md R425). -/
def execResMemHl (b : BitVec 3) (s : State) : Result :=
  let t := s.begin 2 2
  .next (t.memWrite t.hl (resBit b (t.memRead t.hl)))

/-- `SET b,r` (46_bit.md R420). -/
def execSetR (b : BitVec 3) (r : Reg8) (s : State) : Result :=
  let t := s.begin 2 2
  .next (t.setReg8 r (setBit b (t.reg8 r)))

/-- `SET b,(HL)` (46_bit.md R421). -/
def execSetMemHl (b : BitVec 3) (s : State) : Result :=
  let t := s.begin 2 2
  .next (t.memWrite t.hl (setBit b (t.memRead t.hl)))

/-- `BIT b,(IX+s)` (46_bit.md R429; `k` is the field of any value (30_encoding.md R140)). -/
def execBitIx (b : BitVec 3) (_k : BitVec 3) (o : Byte) (s : State) : Result :=
  let t := s.begin 4 2
  .next (t.testBitIndexed b (t.ea .ix o))

/-- `RES b,(IX+s)` (46_bit.md R426). -/
def execResIx (b : BitVec 3) (o : Byte) (s : State) : Result :=
  let t := s.begin 4 2
  .next (t.memWrite (t.ea .ix o) (resBit b (t.memRead (t.ea .ix o))))

/-- `RES b,r,(IX+s)` (46_bit.md R431, 45_rotate_shift.md R412). -/
def execResRIx (b : BitVec 3) (r : Reg8) (o : Byte) (s : State) : Result :=
  let t := s.begin 4 2
  .next (t.storeBoth (t.ea .ix o) r (resBit b (t.memRead (t.ea .ix o))))

/-- `SET b,(IX+s)` (46_bit.md R422). -/
def execSetIx (b : BitVec 3) (o : Byte) (s : State) : Result :=
  let t := s.begin 4 2
  .next (t.memWrite (t.ea .ix o) (setBit b (t.memRead (t.ea .ix o))))

/-- `SET b,r,(IX+s)` (46_bit.md R430, 45_rotate_shift.md R412). -/
def execSetRIx (b : BitVec 3) (r : Reg8) (o : Byte) (s : State) : Result :=
  let t := s.begin 4 2
  .next (t.storeBoth (t.ea .ix o) r (setBit b (t.memRead (t.ea .ix o))))

/-- `BIT b,(IY+s)` (46_bit.md R429; `k` is the field of any value (30_encoding.md R140)). -/
def execBitIy (b : BitVec 3) (_k : BitVec 3) (o : Byte) (s : State) : Result :=
  let t := s.begin 4 2
  .next (t.testBitIndexed b (t.ea .iy o))

/-- `RES b,(IY+s)` (46_bit.md R426). -/
def execResIy (b : BitVec 3) (o : Byte) (s : State) : Result :=
  let t := s.begin 4 2
  .next (t.memWrite (t.ea .iy o) (resBit b (t.memRead (t.ea .iy o))))

/-- `RES b,r,(IY+s)` (46_bit.md R431, 45_rotate_shift.md R412). -/
def execResRIy (b : BitVec 3) (r : Reg8) (o : Byte) (s : State) : Result :=
  let t := s.begin 4 2
  .next (t.storeBoth (t.ea .iy o) r (resBit b (t.memRead (t.ea .iy o))))

/-- `SET b,(IY+s)` (46_bit.md R422). -/
def execSetIy (b : BitVec 3) (o : Byte) (s : State) : Result :=
  let t := s.begin 4 2
  .next (t.memWrite (t.ea .iy o) (setBit b (t.memRead (t.ea .iy o))))

/-- `SET b,r,(IY+s)` (46_bit.md R430, 45_rotate_shift.md R412). -/
def execSetRIy (b : BitVec 3) (r : Reg8) (o : Byte) (s : State) : Result :=
  let t := s.begin 4 2
  .next (t.storeBoth (t.ea .iy o) r (setBit b (t.memRead (t.ea .iy o))))

end Sys2Proof.Machine
end

