-- ==== Sys2Proof/Machine/Block.lean ====
section
/-! DEFINITION. The meanings of block transfer and search (47_block.md). Each acts on the state `t` that the fetch leaves. -/

namespace Sys2Proof.Machine

/-- `ld_step(d)`: the byte at HL goes to DE, the pointers step by `d`, BC counts down, F (47_block.md R445). -/
def State.ldStep (s : State) (step : Word) : State :=
  { (((s.memWrite s.de (s.memRead s.hl)).setHl (s.hl + step)).setDe (s.de + step)).setBc (s.bc - 1) with
    f := blockLdFlags (s.memRead s.hl) s.a (s.bc - 1) s.f }

/-- `cp_step(d)`: A is compared with the byte at HL, HL steps by `d`, BC counts down, F (47_block.md R450). -/
def State.cpStep (s : State) (step : Word) : State :=
  { (s.setHl (s.hl + step)).setBc (s.bc - 1) with f := blockCpFlags s.a (s.memRead s.hl) (s.bc - 1) s.f }

/-- `if BC != 0 then PC <- pc0` after the element step (47_block.md R443). -/
def State.repeatWhileBc (s : State) : State := if s.bc ≠ 0 then s.again 2 else s

/-- `if BC != 0 and F.Z == 0 then PC <- pc0` after the element step (47_block.md R448). -/
def State.repeatWhileBcNotZ (s : State) : State := if s.bc ≠ 0 ∧ flagZ s.f = false then s.again 2 else s

/-- `LDI` (47_block.md R441). -/
def execLdi (s : State) : Result :=
  let t := s.begin 2 2
  .next (t.ldStep 1)

/-- `LDD` (47_block.md R442). -/
def execLdd (s : State) : Result :=
  let t := s.begin 2 2
  .next (t.ldStep (-1))

/-- `LDIR` (47_block.md R443). -/
def execLdir (s : State) : Result :=
  let t := s.begin 2 2
  .next ((t.ldStep 1).repeatWhileBc)

/-- `LDDR` (47_block.md R444). -/
def execLddr (s : State) : Result :=
  let t := s.begin 2 2
  .next ((t.ldStep (-1)).repeatWhileBc)

/-- `CPI` (47_block.md R446). -/
def execCpi (s : State) : Result :=
  let t := s.begin 2 2
  .next (t.cpStep 1)

/-- `CPD` (47_block.md R447). -/
def execCpd (s : State) : Result :=
  let t := s.begin 2 2
  .next (t.cpStep (-1))

/-- `CPIR` (47_block.md R448). -/
def execCpir (s : State) : Result :=
  let t := s.begin 2 2
  .next ((t.cpStep 1).repeatWhileBcNotZ)

/-- `CPDR` (47_block.md R449). -/
def execCpdr (s : State) : Result :=
  let t := s.begin 2 2
  .next ((t.cpStep (-1)).repeatWhileBcNotZ)

end Sys2Proof.Machine
end

