-- ==== Sys2Proof/Machine/Control.lean ====
section
/-! DEFINITION. The meanings of jumps, calls and returns (44_control.md). Each acts on the state `t` that the fetch leaves. -/

namespace Sys2Proof.Machine

/-- A relative jump: PC is already past the displacement byte (30_encoding.md R114 a, R134). -/
def State.jumpRelative (s : State) (o : Byte) : State := s.jump (s.pc + sext16 o)

/-- `push16(next); PC <- target` (44_control.md R348). -/
def State.call (s : State) (target : Word) : State := (s.push16 s.pc).jump target

/-- `DJNZ s` (44_control.md R346). -/
def execDjnz (p : Pfx) (o : Byte) (s : State) : Result :=
  let t := s.beginP p 2
  .next (if t.b - 1 ≠ 0 then { t with b := t.b - 1 }.jumpRelative o else { t with b := t.b - 1 })

/-- `JR s` (44_control.md R344; under a prefix the base is the address after the displacement byte
(30_encoding.md R134)). -/
def execJr (p : Pfx) (o : Byte) (s : State) : Result :=
  let t := s.beginP p 2
  .next (t.jumpRelative o)

/-- `JR cc,s` (44_control.md R345). -/
def execJrCc (p : Pfx) (cc : Cond4) (o : Byte) (s : State) : Result :=
  let t := s.beginP p 2
  .next (if t.cond (condOfJr cc) then t.jumpRelative o else t)

/-- `RET c` (44_control.md R352). -/
def execRetC (p : Pfx) (cc : Cond) (s : State) : Result :=
  let t := s.beginP p 1
  .next (if t.cond cc then t.ret else t)

/-- `RET` (44_control.md R351). -/
def execRet (p : Pfx) (s : State) : Result :=
  let t := s.beginP p 1
  .next (t.ret)

/-- `JP (HL)` (44_control.md R341: no memory is read). -/
def execJpHl (s : State) : Result :=
  let t := s.begin 1 1
  .next (t.jump t.hl)

/-- `JP c,NN` (44_control.md R343). -/
def execJpCNn (p : Pfx) (cc : Cond) (nn : Word) (s : State) : Result :=
  let t := s.beginP p 3
  .next (if t.cond cc then t.jump nn else t)

/-- `JP NN` (44_control.md R340). -/
def execJpNn (p : Pfx) (nn : Word) (s : State) : Result :=
  let t := s.beginP p 3
  .next (t.jump nn)

/-- `CALL c,NN` (44_control.md R349). -/
def execCallCNn (p : Pfx) (cc : Cond) (nn : Word) (s : State) : Result :=
  let t := s.beginP p 3
  .next (if t.cond cc then t.call nn else t)

/-- `CALL NN` (44_control.md R348). -/
def execCallNn (p : Pfx) (nn : Word) (s : State) : Result :=
  let t := s.beginP p 3
  .next (t.call nn)

/-- `RST p` (44_control.md R350; `v` is the field ppp). -/
def execRst (p : Pfx) (v : BitVec 3) (s : State) : Result :=
  let t := s.beginP p 1
  .next (t.call (rstTarget v))

/-- `JP (IX)` (44_control.md R341: no memory is read). -/
def execJpIx (s : State) : Result :=
  let t := s.begin 2 2
  .next (t.jump t.ix)

/-- `JP (IY)` (44_control.md R341: no memory is read). -/
def execJpIy (s : State) : Result :=
  let t := s.begin 2 2
  .next (t.jump t.iy)

end Sys2Proof.Machine
end

