-- ==== Sys2Proof/Machine/Io.lean ====
section
/-! DEFINITION. The meanings of input and output (48_io.md). Each acts on the state `t` that the fetch leaves. -/

namespace Sys2Proof.Machine

/-- The read of port BC by IN r,(C) and INF, with the flags from the byte (48_io.md R461, R462). -/
def State.portInFlags (s : State) : State :=
  { s.portRead s.bc with f := byteFlagsKeepC (s.portByte s.bc) s.f }

/-- The step of INI and IND: the byte of port BC goes to (HL), HL steps, B counts down; F is a free value
(48_io.md R464, R471, log 9). -/
def State.inStep (s : State) (step : Word) : State :=
  { (((s.portRead s.bc).memWrite s.hl (s.portByte s.bc)).setHl (s.hl + step)).drawn with
    b := s.b - 1
    f := Config.blockIoFlags s.draws }

/-- The step of OTI and OTD: the byte at HL goes to port BC, HL steps, B counts down; F is a free value but for
N = 1 (48_io.md R472, R471, log 9). -/
def State.outStep (s : State) (step : Word) : State :=
  { ((s.portWrite s.bc (s.memRead s.hl)).setHl (s.hl + step)).drawn with
    b := s.b - 1
    f := Config.blockIoFlags s.draws ||| 0x02 }

/-- `if B != 0 then PC <- pc0` after the step (48_io.md R463, R466). -/
def State.repeatWhileB (s : State) : State := if s.b ≠ 0 then s.again 2 else s

/-- `OUT (N),A` (48_io.md R468). -/
def execOutNA (p : Pfx) (n : Byte) (s : State) : Result :=
  let t := s.beginP p 2
  .next (t.portWrite (join t.a n) t.a)

/-- `IN A,(N)` (48_io.md R460). -/
def execInAN (p : Pfx) (n : Byte) (s : State) : Result :=
  let t := s.beginP p 2
  .next ({ t.portRead (join t.a n) with a := t.portByte (join t.a n) })

/-- `IN r,(C)` (48_io.md R461). -/
def execInRC (r : Reg8) (s : State) : Result :=
  let t := s.begin 2 2
  .next (t.portInFlags.setReg8 r (t.portByte t.bc))

/-- `INF` (48_io.md R462: the byte is stored nowhere). -/
def execInf (s : State) : Result :=
  let t := s.begin 2 2
  .next (t.portInFlags)

/-- `OUT (C),r` (48_io.md R469). -/
def execOutCR (r : Reg8) (s : State) : Result :=
  let t := s.begin 2 2
  .next (t.portWrite t.bc (t.reg8 r))

/-- `OUTF` (48_io.md R470). -/
def execOutf (s : State) : Result :=
  let t := s.begin 2 2
  .next (t.portWrite t.bc Config.outfValue)

/-- `INI` (48_io.md R464, R463, R471). -/
def execIni (s : State) : Result :=
  let t := s.begin 2 2
  .next (t.inStep 1)

/-- `IND` (48_io.md R465, R463, R471). -/
def execInd (s : State) : Result :=
  let t := s.begin 2 2
  .next (t.inStep (-1))

/-- `INIR` (48_io.md R466, R463, R471). -/
def execInir (s : State) : Result :=
  let t := s.begin 2 2
  .next ((t.inStep 1).repeatWhileB)

/-- `INDR` (48_io.md R467, R463, R471). -/
def execIndr (s : State) : Result :=
  let t := s.begin 2 2
  .next ((t.inStep (-1)).repeatWhileB)

/-- `OTI` (48_io.md R472, R463, R471). -/
def execOti (s : State) : Result :=
  let t := s.begin 2 2
  .next (t.outStep 1)

/-- `OTD` (48_io.md R473, R463, R471). -/
def execOtd (s : State) : Result :=
  let t := s.begin 2 2
  .next (t.outStep (-1))

/-- `OTIR` (48_io.md R474, R463, R471). -/
def execOtir (s : State) : Result :=
  let t := s.begin 2 2
  .next ((t.outStep 1).repeatWhileB)

/-- `OTDR` (48_io.md R475, R463, R471). -/
def execOtdr (s : State) : Result :=
  let t := s.begin 2 2
  .next ((t.outStep (-1)).repeatWhileB)

end Sys2Proof.Machine
end

