-- ==== Sys2Proof/Machine/Load16.lean ====
section
/-! DEFINITION. The meanings of the 16-bit loads, exchanges, PUSH and POP (41_load16_exchange_stack.md). Each acts on the state `t` that the fetch leaves. -/

namespace Sys2Proof.Machine

/-- EXX: BC, DE, HL change places with BC', DE', HL' (41_load16_exchange_stack.md R215). -/
def State.swapBank (s : State) : State :=
  { s with b := s.b', c := s.c', d := s.d', e := s.e', h := s.h', l := s.l'
           b' := s.b, c' := s.c, d' := s.d, e' := s.e, h' := s.h, l' := s.l }

/-- The memory half of EX (SP),rr: the word takes the place of the word at SP, high byte first
(41_load16_exchange_stack.md R217, 20_memory.md R88 e). -/
def State.exchangeTop (s : State) (w : Word) : State := s.memWrite16HighFirst s.sp w

/-- `EX AF,AF'` (41_load16_exchange_stack.md R214). -/
def execExAfAf (p : Pfx) (s : State) : Result :=
  let t := s.beginP p 1
  .next ({ t with a := t.a', f := t.f', a' := t.a, f' := t.f })

/-- `LD RR,NN` (41_load16_exchange_stack.md R200). -/
def execLdRrNn (p : Pfx) (q : Pair) (nn : Word) (s : State) : Result :=
  let t := s.beginP p 3
  .next (t.setPair q nn)

/-- `LD (NN),HL` (41_load16_exchange_stack.md R206). -/
def execLdMemNnHl (nn : Word) (s : State) : Result :=
  let t := s.begin 3 1
  .next (t.memWrite16 nn t.hl)

/-- `LD HL,(NN)` (41_load16_exchange_stack.md R203). -/
def execLdHlMemNn (nn : Word) (s : State) : Result :=
  let t := s.begin 3 1
  .next (t.setHl (t.memRead16 nn))

/-- `POP RS` (41_load16_exchange_stack.md R224). -/
def execPopRs (p : Pfx) (q : StackPair) (s : State) : Result :=
  let t := s.beginP p 1
  .next (t.dropWord.setStackPair q t.topOfStack)

/-- `POP AF` (41_load16_exchange_stack.md R226). -/
def execPopAf (p : Pfx) (s : State) : Result :=
  let t := s.beginP p 1
  .next (t.dropWord.setAf t.topOfStack)

/-- `EXX` (41_load16_exchange_stack.md R215). -/
def execExx (p : Pfx) (s : State) : Result :=
  let t := s.beginP p 1
  .next (t.swapBank)

/-- `LD SP,HL` (41_load16_exchange_stack.md R210). -/
def execLdSpHl (s : State) : Result :=
  let t := s.begin 1 1
  .next ({ t with sp := t.hl })

/-- `EX (SP),HL` (41_load16_exchange_stack.md R217). -/
def execExSpHl (s : State) : Result :=
  let t := s.begin 1 1
  .next ((t.exchangeTop t.hl).setHl t.topOfStack)

/-- `EX DE,HL` (41_load16_exchange_stack.md R216). -/
def execExDeHl (p : Pfx) (s : State) : Result :=
  let t := s.beginP p 1
  .next ({ t with d := t.h, e := t.l, h := t.d, l := t.e })

/-- `PUSH RS` (41_load16_exchange_stack.md R220). -/
def execPushRs (p : Pfx) (q : StackPair) (s : State) : Result :=
  let t := s.beginP p 1
  .next (t.push16 (t.stackPair q))

/-- `PUSH AF` (41_load16_exchange_stack.md R221). -/
def execPushAf (p : Pfx) (s : State) : Result :=
  let t := s.beginP p 1
  .next (t.push16 t.af)

/-- `LD (NN),RR` (41_load16_exchange_stack.md R207). -/
def execLdMemNnRr (q : Pair) (nn : Word) (s : State) : Result :=
  let t := s.begin 4 2
  .next (t.memWrite16 nn (t.pair q))

/-- `LD RR,(NN)` (41_load16_exchange_stack.md R204). -/
def execLdRrMemNn (q : Pair) (nn : Word) (s : State) : Result :=
  let t := s.begin 4 2
  .next (t.setPair q (t.memRead16 nn))

/-- `LD IX,NN` (41_load16_exchange_stack.md R202). -/
def execLdIxNn (nn : Word) (s : State) : Result :=
  let t := s.begin 4 2
  .next ({ t with ix := nn })

/-- `LD (NN),IX` (41_load16_exchange_stack.md R208). -/
def execLdMemNnIx (nn : Word) (s : State) : Result :=
  let t := s.begin 4 2
  .next (t.memWrite16 nn t.ix)

/-- `LD IX,(NN)` (41_load16_exchange_stack.md R205). -/
def execLdIxMemNn (nn : Word) (s : State) : Result :=
  let t := s.begin 4 2
  .next ({ t with ix := t.memRead16 nn })

/-- `POP IX` (41_load16_exchange_stack.md R225). -/
def execPopIx (s : State) : Result :=
  let t := s.begin 2 2
  .next ({ t.dropWord with ix := t.topOfStack })

/-- `PUSH IX` (41_load16_exchange_stack.md R222). -/
def execPushIx (s : State) : Result :=
  let t := s.begin 2 2
  .next (t.push16 t.ix)

/-- `LD SP,IX` (41_load16_exchange_stack.md R211). -/
def execLdSpIx (s : State) : Result :=
  let t := s.begin 2 2
  .next ({ t with sp := t.ix })

/-- `EX (SP),IX` (41_load16_exchange_stack.md R218). -/
def execExSpIx (s : State) : Result :=
  let t := s.begin 2 2
  .next ({ t.exchangeTop t.ix with ix := t.topOfStack })

/-- `LD IY,NN` (41_load16_exchange_stack.md R202). -/
def execLdIyNn (nn : Word) (s : State) : Result :=
  let t := s.begin 4 2
  .next ({ t with iy := nn })

/-- `LD (NN),IY` (41_load16_exchange_stack.md R208). -/
def execLdMemNnIy (nn : Word) (s : State) : Result :=
  let t := s.begin 4 2
  .next (t.memWrite16 nn t.iy)

/-- `LD IY,(NN)` (41_load16_exchange_stack.md R205). -/
def execLdIyMemNn (nn : Word) (s : State) : Result :=
  let t := s.begin 4 2
  .next ({ t with iy := t.memRead16 nn })

/-- `POP IY` (41_load16_exchange_stack.md R225). -/
def execPopIy (s : State) : Result :=
  let t := s.begin 2 2
  .next ({ t.dropWord with iy := t.topOfStack })

/-- `PUSH IY` (41_load16_exchange_stack.md R222). -/
def execPushIy (s : State) : Result :=
  let t := s.begin 2 2
  .next (t.push16 t.iy)

/-- `LD SP,IY` (41_load16_exchange_stack.md R211). -/
def execLdSpIy (s : State) : Result :=
  let t := s.begin 2 2
  .next ({ t with sp := t.iy })

/-- `EX (SP),IY` (41_load16_exchange_stack.md R218). -/
def execExSpIy (s : State) : Result :=
  let t := s.begin 2 2
  .next ({ t.exchangeTop t.iy with iy := t.topOfStack })

end Sys2Proof.Machine
end

