-- ==== Sys2Proof/Machine/Load8.lean ====
section
/-! DEFINITION. The meanings of the 8-bit loads (40_load8.md). Each acts on the state `t` that the fetch leaves. -/

namespace Sys2Proof.Machine

/-- LD A,I and LD A,R after the read of the special register: A and F (40_load8.md R174, R175). -/
def State.loadAWithFlags (s : State) (v : Byte) : State := { s with a := v, f := ldAFlags v s.iff2 s.f }

/-- `LD (BC),A` (40_load8.md R186). -/
def execLdMemBcA (p : Pfx) (s : State) : Result :=
  let t := s.beginP p 1
  .next (t.memWrite t.bc t.a)

/-- `LD A,(BC)` (40_load8.md R179). -/
def execLdAMemBc (p : Pfx) (s : State) : Result :=
  let t := s.beginP p 1
  .next ({ t with a := t.memRead t.bc })

/-- `LD (DE),A` (40_load8.md R187). -/
def execLdMemDeA (p : Pfx) (s : State) : Result :=
  let t := s.beginP p 1
  .next (t.memWrite t.de t.a)

/-- `LD A,(DE)` (40_load8.md R180). -/
def execLdAMemDe (p : Pfx) (s : State) : Result :=
  let t := s.beginP p 1
  .next ({ t with a := t.memRead t.de })

/-- `LD (NN),A` (40_load8.md R184). -/
def execLdMemNnA (p : Pfx) (nn : Word) (s : State) : Result :=
  let t := s.beginP p 3
  .next (t.memWrite nn t.a)

/-- `LD A,(NN)` (40_load8.md R177). -/
def execLdAMemNn (p : Pfx) (nn : Word) (s : State) : Result :=
  let t := s.beginP p 3
  .next ({ t with a := t.memRead nn })

/-- `LD r,N` (40_load8.md R170). -/
def execLdRN (p : Pfx) (r : Reg8) (n : Byte) (s : State) : Result :=
  let t := s.beginP p 2
  .next (t.setReg8 r n)

/-- `LD (HL),N` (40_load8.md R188). -/
def execLdMemHlN (n : Byte) (s : State) : Result :=
  let t := s.begin 2 1
  .next (t.memWrite t.hl n)

/-- `LD d,r` (40_load8.md R172). -/
def execLdDR (p : Pfx) (rd : Reg8) (r : Reg8) (s : State) : Result :=
  let t := s.beginP p 1
  .next (t.setReg8 rd (t.reg8 r))

/-- `LD d,(HL)` (40_load8.md R178). -/
def execLdDMemHl (rd : Reg8) (s : State) : Result :=
  let t := s.begin 1 1
  .next (t.setReg8 rd (t.memRead t.hl))

/-- `LD (HL),r` (40_load8.md R185). -/
def execLdMemHlR (r : Reg8) (s : State) : Result :=
  let t := s.begin 1 1
  .next (t.memWrite t.hl (t.reg8 r))

/-- `LD I,A` (40_load8.md R173). -/
def execLdIA (s : State) : Result :=
  let t := s.begin 2 2
  .next ({ t with i := t.a })

/-- `LD R,A` (40_load8.md R176: after the count for this instruction). -/
def execLdRA (s : State) : Result :=
  let t := s.begin 2 2
  .next ({ t with r := t.a })

/-- `LD A,I` (40_load8.md R174). -/
def execLdAI (s : State) : Result :=
  let t := s.begin 2 2
  .next (t.loadAWithFlags t.i)

/-- `LD A,R` (40_load8.md R175: R is read after the count for this instruction). -/
def execLdAR (s : State) : Result :=
  let t := s.begin 2 2
  .next (t.loadAWithFlags t.r)

/-- `LD XH/XL,N` (40_load8.md R171). -/
def execLdXN (x : Half) (n : Byte) (s : State) : Result :=
  let t := s.begin 3 2
  .next (t.setHalf .ix x n)

/-- `LD (IX+s),N` (40_load8.md R190: the displacement comes before the immediate). -/
def execLdIxN (o : Byte) (n : Byte) (s : State) : Result :=
  let t := s.begin 4 2
  .next (t.memWrite (t.ea .ix o) n)

/-- `LD d,r with XH/XL` (40_load8.md R172, 30_encoding.md R123). -/
def execLdXX (rd : RegX) (r : RegX) (s : State) : Result :=
  let t := s.begin 2 2
  .next (t.setRegX .ix rd (t.regX .ix r))

/-- `LD d,(IX+s)` (40_load8.md R181). -/
def execLdDIx (rd : Reg8) (o : Byte) (s : State) : Result :=
  let t := s.begin 3 2
  .next (t.setReg8 rd (t.memRead (t.ea .ix o)))

/-- `LD (IX+s),r` (40_load8.md R189). -/
def execLdIxR (r : Reg8) (o : Byte) (s : State) : Result :=
  let t := s.begin 3 2
  .next (t.memWrite (t.ea .ix o) (t.reg8 r))

/-- `LD YH/YL,N` (40_load8.md R171). -/
def execLdYN (x : Half) (n : Byte) (s : State) : Result :=
  let t := s.begin 3 2
  .next (t.setHalf .iy x n)

/-- `LD (IY+s),N` (40_load8.md R190: the displacement comes before the immediate). -/
def execLdIyN (o : Byte) (n : Byte) (s : State) : Result :=
  let t := s.begin 4 2
  .next (t.memWrite (t.ea .iy o) n)

/-- `LD d,r with YH/YL` (40_load8.md R172, 30_encoding.md R123). -/
def execLdYY (rd : RegX) (r : RegX) (s : State) : Result :=
  let t := s.begin 2 2
  .next (t.setRegX .iy rd (t.regX .iy r))

/-- `LD d,(IY+s)` (40_load8.md R181). -/
def execLdDIy (rd : Reg8) (o : Byte) (s : State) : Result :=
  let t := s.begin 3 2
  .next (t.setReg8 rd (t.memRead (t.ea .iy o)))

/-- `LD (IY+s),r` (40_load8.md R189). -/
def execLdIyR (r : Reg8) (o : Byte) (s : State) : Result :=
  let t := s.begin 3 2
  .next (t.memWrite (t.ea .iy o) (t.reg8 r))

end Sys2Proof.Machine
end

