-- ==== Sys2Proof/Decode.lean ====
section
/-! DEFINITION. The decoder (30_encoding.md R110 to R137), and after it the encoder. `decode4` is total on any four
bytes: "Every byte sequence decodes to some instruction" (R138). -/

namespace Sys2Proof

/-! ## Operand fields -/

/-- Field `rrr` or `ddd`; code 110 is memory (30_encoding.md R122). -/
def reg8OfCode (y : BitVec 3) : Option Reg8 :=
  match y with
  | 0#3 => some .b
  | 1#3 => some .c
  | 2#3 => some .d
  | 3#3 => some .e
  | 4#3 => some .h
  | 5#3 => some .l
  | 6#3 => none
  | _ => some .a

/-- The same field under DD or FD with no memory operand beside it (30_encoding.md R123). -/
def regXOfCode (y : BitVec 3) : Option RegX :=
  match y with
  | 0#3 => some .b
  | 1#3 => some .c
  | 2#3 => some .d
  | 3#3 => some .e
  | 4#3 => some .xh
  | 5#3 => some .xl
  | 6#3 => none
  | _ => some .a

/-- Codes 100 and 101 under DD or FD: the index halves (30_encoding.md R123). -/
def halfOfCode (y : BitVec 3) : Option Half :=
  match y with
  | 4#3 => some .hi
  | 5#3 => some .lo
  | _ => none

/-- Field RR, the upper two bits of `y` (30_encoding.md R118). -/
def pairOfField (y : BitVec 3) : Pair :=
  match y.extractLsb' 1 2 with
  | 0#2 => .bc
  | 1#2 => .de
  | 2#2 => .hl
  | _ => .sp

/-- Field RR under DD or FD in ADD (30_encoding.md R118). -/
def pairXOfField (y : BitVec 3) : PairX :=
  match y.extractLsb' 1 2 with
  | 0#2 => .bc
  | 1#2 => .de
  | 2#2 => .xy
  | _ => .sp

/-- Field RS; code 11 is AF (30_encoding.md R119). -/
def stackPairOfField (y : BitVec 3) : Option StackPair :=
  match y.extractLsb' 1 2 with
  | 0#2 => some .bc
  | 1#2 => some .de
  | 2#2 => some .hl
  | _ => none

/-- Field ccc (30_encoding.md R121). -/
def condOfCode (y : BitVec 3) : Cond :=
  match y with
  | 0#3 => .nz
  | 1#3 => .z
  | 2#3 => .nc
  | 3#3 => .c
  | 4#3 => .po
  | 5#3 => .pe
  | 6#3 => .p
  | _ => .m

/-- Field cc of JR, the low two bits of `y` (30_encoding.md R120). -/
def cond4OfField (y : BitVec 3) : Cond4 :=
  match y.extractLsb' 0 2 with
  | 0#2 => .nz
  | 1#2 => .z
  | 2#2 => .nc
  | _ => .c

/-- Bit `y[0]`, which splits many rows in two (30_encoding.md R110). -/
def odd (y : BitVec 3) : Bool := y.getLsbD 0

/-- The IX or the IY instruction of two. -/
def pick (x : Index) (forIx forIy : Instr) : Instr :=
  match x with
  | .ix => forIx
  | .iy => forIy

/-- The prefix byte of an index register as the prefix of an instruction it does not change. -/
def pfxOf (x : Index) : Pfx :=
  match x with
  | .ix => .dd
  | .iy => .fd

/-! ## The arithmetic rows: field `ooo` = `y` (42_alu8.md section 8) -/

/-- `10 ooo rrr`, a register. -/
def aluR (p : Pfx) (y : BitVec 3) (r : Reg8) : Instr :=
  match y with
  | 0#3 => .addR p r
  | 1#3 => .adcR p r
  | 2#3 => .subR p r
  | 3#3 => .sbcR p r
  | 4#3 => .andR p r
  | 5#3 => .xorR p r
  | 6#3 => .orR p r
  | _ => .cpR p r

/-- `10 ooo 110`, the byte at HL. -/
def aluMemHl (y : BitVec 3) : Instr :=
  match y with
  | 0#3 => .addMemHl
  | 1#3 => .adcMemHl
  | 2#3 => .subMemHl
  | 3#3 => .sbcMemHl
  | 4#3 => .andMemHl
  | 5#3 => .xorMemHl
  | 6#3 => .orMemHl
  | _ => .cpMemHl

/-- `11 ooo 110`, an immediate. -/
def aluN (p : Pfx) (y : BitVec 3) (n : Byte) : Instr :=
  match y with
  | 0#3 => .addN p n
  | 1#3 => .adcN p n
  | 2#3 => .subN p n
  | 3#3 => .sbcN p n
  | 4#3 => .andN p n
  | 5#3 => .xorN p n
  | 6#3 => .orN p n
  | _ => .cpN p n

/-- `10 ooo 100` and `10 ooo 101` under DD or FD, an index half. -/
def aluHalf (x : Index) (y : BitVec 3) (hf : Half) : Instr :=
  match y with
  | 0#3 => pick x (.addX hf) (.addY hf)
  | 1#3 => pick x (.adcX hf) (.adcY hf)
  | 2#3 => pick x (.subX hf) (.subY hf)
  | 3#3 => pick x (.sbcX hf) (.sbcY hf)
  | 4#3 => pick x (.andX hf) (.andY hf)
  | 5#3 => pick x (.xorX hf) (.xorY hf)
  | 6#3 => pick x (.orX hf) (.orY hf)
  | _ => pick x (.cpX hf) (.cpY hf)

/-- `10 ooo 110` under DD or FD, the byte at IX+s or IY+s. -/
def aluIndex (x : Index) (y : BitVec 3) (o : Byte) : Instr :=
  match y with
  | 0#3 => pick x (.addIx o) (.addIy o)
  | 1#3 => pick x (.adcIx o) (.adcIy o)
  | 2#3 => pick x (.subIx o) (.subIy o)
  | 3#3 => pick x (.sbcIx o) (.sbcIy o)
  | 4#3 => pick x (.andIx o) (.andIy o)
  | 5#3 => pick x (.xorIx o) (.xorIy o)
  | 6#3 => pick x (.orIx o) (.orIy o)
  | _ => pick x (.cpIx o) (.cpIy o)

/-! ## The unprefixed map (30_encoding.md R126)

`p` is the prefix of an opcode that DD or FD does not change (R134); `n1`, `n2` are the bytes after the opcode. -/

/-- `00 yyy 000`. -/
def decodeMain00 (p : Pfx) (y : BitVec 3) (n1 : Byte) : Instr :=
  match y with
  | 0#3 => .nop p
  | 1#3 => .exAfAf p
  | 2#3 => .djnz p n1
  | 3#3 => .jr p n1
  | _ => .jrCc p (cond4OfField y) n1

/-- `00 yyy 010`. -/
def decodeMain02 (p : Pfx) (y : BitVec 3) (nn : Word) : Instr :=
  match y with
  | 0#3 => .ldMemBcA p
  | 1#3 => .ldAMemBc p
  | 2#3 => .ldMemDeA p
  | 3#3 => .ldAMemDe p
  | 4#3 => .ldMemNnHl nn
  | 5#3 => .ldHlMemNn nn
  | 6#3 => .ldMemNnA p nn
  | _ => .ldAMemNn p nn

/-- `00 yyy 111`. -/
def decodeMain07 (p : Pfx) (y : BitVec 3) : Instr :=
  match y with
  | 0#3 => .rlca p
  | 1#3 => .rrca p
  | 2#3 => .rla p
  | 3#3 => .rra p
  | 4#3 => .daa p
  | 5#3 => .cpl p
  | 6#3 => .scf p
  | _ => .ccf p

/-- `00 yyy zzz`. -/
def decodeMain0 (p : Pfx) (y z : BitVec 3) (n1 n2 : Byte) : Instr :=
  match z with
  | 0#3 => decodeMain00 p y n1
  | 1#3 => if odd y then .addHlRr (pairOfField y) else .ldRrNn p (pairOfField y) (join n2 n1)
  | 2#3 => decodeMain02 p y (join n2 n1)
  | 3#3 => if odd y then .decRr p (pairOfField y) else .incRr p (pairOfField y)
  | 4#3 => match reg8OfCode y with
    | some r => .incR p r
    | none => .incMemHl
  | 5#3 => match reg8OfCode y with
    | some r => .decR p r
    | none => .decMemHl
  | 6#3 => match reg8OfCode y with
    | some r => .ldRN p r n1
    | none => .ldMemHlN n1
  | _ => decodeMain07 p y

/-- `01 ddd rrr`. -/
def decodeMain1 (p : Pfx) (y z : BitVec 3) : Instr :=
  match reg8OfCode y, reg8OfCode z with
  | some rd, some r => .ldDR p rd r
  | some rd, none => .ldDMemHl rd
  | none, some r => .ldMemHlR r
  | none, none => .halt p

/-- `10 ooo rrr`. -/
def decodeMain2 (p : Pfx) (y z : BitVec 3) : Instr :=
  match reg8OfCode z with
  | some r => aluR p y r
  | none => aluMemHl y

/-- `11 yyy 001`. -/
def decodeMain31 (p : Pfx) (y : BitVec 3) : Instr :=
  if odd y then
    match y with
    | 1#3 => .ret p
    | 3#3 => .exx p
    | 5#3 => .jpHl
    | _ => .ldSpHl
  else
    match stackPairOfField y with
    | some q => .popRs p q
    | none => .popAf p

/-- `11 yyy 011`. -/
def decodeMain33 (p : Pfx) (y : BitVec 3) (n1 n2 : Byte) : Instr :=
  match y with
  | 0#3 => .jpNn p (join n2 n1)
  | 1#3 => .prefixCb
  | 2#3 => .outNA p n1
  | 3#3 => .inAN p n1
  | 4#3 => .exSpHl
  | 5#3 => .exDeHl p
  | 6#3 => .di p
  | _ => .ei p

/-- `11 yyy 101`. -/
def decodeMain35 (p : Pfx) (y : BitVec 3) (nn : Word) : Instr :=
  if odd y then
    match y with
    | 1#3 => .callNn p nn
    | 3#3 => .prefixDd
    | 5#3 => .prefixEd
    | _ => .prefixFd
  else
    match stackPairOfField y with
    | some q => .pushRs p q
    | none => .pushAf p

/-- `11 yyy zzz`. -/
def decodeMain3 (p : Pfx) (y z : BitVec 3) (n1 n2 : Byte) : Instr :=
  match z with
  | 0#3 => .retC p (condOfCode y)
  | 1#3 => decodeMain31 p y
  | 2#3 => .jpCNn p (condOfCode y) (join n2 n1)
  | 3#3 => decodeMain33 p y n1 n2
  | 4#3 => .callCNn p (condOfCode y) (join n2 n1)
  | 5#3 => decodeMain35 p y (join n2 n1)
  | 6#3 => aluN p y n1
  | _ => .rst p y

/-- The unprefixed map (30_encoding.md R126). -/
def decodeMain (p : Pfx) (op n1 n2 : Byte) : Instr :=
  match xField op with
  | 0#2 => decodeMain0 p (yField op) (zField op) n1 n2
  | 1#2 => decodeMain1 p (yField op) (zField op)
  | 2#2 => decodeMain2 p (yField op) (zField op)
  | _ => decodeMain3 p (yField op) (zField op) n1 n2

/-! ## The CB map (30_encoding.md R128) -/

/-- `00 ooo rrr`, a register. -/
def shiftR (y : BitVec 3) (r : Reg8) : Instr :=
  match y with
  | 0#3 => .rlcR r
  | 1#3 => .rrcR r
  | 2#3 => .rlR r
  | 3#3 => .rrR r
  | 4#3 => .slaR r
  | 5#3 => .sraR r
  | 6#3 => .sliR r
  | _ => .srlR r

/-- `00 ooo 110`, the byte at HL. -/
def shiftMemHl (y : BitVec 3) : Instr :=
  match y with
  | 0#3 => .rlcMemHl
  | 1#3 => .rrcMemHl
  | 2#3 => .rlMemHl
  | 3#3 => .rrMemHl
  | 4#3 => .slaMemHl
  | 5#3 => .sraMemHl
  | 6#3 => .sliMemHl
  | _ => .srlMemHl

/-- The CB map (30_encoding.md R128). -/
def decodeCb (op : Byte) : Instr :=
  match xField op, reg8OfCode (zField op) with
  | 0#2, some r => shiftR (yField op) r
  | 0#2, none => shiftMemHl (yField op)
  | 1#2, some r => .bitR (yField op) r
  | 1#2, none => .bitMemHl (yField op)
  | 2#2, some r => .resR (yField op) r
  | 2#2, none => .resMemHl (yField op)
  | _, some r => .setR (yField op) r
  | _, none => .setMemHl (yField op)

/-! ## The DDCB and FDCB maps (30_encoding.md R129) -/

/-- `00 ooo 110`, the byte at IX+s or IY+s. -/
def shiftIndex (x : Index) (y : BitVec 3) (o : Byte) : Instr :=
  match y with
  | 0#3 => pick x (.rlcIx o) (.rlcIy o)
  | 1#3 => pick x (.rrcIx o) (.rrcIy o)
  | 2#3 => pick x (.rlIx o) (.rlIy o)
  | 3#3 => pick x (.rrIx o) (.rrIy o)
  | 4#3 => pick x (.slaIx o) (.slaIy o)
  | 5#3 => pick x (.sraIx o) (.sraIy o)
  | 6#3 => pick x (.sliIx o) (.sliIy o)
  | _ => pick x (.srlIx o) (.srlIy o)

/-- `00 ooo rrr`, the complex form. -/
def shiftRIndex (x : Index) (y : BitVec 3) (r : Reg8) (o : Byte) : Instr :=
  match y with
  | 0#3 => pick x (.rlcRIx r o) (.rlcRIy r o)
  | 1#3 => pick x (.rrcRIx r o) (.rrcRIy r o)
  | 2#3 => pick x (.rlRIx r o) (.rlRIy r o)
  | 3#3 => pick x (.rrRIx r o) (.rrRIy r o)
  | 4#3 => pick x (.slaRIx r o) (.slaRIy r o)
  | 5#3 => pick x (.sraRIx r o) (.sraRIy r o)
  | 6#3 => pick x (.sliRIx r o) (.sliRIy r o)
  | _ => pick x (.srlRIx r o) (.srlRIy r o)

/-- The DDCB and FDCB maps, `o` the displacement, which stands before the opcode (30_encoding.md R129). -/
def decodeIndexCb (x : Index) (o op : Byte) : Instr :=
  match xField op, reg8OfCode (zField op) with
  | 0#2, some r => shiftRIndex x (yField op) r o
  | 0#2, none => shiftIndex x (yField op) o
  | 1#2, _ => pick x (.bitIx (yField op) (zField op) o) (.bitIy (yField op) (zField op) o)
  | 2#2, some r => pick x (.resRIx (yField op) r o) (.resRIy (yField op) r o)
  | 2#2, none => pick x (.resIx (yField op) o) (.resIy (yField op) o)
  | _, some r => pick x (.setRIx (yField op) r o) (.setRIy (yField op) r o)
  | _, none => pick x (.setIx (yField op) o) (.setIy (yField op) o)

/-! ## The ED map (30_encoding.md R127) -/

/-- `01 yyy 111`. -/
def decodeEd17 (op : Byte) : Instr :=
  match yField op with
  | 0#3 => .ldIA
  | 1#3 => .ldRA
  | 2#3 => .ldAI
  | 3#3 => .ldAR
  | 4#3 => .rrd
  | 5#3 => .rld
  | _ => .nopEd op

/-- `01 yyy zzz`. -/
def decodeEd1 (op : Byte) (nn : Word) : Instr :=
  match zField op with
  | 0#3 => match reg8OfCode (yField op) with
    | some r => .inRC r
    | none => .inf
  | 1#3 => match reg8OfCode (yField op) with
    | some r => .outCR r
    | none => .outf
  | 2#3 => if odd (yField op) then .adcHlRr (pairOfField (yField op)) else .sbcHlRr (pairOfField (yField op))
  | 3#3 => if odd (yField op) then .ldRrMemNn (pairOfField (yField op)) nn
    else .ldMemNnRr (pairOfField (yField op)) nn
  | 4#3 => .neg (yField op)
  | 5#3 => if odd (yField op) then .reti ((yField op).extractLsb' 1 2) else .retn ((yField op).extractLsb' 1 2)
  | 6#3 => .im ((yField op).extractLsb' 2 1) ((yField op).extractLsb' 0 2)
  | _ => decodeEd17 op

/-- `10 yyy zzz`: the block instructions. -/
def decodeEd2 (op : Byte) : Instr :=
  match yField op, zField op with
  | 4#3, 0#3 => .ldi
  | 5#3, 0#3 => .ldd
  | 6#3, 0#3 => .ldir
  | 7#3, 0#3 => .lddr
  | 4#3, 1#3 => .cpi
  | 5#3, 1#3 => .cpd
  | 6#3, 1#3 => .cpir
  | 7#3, 1#3 => .cpdr
  | 4#3, 2#3 => .ini
  | 5#3, 2#3 => .ind
  | 6#3, 2#3 => .inir
  | 7#3, 2#3 => .indr
  | 4#3, 3#3 => .oti
  | 5#3, 3#3 => .otd
  | 6#3, 3#3 => .otir
  | 7#3, 3#3 => .otdr
  | _, _ => .nopEd op

/-- The ED map (30_encoding.md R127). -/
def decodeEd (op n1 n2 : Byte) : Instr :=
  match xField op with
  | 1#2 => decodeEd1 op (join n2 n1)
  | 2#2 => decodeEd2 op
  | _ => .nopEd op

/-! ## The DD and FD maps (30_encoding.md R130 to R137) -/

/-- `00 yyy zzz` that DD or FD changes (30_encoding.md R131). -/
def changed0 (x : Index) (y z : BitVec 3) (n1 n2 : Byte) : Option Instr :=
  match z with
  | 1#3 =>
    if odd y then some (pick x (.addIxRr (pairXOfField y)) (.addIyRr (pairXOfField y)))
    else if y = 4#3 then some (pick x (.ldIxNn (join n2 n1)) (.ldIyNn (join n2 n1)))
    else none
  | 2#3 => match y with
    | 4#3 => some (pick x (.ldMemNnIx (join n2 n1)) (.ldMemNnIy (join n2 n1)))
    | 5#3 => some (pick x (.ldIxMemNn (join n2 n1)) (.ldIyMemNn (join n2 n1)))
    | _ => none
  | 3#3 => match y with
    | 4#3 => some (pick x .incIx16 .incIy16)
    | 5#3 => some (pick x .decIx16 .decIy16)
    | _ => none
  | 4#3 => match halfOfCode y, reg8OfCode y with
    | some hf, _ => some (pick x (.incX hf) (.incY hf))
    | none, none => some (pick x (.incIx n1) (.incIy n1))
    | none, some _ => none
  | 5#3 => match halfOfCode y, reg8OfCode y with
    | some hf, _ => some (pick x (.decX hf) (.decY hf))
    | none, none => some (pick x (.decIx n1) (.decIy n1))
    | none, some _ => none
  | 6#3 => match halfOfCode y, reg8OfCode y with
    | some hf, _ => some (pick x (.ldXN hf n1) (.ldYN hf n1))
    | none, none => some (pick x (.ldIxN n1 n2) (.ldIyN n1 n2))
    | none, some _ => none
  | _ => none

/-- `01 ddd rrr` that DD or FD changes: with a memory operand the other register keeps its meaning, without one H
and L become the index halves (30_encoding.md R123, R131). -/
def changed1 (x : Index) (y z : BitVec 3) (n1 : Byte) : Option Instr :=
  match reg8OfCode y, reg8OfCode z with
  | some rd, none => some (pick x (.ldDIx rd n1) (.ldDIy rd n1))
  | none, some r => some (pick x (.ldIxR r n1) (.ldIyR r n1))
  | none, none => none
  | some _, some _ => match regXOfCode y, regXOfCode z with
    | some rd, some r =>
      if (halfOfCode y).isSome || (halfOfCode z).isSome then some (pick x (.ldXX rd r) (.ldYY rd r)) else none
    | _, _ => none

/-- `10 ooo rrr` that DD or FD changes (30_encoding.md R131). -/
def changed2 (x : Index) (y z : BitVec 3) (n1 : Byte) : Option Instr :=
  match halfOfCode z, reg8OfCode z with
  | some hf, _ => some (aluHalf x y hf)
  | none, none => some (aluIndex x y n1)
  | none, some _ => none

/-- `11 yyy zzz` that DD or FD changes (30_encoding.md R131). -/
def changed3 (x : Index) (y z : BitVec 3) : Option Instr :=
  match y, z with
  | 4#3, 1#3 => some (pick x .popIx .popIy)
  | 5#3, 1#3 => some (pick x .jpIx .jpIy)
  | 7#3, 1#3 => some (pick x .ldSpIx .ldSpIy)
  | 4#3, 3#3 => some (pick x .exSpIx .exSpIy)
  | 4#3, 5#3 => some (pick x .pushIx .pushIy)
  | _, _ => none

/-- The opcodes that DD or FD changes (30_encoding.md R131); `n1`, `n2` are the bytes after the opcode. -/
def changed (x : Index) (op n1 n2 : Byte) : Option Instr :=
  match xField op with
  | 0#2 => changed0 x (yField op) (zField op) n1 n2
  | 1#2 => changed1 x (yField op) (zField op) n1
  | 2#2 => changed2 x (yField op) (zField op) n1
  | _ => changed3 x (yField op) (zField op)

/-- The DD and FD maps: the opcode as R131 changes it, else as without the prefix (30_encoding.md R134). -/
def decodeIndex (x : Index) (op n1 n2 : Byte) : Instr := (changed x op n1 n2).getD (decodeMain (pfxOf x) op n1 n2)

/-- What follows a DD or FD byte: another prefix (30_encoding.md R137, R135), else an opcode of the DD or FD map. -/
def decodeAfterIndex (x : Index) (b1 b2 b3 : Byte) : Instr :=
  if b1 = 0xDD then .ignoredNextDd x
  else if b1 = 0xED then .ignoredNextEd x
  else if b1 = 0xFD then .ignoredNextFd x
  else if b1 = 0xCB then decodeIndexCb x b2 b3
  else decodeIndex x b1 b2 b3

/-! ## The whole decoder -/

/-- The instruction at the start of four bytes (30_encoding.md R113); the bytes after its end do not matter. -/
def decode4 (b0 b1 b2 b3 : Byte) : Instr :=
  if b0 = 0xCB then decodeCb b1
  else if b0 = 0xED then decodeEd b1 b2 b3
  else if b0 = 0xDD then decodeAfterIndex .ix b1 b2 b3
  else if b0 = 0xFD then decodeAfterIndex .iy b1 b2 b3
  else decodeMain .plain b0 b1 b2

/-! ## Lengths -/

/-- How many bytes of prefix stand before an opcode that the prefix does not change (30_encoding.md R134). -/
def prefixCount (p : Pfx) : Nat :=
  match p with
  | .plain => 0
  | .dd => 1
  | .fd => 1

/-- The length of an instruction in bytes (30_encoding.md R112, R113, R126 to R129, R137). Of a prefix row it is the length
of the prefix. -/
def size (i : Instr) : Nat :=
  match i with
  | .nop p => 1 + prefixCount p
  | .exAfAf p => 1 + prefixCount p
  | .djnz p _ => 2 + prefixCount p
  | .jr p _ => 2 + prefixCount p
  | .jrCc p _ _ => 2 + prefixCount p
  | .ldRrNn p _ _ => 3 + prefixCount p
  | .addHlRr _ => 1
  | .ldMemBcA p => 1 + prefixCount p
  | .ldAMemBc p => 1 + prefixCount p
  | .ldMemDeA p => 1 + prefixCount p
  | .ldAMemDe p => 1 + prefixCount p
  | .ldMemNnHl _ => 3
  | .ldHlMemNn _ => 3
  | .ldMemNnA p _ => 3 + prefixCount p
  | .ldAMemNn p _ => 3 + prefixCount p
  | .incRr p _ => 1 + prefixCount p
  | .decRr p _ => 1 + prefixCount p
  | .incR p _ => 1 + prefixCount p
  | .incMemHl => 1
  | .decR p _ => 1 + prefixCount p
  | .decMemHl => 1
  | .ldRN p _ _ => 2 + prefixCount p
  | .ldMemHlN _ => 2
  | .rlca p => 1 + prefixCount p
  | .rrca p => 1 + prefixCount p
  | .rla p => 1 + prefixCount p
  | .rra p => 1 + prefixCount p
  | .daa p => 1 + prefixCount p
  | .cpl p => 1 + prefixCount p
  | .scf p => 1 + prefixCount p
  | .ccf p => 1 + prefixCount p
  | .ldDR p _ _ => 1 + prefixCount p
  | .ldDMemHl _ => 1
  | .ldMemHlR _ => 1
  | .halt p => 1 + prefixCount p
  | .addR p _ => 1 + prefixCount p
  | .addMemHl => 1
  | .adcR p _ => 1 + prefixCount p
  | .adcMemHl => 1
  | .subR p _ => 1 + prefixCount p
  | .subMemHl => 1
  | .sbcR p _ => 1 + prefixCount p
  | .sbcMemHl => 1
  | .andR p _ => 1 + prefixCount p
  | .andMemHl => 1
  | .xorR p _ => 1 + prefixCount p
  | .xorMemHl => 1
  | .orR p _ => 1 + prefixCount p
  | .orMemHl => 1
  | .cpR p _ => 1 + prefixCount p
  | .cpMemHl => 1
  | .retC p _ => 1 + prefixCount p
  | .popRs p _ => 1 + prefixCount p
  | .popAf p => 1 + prefixCount p
  | .ret p => 1 + prefixCount p
  | .exx p => 1 + prefixCount p
  | .jpHl => 1
  | .ldSpHl => 1
  | .jpCNn p _ _ => 3 + prefixCount p
  | .jpNn p _ => 3 + prefixCount p
  | .outNA p _ => 2 + prefixCount p
  | .inAN p _ => 2 + prefixCount p
  | .exSpHl => 1
  | .exDeHl p => 1 + prefixCount p
  | .di p => 1 + prefixCount p
  | .ei p => 1 + prefixCount p
  | .callCNn p _ _ => 3 + prefixCount p
  | .pushRs p _ => 1 + prefixCount p
  | .pushAf p => 1 + prefixCount p
  | .callNn p _ => 3 + prefixCount p
  | .addN p _ => 2 + prefixCount p
  | .adcN p _ => 2 + prefixCount p
  | .subN p _ => 2 + prefixCount p
  | .sbcN p _ => 2 + prefixCount p
  | .andN p _ => 2 + prefixCount p
  | .xorN p _ => 2 + prefixCount p
  | .orN p _ => 2 + prefixCount p
  | .cpN p _ => 2 + prefixCount p
  | .rst p _ => 1 + prefixCount p
  | .rlcR _ => 2
  | .rlcMemHl => 2
  | .rrcR _ => 2
  | .rrcMemHl => 2
  | .rlR _ => 2
  | .rlMemHl => 2
  | .rrR _ => 2
  | .rrMemHl => 2
  | .slaR _ => 2
  | .slaMemHl => 2
  | .sraR _ => 2
  | .sraMemHl => 2
  | .sliR _ => 2
  | .sliMemHl => 2
  | .srlR _ => 2
  | .srlMemHl => 2
  | .bitR _ _ => 2
  | .bitMemHl _ => 2
  | .resR _ _ => 2
  | .resMemHl _ => 2
  | .setR _ _ => 2
  | .setMemHl _ => 2
  | .nopEd _ => 2
  | .inRC _ => 2
  | .inf => 2
  | .outCR _ => 2
  | .outf => 2
  | .sbcHlRr _ => 2
  | .adcHlRr _ => 2
  | .ldMemNnRr _ _ => 4
  | .ldRrMemNn _ _ => 4
  | .neg _ => 2
  | .retn _ => 2
  | .reti _ => 2
  | .im _ _ => 2
  | .ldIA => 2
  | .ldRA => 2
  | .ldAI => 2
  | .ldAR => 2
  | .rrd => 2
  | .rld => 2
  | .ldIxNn _ => 4
  | .addIxRr _ => 2
  | .ldMemNnIx _ => 4
  | .ldIxMemNn _ => 4
  | .incIx16 => 2
  | .decIx16 => 2
  | .incX _ => 2
  | .decX _ => 2
  | .ldXN _ _ => 3
  | .incIx _ => 3
  | .decIx _ => 3
  | .ldIxN _ _ => 4
  | .ldXX _ _ => 2
  | .ldDIx _ _ => 3
  | .ldIxR _ _ => 3
  | .addX _ => 2
  | .addIx _ => 3
  | .adcX _ => 2
  | .adcIx _ => 3
  | .subX _ => 2
  | .subIx _ => 3
  | .sbcX _ => 2
  | .sbcIx _ => 3
  | .andX _ => 2
  | .andIx _ => 3
  | .xorX _ => 2
  | .xorIx _ => 3
  | .orX _ => 2
  | .orIx _ => 3
  | .cpX _ => 2
  | .cpIx _ => 3
  | .popIx => 2
  | .pushIx => 2
  | .jpIx => 2
  | .ldSpIx => 2
  | .exSpIx => 2
  | .ignoredNextDd _ => 1
  | .ignoredNextEd _ => 1
  | .ignoredNextFd _ => 1
  | .rlcIx _ => 4
  | .rlcRIx _ _ => 4
  | .rrcIx _ => 4
  | .rrcRIx _ _ => 4
  | .rlIx _ => 4
  | .rlRIx _ _ => 4
  | .rrIx _ => 4
  | .rrRIx _ _ => 4
  | .slaIx _ => 4
  | .slaRIx _ _ => 4
  | .sraIx _ => 4
  | .sraRIx _ _ => 4
  | .sliIx _ => 4
  | .sliRIx _ _ => 4
  | .srlIx _ => 4
  | .srlRIx _ _ => 4
  | .bitIx _ _ _ => 4
  | .resIx _ _ => 4
  | .resRIx _ _ _ => 4
  | .setIx _ _ => 4
  | .setRIx _ _ _ => 4
  | .ldIyNn _ => 4
  | .addIyRr _ => 2
  | .ldMemNnIy _ => 4
  | .ldIyMemNn _ => 4
  | .incIy16 => 2
  | .decIy16 => 2
  | .incY _ => 2
  | .decY _ => 2
  | .ldYN _ _ => 3
  | .incIy _ => 3
  | .decIy _ => 3
  | .ldIyN _ _ => 4
  | .ldYY _ _ => 2
  | .ldDIy _ _ => 3
  | .ldIyR _ _ => 3
  | .addY _ => 2
  | .addIy _ => 3
  | .adcY _ => 2
  | .adcIy _ => 3
  | .subY _ => 2
  | .subIy _ => 3
  | .sbcY _ => 2
  | .sbcIy _ => 3
  | .andY _ => 2
  | .andIy _ => 3
  | .xorY _ => 2
  | .xorIy _ => 3
  | .orY _ => 2
  | .orIy _ => 3
  | .cpY _ => 2
  | .cpIy _ => 3
  | .popIy => 2
  | .pushIy => 2
  | .jpIy => 2
  | .ldSpIy => 2
  | .exSpIy => 2
  | .rlcIy _ => 4
  | .rlcRIy _ _ => 4
  | .rrcIy _ => 4
  | .rrcRIy _ _ => 4
  | .rlIy _ => 4
  | .rlRIy _ _ => 4
  | .rrIy _ => 4
  | .rrRIy _ _ => 4
  | .slaIy _ => 4
  | .slaRIy _ _ => 4
  | .sraIy _ => 4
  | .sraRIy _ _ => 4
  | .sliIy _ => 4
  | .sliRIy _ _ => 4
  | .srlIy _ => 4
  | .srlRIy _ _ => 4
  | .bitIy _ _ _ => 4
  | .resIy _ _ => 4
  | .resRIy _ _ _ => 4
  | .setIy _ _ => 4
  | .setRIy _ _ _ => 4
  | .prefixCb => 1
  | .prefixDd => 1
  | .prefixEd => 1
  | .prefixFd => 1
  | .ldi => 2
  | .ldd => 2
  | .ldir => 2
  | .lddr => 2
  | .cpi => 2
  | .cpd => 2
  | .cpir => 2
  | .cpdr => 2
  | .ini => 2
  | .ind => 2
  | .inir => 2
  | .indr => 2
  | .oti => 2
  | .otd => 2
  | .otir => 2
  | .otdr => 2
  | .prefixDdCb => 2
  | .prefixFdCb => 2

/-- Why a list of bytes is no instruction: only for want of bytes, never for its content (30_encoding.md R138). -/
inductive DecodeError where
  | noBytes
  | truncated
  deriving DecidableEq, Repr

/-- The six prefix rows: a list that is nothing but the prefix (30_encoding.md R111, R135; log 17). -/
def barePrefix (bs : List Byte) : Option Instr :=
  if bs = [0xCB] then some .prefixCb
  else if bs = [0xDD] then some .prefixDd
  else if bs = [0xED] then some .prefixEd
  else if bs = [0xFD] then some .prefixFd
  else if bs = [0xDD, 0xCB] then some .prefixDdCb
  else if bs = [0xFD, 0xCB] then some .prefixFdCb
  else none

/-- The instruction at the start of a list of bytes. -/
def decode (bs : List Byte) : Except DecodeError Instr :=
  match barePrefix bs, bs with
  | some i, _ => .ok i
  | none, [] => .error .noBytes
  | none, b0 :: rest =>
    let i := decode4 b0 (rest.getD 0 0) (rest.getD 1 0) (rest.getD 2 0)
    if size i ≤ (b0 :: rest).length then .ok i else .error .truncated

/-! ## The encoder -/

/-- The operand code of a register (30_encoding.md R122). -/
def Reg8.code : Reg8 → BitVec 3
  | .b => 0#3
  | .c => 1#3
  | .d => 2#3
  | .e => 3#3
  | .h => 4#3
  | .l => 5#3
  | .a => 7#3

/-- The operand code of a register under DD or FD (30_encoding.md R123). -/
def RegX.code : RegX → BitVec 3
  | .b => 0#3
  | .c => 1#3
  | .d => 2#3
  | .e => 3#3
  | .xh => 4#3
  | .xl => 5#3
  | .a => 7#3

/-- The operand code of an index half (30_encoding.md R123). -/
def Half.code : Half → BitVec 3
  | .hi => 4#3
  | .lo => 5#3

/-- Field RR (30_encoding.md R118). -/
def Pair.code : Pair → BitVec 2
  | .bc => 0#2
  | .de => 1#2
  | .hl => 2#2
  | .sp => 3#2

/-- Field RR under DD or FD (30_encoding.md R118). -/
def PairX.code : PairX → BitVec 2
  | .bc => 0#2
  | .de => 1#2
  | .xy => 2#2
  | .sp => 3#2

/-- Field RS (30_encoding.md R119). -/
def StackPair.code : StackPair → BitVec 2
  | .bc => 0#2
  | .de => 1#2
  | .hl => 2#2

/-- Field ccc (30_encoding.md R121). -/
def Cond.code : Cond → BitVec 3
  | .nz => 0#3
  | .z => 1#3
  | .nc => 2#3
  | .c => 3#3
  | .po => 4#3
  | .pe => 5#3
  | .p => 6#3
  | .m => 7#3

/-- Field cc (30_encoding.md R120). -/
def Cond4.code : Cond4 → BitVec 2
  | .nz => 0#2
  | .z => 1#2
  | .nc => 2#2
  | .c => 3#2

/-- The prefix byte of an index register (30_encoding.md R111). -/
def Index.prefixByte : Index → Byte
  | .ix => 0xDD
  | .iy => 0xFD

/-- The prefix bytes before an opcode that they do not change (30_encoding.md R134). -/
def Pfx.bytes : Pfx → List Byte
  | .plain => []
  | .dd => [0xDD]
  | .fd => [0xFD]

/-- The bytes of an instruction in the order of their addresses (30_encoding.md R112, R126 to R137). An ignored prefix
is written with the byte that makes it one, which belongs to the next instruction (R137). -/
def encode (i : Instr) : List Byte :=
  match i with
  | .nop p => p.bytes ++ [0x00]
  | .exAfAf p => p.bytes ++ [0x08]
  | .djnz p o => p.bytes ++ [0x10, o]
  | .jr p o => p.bytes ++ [0x18, o]
  | .jrCc p cc o => p.bytes ++ [opByte 0#2 (1#1 ++ cc.code) 0#3, o]
  | .ldRrNn p q nn => p.bytes ++ [opByte 0#2 (q.code ++ 0#1) 1#3, lo nn, hi nn]
  | .addHlRr q => [opByte 0#2 (q.code ++ 1#1) 1#3]
  | .ldMemBcA p => p.bytes ++ [0x02]
  | .ldAMemBc p => p.bytes ++ [0x0A]
  | .ldMemDeA p => p.bytes ++ [0x12]
  | .ldAMemDe p => p.bytes ++ [0x1A]
  | .ldMemNnHl nn => [0x22, lo nn, hi nn]
  | .ldHlMemNn nn => [0x2A, lo nn, hi nn]
  | .ldMemNnA p nn => p.bytes ++ [0x32, lo nn, hi nn]
  | .ldAMemNn p nn => p.bytes ++ [0x3A, lo nn, hi nn]
  | .incRr p q => p.bytes ++ [opByte 0#2 (q.code ++ 0#1) 3#3]
  | .decRr p q => p.bytes ++ [opByte 0#2 (q.code ++ 1#1) 3#3]
  | .incR p r => p.bytes ++ [opByte 0#2 r.code 4#3]
  | .incMemHl => [opByte 0#2 6#3 4#3]
  | .decR p r => p.bytes ++ [opByte 0#2 r.code 5#3]
  | .decMemHl => [opByte 0#2 6#3 5#3]
  | .ldRN p r n => p.bytes ++ [opByte 0#2 r.code 6#3, n]
  | .ldMemHlN n => [0x36, n]
  | .rlca p => p.bytes ++ [0x07]
  | .rrca p => p.bytes ++ [0x0F]
  | .rla p => p.bytes ++ [0x17]
  | .rra p => p.bytes ++ [0x1F]
  | .daa p => p.bytes ++ [0x27]
  | .cpl p => p.bytes ++ [0x2F]
  | .scf p => p.bytes ++ [0x37]
  | .ccf p => p.bytes ++ [0x3F]
  | .ldDR p rd r => p.bytes ++ [opByte 1#2 rd.code r.code]
  | .ldDMemHl rd => [opByte 1#2 rd.code 6#3]
  | .ldMemHlR r => [opByte 1#2 6#3 r.code]
  | .halt p => p.bytes ++ [0x76]
  | .addR p r => p.bytes ++ [opByte 2#2 0#3 r.code]
  | .addMemHl => [opByte 2#2 0#3 6#3]
  | .adcR p r => p.bytes ++ [opByte 2#2 1#3 r.code]
  | .adcMemHl => [opByte 2#2 1#3 6#3]
  | .subR p r => p.bytes ++ [opByte 2#2 2#3 r.code]
  | .subMemHl => [opByte 2#2 2#3 6#3]
  | .sbcR p r => p.bytes ++ [opByte 2#2 3#3 r.code]
  | .sbcMemHl => [opByte 2#2 3#3 6#3]
  | .andR p r => p.bytes ++ [opByte 2#2 4#3 r.code]
  | .andMemHl => [opByte 2#2 4#3 6#3]
  | .xorR p r => p.bytes ++ [opByte 2#2 5#3 r.code]
  | .xorMemHl => [opByte 2#2 5#3 6#3]
  | .orR p r => p.bytes ++ [opByte 2#2 6#3 r.code]
  | .orMemHl => [opByte 2#2 6#3 6#3]
  | .cpR p r => p.bytes ++ [opByte 2#2 7#3 r.code]
  | .cpMemHl => [opByte 2#2 7#3 6#3]
  | .retC p cc => p.bytes ++ [opByte 3#2 cc.code 0#3]
  | .popRs p q => p.bytes ++ [opByte 3#2 (q.code ++ 0#1) 1#3]
  | .popAf p => p.bytes ++ [0xF1]
  | .ret p => p.bytes ++ [0xC9]
  | .exx p => p.bytes ++ [0xD9]
  | .jpHl => [0xE9]
  | .ldSpHl => [0xF9]
  | .jpCNn p cc nn => p.bytes ++ [opByte 3#2 cc.code 2#3, lo nn, hi nn]
  | .jpNn p nn => p.bytes ++ [0xC3, lo nn, hi nn]
  | .outNA p n => p.bytes ++ [0xD3, n]
  | .inAN p n => p.bytes ++ [0xDB, n]
  | .exSpHl => [0xE3]
  | .exDeHl p => p.bytes ++ [0xEB]
  | .di p => p.bytes ++ [0xF3]
  | .ei p => p.bytes ++ [0xFB]
  | .callCNn p cc nn => p.bytes ++ [opByte 3#2 cc.code 4#3, lo nn, hi nn]
  | .pushRs p q => p.bytes ++ [opByte 3#2 (q.code ++ 0#1) 5#3]
  | .pushAf p => p.bytes ++ [0xF5]
  | .callNn p nn => p.bytes ++ [0xCD, lo nn, hi nn]
  | .addN p n => p.bytes ++ [opByte 3#2 0#3 6#3, n]
  | .adcN p n => p.bytes ++ [opByte 3#2 1#3 6#3, n]
  | .subN p n => p.bytes ++ [opByte 3#2 2#3 6#3, n]
  | .sbcN p n => p.bytes ++ [opByte 3#2 3#3 6#3, n]
  | .andN p n => p.bytes ++ [opByte 3#2 4#3 6#3, n]
  | .xorN p n => p.bytes ++ [opByte 3#2 5#3 6#3, n]
  | .orN p n => p.bytes ++ [opByte 3#2 6#3 6#3, n]
  | .cpN p n => p.bytes ++ [opByte 3#2 7#3 6#3, n]
  | .rst p v => p.bytes ++ [opByte 3#2 v 7#3]
  | .rlcR r => [0xCB, opByte 0#2 0#3 r.code]
  | .rlcMemHl => [0xCB, opByte 0#2 0#3 6#3]
  | .rrcR r => [0xCB, opByte 0#2 1#3 r.code]
  | .rrcMemHl => [0xCB, opByte 0#2 1#3 6#3]
  | .rlR r => [0xCB, opByte 0#2 2#3 r.code]
  | .rlMemHl => [0xCB, opByte 0#2 2#3 6#3]
  | .rrR r => [0xCB, opByte 0#2 3#3 r.code]
  | .rrMemHl => [0xCB, opByte 0#2 3#3 6#3]
  | .slaR r => [0xCB, opByte 0#2 4#3 r.code]
  | .slaMemHl => [0xCB, opByte 0#2 4#3 6#3]
  | .sraR r => [0xCB, opByte 0#2 5#3 r.code]
  | .sraMemHl => [0xCB, opByte 0#2 5#3 6#3]
  | .sliR r => [0xCB, opByte 0#2 6#3 r.code]
  | .sliMemHl => [0xCB, opByte 0#2 6#3 6#3]
  | .srlR r => [0xCB, opByte 0#2 7#3 r.code]
  | .srlMemHl => [0xCB, opByte 0#2 7#3 6#3]
  | .bitR b r => [0xCB, opByte 1#2 b r.code]
  | .bitMemHl b => [0xCB, opByte 1#2 b 6#3]
  | .resR b r => [0xCB, opByte 2#2 b r.code]
  | .resMemHl b => [0xCB, opByte 2#2 b 6#3]
  | .setR b r => [0xCB, opByte 3#2 b r.code]
  | .setMemHl b => [0xCB, opByte 3#2 b 6#3]
  | .nopEd op => [0xED, op]
  | .inRC r => [0xED, opByte 1#2 r.code 0#3]
  | .inf => [0xED, 0x70]
  | .outCR r => [0xED, opByte 1#2 r.code 1#3]
  | .outf => [0xED, 0x71]
  | .sbcHlRr q => [0xED, opByte 1#2 (q.code ++ 0#1) 2#3]
  | .adcHlRr q => [0xED, opByte 1#2 (q.code ++ 1#1) 2#3]
  | .ldMemNnRr q nn => [0xED, opByte 1#2 (q.code ++ 0#1) 3#3, lo nn, hi nn]
  | .ldRrMemNn q nn => [0xED, opByte 1#2 (q.code ++ 1#1) 3#3, lo nn, hi nn]
  | .neg k => [0xED, opByte 1#2 k 4#3]
  | .retn k => [0xED, opByte 1#2 (k ++ 0#1) 5#3]
  | .reti k => [0xED, opByte 1#2 (k ++ 1#1) 5#3]
  | .im k m => [0xED, opByte 1#2 (k ++ m) 6#3]
  | .ldIA => [0xED, 0x47]
  | .ldRA => [0xED, 0x4F]
  | .ldAI => [0xED, 0x57]
  | .ldAR => [0xED, 0x5F]
  | .rrd => [0xED, 0x67]
  | .rld => [0xED, 0x6F]
  | .ldIxNn nn => [0xDD, 0x21, lo nn, hi nn]
  | .addIxRr q => [0xDD, opByte 0#2 (q.code ++ 1#1) 1#3]
  | .ldMemNnIx nn => [0xDD, 0x22, lo nn, hi nn]
  | .ldIxMemNn nn => [0xDD, 0x2A, lo nn, hi nn]
  | .incIx16 => [0xDD, 0x23]
  | .decIx16 => [0xDD, 0x2B]
  | .incX x => [0xDD, opByte 0#2 x.code 4#3]
  | .decX x => [0xDD, opByte 0#2 x.code 5#3]
  | .ldXN x n => [0xDD, opByte 0#2 x.code 6#3, n]
  | .incIx o => [0xDD, opByte 0#2 6#3 4#3, o]
  | .decIx o => [0xDD, opByte 0#2 6#3 5#3, o]
  | .ldIxN o n => [0xDD, 0x36, o, n]
  | .ldXX rd r => [0xDD, opByte 1#2 rd.code r.code]
  | .ldDIx rd o => [0xDD, opByte 1#2 rd.code 6#3, o]
  | .ldIxR r o => [0xDD, opByte 1#2 6#3 r.code, o]
  | .addX x => [0xDD, opByte 2#2 0#3 x.code]
  | .addIx o => [0xDD, opByte 2#2 0#3 6#3, o]
  | .adcX x => [0xDD, opByte 2#2 1#3 x.code]
  | .adcIx o => [0xDD, opByte 2#2 1#3 6#3, o]
  | .subX x => [0xDD, opByte 2#2 2#3 x.code]
  | .subIx o => [0xDD, opByte 2#2 2#3 6#3, o]
  | .sbcX x => [0xDD, opByte 2#2 3#3 x.code]
  | .sbcIx o => [0xDD, opByte 2#2 3#3 6#3, o]
  | .andX x => [0xDD, opByte 2#2 4#3 x.code]
  | .andIx o => [0xDD, opByte 2#2 4#3 6#3, o]
  | .xorX x => [0xDD, opByte 2#2 5#3 x.code]
  | .xorIx o => [0xDD, opByte 2#2 5#3 6#3, o]
  | .orX x => [0xDD, opByte 2#2 6#3 x.code]
  | .orIx o => [0xDD, opByte 2#2 6#3 6#3, o]
  | .cpX x => [0xDD, opByte 2#2 7#3 x.code]
  | .cpIx o => [0xDD, opByte 2#2 7#3 6#3, o]
  | .popIx => [0xDD, 0xE1]
  | .pushIx => [0xDD, 0xE5]
  | .jpIx => [0xDD, 0xE9]
  | .ldSpIx => [0xDD, 0xF9]
  | .exSpIx => [0xDD, 0xE3]
  | .ignoredNextDd x => [x.prefixByte, 0xDD]
  | .ignoredNextEd x => [x.prefixByte, 0xED]
  | .ignoredNextFd x => [x.prefixByte, 0xFD]
  | .rlcIx o => [0xDD, 0xCB, o, opByte 0#2 0#3 6#3]
  | .rlcRIx r o => [0xDD, 0xCB, o, opByte 0#2 0#3 r.code]
  | .rrcIx o => [0xDD, 0xCB, o, opByte 0#2 1#3 6#3]
  | .rrcRIx r o => [0xDD, 0xCB, o, opByte 0#2 1#3 r.code]
  | .rlIx o => [0xDD, 0xCB, o, opByte 0#2 2#3 6#3]
  | .rlRIx r o => [0xDD, 0xCB, o, opByte 0#2 2#3 r.code]
  | .rrIx o => [0xDD, 0xCB, o, opByte 0#2 3#3 6#3]
  | .rrRIx r o => [0xDD, 0xCB, o, opByte 0#2 3#3 r.code]
  | .slaIx o => [0xDD, 0xCB, o, opByte 0#2 4#3 6#3]
  | .slaRIx r o => [0xDD, 0xCB, o, opByte 0#2 4#3 r.code]
  | .sraIx o => [0xDD, 0xCB, o, opByte 0#2 5#3 6#3]
  | .sraRIx r o => [0xDD, 0xCB, o, opByte 0#2 5#3 r.code]
  | .sliIx o => [0xDD, 0xCB, o, opByte 0#2 6#3 6#3]
  | .sliRIx r o => [0xDD, 0xCB, o, opByte 0#2 6#3 r.code]
  | .srlIx o => [0xDD, 0xCB, o, opByte 0#2 7#3 6#3]
  | .srlRIx r o => [0xDD, 0xCB, o, opByte 0#2 7#3 r.code]
  | .bitIx b k o => [0xDD, 0xCB, o, opByte 1#2 b k]
  | .resIx b o => [0xDD, 0xCB, o, opByte 2#2 b 6#3]
  | .resRIx b r o => [0xDD, 0xCB, o, opByte 2#2 b r.code]
  | .setIx b o => [0xDD, 0xCB, o, opByte 3#2 b 6#3]
  | .setRIx b r o => [0xDD, 0xCB, o, opByte 3#2 b r.code]
  | .ldIyNn nn => [0xFD, 0x21, lo nn, hi nn]
  | .addIyRr q => [0xFD, opByte 0#2 (q.code ++ 1#1) 1#3]
  | .ldMemNnIy nn => [0xFD, 0x22, lo nn, hi nn]
  | .ldIyMemNn nn => [0xFD, 0x2A, lo nn, hi nn]
  | .incIy16 => [0xFD, 0x23]
  | .decIy16 => [0xFD, 0x2B]
  | .incY x => [0xFD, opByte 0#2 x.code 4#3]
  | .decY x => [0xFD, opByte 0#2 x.code 5#3]
  | .ldYN x n => [0xFD, opByte 0#2 x.code 6#3, n]
  | .incIy o => [0xFD, opByte 0#2 6#3 4#3, o]
  | .decIy o => [0xFD, opByte 0#2 6#3 5#3, o]
  | .ldIyN o n => [0xFD, 0x36, o, n]
  | .ldYY rd r => [0xFD, opByte 1#2 rd.code r.code]
  | .ldDIy rd o => [0xFD, opByte 1#2 rd.code 6#3, o]
  | .ldIyR r o => [0xFD, opByte 1#2 6#3 r.code, o]
  | .addY x => [0xFD, opByte 2#2 0#3 x.code]
  | .addIy o => [0xFD, opByte 2#2 0#3 6#3, o]
  | .adcY x => [0xFD, opByte 2#2 1#3 x.code]
  | .adcIy o => [0xFD, opByte 2#2 1#3 6#3, o]
  | .subY x => [0xFD, opByte 2#2 2#3 x.code]
  | .subIy o => [0xFD, opByte 2#2 2#3 6#3, o]
  | .sbcY x => [0xFD, opByte 2#2 3#3 x.code]
  | .sbcIy o => [0xFD, opByte 2#2 3#3 6#3, o]
  | .andY x => [0xFD, opByte 2#2 4#3 x.code]
  | .andIy o => [0xFD, opByte 2#2 4#3 6#3, o]
  | .xorY x => [0xFD, opByte 2#2 5#3 x.code]
  | .xorIy o => [0xFD, opByte 2#2 5#3 6#3, o]
  | .orY x => [0xFD, opByte 2#2 6#3 x.code]
  | .orIy o => [0xFD, opByte 2#2 6#3 6#3, o]
  | .cpY x => [0xFD, opByte 2#2 7#3 x.code]
  | .cpIy o => [0xFD, opByte 2#2 7#3 6#3, o]
  | .popIy => [0xFD, 0xE1]
  | .pushIy => [0xFD, 0xE5]
  | .jpIy => [0xFD, 0xE9]
  | .ldSpIy => [0xFD, 0xF9]
  | .exSpIy => [0xFD, 0xE3]
  | .rlcIy o => [0xFD, 0xCB, o, opByte 0#2 0#3 6#3]
  | .rlcRIy r o => [0xFD, 0xCB, o, opByte 0#2 0#3 r.code]
  | .rrcIy o => [0xFD, 0xCB, o, opByte 0#2 1#3 6#3]
  | .rrcRIy r o => [0xFD, 0xCB, o, opByte 0#2 1#3 r.code]
  | .rlIy o => [0xFD, 0xCB, o, opByte 0#2 2#3 6#3]
  | .rlRIy r o => [0xFD, 0xCB, o, opByte 0#2 2#3 r.code]
  | .rrIy o => [0xFD, 0xCB, o, opByte 0#2 3#3 6#3]
  | .rrRIy r o => [0xFD, 0xCB, o, opByte 0#2 3#3 r.code]
  | .slaIy o => [0xFD, 0xCB, o, opByte 0#2 4#3 6#3]
  | .slaRIy r o => [0xFD, 0xCB, o, opByte 0#2 4#3 r.code]
  | .sraIy o => [0xFD, 0xCB, o, opByte 0#2 5#3 6#3]
  | .sraRIy r o => [0xFD, 0xCB, o, opByte 0#2 5#3 r.code]
  | .sliIy o => [0xFD, 0xCB, o, opByte 0#2 6#3 6#3]
  | .sliRIy r o => [0xFD, 0xCB, o, opByte 0#2 6#3 r.code]
  | .srlIy o => [0xFD, 0xCB, o, opByte 0#2 7#3 6#3]
  | .srlRIy r o => [0xFD, 0xCB, o, opByte 0#2 7#3 r.code]
  | .bitIy b k o => [0xFD, 0xCB, o, opByte 1#2 b k]
  | .resIy b o => [0xFD, 0xCB, o, opByte 2#2 b 6#3]
  | .resRIy b r o => [0xFD, 0xCB, o, opByte 2#2 b r.code]
  | .setIy b o => [0xFD, 0xCB, o, opByte 3#2 b 6#3]
  | .setRIy b r o => [0xFD, 0xCB, o, opByte 3#2 b r.code]
  | .prefixCb => [0xCB]
  | .prefixDd => [0xDD]
  | .prefixEd => [0xED]
  | .prefixFd => [0xFD]
  | .ldi => [0xED, 0xA0]
  | .ldd => [0xED, 0xA8]
  | .ldir => [0xED, 0xB0]
  | .lddr => [0xED, 0xB8]
  | .cpi => [0xED, 0xA1]
  | .cpd => [0xED, 0xA9]
  | .cpir => [0xED, 0xB1]
  | .cpdr => [0xED, 0xB9]
  | .ini => [0xED, 0xA2]
  | .ind => [0xED, 0xAA]
  | .inir => [0xED, 0xB2]
  | .indr => [0xED, 0xBA]
  | .oti => [0xED, 0xA3]
  | .otd => [0xED, 0xAB]
  | .otir => [0xED, 0xB3]
  | .otdr => [0xED, 0xBB]
  | .prefixDdCb => [0xDD, 0xCB]
  | .prefixFdCb => [0xFD, 0xCB]

/-! ## The table's words -/

/-- One of the four prefix bytes (30_encoding.md R111). -/
def isPrefixByte (b : Byte) : Bool := b == 0xCB || b == 0xDD || b == 0xED || b == 0xFD

/-- Byte `k` of a number, byte 0 the least significant. -/
def byteOfNat (w k : Nat) : Byte := BitVec.ofNat 8 (w / 256 ^ k)

/-- The bytes of a table word in the order of their addresses (30_encoding.md R145, log 18). A row of more than one
byte begins with a prefix byte; opcode_table.json writes it as the most significant byte of the number. Where the
most significant byte is no prefix byte the least significant byte comes first. -/
def tableBytes (nbits w : Nat) : List Byte :=
  let count := nbits / 8
  let rising := (List.range count).map (byteOfNat w)
  if isPrefixByte (rising.getLastD 0) then rising.reverse else rising

/-- The instruction of a table word: a bare prefix as it stands, else with zero bytes after it. -/
def decodeTableWord (nbits w : Nat) : Option Instr :=
  let bs := tableBytes nbits w
  match barePrefix bs with
  | some i => some i
  | none =>
    match decode (bs ++ List.replicate (4 - bs.length) 0) with
    | .ok i => some i
    | .error _ => none

end Sys2Proof
end

