-- ==== Sys2Proof/Machine/Rotate.lean ====
section
/-! DEFINITION. The meanings of rotates and shifts, RLD and RRD (45_rotate_shift.md). Each acts on the state `t` that the fetch leaves. -/

namespace Sys2Proof.Machine

/-- RLCA, RRCA, RLA, RRA with the shift function `g` (45_rotate_shift.md R371, R410). -/
def State.shiftAcc (s : State) (g : Byte → Bool → Byte × Bool) : State :=
  { s with a := (g s.a (flagC s.f)).1
           f := accShiftFlags (g s.a (flagC s.f)).1 (g s.a (flagC s.f)).2 s.f }

/-- Form (a), a register (45_rotate_shift.md R411, R409). -/
def State.shiftReg8 (s : State) (g : Byte → Bool → Byte × Bool) (r : Reg8) : State :=
  { s.setReg8 r (g (s.reg8 r) (flagC s.f)).1 with
    f := shiftFlags (g (s.reg8 r) (flagC s.f)).1 (g (s.reg8 r) (flagC s.f)).2 }

/-- Forms (b) and (c), the byte at `a` (45_rotate_shift.md R411, R409). -/
def State.shiftMem (s : State) (g : Byte → Bool → Byte × Bool) (a : Word) : State :=
  { s.memWrite a (g (s.memRead a) (flagC s.f)).1 with
    f := shiftFlags (g (s.memRead a) (flagC s.f)).1 (g (s.memRead a) (flagC s.f)).2 }

/-- Form (d), the byte at `a` and a register: the register is written even when the memory write is dropped
(45_rotate_shift.md R411, R412). -/
def State.shiftMemReg8 (s : State) (g : Byte → Bool → Byte × Bool) (a : Word) (r : Reg8) : State :=
  (s.shiftMem g a).setReg8 r (g (s.memRead a) (flagC s.f)).1

/-- The memory byte after RLD: `A` and the old byte `v` (45_rotate_shift.md R407, log 15). -/
def rldMem (a v : Byte) : Byte := (v <<< 4) ||| (a &&& 0x0F)
/-- A after RLD (45_rotate_shift.md R407). -/
def rldAcc (a v : Byte) : Byte := (a &&& 0xF0) ||| (v >>> 4)
/-- The memory byte after RRD (45_rotate_shift.md R408, log 15). -/
def rrdMem (a v : Byte) : Byte := (a <<< 4) ||| (v >>> 4)
/-- A after RRD (45_rotate_shift.md R408). -/
def rrdAcc (a v : Byte) : Byte := (a &&& 0xF0) ||| (v &&& 0x0F)

/-- RLD and RRD: the byte at HL, A and the flags from the new A (45_rotate_shift.md R407, R408). -/
def State.digitRotate (s : State) (mem acc : Byte) : State :=
  { s.memWrite s.hl mem with a := acc, f := byteFlagsKeepC acc s.f }

/-- `RLCA` (45_rotate_shift.md R371, R410). -/
def execRlca (p : Pfx) (s : State) : Result :=
  let t := s.beginP p 1
  .next (t.shiftAcc rlc)

/-- `RRCA` (45_rotate_shift.md R372, R410). -/
def execRrca (p : Pfx) (s : State) : Result :=
  let t := s.beginP p 1
  .next (t.shiftAcc rrc)

/-- `RLA` (45_rotate_shift.md R373, R410). -/
def execRla (p : Pfx) (s : State) : Result :=
  let t := s.beginP p 1
  .next (t.shiftAcc rl)

/-- `RRA` (45_rotate_shift.md R374, R410). -/
def execRra (p : Pfx) (s : State) : Result :=
  let t := s.beginP p 1
  .next (t.shiftAcc rr)

/-- `RLC r` (45_rotate_shift.md R375, R411 (a)). -/
def execRlcR (r : Reg8) (s : State) : Result :=
  let t := s.begin 2 2
  .next (t.shiftReg8 rlc r)

/-- `RLC (HL)` (45_rotate_shift.md R376, R411 (b)). -/
def execRlcMemHl (s : State) : Result :=
  let t := s.begin 2 2
  .next (t.shiftMem rlc t.hl)

/-- `RRC r` (45_rotate_shift.md R379, R411 (a)). -/
def execRrcR (r : Reg8) (s : State) : Result :=
  let t := s.begin 2 2
  .next (t.shiftReg8 rrc r)

/-- `RRC (HL)` (45_rotate_shift.md R380, R411 (b)). -/
def execRrcMemHl (s : State) : Result :=
  let t := s.begin 2 2
  .next (t.shiftMem rrc t.hl)

/-- `RL r` (45_rotate_shift.md R383, R411 (a)). -/
def execRlR (r : Reg8) (s : State) : Result :=
  let t := s.begin 2 2
  .next (t.shiftReg8 rl r)

/-- `RL (HL)` (45_rotate_shift.md R384, R411 (b)). -/
def execRlMemHl (s : State) : Result :=
  let t := s.begin 2 2
  .next (t.shiftMem rl t.hl)

/-- `RR r` (45_rotate_shift.md R387, R411 (a)). -/
def execRrR (r : Reg8) (s : State) : Result :=
  let t := s.begin 2 2
  .next (t.shiftReg8 rr r)

/-- `RR (HL)` (45_rotate_shift.md R388, R411 (b)). -/
def execRrMemHl (s : State) : Result :=
  let t := s.begin 2 2
  .next (t.shiftMem rr t.hl)

/-- `SLA r` (45_rotate_shift.md R391, R411 (a)). -/
def execSlaR (r : Reg8) (s : State) : Result :=
  let t := s.begin 2 2
  .next (t.shiftReg8 sla r)

/-- `SLA (HL)` (45_rotate_shift.md R392, R411 (b)). -/
def execSlaMemHl (s : State) : Result :=
  let t := s.begin 2 2
  .next (t.shiftMem sla t.hl)

/-- `SRA r` (45_rotate_shift.md R395, R411 (a)). -/
def execSraR (r : Reg8) (s : State) : Result :=
  let t := s.begin 2 2
  .next (t.shiftReg8 sra r)

/-- `SRA (HL)` (45_rotate_shift.md R396, R411 (b)). -/
def execSraMemHl (s : State) : Result :=
  let t := s.begin 2 2
  .next (t.shiftMem sra t.hl)

/-- `SLI r` (45_rotate_shift.md R399, R411 (a)). -/
def execSliR (r : Reg8) (s : State) : Result :=
  let t := s.begin 2 2
  .next (t.shiftReg8 sli r)

/-- `SLI (HL)` (45_rotate_shift.md R400, R411 (b)). -/
def execSliMemHl (s : State) : Result :=
  let t := s.begin 2 2
  .next (t.shiftMem sli t.hl)

/-- `SRL r` (45_rotate_shift.md R403, R411 (a)). -/
def execSrlR (r : Reg8) (s : State) : Result :=
  let t := s.begin 2 2
  .next (t.shiftReg8 srl r)

/-- `SRL (HL)` (45_rotate_shift.md R404, R411 (b)). -/
def execSrlMemHl (s : State) : Result :=
  let t := s.begin 2 2
  .next (t.shiftMem srl t.hl)

/-- `RRD` (45_rotate_shift.md R408). -/
def execRrd (s : State) : Result :=
  let t := s.begin 2 2
  .next (t.digitRotate (rrdMem t.a (t.memRead t.hl)) (rrdAcc t.a (t.memRead t.hl)))

/-- `RLD` (45_rotate_shift.md R407). -/
def execRld (s : State) : Result :=
  let t := s.begin 2 2
  .next (t.digitRotate (rldMem t.a (t.memRead t.hl)) (rldAcc t.a (t.memRead t.hl)))

/-- `RLC (IX+s)` (45_rotate_shift.md R377, R411 (c)). -/
def execRlcIx (o : Byte) (s : State) : Result :=
  let t := s.begin 4 2
  .next (t.shiftMem rlc (t.ea .ix o))

/-- `RLC r,(IX+s)` (45_rotate_shift.md R378, R411 (d), R412). -/
def execRlcRIx (r : Reg8) (o : Byte) (s : State) : Result :=
  let t := s.begin 4 2
  .next (t.shiftMemReg8 rlc (t.ea .ix o) r)

/-- `RRC (IX+s)` (45_rotate_shift.md R381, R411 (c)). -/
def execRrcIx (o : Byte) (s : State) : Result :=
  let t := s.begin 4 2
  .next (t.shiftMem rrc (t.ea .ix o))

/-- `RRC r,(IX+s)` (45_rotate_shift.md R382, R411 (d), R412). -/
def execRrcRIx (r : Reg8) (o : Byte) (s : State) : Result :=
  let t := s.begin 4 2
  .next (t.shiftMemReg8 rrc (t.ea .ix o) r)

/-- `RL (IX+s)` (45_rotate_shift.md R385, R411 (c)). -/
def execRlIx (o : Byte) (s : State) : Result :=
  let t := s.begin 4 2
  .next (t.shiftMem rl (t.ea .ix o))

/-- `RL r,(IX+s)` (45_rotate_shift.md R386, R411 (d), R412). -/
def execRlRIx (r : Reg8) (o : Byte) (s : State) : Result :=
  let t := s.begin 4 2
  .next (t.shiftMemReg8 rl (t.ea .ix o) r)

/-- `RR (IX+s)` (45_rotate_shift.md R389, R411 (c)). -/
def execRrIx (o : Byte) (s : State) : Result :=
  let t := s.begin 4 2
  .next (t.shiftMem rr (t.ea .ix o))

/-- `RR r,(IX+s)` (45_rotate_shift.md R390, R411 (d), R412). -/
def execRrRIx (r : Reg8) (o : Byte) (s : State) : Result :=
  let t := s.begin 4 2
  .next (t.shiftMemReg8 rr (t.ea .ix o) r)

/-- `SLA (IX+s)` (45_rotate_shift.md R393, R411 (c)). -/
def execSlaIx (o : Byte) (s : State) : Result :=
  let t := s.begin 4 2
  .next (t.shiftMem sla (t.ea .ix o))

/-- `SLA r,(IX+s)` (45_rotate_shift.md R394, R411 (d), R412). -/
def execSlaRIx (r : Reg8) (o : Byte) (s : State) : Result :=
  let t := s.begin 4 2
  .next (t.shiftMemReg8 sla (t.ea .ix o) r)

/-- `SRA (IX+s)` (45_rotate_shift.md R397, R411 (c)). -/
def execSraIx (o : Byte) (s : State) : Result :=
  let t := s.begin 4 2
  .next (t.shiftMem sra (t.ea .ix o))

/-- `SRA r,(IX+s)` (45_rotate_shift.md R398, R411 (d), R412). -/
def execSraRIx (r : Reg8) (o : Byte) (s : State) : Result :=
  let t := s.begin 4 2
  .next (t.shiftMemReg8 sra (t.ea .ix o) r)

/-- `SLI (IX+s)` (45_rotate_shift.md R401, R411 (c)). -/
def execSliIx (o : Byte) (s : State) : Result :=
  let t := s.begin 4 2
  .next (t.shiftMem sli (t.ea .ix o))

/-- `SLI r,(IX+s)` (45_rotate_shift.md R402, R411 (d), R412). -/
def execSliRIx (r : Reg8) (o : Byte) (s : State) : Result :=
  let t := s.begin 4 2
  .next (t.shiftMemReg8 sli (t.ea .ix o) r)

/-- `SRL (IX+s)` (45_rotate_shift.md R405, R411 (c)). -/
def execSrlIx (o : Byte) (s : State) : Result :=
  let t := s.begin 4 2
  .next (t.shiftMem srl (t.ea .ix o))

/-- `SRL r,(IX+s)` (45_rotate_shift.md R406, R411 (d), R412). -/
def execSrlRIx (r : Reg8) (o : Byte) (s : State) : Result :=
  let t := s.begin 4 2
  .next (t.shiftMemReg8 srl (t.ea .ix o) r)

/-- `RLC (IY+s)` (45_rotate_shift.md R377, R411 (c)). -/
def execRlcIy (o : Byte) (s : State) : Result :=
  let t := s.begin 4 2
  .next (t.shiftMem rlc (t.ea .iy o))

/-- `RLC r,(IY+s)` (45_rotate_shift.md R378, R411 (d), R412). -/
def execRlcRIy (r : Reg8) (o : Byte) (s : State) : Result :=
  let t := s.begin 4 2
  .next (t.shiftMemReg8 rlc (t.ea .iy o) r)

/-- `RRC (IY+s)` (45_rotate_shift.md R381, R411 (c)). -/
def execRrcIy (o : Byte) (s : State) : Result :=
  let t := s.begin 4 2
  .next (t.shiftMem rrc (t.ea .iy o))

/-- `RRC r,(IY+s)` (45_rotate_shift.md R382, R411 (d), R412). -/
def execRrcRIy (r : Reg8) (o : Byte) (s : State) : Result :=
  let t := s.begin 4 2
  .next (t.shiftMemReg8 rrc (t.ea .iy o) r)

/-- `RL (IY+s)` (45_rotate_shift.md R385, R411 (c)). -/
def execRlIy (o : Byte) (s : State) : Result :=
  let t := s.begin 4 2
  .next (t.shiftMem rl (t.ea .iy o))

/-- `RL r,(IY+s)` (45_rotate_shift.md R386, R411 (d), R412). -/
def execRlRIy (r : Reg8) (o : Byte) (s : State) : Result :=
  let t := s.begin 4 2
  .next (t.shiftMemReg8 rl (t.ea .iy o) r)

/-- `RR (IY+s)` (45_rotate_shift.md R389, R411 (c)). -/
def execRrIy (o : Byte) (s : State) : Result :=
  let t := s.begin 4 2
  .next (t.shiftMem rr (t.ea .iy o))

/-- `RR r,(IY+s)` (45_rotate_shift.md R390, R411 (d), R412). -/
def execRrRIy (r : Reg8) (o : Byte) (s : State) : Result :=
  let t := s.begin 4 2
  .next (t.shiftMemReg8 rr (t.ea .iy o) r)

/-- `SLA (IY+s)` (45_rotate_shift.md R393, R411 (c)). -/
def execSlaIy (o : Byte) (s : State) : Result :=
  let t := s.begin 4 2
  .next (t.shiftMem sla (t.ea .iy o))

/-- `SLA r,(IY+s)` (45_rotate_shift.md R394, R411 (d), R412). -/
def execSlaRIy (r : Reg8) (o : Byte) (s : State) : Result :=
  let t := s.begin 4 2
  .next (t.shiftMemReg8 sla (t.ea .iy o) r)

/-- `SRA (IY+s)` (45_rotate_shift.md R397, R411 (c)). -/
def execSraIy (o : Byte) (s : State) : Result :=
  let t := s.begin 4 2
  .next (t.shiftMem sra (t.ea .iy o))

/-- `SRA r,(IY+s)` (45_rotate_shift.md R398, R411 (d), R412). -/
def execSraRIy (r : Reg8) (o : Byte) (s : State) : Result :=
  let t := s.begin 4 2
  .next (t.shiftMemReg8 sra (t.ea .iy o) r)

/-- `SLI (IY+s)` (45_rotate_shift.md R401, R411 (c)). -/
def execSliIy (o : Byte) (s : State) : Result :=
  let t := s.begin 4 2
  .next (t.shiftMem sli (t.ea .iy o))

/-- `SLI r,(IY+s)` (45_rotate_shift.md R402, R411 (d), R412). -/
def execSliRIy (r : Reg8) (o : Byte) (s : State) : Result :=
  let t := s.begin 4 2
  .next (t.shiftMemReg8 sli (t.ea .iy o) r)

/-- `SRL (IY+s)` (45_rotate_shift.md R405, R411 (c)). -/
def execSrlIy (o : Byte) (s : State) : Result :=
  let t := s.begin 4 2
  .next (t.shiftMem srl (t.ea .iy o))

/-- `SRL r,(IY+s)` (45_rotate_shift.md R406, R411 (d), R412). -/
def execSrlRIy (r : Reg8) (o : Byte) (s : State) : Result :=
  let t := s.begin 4 2
  .next (t.shiftMemReg8 srl (t.ea .iy o) r)

end Sys2Proof.Machine
end

