-- ==== Sys2Proof/Machine/System.lean ====
section
/-! DEFINITION. The meanings of the system instructions, the undefined ED opcodes and the ignored prefixes (49_system.md, 30_encoding.md R137). Each acts on the state `t` that the fetch leaves. -/

namespace Sys2Proof.Machine

/-- `mode(ii)`: 00 and 01 give 0, 10 gives 1, 11 gives 2 (49_system.md R484). -/
def imOfField (m : BitVec 2) : IntMode :=
  if m = 2#2 then .im1 else if m = 3#2 then .im2 else .im0

/-- `NOP` (49_system.md R480). -/
def execNop (p : Pfx) (s : State) : Result := .next (s.beginP p 1)

/-- `HALT` (49_system.md R488). -/
def execHalt (p : Pfx) (s : State) : Result :=
  let t := s.beginP p 1
  .next ({ t with halted := true })

/-- `DI` (49_system.md R482). -/
def execDi (p : Pfx) (s : State) : Result :=
  let t := s.beginP p 1
  .next ({ t with iff1 := false, iff2 := false })

/-- `EI` (49_system.md R483). -/
def execEi (p : Pfx) (s : State) : Result :=
  let t := s.beginP p 1
  .next ({ t with iff1 := true, iff2 := true, inhibit := true })

/-- `no operation: undefined ED opcode` (49_system.md R489; `op` is the byte after ED). -/
def execNopEd (_op : Byte) (s : State) : Result := .next (s.begin 2 2)

/-- `RETN` (49_system.md R486; `k` is the field of undefined bits). -/
def execRetn (_k : BitVec 2) (s : State) : Result :=
  let t := s.begin 2 2
  .next (t.retFromNmi)

/-- `RETI` (49_system.md R487; `k` is the field of undefined bits). -/
def execReti (_k : BitVec 2) (s : State) : Result :=
  let t := s.begin 2 2
  .next (t.ret)

/-- `IM i` (49_system.md R484; `k` is the undefined bit, `m` the field ii). -/
def execIm (_k : BitVec 1) (m : BitVec 2) (s : State) : Result :=
  let t := s.begin 2 2
  .next ({ t with im := imOfField m })

/-- `ignored prefix: next byte DD` (30_encoding.md R137; the byte after it is not consumed). -/
def execIgnoredNextDd (_x : Index) (s : State) : Result :=
  let t := s.begin 1 1
  .next ({ t with inhibit := true })

/-- `ignored prefix: next byte ED` (30_encoding.md R137; the byte after it is not consumed). -/
def execIgnoredNextEd (_x : Index) (s : State) : Result :=
  let t := s.begin 1 1
  .next ({ t with inhibit := true })

/-- `ignored prefix: next byte FD` (30_encoding.md R137; the byte after it is not consumed). -/
def execIgnoredNextFd (_x : Index) (s : State) : Result :=
  let t := s.begin 1 1
  .next ({ t with inhibit := true })

end Sys2Proof.Machine
end

