-- ==== Sys2Proof/Machine/Prefix.lean ====
section
/-! DEFINITION. The six rows that are prefix bytes on their own (30_encoding.md R111, R135; log 17). A prefix byte
"is part of the instruction it starts", so the meaning of such a row is the instruction whose first bytes are the
row's and whose further bytes are read from memory after them. -/

namespace Sys2Proof.Machine

/-- The meaning of an instruction that the maps give: every constructor but the six prefix rows. The six arms of the
prefix rows are not reached from a decoded instruction (Laws/Decode.lean, `decode4_not_prefix`). -/
def execMapped (i : Instr) (s : State) : Result :=
  match i with
  | .nop p => execNop p s
  | .exAfAf p => execExAfAf p s
  | .djnz p o => execDjnz p o s
  | .jr p o => execJr p o s
  | .jrCc p cc o => execJrCc p cc o s
  | .ldRrNn p q nn => execLdRrNn p q nn s
  | .addHlRr q => execAddHlRr q s
  | .ldMemBcA p => execLdMemBcA p s
  | .ldAMemBc p => execLdAMemBc p s
  | .ldMemDeA p => execLdMemDeA p s
  | .ldAMemDe p => execLdAMemDe p s
  | .ldMemNnHl nn => execLdMemNnHl nn s
  | .ldHlMemNn nn => execLdHlMemNn nn s
  | .ldMemNnA p nn => execLdMemNnA p nn s
  | .ldAMemNn p nn => execLdAMemNn p nn s
  | .incRr p q => execIncRr p q s
  | .decRr p q => execDecRr p q s
  | .incR p r => execIncR p r s
  | .incMemHl => execIncMemHl s
  | .decR p r => execDecR p r s
  | .decMemHl => execDecMemHl s
  | .ldRN p r n => execLdRN p r n s
  | .ldMemHlN n => execLdMemHlN n s
  | .rlca p => execRlca p s
  | .rrca p => execRrca p s
  | .rla p => execRla p s
  | .rra p => execRra p s
  | .daa p => execDaa p s
  | .cpl p => execCpl p s
  | .scf p => execScf p s
  | .ccf p => execCcf p s
  | .ldDR p rd r => execLdDR p rd r s
  | .ldDMemHl rd => execLdDMemHl rd s
  | .ldMemHlR r => execLdMemHlR r s
  | .halt p => execHalt p s
  | .addR p r => execAddR p r s
  | .addMemHl => execAddMemHl s
  | .adcR p r => execAdcR p r s
  | .adcMemHl => execAdcMemHl s
  | .subR p r => execSubR p r s
  | .subMemHl => execSubMemHl s
  | .sbcR p r => execSbcR p r s
  | .sbcMemHl => execSbcMemHl s
  | .andR p r => execAndR p r s
  | .andMemHl => execAndMemHl s
  | .xorR p r => execXorR p r s
  | .xorMemHl => execXorMemHl s
  | .orR p r => execOrR p r s
  | .orMemHl => execOrMemHl s
  | .cpR p r => execCpR p r s
  | .cpMemHl => execCpMemHl s
  | .retC p cc => execRetC p cc s
  | .popRs p q => execPopRs p q s
  | .popAf p => execPopAf p s
  | .ret p => execRet p s
  | .exx p => execExx p s
  | .jpHl => execJpHl s
  | .ldSpHl => execLdSpHl s
  | .jpCNn p cc nn => execJpCNn p cc nn s
  | .jpNn p nn => execJpNn p nn s
  | .outNA p n => execOutNA p n s
  | .inAN p n => execInAN p n s
  | .exSpHl => execExSpHl s
  | .exDeHl p => execExDeHl p s
  | .di p => execDi p s
  | .ei p => execEi p s
  | .callCNn p cc nn => execCallCNn p cc nn s
  | .pushRs p q => execPushRs p q s
  | .pushAf p => execPushAf p s
  | .callNn p nn => execCallNn p nn s
  | .addN p n => execAddN p n s
  | .adcN p n => execAdcN p n s
  | .subN p n => execSubN p n s
  | .sbcN p n => execSbcN p n s
  | .andN p n => execAndN p n s
  | .xorN p n => execXorN p n s
  | .orN p n => execOrN p n s
  | .cpN p n => execCpN p n s
  | .rst p v => execRst p v s
  | .rlcR r => execRlcR r s
  | .rlcMemHl => execRlcMemHl s
  | .rrcR r => execRrcR r s
  | .rrcMemHl => execRrcMemHl s
  | .rlR r => execRlR r s
  | .rlMemHl => execRlMemHl s
  | .rrR r => execRrR r s
  | .rrMemHl => execRrMemHl s
  | .slaR r => execSlaR r s
  | .slaMemHl => execSlaMemHl s
  | .sraR r => execSraR r s
  | .sraMemHl => execSraMemHl s
  | .sliR r => execSliR r s
  | .sliMemHl => execSliMemHl s
  | .srlR r => execSrlR r s
  | .srlMemHl => execSrlMemHl s
  | .bitR b r => execBitR b r s
  | .bitMemHl b => execBitMemHl b s
  | .resR b r => execResR b r s
  | .resMemHl b => execResMemHl b s
  | .setR b r => execSetR b r s
  | .setMemHl b => execSetMemHl b s
  | .nopEd op => execNopEd op s
  | .inRC r => execInRC r s
  | .inf => execInf s
  | .outCR r => execOutCR r s
  | .outf => execOutf s
  | .sbcHlRr q => execSbcHlRr q s
  | .adcHlRr q => execAdcHlRr q s
  | .ldMemNnRr q nn => execLdMemNnRr q nn s
  | .ldRrMemNn q nn => execLdRrMemNn q nn s
  | .neg k => execNeg k s
  | .retn k => execRetn k s
  | .reti k => execReti k s
  | .im k m => execIm k m s
  | .ldIA => execLdIA s
  | .ldRA => execLdRA s
  | .ldAI => execLdAI s
  | .ldAR => execLdAR s
  | .rrd => execRrd s
  | .rld => execRld s
  | .ldIxNn nn => execLdIxNn nn s
  | .addIxRr q => execAddIxRr q s
  | .ldMemNnIx nn => execLdMemNnIx nn s
  | .ldIxMemNn nn => execLdIxMemNn nn s
  | .incIx16 => execIncIx16 s
  | .decIx16 => execDecIx16 s
  | .incX x => execIncX x s
  | .decX x => execDecX x s
  | .ldXN x n => execLdXN x n s
  | .incIx o => execIncIx o s
  | .decIx o => execDecIx o s
  | .ldIxN o n => execLdIxN o n s
  | .ldXX rd r => execLdXX rd r s
  | .ldDIx rd o => execLdDIx rd o s
  | .ldIxR r o => execLdIxR r o s
  | .addX x => execAddX x s
  | .addIx o => execAddIx o s
  | .adcX x => execAdcX x s
  | .adcIx o => execAdcIx o s
  | .subX x => execSubX x s
  | .subIx o => execSubIx o s
  | .sbcX x => execSbcX x s
  | .sbcIx o => execSbcIx o s
  | .andX x => execAndX x s
  | .andIx o => execAndIx o s
  | .xorX x => execXorX x s
  | .xorIx o => execXorIx o s
  | .orX x => execOrX x s
  | .orIx o => execOrIx o s
  | .cpX x => execCpX x s
  | .cpIx o => execCpIx o s
  | .popIx => execPopIx s
  | .pushIx => execPushIx s
  | .jpIx => execJpIx s
  | .ldSpIx => execLdSpIx s
  | .exSpIx => execExSpIx s
  | .ignoredNextDd x => execIgnoredNextDd x s
  | .ignoredNextEd x => execIgnoredNextEd x s
  | .ignoredNextFd x => execIgnoredNextFd x s
  | .rlcIx o => execRlcIx o s
  | .rlcRIx r o => execRlcRIx r o s
  | .rrcIx o => execRrcIx o s
  | .rrcRIx r o => execRrcRIx r o s
  | .rlIx o => execRlIx o s
  | .rlRIx r o => execRlRIx r o s
  | .rrIx o => execRrIx o s
  | .rrRIx r o => execRrRIx r o s
  | .slaIx o => execSlaIx o s
  | .slaRIx r o => execSlaRIx r o s
  | .sraIx o => execSraIx o s
  | .sraRIx r o => execSraRIx r o s
  | .sliIx o => execSliIx o s
  | .sliRIx r o => execSliRIx r o s
  | .srlIx o => execSrlIx o s
  | .srlRIx r o => execSrlRIx r o s
  | .bitIx b k o => execBitIx b k o s
  | .resIx b o => execResIx b o s
  | .resRIx b r o => execResRIx b r o s
  | .setIx b o => execSetIx b o s
  | .setRIx b r o => execSetRIx b r o s
  | .ldIyNn nn => execLdIyNn nn s
  | .addIyRr q => execAddIyRr q s
  | .ldMemNnIy nn => execLdMemNnIy nn s
  | .ldIyMemNn nn => execLdIyMemNn nn s
  | .incIy16 => execIncIy16 s
  | .decIy16 => execDecIy16 s
  | .incY x => execIncY x s
  | .decY x => execDecY x s
  | .ldYN x n => execLdYN x n s
  | .incIy o => execIncIy o s
  | .decIy o => execDecIy o s
  | .ldIyN o n => execLdIyN o n s
  | .ldYY rd r => execLdYY rd r s
  | .ldDIy rd o => execLdDIy rd o s
  | .ldIyR r o => execLdIyR r o s
  | .addY x => execAddY x s
  | .addIy o => execAddIy o s
  | .adcY x => execAdcY x s
  | .adcIy o => execAdcIy o s
  | .subY x => execSubY x s
  | .subIy o => execSubIy o s
  | .sbcY x => execSbcY x s
  | .sbcIy o => execSbcIy o s
  | .andY x => execAndY x s
  | .andIy o => execAndIy o s
  | .xorY x => execXorY x s
  | .xorIy o => execXorIy o s
  | .orY x => execOrY x s
  | .orIy o => execOrIy o s
  | .cpY x => execCpY x s
  | .cpIy o => execCpIy o s
  | .popIy => execPopIy s
  | .pushIy => execPushIy s
  | .jpIy => execJpIy s
  | .ldSpIy => execLdSpIy s
  | .exSpIy => execExSpIy s
  | .rlcIy o => execRlcIy o s
  | .rlcRIy r o => execRlcRIy r o s
  | .rrcIy o => execRrcIy o s
  | .rrcRIy r o => execRrcRIy r o s
  | .rlIy o => execRlIy o s
  | .rlRIy r o => execRlRIy r o s
  | .rrIy o => execRrIy o s
  | .rrRIy r o => execRrRIy r o s
  | .slaIy o => execSlaIy o s
  | .slaRIy r o => execSlaRIy r o s
  | .sraIy o => execSraIy o s
  | .sraRIy r o => execSraRIy r o s
  | .sliIy o => execSliIy o s
  | .sliRIy r o => execSliRIy r o s
  | .srlIy o => execSrlIy o s
  | .srlRIy r o => execSrlRIy r o s
  | .bitIy b k o => execBitIy b k o s
  | .resIy b o => execResIy b o s
  | .resRIy b r o => execResRIy b r o s
  | .setIy b o => execSetIy b o s
  | .setRIy b r o => execSetRIy b r o s
  | .prefixCb => .next s
  | .prefixDd => .next s
  | .prefixEd => .next s
  | .prefixFd => .next s
  | .ldi => execLdi s
  | .ldd => execLdd s
  | .ldir => execLdir s
  | .lddr => execLddr s
  | .cpi => execCpi s
  | .cpd => execCpd s
  | .cpir => execCpir s
  | .cpdr => execCpdr s
  | .ini => execIni s
  | .ind => execInd s
  | .inir => execInir s
  | .indr => execIndr s
  | .oti => execOti s
  | .otd => execOtd s
  | .otir => execOtir s
  | .otdr => execOtdr s
  | .prefixDdCb => .next s
  | .prefixFdCb => .next s

/-- The byte at `PC + k`, read as an instruction byte (30_encoding.md R110, R113). -/
def State.codeByte (s : State) (k : Nat) : Byte := s.memRead (s.pc + BitVec.ofNat 16 k)

/-- `CB` as the first byte of an instruction (30_encoding.md R111). -/
def execPrefixCb (s : State) : Result := execMapped (decode4 0xCB (s.codeByte 1) (s.codeByte 2) (s.codeByte 3)) s

/-- `DD` as the first byte of an instruction (30_encoding.md R111). -/
def execPrefixDd (s : State) : Result := execMapped (decode4 0xDD (s.codeByte 1) (s.codeByte 2) (s.codeByte 3)) s

/-- `ED` as the first byte of an instruction (30_encoding.md R111). -/
def execPrefixEd (s : State) : Result := execMapped (decode4 0xED (s.codeByte 1) (s.codeByte 2) (s.codeByte 3)) s

/-- `FD` as the first byte of an instruction (30_encoding.md R111). -/
def execPrefixFd (s : State) : Result := execMapped (decode4 0xFD (s.codeByte 1) (s.codeByte 2) (s.codeByte 3)) s

/-- `DD CB` as the first bytes of an instruction (30_encoding.md R111, R135). -/
def execPrefixDdCb (s : State) : Result := execMapped (decode4 0xDD 0xCB (s.codeByte 2) (s.codeByte 3)) s

/-- `FD CB` as the first bytes of an instruction (30_encoding.md R111, R135). -/
def execPrefixFdCb (s : State) : Result := execMapped (decode4 0xFD 0xCB (s.codeByte 2) (s.codeByte 3)) s

end Sys2Proof.Machine
end

