-- ==== Sys2Proof/Machine/Dispatch.lean ====
section
/-! DEFINITION. The meaning of every instruction, one arm per constructor. -/

namespace Sys2Proof.Machine

def exec (i : Instr) (s : State) : Host.Outcome State Fault Refusal :=
  match i with
  | .nop p => Sys2Proof.Machine.execNop p s
  | .exAfAf p => Sys2Proof.Machine.execExAfAf p s
  | .djnz p o => Sys2Proof.Machine.execDjnz p o s
  | .jr p o => Sys2Proof.Machine.execJr p o s
  | .jrCc p cc o => Sys2Proof.Machine.execJrCc p cc o s
  | .ldRrNn p q nn => Sys2Proof.Machine.execLdRrNn p q nn s
  | .addHlRr q => Sys2Proof.Machine.execAddHlRr q s
  | .ldMemBcA p => Sys2Proof.Machine.execLdMemBcA p s
  | .ldAMemBc p => Sys2Proof.Machine.execLdAMemBc p s
  | .ldMemDeA p => Sys2Proof.Machine.execLdMemDeA p s
  | .ldAMemDe p => Sys2Proof.Machine.execLdAMemDe p s
  | .ldMemNnHl nn => Sys2Proof.Machine.execLdMemNnHl nn s
  | .ldHlMemNn nn => Sys2Proof.Machine.execLdHlMemNn nn s
  | .ldMemNnA p nn => Sys2Proof.Machine.execLdMemNnA p nn s
  | .ldAMemNn p nn => Sys2Proof.Machine.execLdAMemNn p nn s
  | .incRr p q => Sys2Proof.Machine.execIncRr p q s
  | .decRr p q => Sys2Proof.Machine.execDecRr p q s
  | .incR p r => Sys2Proof.Machine.execIncR p r s
  | .incMemHl => Sys2Proof.Machine.execIncMemHl s
  | .decR p r => Sys2Proof.Machine.execDecR p r s
  | .decMemHl => Sys2Proof.Machine.execDecMemHl s
  | .ldRN p r n => Sys2Proof.Machine.execLdRN p r n s
  | .ldMemHlN n => Sys2Proof.Machine.execLdMemHlN n s
  | .rlca p => Sys2Proof.Machine.execRlca p s
  | .rrca p => Sys2Proof.Machine.execRrca p s
  | .rla p => Sys2Proof.Machine.execRla p s
  | .rra p => Sys2Proof.Machine.execRra p s
  | .daa p => Sys2Proof.Machine.execDaa p s
  | .cpl p => Sys2Proof.Machine.execCpl p s
  | .scf p => Sys2Proof.Machine.execScf p s
  | .ccf p => Sys2Proof.Machine.execCcf p s
  | .ldDR p rd r => Sys2Proof.Machine.execLdDR p rd r s
  | .ldDMemHl rd => Sys2Proof.Machine.execLdDMemHl rd s
  | .ldMemHlR r => Sys2Proof.Machine.execLdMemHlR r s
  | .halt p => Sys2Proof.Machine.execHalt p s
  | .addR p r => Sys2Proof.Machine.execAddR p r s
  | .addMemHl => Sys2Proof.Machine.execAddMemHl s
  | .adcR p r => Sys2Proof.Machine.execAdcR p r s
  | .adcMemHl => Sys2Proof.Machine.execAdcMemHl s
  | .subR p r => Sys2Proof.Machine.execSubR p r s
  | .subMemHl => Sys2Proof.Machine.execSubMemHl s
  | .sbcR p r => Sys2Proof.Machine.execSbcR p r s
  | .sbcMemHl => Sys2Proof.Machine.execSbcMemHl s
  | .andR p r => Sys2Proof.Machine.execAndR p r s
  | .andMemHl => Sys2Proof.Machine.execAndMemHl s
  | .xorR p r => Sys2Proof.Machine.execXorR p r s
  | .xorMemHl => Sys2Proof.Machine.execXorMemHl s
  | .orR p r => Sys2Proof.Machine.execOrR p r s
  | .orMemHl => Sys2Proof.Machine.execOrMemHl s
  | .cpR p r => Sys2Proof.Machine.execCpR p r s
  | .cpMemHl => Sys2Proof.Machine.execCpMemHl s
  | .retC p cc => Sys2Proof.Machine.execRetC p cc s
  | .popRs p q => Sys2Proof.Machine.execPopRs p q s
  | .popAf p => Sys2Proof.Machine.execPopAf p s
  | .ret p => Sys2Proof.Machine.execRet p s
  | .exx p => Sys2Proof.Machine.execExx p s
  | .jpHl => Sys2Proof.Machine.execJpHl s
  | .ldSpHl => Sys2Proof.Machine.execLdSpHl s
  | .jpCNn p cc nn => Sys2Proof.Machine.execJpCNn p cc nn s
  | .jpNn p nn => Sys2Proof.Machine.execJpNn p nn s
  | .outNA p n => Sys2Proof.Machine.execOutNA p n s
  | .inAN p n => Sys2Proof.Machine.execInAN p n s
  | .exSpHl => Sys2Proof.Machine.execExSpHl s
  | .exDeHl p => Sys2Proof.Machine.execExDeHl p s
  | .di p => Sys2Proof.Machine.execDi p s
  | .ei p => Sys2Proof.Machine.execEi p s
  | .callCNn p cc nn => Sys2Proof.Machine.execCallCNn p cc nn s
  | .pushRs p q => Sys2Proof.Machine.execPushRs p q s
  | .pushAf p => Sys2Proof.Machine.execPushAf p s
  | .callNn p nn => Sys2Proof.Machine.execCallNn p nn s
  | .addN p n => Sys2Proof.Machine.execAddN p n s
  | .adcN p n => Sys2Proof.Machine.execAdcN p n s
  | .subN p n => Sys2Proof.Machine.execSubN p n s
  | .sbcN p n => Sys2Proof.Machine.execSbcN p n s
  | .andN p n => Sys2Proof.Machine.execAndN p n s
  | .xorN p n => Sys2Proof.Machine.execXorN p n s
  | .orN p n => Sys2Proof.Machine.execOrN p n s
  | .cpN p n => Sys2Proof.Machine.execCpN p n s
  | .rst p v => Sys2Proof.Machine.execRst p v s
  | .rlcR r => Sys2Proof.Machine.execRlcR r s
  | .rlcMemHl => Sys2Proof.Machine.execRlcMemHl s
  | .rrcR r => Sys2Proof.Machine.execRrcR r s
  | .rrcMemHl => Sys2Proof.Machine.execRrcMemHl s
  | .rlR r => Sys2Proof.Machine.execRlR r s
  | .rlMemHl => Sys2Proof.Machine.execRlMemHl s
  | .rrR r => Sys2Proof.Machine.execRrR r s
  | .rrMemHl => Sys2Proof.Machine.execRrMemHl s
  | .slaR r => Sys2Proof.Machine.execSlaR r s
  | .slaMemHl => Sys2Proof.Machine.execSlaMemHl s
  | .sraR r => Sys2Proof.Machine.execSraR r s
  | .sraMemHl => Sys2Proof.Machine.execSraMemHl s
  | .sliR r => Sys2Proof.Machine.execSliR r s
  | .sliMemHl => Sys2Proof.Machine.execSliMemHl s
  | .srlR r => Sys2Proof.Machine.execSrlR r s
  | .srlMemHl => Sys2Proof.Machine.execSrlMemHl s
  | .bitR b r => Sys2Proof.Machine.execBitR b r s
  | .bitMemHl b => Sys2Proof.Machine.execBitMemHl b s
  | .resR b r => Sys2Proof.Machine.execResR b r s
  | .resMemHl b => Sys2Proof.Machine.execResMemHl b s
  | .setR b r => Sys2Proof.Machine.execSetR b r s
  | .setMemHl b => Sys2Proof.Machine.execSetMemHl b s
  | .nopEd op => Sys2Proof.Machine.execNopEd op s
  | .inRC r => Sys2Proof.Machine.execInRC r s
  | .inf => Sys2Proof.Machine.execInf s
  | .outCR r => Sys2Proof.Machine.execOutCR r s
  | .outf => Sys2Proof.Machine.execOutf s
  | .sbcHlRr q => Sys2Proof.Machine.execSbcHlRr q s
  | .adcHlRr q => Sys2Proof.Machine.execAdcHlRr q s
  | .ldMemNnRr q nn => Sys2Proof.Machine.execLdMemNnRr q nn s
  | .ldRrMemNn q nn => Sys2Proof.Machine.execLdRrMemNn q nn s
  | .neg k => Sys2Proof.Machine.execNeg k s
  | .retn k => Sys2Proof.Machine.execRetn k s
  | .reti k => Sys2Proof.Machine.execReti k s
  | .im k m => Sys2Proof.Machine.execIm k m s
  | .ldIA => Sys2Proof.Machine.execLdIA s
  | .ldRA => Sys2Proof.Machine.execLdRA s
  | .ldAI => Sys2Proof.Machine.execLdAI s
  | .ldAR => Sys2Proof.Machine.execLdAR s
  | .rrd => Sys2Proof.Machine.execRrd s
  | .rld => Sys2Proof.Machine.execRld s
  | .ldIxNn nn => Sys2Proof.Machine.execLdIxNn nn s
  | .addIxRr q => Sys2Proof.Machine.execAddIxRr q s
  | .ldMemNnIx nn => Sys2Proof.Machine.execLdMemNnIx nn s
  | .ldIxMemNn nn => Sys2Proof.Machine.execLdIxMemNn nn s
  | .incIx16 => Sys2Proof.Machine.execIncIx16 s
  | .decIx16 => Sys2Proof.Machine.execDecIx16 s
  | .incX x => Sys2Proof.Machine.execIncX x s
  | .decX x => Sys2Proof.Machine.execDecX x s
  | .ldXN x n => Sys2Proof.Machine.execLdXN x n s
  | .incIx o => Sys2Proof.Machine.execIncIx o s
  | .decIx o => Sys2Proof.Machine.execDecIx o s
  | .ldIxN o n => Sys2Proof.Machine.execLdIxN o n s
  | .ldXX rd r => Sys2Proof.Machine.execLdXX rd r s
  | .ldDIx rd o => Sys2Proof.Machine.execLdDIx rd o s
  | .ldIxR r o => Sys2Proof.Machine.execLdIxR r o s
  | .addX x => Sys2Proof.Machine.execAddX x s
  | .addIx o => Sys2Proof.Machine.execAddIx o s
  | .adcX x => Sys2Proof.Machine.execAdcX x s
  | .adcIx o => Sys2Proof.Machine.execAdcIx o s
  | .subX x => Sys2Proof.Machine.execSubX x s
  | .subIx o => Sys2Proof.Machine.execSubIx o s
  | .sbcX x => Sys2Proof.Machine.execSbcX x s
  | .sbcIx o => Sys2Proof.Machine.execSbcIx o s
  | .andX x => Sys2Proof.Machine.execAndX x s
  | .andIx o => Sys2Proof.Machine.execAndIx o s
  | .xorX x => Sys2Proof.Machine.execXorX x s
  | .xorIx o => Sys2Proof.Machine.execXorIx o s
  | .orX x => Sys2Proof.Machine.execOrX x s
  | .orIx o => Sys2Proof.Machine.execOrIx o s
  | .cpX x => Sys2Proof.Machine.execCpX x s
  | .cpIx o => Sys2Proof.Machine.execCpIx o s
  | .popIx => Sys2Proof.Machine.execPopIx s
  | .pushIx => Sys2Proof.Machine.execPushIx s
  | .jpIx => Sys2Proof.Machine.execJpIx s
  | .ldSpIx => Sys2Proof.Machine.execLdSpIx s
  | .exSpIx => Sys2Proof.Machine.execExSpIx s
  | .ignoredNextDd x => Sys2Proof.Machine.execIgnoredNextDd x s
  | .ignoredNextEd x => Sys2Proof.Machine.execIgnoredNextEd x s
  | .ignoredNextFd x => Sys2Proof.Machine.execIgnoredNextFd x s
  | .rlcIx o => Sys2Proof.Machine.execRlcIx o s
  | .rlcRIx r o => Sys2Proof.Machine.execRlcRIx r o s
  | .rrcIx o => Sys2Proof.Machine.execRrcIx o s
  | .rrcRIx r o => Sys2Proof.Machine.execRrcRIx r o s
  | .rlIx o => Sys2Proof.Machine.execRlIx o s
  | .rlRIx r o => Sys2Proof.Machine.execRlRIx r o s
  | .rrIx o => Sys2Proof.Machine.execRrIx o s
  | .rrRIx r o => Sys2Proof.Machine.execRrRIx r o s
  | .slaIx o => Sys2Proof.Machine.execSlaIx o s
  | .slaRIx r o => Sys2Proof.Machine.execSlaRIx r o s
  | .sraIx o => Sys2Proof.Machine.execSraIx o s
  | .sraRIx r o => Sys2Proof.Machine.execSraRIx r o s
  | .sliIx o => Sys2Proof.Machine.execSliIx o s
  | .sliRIx r o => Sys2Proof.Machine.execSliRIx r o s
  | .srlIx o => Sys2Proof.Machine.execSrlIx o s
  | .srlRIx r o => Sys2Proof.Machine.execSrlRIx r o s
  | .bitIx b k o => Sys2Proof.Machine.execBitIx b k o s
  | .resIx b o => Sys2Proof.Machine.execResIx b o s
  | .resRIx b r o => Sys2Proof.Machine.execResRIx b r o s
  | .setIx b o => Sys2Proof.Machine.execSetIx b o s
  | .setRIx b r o => Sys2Proof.Machine.execSetRIx b r o s
  | .ldIyNn nn => Sys2Proof.Machine.execLdIyNn nn s
  | .addIyRr q => Sys2Proof.Machine.execAddIyRr q s
  | .ldMemNnIy nn => Sys2Proof.Machine.execLdMemNnIy nn s
  | .ldIyMemNn nn => Sys2Proof.Machine.execLdIyMemNn nn s
  | .incIy16 => Sys2Proof.Machine.execIncIy16 s
  | .decIy16 => Sys2Proof.Machine.execDecIy16 s
  | .incY x => Sys2Proof.Machine.execIncY x s
  | .decY x => Sys2Proof.Machine.execDecY x s
  | .ldYN x n => Sys2Proof.Machine.execLdYN x n s
  | .incIy o => Sys2Proof.Machine.execIncIy o s
  | .decIy o => Sys2Proof.Machine.execDecIy o s
  | .ldIyN o n => Sys2Proof.Machine.execLdIyN o n s
  | .ldYY rd r => Sys2Proof.Machine.execLdYY rd r s
  | .ldDIy rd o => Sys2Proof.Machine.execLdDIy rd o s
  | .ldIyR r o => Sys2Proof.Machine.execLdIyR r o s
  | .addY x => Sys2Proof.Machine.execAddY x s
  | .addIy o => Sys2Proof.Machine.execAddIy o s
  | .adcY x => Sys2Proof.Machine.execAdcY x s
  | .adcIy o => Sys2Proof.Machine.execAdcIy o s
  | .subY x => Sys2Proof.Machine.execSubY x s
  | .subIy o => Sys2Proof.Machine.execSubIy o s
  | .sbcY x => Sys2Proof.Machine.execSbcY x s
  | .sbcIy o => Sys2Proof.Machine.execSbcIy o s
  | .andY x => Sys2Proof.Machine.execAndY x s
  | .andIy o => Sys2Proof.Machine.execAndIy o s
  | .xorY x => Sys2Proof.Machine.execXorY x s
  | .xorIy o => Sys2Proof.Machine.execXorIy o s
  | .orY x => Sys2Proof.Machine.execOrY x s
  | .orIy o => Sys2Proof.Machine.execOrIy o s
  | .cpY x => Sys2Proof.Machine.execCpY x s
  | .cpIy o => Sys2Proof.Machine.execCpIy o s
  | .popIy => Sys2Proof.Machine.execPopIy s
  | .pushIy => Sys2Proof.Machine.execPushIy s
  | .jpIy => Sys2Proof.Machine.execJpIy s
  | .ldSpIy => Sys2Proof.Machine.execLdSpIy s
  | .exSpIy => Sys2Proof.Machine.execExSpIy s
  | .rlcIy o => Sys2Proof.Machine.execRlcIy o s
  | .rlcRIy r o => Sys2Proof.Machine.execRlcRIy r o s
  | .rrcIy o => Sys2Proof.Machine.execRrcIy o s
  | .rrcRIy r o => Sys2Proof.Machine.execRrcRIy r o s
  | .rlIy o => Sys2Proof.Machine.execRlIy o s
  | .rlRIy r o => Sys2Proof.Machine.execRlRIy r o s
  | .rrIy o => Sys2Proof.Machine.execRrIy o s
  | .rrRIy r o => Sys2Proof.Machine.execRrRIy r o s
  | .slaIy o => Sys2Proof.Machine.execSlaIy o s
  | .slaRIy r o => Sys2Proof.Machine.execSlaRIy r o s
  | .sraIy o => Sys2Proof.Machine.execSraIy o s
  | .sraRIy r o => Sys2Proof.Machine.execSraRIy r o s
  | .sliIy o => Sys2Proof.Machine.execSliIy o s
  | .sliRIy r o => Sys2Proof.Machine.execSliRIy r o s
  | .srlIy o => Sys2Proof.Machine.execSrlIy o s
  | .srlRIy r o => Sys2Proof.Machine.execSrlRIy r o s
  | .bitIy b k o => Sys2Proof.Machine.execBitIy b k o s
  | .resIy b o => Sys2Proof.Machine.execResIy b o s
  | .resRIy b r o => Sys2Proof.Machine.execResRIy b r o s
  | .setIy b o => Sys2Proof.Machine.execSetIy b o s
  | .setRIy b r o => Sys2Proof.Machine.execSetRIy b r o s
  | .prefixCb => Sys2Proof.Machine.execPrefixCb s
  | .prefixDd => Sys2Proof.Machine.execPrefixDd s
  | .prefixEd => Sys2Proof.Machine.execPrefixEd s
  | .prefixFd => Sys2Proof.Machine.execPrefixFd s
  | .ldi => Sys2Proof.Machine.execLdi s
  | .ldd => Sys2Proof.Machine.execLdd s
  | .ldir => Sys2Proof.Machine.execLdir s
  | .lddr => Sys2Proof.Machine.execLddr s
  | .cpi => Sys2Proof.Machine.execCpi s
  | .cpd => Sys2Proof.Machine.execCpd s
  | .cpir => Sys2Proof.Machine.execCpir s
  | .cpdr => Sys2Proof.Machine.execCpdr s
  | .ini => Sys2Proof.Machine.execIni s
  | .ind => Sys2Proof.Machine.execInd s
  | .inir => Sys2Proof.Machine.execInir s
  | .indr => Sys2Proof.Machine.execIndr s
  | .oti => Sys2Proof.Machine.execOti s
  | .otd => Sys2Proof.Machine.execOtd s
  | .otir => Sys2Proof.Machine.execOtir s
  | .otdr => Sys2Proof.Machine.execOtdr s
  | .prefixDdCb => Sys2Proof.Machine.execPrefixDdCb s
  | .prefixFdCb => Sys2Proof.Machine.execPrefixFdCb s

end Sys2Proof.Machine
end

