-- ==== Sys2Proof/Machine/Boundary.lean ====
section
/-! DEFINITION. The instruction boundary and one step of the machine (60_exceptions.md R504, R505, R508;
70_reset_and_hazards.md R550): the inputs are sampled, then a reset, an NMI, an INT, the halted state or one
instruction is served. And the placing of a program's bytes from outside the machine. -/

namespace Sys2Proof.Machine

/-- The environment's next sample drives the input lines and latches an NMI event; with no sample left the lines
keep their levels (60_exceptions.md R506, R507; log 6). -/
def State.sampleInputs (s : State) : State :=
  match s.inputs with
  | [] => s
  | x :: rest =>
    { s with
      resetLine := x.reset
      nmiPending := s.nmiPending || x.nmi
      intLine := x.intLine
      busByte := x.busByte
      inputs := rest }

/-- What the machine does at a boundary (60_exceptions.md R504). -/
inductive Boundary where
  | resetEvent
  | nmi
  | int
  | haltedStep
  | instruction
  deriving DecidableEq, Repr

/-- The order of the tests at a boundary: reset, NMI, INT, halted, one instruction (60_exceptions.md R504, R508). -/
def State.boundary (s : State) : Boundary :=
  if s.resetLine then .resetEvent
  else if !s.inhibit && s.nmiPending then .nmi
  else if !s.inhibit && s.intLine && s.iff1 then .int
  else if s.halted then .haltedStep
  else .instruction

/-- `INHIBIT <- 0`, at every boundary but a reset's (60_exceptions.md R504, R505). -/
def State.clearInhibit (s : State) : State := { s with inhibit := false }

/-- `halted_step()`: only R counts (60_exceptions.md R504). -/
def State.haltedStep (s : State) : State := s.countR 1

/-- The instruction at PC (30_encoding.md R113, 20_memory.md R98). -/
def State.fetched (s : State) : Instr := decode4 (s.codeByte 0) (s.codeByte 1) (s.codeByte 2) (s.codeByte 3)

/-- What is served at a boundary, the inputs already sampled (60_exceptions.md R504). -/
def State.serve (s : State) : Boundary → Result
  | .resetEvent => .next s.resetEvent
  | .nmi => .next s.clearInhibit.acceptNmi
  | .int => s.clearInhibit.acceptInt
  | .haltedStep => .next s.clearInhibit.haltedStep
  | .instruction => exec s.fetched s.clearInhibit

/-- One step of the machine (60_exceptions.md R504). -/
def State.machineStep (s : State) : Result := s.sampleInputs.serve s.sampleInputs.boundary

/-! ## Placing a program -/

/-- Bytes at rising addresses from `a` on, modulo 65536. -/
def Memory.placeBytes (m : Memory) (a : Word) : List Byte → Memory
  | [] => m
  | v :: rest => (m.place a v).placeBytes (a + 1) rest

/-- The bytes of a table word and zero bytes up to four, where the next step fetches; the machine is not halted and
nothing else is served at the next boundary (log 19). -/
def State.withInstruction (s : State) (nbits w : Nat) : State :=
  let bs := tableBytes nbits w
  { s with
    mem := s.mem.placeBytes s.pc (bs ++ List.replicate (4 - bs.length) 0)
    halted := false
    nmiPending := false
    intLine := false
    resetLine := false
    inputs := [] }

end Sys2Proof.Machine
end

