-- ==== Sys2Proof/Machine/Step.lean ====
section
/-! DEFINITION. The step, under the host's fixed names. -/

namespace Sys2Proof.Machine

/-- One step of the machine (60_exceptions.md R504). -/
def step (s : State) : Host.Outcome State Fault Refusal := s.machineStep

/-- The state whose next step runs the instruction of the table word `w` (log 18, log 19). -/
def State.withFetchWord (s : State) (nbits w : Nat) : State := s.withInstruction nbits w

end Sys2Proof.Machine
end

