-- ==== Sys2Proof/WellFormed.lean ====
section
/-! DEFINITION. Which terms of `Instr` the encoding can express (30_encoding.md R118 to R134, 49_system.md R489). -/

namespace Sys2Proof

/-- Behind DD or FD the registers H and L are no operands of an unchanged opcode: they name index halves
(30_encoding.md R123, R131). -/
def unindexedReg (p : Pfx) (r : Reg8) : Bool := p == .plain || (r != .h && r != .l)

/-- Behind DD or FD the pair code 10 is the index register (30_encoding.md R118). -/
def unindexedPair (p : Pfx) (q : Pair) : Bool := p == .plain || q != .hl

/-- Behind DD or FD the stack pair code 10 is the index register (30_encoding.md R119). -/
def unindexedStackPair (p : Pfx) (q : StackPair) : Bool := p == .plain || q != .hl

/-- LD d,r with index halves has at least one of them (30_encoding.md R131). -/
def namesHalf (rd r : RegX) : Bool := rd == .xh || rd == .xl || r == .xh || r == .xl

/-- The ED opcodes that do nothing: 00-3F, 77, 7F, 80-9F, A4-A7, AC-AF, B4-B7, BC-BF, C0-FF (49_system.md R489). -/
def undefinedEd (op : Byte) : Bool :=
  decide (op.toNat ≤ 0x3F) || op == 0x77 || op == 0x7F || (decide (0x80 ≤ op.toNat) && decide (op.toNat ≤ 0x9F)) ||
    (xField op == 2#2 && zField op ≥ 4#3) || decide (0xC0 ≤ op.toNat)

/-- The instruction is one that the encoding can express. -/
def Instr.wellFormed (i : Instr) : Bool :=
  match i with
  | .nop _ => true
  | .exAfAf _ => true
  | .djnz _ _ => true
  | .jr _ _ => true
  | .jrCc _ _ _ => true
  | .ldRrNn p q _ => unindexedPair p q
  | .addHlRr _ => true
  | .ldMemBcA _ => true
  | .ldAMemBc _ => true
  | .ldMemDeA _ => true
  | .ldAMemDe _ => true
  | .ldMemNnHl _ => true
  | .ldHlMemNn _ => true
  | .ldMemNnA _ _ => true
  | .ldAMemNn _ _ => true
  | .incRr p q => unindexedPair p q
  | .decRr p q => unindexedPair p q
  | .incR p r => unindexedReg p r
  | .incMemHl => true
  | .decR p r => unindexedReg p r
  | .decMemHl => true
  | .ldRN p r _ => unindexedReg p r
  | .ldMemHlN _ => true
  | .rlca _ => true
  | .rrca _ => true
  | .rla _ => true
  | .rra _ => true
  | .daa _ => true
  | .cpl _ => true
  | .scf _ => true
  | .ccf _ => true
  | .ldDR p rd r => unindexedReg p rd && unindexedReg p r
  | .ldDMemHl _ => true
  | .ldMemHlR _ => true
  | .halt _ => true
  | .addR p r => unindexedReg p r
  | .addMemHl => true
  | .adcR p r => unindexedReg p r
  | .adcMemHl => true
  | .subR p r => unindexedReg p r
  | .subMemHl => true
  | .sbcR p r => unindexedReg p r
  | .sbcMemHl => true
  | .andR p r => unindexedReg p r
  | .andMemHl => true
  | .xorR p r => unindexedReg p r
  | .xorMemHl => true
  | .orR p r => unindexedReg p r
  | .orMemHl => true
  | .cpR p r => unindexedReg p r
  | .cpMemHl => true
  | .retC _ _ => true
  | .popRs p q => unindexedStackPair p q
  | .popAf _ => true
  | .ret _ => true
  | .exx _ => true
  | .jpHl => true
  | .ldSpHl => true
  | .jpCNn _ _ _ => true
  | .jpNn _ _ => true
  | .outNA _ _ => true
  | .inAN _ _ => true
  | .exSpHl => true
  | .exDeHl _ => true
  | .di _ => true
  | .ei _ => true
  | .callCNn _ _ _ => true
  | .pushRs p q => unindexedStackPair p q
  | .pushAf _ => true
  | .callNn _ _ => true
  | .addN _ _ => true
  | .adcN _ _ => true
  | .subN _ _ => true
  | .sbcN _ _ => true
  | .andN _ _ => true
  | .xorN _ _ => true
  | .orN _ _ => true
  | .cpN _ _ => true
  | .rst _ _ => true
  | .rlcR _ => true
  | .rlcMemHl => true
  | .rrcR _ => true
  | .rrcMemHl => true
  | .rlR _ => true
  | .rlMemHl => true
  | .rrR _ => true
  | .rrMemHl => true
  | .slaR _ => true
  | .slaMemHl => true
  | .sraR _ => true
  | .sraMemHl => true
  | .sliR _ => true
  | .sliMemHl => true
  | .srlR _ => true
  | .srlMemHl => true
  | .bitR _ _ => true
  | .bitMemHl _ => true
  | .resR _ _ => true
  | .resMemHl _ => true
  | .setR _ _ => true
  | .setMemHl _ => true
  | .nopEd op => undefinedEd op
  | .inRC _ => true
  | .inf => true
  | .outCR _ => true
  | .outf => true
  | .sbcHlRr _ => true
  | .adcHlRr _ => true
  | .ldMemNnRr _ _ => true
  | .ldRrMemNn _ _ => true
  | .neg _ => true
  | .retn _ => true
  | .reti _ => true
  | .im _ _ => true
  | .ldIA => true
  | .ldRA => true
  | .ldAI => true
  | .ldAR => true
  | .rrd => true
  | .rld => true
  | .ldIxNn _ => true
  | .addIxRr _ => true
  | .ldMemNnIx _ => true
  | .ldIxMemNn _ => true
  | .incIx16 => true
  | .decIx16 => true
  | .incX _ => true
  | .decX _ => true
  | .ldXN _ _ => true
  | .incIx _ => true
  | .decIx _ => true
  | .ldIxN _ _ => true
  | .ldXX rd r => namesHalf rd r
  | .ldDIx _ _ => true
  | .ldIxR _ _ => true
  | .addX _ => true
  | .addIx _ => true
  | .adcX _ => true
  | .adcIx _ => true
  | .subX _ => true
  | .subIx _ => true
  | .sbcX _ => true
  | .sbcIx _ => true
  | .andX _ => true
  | .andIx _ => true
  | .xorX _ => true
  | .xorIx _ => true
  | .orX _ => true
  | .orIx _ => true
  | .cpX _ => true
  | .cpIx _ => true
  | .popIx => true
  | .pushIx => true
  | .jpIx => true
  | .ldSpIx => true
  | .exSpIx => true
  | .ignoredNextDd _ => true
  | .ignoredNextEd _ => true
  | .ignoredNextFd _ => true
  | .rlcIx _ => true
  | .rlcRIx _ _ => true
  | .rrcIx _ => true
  | .rrcRIx _ _ => true
  | .rlIx _ => true
  | .rlRIx _ _ => true
  | .rrIx _ => true
  | .rrRIx _ _ => true
  | .slaIx _ => true
  | .slaRIx _ _ => true
  | .sraIx _ => true
  | .sraRIx _ _ => true
  | .sliIx _ => true
  | .sliRIx _ _ => true
  | .srlIx _ => true
  | .srlRIx _ _ => true
  | .bitIx _ _ _ => true
  | .resIx _ _ => true
  | .resRIx _ _ _ => true
  | .setIx _ _ => true
  | .setRIx _ _ _ => true
  | .ldIyNn _ => true
  | .addIyRr _ => true
  | .ldMemNnIy _ => true
  | .ldIyMemNn _ => true
  | .incIy16 => true
  | .decIy16 => true
  | .incY _ => true
  | .decY _ => true
  | .ldYN _ _ => true
  | .incIy _ => true
  | .decIy _ => true
  | .ldIyN _ _ => true
  | .ldYY rd r => namesHalf rd r
  | .ldDIy _ _ => true
  | .ldIyR _ _ => true
  | .addY _ => true
  | .addIy _ => true
  | .adcY _ => true
  | .adcIy _ => true
  | .subY _ => true
  | .subIy _ => true
  | .sbcY _ => true
  | .sbcIy _ => true
  | .andY _ => true
  | .andIy _ => true
  | .xorY _ => true
  | .xorIy _ => true
  | .orY _ => true
  | .orIy _ => true
  | .cpY _ => true
  | .cpIy _ => true
  | .popIy => true
  | .pushIy => true
  | .jpIy => true
  | .ldSpIy => true
  | .exSpIy => true
  | .rlcIy _ => true
  | .rlcRIy _ _ => true
  | .rrcIy _ => true
  | .rrcRIy _ _ => true
  | .rlIy _ => true
  | .rlRIy _ _ => true
  | .rrIy _ => true
  | .rrRIy _ _ => true
  | .slaIy _ => true
  | .slaRIy _ _ => true
  | .sraIy _ => true
  | .sraRIy _ _ => true
  | .sliIy _ => true
  | .sliRIy _ _ => true
  | .srlIy _ => true
  | .srlRIy _ _ => true
  | .bitIy _ _ _ => true
  | .resIy _ _ => true
  | .resRIy _ _ _ => true
  | .setIy _ _ => true
  | .setRIy _ _ _ => true
  | .prefixCb => true
  | .prefixDd => true
  | .prefixEd => true
  | .prefixFd => true
  | .ldi => true
  | .ldd => true
  | .ldir => true
  | .lddr => true
  | .cpi => true
  | .cpd => true
  | .cpir => true
  | .cpdr => true
  | .ini => true
  | .ind => true
  | .inir => true
  | .indr => true
  | .oti => true
  | .otd => true
  | .otir => true
  | .otdr => true
  | .prefixDdCb => true
  | .prefixFdCb => true

end Sys2Proof
end

