-- ==== Sys2Proof/Safety.lean ====
section
/-! DEFINITION. The terms of the statements: what a safe state is, that an outcome is a next state with a property,
and which parts of the state a transition changes. -/

namespace Sys2Proof.Machine

/-! ## Safe states -/

/-- Every bus byte that an interrupt in mode 0 could meet is an RST opcode, the only case the spec models
(60_exceptions.md R514, log 7): the byte on the bus now and those of the coming samples. -/
def State.busBytesRst (s : State) : Bool := isRst s.busByte && s.inputs.all (fun x => isRst x.busByte)

/-- The memory is in canonical form (log 2). -/
def State.memoryWf (s : State) : Bool := s.mem.wf

/-! ## Outcomes -/

/-- The outcome is a next state, and `post` holds of it. -/
def completes (o : Result) (post : State → Prop) : Prop := ∃ t, o = .next t ∧ post t

/-- The outcome, if it is a next state, has `post`. -/
def whenNext (o : Result) (post : State → Prop) : Prop := ∀ t, o = .next t → post t

/-! ## Parts of the state -/

/-- The parts of the state. Memory has two: what every address reads as, and the memory map. -/
inductive Part where
  | a
  | f
  | b
  | c
  | d
  | e
  | h
  | l
  | a'
  | f'
  | b'
  | c'
  | d'
  | e'
  | h'
  | l'
  | ix
  | iy
  | sp
  | pc
  | i
  | r
  | iff1
  | iff2
  | im
  | halted
  | nmiPending
  | inhibit
  | temp
  | resetLine
  | intLine
  | busByte
  | inputs
  | bytes
  | map
  | ports
  | draws
  deriving DecidableEq, Repr

/-- The part is the same in the two states. -/
def Part.same (p : Part) (s t : State) : Prop :=
  match p with
  | .a => t.a = s.a
  | .f => t.f = s.f
  | .b => t.b = s.b
  | .c => t.c = s.c
  | .d => t.d = s.d
  | .e => t.e = s.e
  | .h => t.h = s.h
  | .l => t.l = s.l
  | .a' => t.a' = s.a'
  | .f' => t.f' = s.f'
  | .b' => t.b' = s.b'
  | .c' => t.c' = s.c'
  | .d' => t.d' = s.d'
  | .e' => t.e' = s.e'
  | .h' => t.h' = s.h'
  | .l' => t.l' = s.l'
  | .ix => t.ix = s.ix
  | .iy => t.iy = s.iy
  | .sp => t.sp = s.sp
  | .pc => t.pc = s.pc
  | .i => t.i = s.i
  | .r => t.r = s.r
  | .iff1 => t.iff1 = s.iff1
  | .iff2 => t.iff2 = s.iff2
  | .im => t.im = s.im
  | .halted => t.halted = s.halted
  | .nmiPending => t.nmiPending = s.nmiPending
  | .inhibit => t.inhibit = s.inhibit
  | .temp => t.temp = s.temp
  | .resetLine => t.resetLine = s.resetLine
  | .intLine => t.intLine = s.intLine
  | .busByte => t.busByte = s.busByte
  | .inputs => t.inputs = s.inputs
  | .bytes => ∀ a, t.memRead a = s.memRead a
  | .map => t.mem.map = s.mem.map
  | .ports => t.ports = s.ports
  | .draws => t.draws = s.draws

/-- Every part that is not listed is the same in the two states: the frame of a transition. -/
def changesOnly (ps : List Part) (s t : State) : Prop := ∀ p, p ∉ ps → p.same s t

/-- The part that holds a register. -/
def partOfReg8 (r : Reg8) : Part :=
  match r with
  | .b => .b
  | .c => .c
  | .d => .d
  | .e => .e
  | .h => .h
  | .l => .l
  | .a => .a

/-- The part that holds an index register. -/
def partOfIndex (x : Index) : Part :=
  match x with
  | .ix => .ix
  | .iy => .iy

/-- The part that holds a register of the DD or FD map. -/
def partOfRegX (x : Index) (r : RegX) : Part :=
  match r with
  | .b => .b
  | .c => .c
  | .d => .d
  | .e => .e
  | .xh => partOfIndex x
  | .xl => partOfIndex x
  | .a => .a

/-- The parts that hold a register pair. -/
def partsOfPair (q : Pair) : List Part :=
  match q with
  | .bc => [.b, .c]
  | .de => [.d, .e]
  | .hl => [.h, .l]
  | .sp => [.sp]

/-- The parts that hold a stack pair. -/
def partsOfStackPair (q : StackPair) : List Part :=
  match q with
  | .bc => [.b, .c]
  | .de => [.d, .e]
  | .hl => [.h, .l]

/-! ## Fetch and stores -/

/-- R has counted `fetches`: bit 7 kept, the low seven bits advanced modulo 128 (10_state.md R46, log 13). -/
def counted (fetches : Nat) (s t : State) : Prop :=
  t.r.toNat = s.r.toNat / 128 * 128 + (s.r.toNat + fetches) % 128

/-- PC is past an instruction of `len` bytes and R has counted its opcode fetches (10_state.md R33, R46). -/
def advanced (len fetches : Nat) (s t : State) : Prop :=
  t.pc = s.pc + BitVec.ofNat 16 len ∧ counted fetches s t

/-- What a store of `v` at `a` leaves there: `v` in ram, the old byte elsewhere (20_memory.md R84). -/
def State.afterStore (s : State) (a : Word) (v : Byte) : Byte :=
  match s.mem.kindAt a with
  | .ram => v
  | .rom => s.memRead a
  | .unpopulated => s.memRead a

/-- One byte was stored at `a`, and every other byte of memory reads as before. -/
def storesByte (a : Word) (v : Byte) (s t : State) : Prop :=
  t.memRead a = s.afterStore a v ∧ ∀ x, x ≠ a → t.memRead x = s.memRead x

/-- A word was stored at `a`, its low byte at `a` and its high byte at `a + 1` modulo 65536, and every other byte of
memory reads as before (20_memory.md R85). -/
def storesWord (a w : Word) (s t : State) : Prop :=
  t.memRead a = s.afterStore a (lo w) ∧ t.memRead (a + 1) = s.afterStore (a + 1) (hi w) ∧
    ∀ x, x ≠ a → x ≠ a + 1 → t.memRead x = s.memRead x

/-! ## Flags -/

/-- The eight flags of F, from S in bit 7 to C in bit 0 (10_state.md R36). -/
def flagsAre (f : Byte) (sf zf f5 hf f3 pv nf cf : Bool) : Prop :=
  flagS f = sf ∧ flagZ f = zf ∧ flag5 f = f5 ∧ flagH f = hf ∧ flag3 f = f3 ∧ flagPV f = pv ∧ flagN f = nf ∧
    flagC f = cf

/-- How many bits of a byte are one. -/
def onesOf (v : Byte) : Nat := ((List.range 8).filter (fun k => v.getLsbD k)).length

/-- F after a CB, DDCB or FDCB shift with the result `res` and the bit `cout` that leaves (45_rotate_shift.md
R409). -/
def shiftFlagsAre (f res : Byte) (cout : Bool) : Prop :=
  flagsAre f (res.getLsbD 7) (decide (res = 0)) (res.getLsbD 5) false (res.getLsbD 3) (decide (onesOf res % 2 = 0))
    false cout

end Sys2Proof.Machine
end

