-- ==== Sys2Proof/Certificates/Slice0/Obligations.lean ====
section
/-! DEFINITION. The statements for the provers. They say what an instruction or the machine does through the terms of
Safety.lean: `completes` (the outcome is a next state with these properties), `changesOnly` (every part of the state not
listed is unchanged), `advanced` and `counted` (PC and R), `storesByte` and `storesWord` (what is stored where, every
other byte reading as before). -/

open Sys2Proof Sys2Proof.Machine

/-- Decoding the bytes of a well-formed instruction gives the instruction back. No bit of an encoding is dropped
(30_encoding.md R112, R113, R126 to R137). The six prefix rows are the model's reading (log 17). -/
def Obligations.DecodeReadsBackEveryEncoding : Prop :=
    ∀ i : Instr, i.wellFormed = true →
    decode (encode i) = .ok i ∧
    (i ∉ [.prefixCb, .prefixDd, .prefixEd, .prefixFd, .prefixDdCb, .prefixFdCb] →
      ∀ rest : List Byte, decode (encode i ++ rest) = .ok i)

/-- Any four bytes decode to a well-formed instruction whose encoding they begin with. Every byte sequence is an
instruction, and no two encodings share one (30_encoding.md R113, R138). -/
def Obligations.EveryByteSequenceIsOneInstruction : Prop :=
    ∀ b0 b1 b2 b3 : Byte,
    decode [b0, b1, b2, b3] = .ok (decode4 b0 b1 b2 b3) ∧ (decode4 b0 b1 b2 b3).wellFormed = true ∧
    1 ≤ size (decode4 b0 b1 b2 b3) ∧ size (decode4 b0 b1 b2 b3) ≤ 4 ∧
    encode (decode4 b0 b1 b2 b3) <+: [b0, b1, b2, b3]

/-- One word of each of the seven maps decodes to its instruction. Words of the seven maps (30_encoding.md R126 to
R137). -/
def Obligations.WordsOfTheMapsDecode : Prop :=
    decode [0x21, 0x25, 0x12] = .ok (.ldRrNn .plain .hl 0x1225) ∧
    decode [0xCB, 0x3D] = .ok (.srlR .l) ∧
    decode [0xED, 0x4B, 0x00, 0x40] = .ok (.ldRrMemNn .bc 0x4000) ∧
    decode [0xDD, 0x21, 0x4B, 0x3A] = .ok (.ldIxNn 0x3A4B) ∧
    decode [0xFD, 0x72, 0x7F] = .ok (.ldIyR .d 0x7F) ∧
    decode [0xDD, 0x41] = .ok (.ldDR .dd .b .c) ∧
    decode [0xDD, 0xCB, 0x02, 0x00] = .ok (.rlcRIx .b 0x02) ∧
    decode [0xFD, 0xCB, 0xFF, 0x70] = .ok (.bitIy 6 0 0xFF) ∧
    decode [0xDD, 0xFD] = .ok (.ignoredNextFd .ix)

/-- With no reset, no acceptable request and not halted, a step runs the instruction at PC. R504 is from general
knowledge in the spec (D17). The sampling of the inputs is the model's (log 6). -/
def Obligations.StepRunsTheDecodedInstruction : Prop :=
    ∀ (s : State) (i : Instr), s.sampleInputs.resetLine = false → s.sampleInputs.halted = false →
    (s.sampleInputs.inhibit = true ∨ (s.sampleInputs.nmiPending = false ∧
      (s.sampleInputs.intLine = false ∨ s.sampleInputs.iff1 = false))) →
    decode [s.sampleInputs.memRead s.sampleInputs.pc, s.sampleInputs.memRead (s.sampleInputs.pc + 1),
      s.sampleInputs.memRead (s.sampleInputs.pc + 2), s.sampleInputs.memRead (s.sampleInputs.pc + 3)] = .ok i →
    Sys2Proof.Machine.step s = exec i { s.sampleInputs with inhibit := false }

/-- The next sample drives the lines and latches NMI; with none left the lines keep their levels. The model's way of
giving the environment's inputs (log 6), after R506 and R507. -/
def Obligations.InputsAreSampledOnce : Prop :=
    ∀ s : State, (s.inputs = [] → s.sampleInputs = s) ∧
    (∀ x rest, s.inputs = x :: rest →
      s.sampleInputs.resetLine = x.reset ∧ s.sampleInputs.intLine = x.intLine ∧ s.sampleInputs.busByte = x.busByte ∧
      s.sampleInputs.nmiPending = (s.nmiPending || x.nmi) ∧ s.sampleInputs.inputs = rest ∧
      changesOnly [.resetLine, .intLine, .busByte, .nmiPending, .inputs] s s.sampleInputs)

/-- A pending NMI is taken before INT: PC is pushed, IFF1 cleared, IFF2 kept, PC is 0x0066. R508, R510 and R511 are
from general knowledge in the spec (D17, D18). -/
def Obligations.NmiIsTaken : Prop :=
    ∀ s : State, s.sampleInputs.resetLine = false → s.sampleInputs.inhibit = false →
    s.sampleInputs.nmiPending = true →
    completes (Sys2Proof.Machine.step s) fun t =>
      t.pc = 0x0066 ∧ t.sp = s.sampleInputs.sp - 2 ∧
      storesWord (s.sampleInputs.sp - 2) s.sampleInputs.pc s.sampleInputs t ∧
      t.nmiPending = false ∧ t.halted = false ∧ t.iff1 = false ∧ counted 1 s.sampleInputs t ∧
      changesOnly [.pc, .sp, .bytes, .nmiPending, .halted, .iff1, .r] s.sampleInputs t

/-- An enabled INT is taken: PC is pushed, IFF1 and IFF2 cleared, PC by the interrupt mode. R506 and R512 to R516 are
from general knowledge in the spec (D17, D19). -/
def Obligations.IntIsTaken : Prop :=
    ∀ s : State, s.sampleInputs.resetLine = false → s.sampleInputs.inhibit = false →
    s.sampleInputs.nmiPending = false → s.sampleInputs.intLine = true → s.sampleInputs.iff1 = true →
    (s.sampleInputs.im = .im0 → isRst s.sampleInputs.busByte = true) →
    completes (Sys2Proof.Machine.step s) fun t =>
      (s.sampleInputs.im = .im0 → t.pc.toNat = (s.sampleInputs.busByte &&& 0x38).toNat) ∧
      (s.sampleInputs.im = .im1 → t.pc = 0x0038) ∧
      (s.sampleInputs.im = .im2 → t.pc = join (t.memRead (join s.sampleInputs.i s.sampleInputs.busByte + 1))
        (t.memRead (join s.sampleInputs.i s.sampleInputs.busByte))) ∧
      t.sp = s.sampleInputs.sp - 2 ∧
      storesWord (s.sampleInputs.sp - 2) s.sampleInputs.pc s.sampleInputs t ∧
      t.halted = false ∧ t.iff1 = false ∧ t.iff2 = false ∧ counted 1 s.sampleInputs t ∧
      changesOnly [.pc, .sp, .bytes, .halted, .iff1, .iff2, .r] s.sampleInputs t

/-- INT in mode 0 with a bus byte that is no RST opcode is refused by name. R514: "a model should refuse the
configuration" (log 7). -/
def Obligations.ModeZeroByteThatIsNoRstIsRefused : Prop :=
    ∀ s : State, s.sampleInputs.resetLine = false → s.sampleInputs.inhibit = false →
    s.sampleInputs.nmiPending = false → s.sampleInputs.intLine = true → s.sampleInputs.iff1 = true →
    s.sampleInputs.im = .im0 → (s.sampleInputs.busByte &&& 0xC7 ≠ 0xC7) →
    Sys2Proof.Machine.step s = .refused (.mode0BusByteNotRst s.sampleInputs.busByte)

/-- A halted machine with no acceptable request only counts R. R504 is from general knowledge in the spec (D17);
HALTED is its way of writing HALT (D20). -/
def Obligations.HaltedStepOnlyCounts : Prop :=
    ∀ s : State, s.sampleInputs.resetLine = false → s.sampleInputs.halted = true →
    (s.sampleInputs.inhibit = true ∨ (s.sampleInputs.nmiPending = false ∧
      (s.sampleInputs.intLine = false ∨ s.sampleInputs.iff1 = false))) →
    completes (Sys2Proof.Machine.step s) fun t =>
      t.inhibit = false ∧ counted 1 s.sampleInputs t ∧ changesOnly [.inhibit, .r] s.sampleInputs t

/-- RESET comes before everything and leaves the values of R54; memory and ports are untouched. The spec's own choice
(D21); the free registers are log 8. -/
def Obligations.ResetLineResets : Prop :=
    ∀ s : State, s.sampleInputs.resetLine = true →
    completes (Sys2Proof.Machine.step s) fun t =>
      t.pc = 0x0000 ∧ t.i = 0x00 ∧ t.r = 0x00 ∧ t.im = .im0 ∧ t.iff1 = false ∧ t.iff2 = false ∧
      t.halted = false ∧ t.nmiPending = false ∧ t.inhibit = false ∧
      (∀ p ∈ [Part.bytes, .map, .ports, .resetLine, .intLine, .busByte, .inputs], p.same s.sampleInputs t)

/-- The state right after reset has the values of R54 and meets both invariants. The values of R54 are the spec's own
choice (D21); the bus byte and the map are the model's (log 6, log 3). -/
def Obligations.StateAfterResetIsAsTheSpecSays : Prop :=
    State.reset.pc = 0x0000 ∧ State.reset.i = 0x00 ∧ State.reset.r = 0x00 ∧ State.reset.im = .im0 ∧
    State.reset.iff1 = false ∧ State.reset.iff2 = false ∧ State.reset.halted = false ∧
    State.reset.nmiPending = false ∧ State.reset.inhibit = false ∧
    State.reset.memoryWf = true ∧ State.reset.busBytesRst = true ∧
    (∀ a : Word, State.reset.mem.kindAt a = .ram)

/-- No instruction can fail: every instruction answers a next state in every state. "no instruction can fail"
(60_exceptions.md R500). -/
def Obligations.EveryInstructionCompletes : Prop :=
    ∀ (i : Instr) (s : State), ∃ t, exec i s = .next t

/-- While every bus byte is an RST opcode, every step answers a next state and keeps that so. The one stop of the
model is the refusal of R514 (log 7); the bus bytes are inputs (log 6). -/
def Obligations.StepNeverStopsOnRstBusBytes : Prop :=
    ∀ s : State, s.busBytesRst = true →
    ∃ t, Sys2Proof.Machine.step s = .next t ∧ t.busBytesRst = true

/-- Every step keeps the canonical form of memory. The canonical form is the model's (log 2). -/
def Obligations.EveryStepKeepsMemoryCanonical : Prop :=
    ∀ s t : State, s.memoryWf = true → Sys2Proof.Machine.step s = .next t → t.memoryWf = true

/-- No step changes the memory map or any byte outside ram. A write to rom or to no memory changes nothing
(20_memory.md R84, D6). The map as data is log 3, the byte of an absent address log 4. -/
def Obligations.OnlyRamChanges : Prop :=
    ∀ s : State, whenNext (Sys2Proof.Machine.step s) fun t =>
    t.mem.map = s.mem.map ∧ ∀ a, s.mem.kindAt a ≠ .ram → t.memRead a = s.memRead a

/-- A step changes I only by LD I,A or a reset. "Written only by LD I,A" (10_state.md R45); a reset clears it (R54,
D21). -/
def Obligations.VectorRegisterChangesOnlyByLdIA : Prop :=
    ∀ s : State, whenNext (Sys2Proof.Machine.step s) fun t =>
    t.i = s.i ∨ (s.sampleInputs.boundary = .resetEvent ∧ t.i = 0x00) ∨
    (s.sampleInputs.boundary = .instruction ∧ s.sampleInputs.fetched = .ldIA ∧ t.i = s.a)

/-- A step changes bit 7 of R only by LD R,A or a reset. 10_state.md R46; how the low seven bits count is the default
R_MODEL (D14, log 13), of which this says nothing. -/
def Obligations.RefreshBitSevenChangesOnlyByLdRA : Prop :=
    ∀ s : State, whenNext (Sys2Proof.Machine.step s) fun t =>
    t.r.getLsbD 7 = s.r.getLsbD 7 ∨ s.sampleInputs.boundary = .resetEvent ∨
    (s.sampleInputs.boundary = .instruction ∧ s.sampleInputs.fetched = .ldRA ∧ t.r = s.a)

/-- A step changes the shadow registers only by EXX, EX AF,AF' or a reset. The shadow set (10_state.md R32). -/
def Obligations.ShadowSetChangesOnlyByExchanges : Prop :=
    ∀ s : State, s.sampleInputs.resetLine = false → whenNext (Sys2Proof.Machine.step s) fun t =>
    ((∃ p, s.sampleInputs.boundary = .instruction ∧ s.sampleInputs.fetched = .exx p) ∨
      (t.b' = s.b' ∧ t.c' = s.c' ∧ t.d' = s.d' ∧ t.e' = s.e' ∧ t.h' = s.h' ∧ t.l' = s.l')) ∧
    ((∃ p, s.sampleInputs.boundary = .instruction ∧ s.sampleInputs.fetched = .exAfAf p) ∨
      (t.a' = s.a' ∧ t.f' = s.f'))

/-- IFF1 rises only by EI or RETN, IFF2 only by EI, IM changes only by IM, HALTED rises only by HALT. The writers of
the interrupt state (10_state.md R47, R48, R50; D17 to D20). -/
def Obligations.InterruptControlWriters : Prop :=
    ∀ s : State, s.sampleInputs.resetLine = false → whenNext (Sys2Proof.Machine.step s) fun t =>
    (s.iff1 = false → t.iff1 = true → s.sampleInputs.boundary = .instruction ∧
      ((∃ p, s.sampleInputs.fetched = .ei p) ∨ (∃ k, s.sampleInputs.fetched = .retn k ∧ s.iff2 = true))) ∧
    (s.iff2 = false → t.iff2 = true → s.sampleInputs.boundary = .instruction ∧
      ∃ p, s.sampleInputs.fetched = .ei p) ∧
    (t.im ≠ s.im → s.sampleInputs.boundary = .instruction ∧ ∃ k m, s.sampleInputs.fetched = .im k m) ∧
    (s.halted = false → t.halted = true → s.sampleInputs.boundary = .instruction ∧
      ∃ p, s.sampleInputs.fetched = .halt p)

/-- A step makes at most one port access and never unmakes one. The history as data is log 5. -/
def Obligations.OnePortAccessPerStep : Prop :=
    ∀ s : State, whenNext (Sys2Proof.Machine.step s) fun t =>
    t.ports = s.ports ∨ ∃ e, t.ports = e :: s.ports

/-- add8 is addition modulo 256, C the unsigned carry, H the carry out of bit 3, P/V the signed overflow. R240 read as
integers; the V and H formulas are the spec's decision D9. -/
def Obligations.AdditionAndItsFlags : Prop :=
    ∀ (a b : Byte) (cin : Bool),
    (add8 a b cin).1.toNat = (a.toNat + b.toNat + cin.toNat) % 256 ∧
    flagsAre (add8 a b cin).2 ((add8 a b cin).1.getLsbD 7) (decide ((add8 a b cin).1 = 0)) ((add8 a b cin).1.getLsbD 5)
      (decide (a.toNat % 16 + b.toNat % 16 + cin.toNat > 15)) ((add8 a b cin).1.getLsbD 3)
      (decide (a.toInt + b.toInt + cin.toNat < -128 ∨ 127 < a.toInt + b.toInt + cin.toNat)) false
      (decide (a.toNat + b.toNat + cin.toNat > 255))

/-- sub8 is subtraction modulo 256 with borrow flags and signed overflow; cp8 takes flags 5 and 3 from the operand.
R241 and R247 read as integers; V, H are the spec's decision D9, flags 5 and 3 of CP its decision D8. -/
def Obligations.SubtractionAndItsFlags : Prop :=
    ∀ (a b : Byte) (cin : Bool),
    ((sub8 a b cin).1.toNat + b.toNat + cin.toNat) % 256 = a.toNat ∧
    flagsAre (sub8 a b cin).2 ((sub8 a b cin).1.getLsbD 7) (decide ((sub8 a b cin).1 = 0)) ((sub8 a b cin).1.getLsbD 5)
      (decide (a.toNat % 16 < b.toNat % 16 + cin.toNat)) ((sub8 a b cin).1.getLsbD 3)
      (decide (a.toInt - b.toInt - cin.toNat < -128 ∨ 127 < a.toInt - b.toInt - cin.toNat)) true
      (decide (a.toNat < b.toNat + cin.toNat)) ∧
    flagsAre (cp8 a b) (flagS (sub8 a b false).2) (flagZ (sub8 a b false).2) (b.getLsbD 5) (flagH (sub8 a b false).2)
      (b.getLsbD 3) (flagPV (sub8 a b false).2) true (flagC (sub8 a b false).2)

/-- AND, OR and XOR of two bytes, with parity in P/V, H 1 for AND and 0 for OR and XOR, N and C 0. 42_alu8.md R242 to
R244. -/
def Obligations.LogicalOperationsAndTheirFlags : Prop :=
    ∀ a b : Byte,
    ((and8 a b).1 = a &&& b ∧ flagsAre (and8 a b).2 ((a &&& b).getLsbD 7) (decide (a &&& b = 0)) ((a &&& b).getLsbD 5) true
      ((a &&& b).getLsbD 3) (decide (onesOf (a &&& b) % 2 = 0)) false false) ∧
    ((or8 a b).1 = a ||| b ∧ flagsAre (or8 a b).2 ((a ||| b).getLsbD 7) (decide (a ||| b = 0)) ((a ||| b).getLsbD 5) false
      ((a ||| b).getLsbD 3) (decide (onesOf (a ||| b) % 2 = 0)) false false) ∧
    ((xor8 a b).1 = a ^^^ b ∧ flagsAre (xor8 a b).2 ((a ^^^ b).getLsbD 7) (decide (a ^^^ b = 0)) ((a ^^^ b).getLsbD 5) false
      ((a ^^^ b).getLsbD 3) (decide (onesOf (a ^^^ b) % 2 = 0)) false false)

/-- inc8 and dec8 are addition and subtraction of 1 with the carry flag kept. R245 and R246, with the inferences they
mark as derived. -/
def Obligations.StepByOneKeepsCarry : Prop :=
    ∀ v f : Byte,
    (inc8 v f).1 = (add8 v 1 false).1 ∧
    flagsAre (inc8 v f).2 (flagS (add8 v 1 false).2) (flagZ (add8 v 1 false).2) (flag5 (add8 v 1 false).2)
      (flagH (add8 v 1 false).2) (flag3 (add8 v 1 false).2) (decide (v = 0x7F)) false (flagC f) ∧
    flagPV (add8 v 1 false).2 = decide (v = 0x7F) ∧
    (dec8 v f).1 = (sub8 v 1 false).1 ∧
    flagsAre (dec8 v f).2 (flagS (sub8 v 1 false).2) (flagZ (sub8 v 1 false).2) (flag5 (sub8 v 1 false).2)
      (flagH (sub8 v 1 false).2) (flag3 (sub8 v 1 false).2) (decide (v = 0x80)) true (flagC f) ∧
    flagPV (sub8 v 1 false).2 = decide (v = 0x80)

/-- DAA after adding or subtracting two packed decimal bytes gives the decimal sum or difference. R306's default
DAA_FN, from general knowledge in the spec (D10, log 12). -/
def Obligations.DecimalAdjustGivesDecimalDigits : Prop :=
    ∀ x y : Nat, x < 100 → y < 100 →
    (let bcd := fun n : Nat => BitVec.ofNat 8 (n / 10 * 16 + n % 10)
     let sum := add8 (bcd x) (bcd y) false
     let dif := sub8 (bcd x) (bcd y) false
     (daa sum.1 sum.2).1 = bcd ((x + y) % 100) ∧ flagC (daa sum.1 sum.2).2 = decide (x + y ≥ 100) ∧
     (daa dif.1 dif.2).1 = bcd ((x + 100 - y) % 100) ∧ flagC (daa dif.1 dif.2).2 = decide (x < y))

/-- add16 and sbc16 are arithmetic modulo 65536 with carry, half carry from bit 11 and signed overflow. R320 to R322
read as integers; S, Z and V on 16 bits are the spec's decision D29. -/
def Obligations.WordArithmeticAndItsFlags : Prop :=
    ∀ (a b : Word) (cin : Bool),
    (add16 a b cin).1.toNat = (a.toNat + b.toNat + cin.toNat) % 65536 ∧
    flagsAre (add16 a b cin).2 ((add16 a b cin).1.getLsbD 15) (decide ((add16 a b cin).1 = 0))
      ((add16 a b cin).1.getLsbD 13) (decide (a.toNat % 4096 + b.toNat % 4096 + cin.toNat > 4095))
      ((add16 a b cin).1.getLsbD 11)
      (decide (a.toInt + b.toInt + cin.toNat < -32768 ∨ 32767 < a.toInt + b.toInt + cin.toNat)) false
      (decide (a.toNat + b.toNat + cin.toNat > 65535)) ∧
    ((sbc16 a b cin).1.toNat + b.toNat + cin.toNat) % 65536 = a.toNat ∧
    flagsAre (sbc16 a b cin).2 ((sbc16 a b cin).1.getLsbD 15) (decide ((sbc16 a b cin).1 = 0))
      ((sbc16 a b cin).1.getLsbD 13) (decide (a.toNat % 4096 < b.toNat % 4096 + cin.toNat))
      ((sbc16 a b cin).1.getLsbD 11)
      (decide (a.toInt - b.toInt - cin.toNat < -32768 ∨ 32767 < a.toInt - b.toInt - cin.toNat)) true
      (decide (a.toNat < b.toNat + cin.toNat))

/-- The eight shift functions move every bit by one place, with the bit that leaves and the bit that enters of R370.
45_rotate_shift.md R370; `ooo` is bits 5 to 3 of the operation byte. -/
def Obligations.ShiftFunctionsMoveOneBit : Prop :=
    (∀ (v : Byte) (c : Bool),
    ((rlc v c).2 = v.getLsbD 7 ∧ ∀ k, k < 8 → (rlc v c).1.getLsbD k = (if k = 0 then v.getLsbD 7 else v.getLsbD (k - 1))) ∧
    ((rrc v c).2 = v.getLsbD 0 ∧ ∀ k, k < 8 → (rrc v c).1.getLsbD k = (if k = 7 then v.getLsbD 0 else v.getLsbD (k + 1))) ∧
    ((rl v c).2 = v.getLsbD 7 ∧ ∀ k, k < 8 → (rl v c).1.getLsbD k = (if k = 0 then c else v.getLsbD (k - 1))) ∧
    ((rr v c).2 = v.getLsbD 0 ∧ ∀ k, k < 8 → (rr v c).1.getLsbD k = (if k = 7 then c else v.getLsbD (k + 1))) ∧
    ((sla v c).2 = v.getLsbD 7 ∧ ∀ k, k < 8 → (sla v c).1.getLsbD k = (if k = 0 then false else v.getLsbD (k - 1))) ∧
    ((sra v c).2 = v.getLsbD 0 ∧ ∀ k, k < 8 → (sra v c).1.getLsbD k = (if k = 7 then v.getLsbD 7 else v.getLsbD (k + 1))) ∧
    ((sli v c).2 = v.getLsbD 7 ∧ ∀ k, k < 8 → (sli v c).1.getLsbD k = (if k = 0 then true else v.getLsbD (k - 1))) ∧
    ((srl v c).2 = v.getLsbD 0 ∧ ∀ k, k < 8 → (srl v c).1.getLsbD k = (if k = 7 then false else v.getLsbD (k + 1)))) ∧
    decode [0xCB, 0x06] = .ok .rlcMemHl ∧ decode [0xDD, 0xCB, 0x00, 0x06] = .ok (.rlcIx 0x00) ∧
    decode [0xFD, 0xCB, 0x00, 0x06] = .ok (.rlcIy 0x00) ∧
    decode [0xCB, 0x0E] = .ok .rrcMemHl ∧ decode [0xDD, 0xCB, 0x00, 0x0E] = .ok (.rrcIx 0x00) ∧
    decode [0xFD, 0xCB, 0x00, 0x0E] = .ok (.rrcIy 0x00) ∧
    decode [0xCB, 0x16] = .ok .rlMemHl ∧ decode [0xDD, 0xCB, 0x00, 0x16] = .ok (.rlIx 0x00) ∧
    decode [0xFD, 0xCB, 0x00, 0x16] = .ok (.rlIy 0x00) ∧
    decode [0xCB, 0x1E] = .ok .rrMemHl ∧ decode [0xDD, 0xCB, 0x00, 0x1E] = .ok (.rrIx 0x00) ∧
    decode [0xFD, 0xCB, 0x00, 0x1E] = .ok (.rrIy 0x00) ∧
    decode [0xCB, 0x26] = .ok .slaMemHl ∧ decode [0xDD, 0xCB, 0x00, 0x26] = .ok (.slaIx 0x00) ∧
    decode [0xFD, 0xCB, 0x00, 0x26] = .ok (.slaIy 0x00) ∧
    decode [0xCB, 0x2E] = .ok .sraMemHl ∧ decode [0xDD, 0xCB, 0x00, 0x2E] = .ok (.sraIx 0x00) ∧
    decode [0xFD, 0xCB, 0x00, 0x2E] = .ok (.sraIy 0x00) ∧
    decode [0xCB, 0x36] = .ok .sliMemHl ∧ decode [0xDD, 0xCB, 0x00, 0x36] = .ok (.sliIx 0x00) ∧
    decode [0xFD, 0xCB, 0x00, 0x36] = .ok (.sliIy 0x00) ∧
    decode [0xCB, 0x3E] = .ok .srlMemHl ∧ decode [0xDD, 0xCB, 0x00, 0x3E] = .ok (.srlIx 0x00) ∧
    decode [0xFD, 0xCB, 0x00, 0x3E] = .ok (.srlIy 0x00)

/-- The eight conditions test Z, C, P/V and S as the table says, and JR uses the first four. 30_encoding.md R125. -/
def Obligations.ConditionTable : Prop :=
    (∀ s : State,
    (s.cond (condOfCode 0) = true ↔ flagZ s.f = false) ∧ (s.cond (condOfCode 1) = true ↔ flagZ s.f = true) ∧
    (s.cond (condOfCode 2) = true ↔ flagC s.f = false) ∧ (s.cond (condOfCode 3) = true ↔ flagC s.f = true) ∧
    (s.cond (condOfCode 4) = true ↔ flagPV s.f = false) ∧ (s.cond (condOfCode 5) = true ↔ flagPV s.f = true) ∧
    (s.cond (condOfCode 6) = true ↔ flagS s.f = false) ∧ (s.cond (condOfCode 7) = true ↔ flagS s.f = true)) ∧
    (∀ k : BitVec 2, condOfJr (cond4OfField (1#1 ++ k)) = condOfCode (0#1 ++ k))

/-- A word read is its low byte plus 256 times the byte at the next address, and a word stored in ram reads back. R85;
the wrap at 0xFFFF is the spec's decision D1. -/
def Obligations.WordsInMemoryAreLittleEndian : Prop :=
    ∀ (s : State) (a w : Word),
    (s.memRead16 a).toNat = (s.memRead a).toNat + 256 * (s.memRead (a + 1)).toNat ∧
    storesWord a w s (s.memWrite16 a w) ∧
    (s.mem.kindAt a = .ram → s.mem.kindAt (a + 1) = .ram → (s.memWrite16 a w).memRead16 a = w) ∧
    changesOnly [.bytes] s (s.memWrite16 a w)

/-- push16 steps SP down by 2 and stores the word there; pop16 reads the word at SP and steps SP up by 2.
41_load16_exchange_stack.md R219. -/
def Obligations.StackPrimitives : Prop :=
    ∀ (s : State) (w : Word),
    (s.push16 w).sp = s.sp - 2 ∧ storesWord (s.sp - 2) w s (s.push16 w) ∧ changesOnly [.sp, .bytes] s (s.push16 w) ∧
    (s.push16 w).mem = (s.mem.write (s.sp - 2 + 1) (hi w)).write (s.sp - 2) (lo w) ∧
    s.topOfStack.toNat = (s.memRead s.sp).toNat + 256 * (s.memRead (s.sp + 1)).toNat ∧
    s.dropWord.sp = s.sp + 2 ∧ changesOnly [.sp] s s.dropWord ∧
    (s.mem.kindAt (s.sp - 2) = .ram → s.mem.kindAt (s.sp - 1) = .ram →
      (s.push16 w).topOfStack = w ∧ (s.push16 w).dropWord.sp = s.sp)

/-- LD of an 8-bit register from an immediate, a register or memory: the register, PC and R change, nothing else.
Completion, result and frame. PC and R: 10_state.md R33, R46, where R counts by the default R_MODEL (D14, log 13). -/
def Obligations.LoadsOfARegister : Prop :=
    (∀ (p : Pfx) (r : Reg8) (n : Byte) (s : State), completes (exec (.ldRN p r n) s) fun t =>
      advanced (2 + prefixLength p) (1 + prefixLength p) s t ∧
      t.reg8 r = n ∧
      changesOnly [.pc, .r, partOfReg8 r] s t) ∧
    (∀ (p : Pfx) (rd : Reg8) (r : Reg8) (s : State), completes (exec (.ldDR p rd r) s) fun t =>
      advanced (1 + prefixLength p) (1 + prefixLength p) s t ∧
      t.reg8 rd = s.reg8 r ∧
      changesOnly [.pc, .r, partOfReg8 rd] s t) ∧
    (∀ (p : Pfx) (nn : Word) (s : State), completes (exec (.ldAMemNn p nn) s) fun t =>
      advanced (3 + prefixLength p) (1 + prefixLength p) s t ∧
      t.a = s.memRead nn ∧
      changesOnly [.pc, .r, .a] s t) ∧
    (∀ (rd : Reg8) (s : State), completes (exec (.ldDMemHl rd) s) fun t =>
      advanced 1 1 s t ∧
      t.reg8 rd = s.memRead s.hl ∧
      changesOnly [.pc, .r, partOfReg8 rd] s t) ∧
    (∀ (p : Pfx) (s : State), completes (exec (.ldAMemBc p) s) fun t =>
      advanced (1 + prefixLength p) (1 + prefixLength p) s t ∧
      t.a = s.memRead s.bc ∧
      changesOnly [.pc, .r, .a] s t) ∧
    (∀ (p : Pfx) (s : State), completes (exec (.ldAMemDe p) s) fun t =>
      advanced (1 + prefixLength p) (1 + prefixLength p) s t ∧
      t.a = s.memRead s.de ∧
      changesOnly [.pc, .r, .a] s t) ∧
    (∀ (rd : Reg8) (o : Byte) (s : State), completes (exec (.ldDIx rd o) s) fun t =>
      advanced 3 2 s t ∧
      t.reg8 rd = s.memRead (s.ix + sext16 o) ∧
      changesOnly [.pc, .r, partOfReg8 rd] s t) ∧
    (∀ (x : Half) (n : Byte) (s : State), completes (exec (.ldXN x n) s) fun t =>
      advanced 3 2 s t ∧
      t.half .ix x = n ∧ (∀ y, y ≠ x → t.half .ix y = s.half .ix y) ∧
      changesOnly [.pc, .r, .ix] s t) ∧
    (∀ (rd : RegX) (r : RegX) (s : State), completes (exec (.ldXX rd r) s) fun t =>
      advanced 2 2 s t ∧
      t.regX .ix rd = s.regX .ix r ∧ (∀ y, y ≠ rd → t.regX .ix y = s.regX .ix y) ∧
      changesOnly [.pc, .r, partOfRegX .ix rd] s t) ∧
    (∀ (rd : Reg8) (o : Byte) (s : State), completes (exec (.ldDIy rd o) s) fun t =>
      advanced 3 2 s t ∧
      t.reg8 rd = s.memRead (s.iy + sext16 o) ∧
      changesOnly [.pc, .r, partOfReg8 rd] s t) ∧
    (∀ (x : Half) (n : Byte) (s : State), completes (exec (.ldYN x n) s) fun t =>
      advanced 3 2 s t ∧
      t.half .iy x = n ∧ (∀ y, y ≠ x → t.half .iy y = s.half .iy y) ∧
      changesOnly [.pc, .r, .iy] s t) ∧
    (∀ (rd : RegX) (r : RegX) (s : State), completes (exec (.ldYY rd r) s) fun t =>
      advanced 2 2 s t ∧
      t.regX .iy rd = s.regX .iy r ∧ (∀ y, y ≠ rd → t.regX .iy y = s.regX .iy y) ∧
      changesOnly [.pc, .r, partOfRegX .iy rd] s t)

/-- LD of a byte to memory stores that byte at the address of the operand and changes nothing but PC and R.
Completion, result and frame; the address is computed by State.ea for the indexed forms. PC and R: 10_state.md R33,
R46, where R counts by the default R_MODEL (D14, log 13). -/
def Obligations.StoresOfAByte : Prop :=
    (∀ (p : Pfx) (nn : Word) (s : State), completes (exec (.ldMemNnA p nn) s) fun t =>
      advanced (3 + prefixLength p) (1 + prefixLength p) s t ∧
      storesByte nn s.a s t ∧
      changesOnly [.pc, .r, .bytes] s t) ∧
    (∀ (r : Reg8) (s : State), completes (exec (.ldMemHlR r) s) fun t =>
      advanced 1 1 s t ∧
      storesByte s.hl (s.reg8 r) s t ∧
      changesOnly [.pc, .r, .bytes] s t) ∧
    (∀ (p : Pfx) (s : State), completes (exec (.ldMemBcA p) s) fun t =>
      advanced (1 + prefixLength p) (1 + prefixLength p) s t ∧
      storesByte s.bc s.a s t ∧
      changesOnly [.pc, .r, .bytes] s t) ∧
    (∀ (p : Pfx) (s : State), completes (exec (.ldMemDeA p) s) fun t =>
      advanced (1 + prefixLength p) (1 + prefixLength p) s t ∧
      storesByte s.de s.a s t ∧
      changesOnly [.pc, .r, .bytes] s t) ∧
    (∀ (n : Byte) (s : State), completes (exec (.ldMemHlN n) s) fun t =>
      advanced 2 1 s t ∧
      storesByte s.hl n s t ∧
      changesOnly [.pc, .r, .bytes] s t) ∧
    (∀ (r : Reg8) (o : Byte) (s : State), completes (exec (.ldIxR r o) s) fun t =>
      advanced 3 2 s t ∧
      storesByte (s.ea .ix o) (s.reg8 r) s t ∧
      changesOnly [.pc, .r, .bytes] s t) ∧
    (∀ (o : Byte) (n : Byte) (s : State), completes (exec (.ldIxN o n) s) fun t =>
      advanced 4 2 s t ∧
      storesByte (s.ea .ix o) n s t ∧
      changesOnly [.pc, .r, .bytes] s t) ∧
    (∀ (r : Reg8) (o : Byte) (s : State), completes (exec (.ldIyR r o) s) fun t =>
      advanced 3 2 s t ∧
      storesByte (s.ea .iy o) (s.reg8 r) s t ∧
      changesOnly [.pc, .r, .bytes] s t) ∧
    (∀ (o : Byte) (n : Byte) (s : State), completes (exec (.ldIyN o n) s) fun t =>
      advanced 4 2 s t ∧
      storesByte (s.ea .iy o) n s t ∧
      changesOnly [.pc, .r, .bytes] s t) ∧
    (∀ (s : State) (o : Byte), s.ea .ix o = s.ix + sext16 o ∧ s.ea .iy o = s.iy + sext16 o)

/-- LD I,A; LD R,A; LD A,I; LD A,R, with IFF2 in P/V for the last two. Completion, result and frame. PC and R:
10_state.md R33, R46, where R counts by the default R_MODEL (D14, log 13). -/
def Obligations.LoadsOfTheSpecialRegisters : Prop :=
    (∀ s : State, completes (exec .ldIA s) fun t =>
      advanced 2 2 s t ∧
      t.i = s.a ∧
      changesOnly [.pc, .r, .i] s t) ∧
    (∀ s : State, completes (exec .ldRA s) fun t =>
      t.pc = s.pc + 2 ∧
      t.r = s.a ∧
      changesOnly [.pc, .r] s t) ∧
    (∀ s : State, completes (exec .ldAI s) fun t =>
      advanced 2 2 s t ∧
      t.a = s.i ∧ flagsAre t.f (s.i.getLsbD 7) (decide (s.i = 0)) (flag5 s.f) false (flag3 s.f) s.iff2 false (flagC s.f) ∧
      changesOnly [.pc, .r, .a, .f] s t) ∧
    (∀ s : State, completes (exec .ldAR s) fun t =>
      advanced 2 2 s t ∧
      t.a = t.r ∧ flagsAre t.f (t.r.getLsbD 7) (decide (t.r = 0)) (flag5 s.f) false (flag3 s.f) s.iff2 false (flagC s.f) ∧
      changesOnly [.pc, .r, .a, .f] s t)

/-- LD of a 16-bit register from an immediate, memory or HL, IX, IY: the pair, PC and R change, nothing else.
Completion, result and frame. PC and R: 10_state.md R33, R46, where R counts by the default R_MODEL (D14, log 13). -/
def Obligations.LoadsOfAPair : Prop :=
    (∀ (p : Pfx) (q : Pair) (nn : Word) (s : State), completes (exec (.ldRrNn p q nn) s) fun t =>
      advanced (3 + prefixLength p) (1 + prefixLength p) s t ∧
      t.pair q = nn ∧
      changesOnly ([.pc, .r] ++ partsOfPair q) s t) ∧
    (∀ (nn : Word) (s : State), completes (exec (.ldHlMemNn nn) s) fun t =>
      advanced 3 1 s t ∧
      t.hl = s.memRead16 nn ∧
      changesOnly [.pc, .r, .h, .l] s t) ∧
    (∀ (q : Pair) (nn : Word) (s : State), completes (exec (.ldRrMemNn q nn) s) fun t =>
      advanced 4 2 s t ∧
      t.pair q = s.memRead16 nn ∧
      changesOnly ([.pc, .r] ++ partsOfPair q) s t) ∧
    (∀ s : State, completes (exec .ldSpHl s) fun t =>
      advanced 1 1 s t ∧
      t.sp = s.hl ∧
      changesOnly [.pc, .r, .sp] s t) ∧
    (∀ (nn : Word) (s : State), completes (exec (.ldIxNn nn) s) fun t =>
      advanced 4 2 s t ∧
      t.ix = nn ∧
      changesOnly [.pc, .r, .ix] s t) ∧
    (∀ (nn : Word) (s : State), completes (exec (.ldIxMemNn nn) s) fun t =>
      advanced 4 2 s t ∧
      t.ix = s.memRead16 nn ∧
      changesOnly [.pc, .r, .ix] s t) ∧
    (∀ s : State, completes (exec .ldSpIx s) fun t =>
      advanced 2 2 s t ∧
      t.sp = s.ix ∧
      changesOnly [.pc, .r, .sp] s t) ∧
    (∀ (nn : Word) (s : State), completes (exec (.ldIyNn nn) s) fun t =>
      advanced 4 2 s t ∧
      t.iy = nn ∧
      changesOnly [.pc, .r, .iy] s t) ∧
    (∀ (nn : Word) (s : State), completes (exec (.ldIyMemNn nn) s) fun t =>
      advanced 4 2 s t ∧
      t.iy = s.memRead16 nn ∧
      changesOnly [.pc, .r, .iy] s t) ∧
    (∀ s : State, completes (exec .ldSpIy s) fun t =>
      advanced 2 2 s t ∧
      t.sp = s.iy ∧
      changesOnly [.pc, .r, .sp] s t)

/-- LD (NN) of a 16-bit register stores its low byte at NN and its high byte at NN + 1. Completion, result and frame.
PC and R: 10_state.md R33, R46, where R counts by the default R_MODEL (D14, log 13). -/
def Obligations.StoresOfAWord : Prop :=
    (∀ (nn : Word) (s : State), completes (exec (.ldMemNnHl nn) s) fun t =>
      advanced 3 1 s t ∧
      storesWord nn s.hl s t ∧
      changesOnly [.pc, .r, .bytes] s t) ∧
    (∀ (q : Pair) (nn : Word) (s : State), completes (exec (.ldMemNnRr q nn) s) fun t =>
      advanced 4 2 s t ∧
      storesWord nn (s.pair q) s t ∧
      changesOnly [.pc, .r, .bytes] s t) ∧
    (∀ (nn : Word) (s : State), completes (exec (.ldMemNnIx nn) s) fun t =>
      advanced 4 2 s t ∧
      storesWord nn s.ix s t ∧
      changesOnly [.pc, .r, .bytes] s t) ∧
    (∀ (nn : Word) (s : State), completes (exec (.ldMemNnIy nn) s) fun t =>
      advanced 4 2 s t ∧
      storesWord nn s.iy s t ∧
      changesOnly [.pc, .r, .bytes] s t)

/-- EX AF,AF'; EXX; EX DE,HL exchange the registers, behind DD and FD as well. Completion, result and frame. PC and R:
10_state.md R33, R46, where R counts by the default R_MODEL (D14, log 13). -/
def Obligations.ExchangesOfRegisters : Prop :=
    (∀ (p : Pfx) (s : State), completes (exec (.exAfAf p) s) fun t =>
      advanced (1 + prefixLength p) (1 + prefixLength p) s t ∧
      t.a = s.a' ∧ t.f = s.f' ∧ t.a' = s.a ∧ t.f' = s.f ∧
      changesOnly [.pc, .r, Part.a, .f, .a', .f'] s t) ∧
    (∀ (p : Pfx) (s : State), completes (exec (.exx p) s) fun t =>
      advanced (1 + prefixLength p) (1 + prefixLength p) s t ∧
      t.b = s.b' ∧ t.c = s.c' ∧ t.d = s.d' ∧ t.e = s.e' ∧ t.h = s.h' ∧ t.l = s.l' ∧
      t.b' = s.b ∧ t.c' = s.c ∧ t.d' = s.d ∧ t.e' = s.e ∧ t.h' = s.h ∧ t.l' = s.l ∧
      changesOnly [.pc, .r, Part.b, .c, .d, .e, .h, .l, .b', .c', .d', .e', .h', .l'] s t) ∧
    (∀ (p : Pfx) (s : State), completes (exec (.exDeHl p) s) fun t =>
      advanced (1 + prefixLength p) (1 + prefixLength p) s t ∧
      t.de = s.hl ∧ t.hl = s.de ∧
      changesOnly [.pc, .r, .d, .e, .h, .l] s t)

/-- EX (SP),HL and its IX and IY forms exchange the register with the word at SP. Completion, result and frame. PC and
R: 10_state.md R33, R46, where R counts by the default R_MODEL (D14, log 13). -/
def Obligations.ExchangesWithTheStackTop : Prop :=
    (∀ s : State, completes (exec .exSpHl s) fun t =>
      advanced 1 1 s t ∧
      t.hl = s.memRead16 s.sp ∧ storesWord s.sp s.hl s t ∧
      changesOnly [.pc, .r, .h, .l, .bytes] s t) ∧
    (∀ s : State, completes (exec .exSpIx s) fun t =>
      advanced 2 2 s t ∧
      t.ix = s.memRead16 s.sp ∧ storesWord s.sp s.ix s t ∧
      changesOnly [.pc, .r, .ix, .bytes] s t) ∧
    (∀ s : State, completes (exec .exSpIy s) fun t =>
      advanced 2 2 s t ∧
      t.iy = s.memRead16 s.sp ∧ storesWord s.sp s.iy s t ∧
      changesOnly [.pc, .r, .iy, .bytes] s t)

/-- PUSH stores the pair below the stack and POP loads it from the top, SP moving by 2. Completion, result and frame.
PC and R: 10_state.md R33, R46, where R counts by the default R_MODEL (D14, log 13). -/
def Obligations.PushesAndPops : Prop :=
    (∀ (p : Pfx) (q : StackPair) (s : State), completes (exec (.pushRs p q) s) fun t =>
      advanced (1 + prefixLength p) (1 + prefixLength p) s t ∧
      t.sp = s.sp - 2 ∧ storesWord (s.sp - 2) (s.stackPair q) s t ∧
      changesOnly [.pc, .r, .sp, .bytes] s t) ∧
    (∀ (p : Pfx) (s : State), completes (exec (.pushAf p) s) fun t =>
      advanced (1 + prefixLength p) (1 + prefixLength p) s t ∧
      t.sp = s.sp - 2 ∧ storesWord (s.sp - 2) (join s.a s.f) s t ∧
      changesOnly [.pc, .r, .sp, .bytes] s t) ∧
    (∀ s : State, completes (exec .pushIx s) fun t =>
      advanced 2 2 s t ∧
      t.sp = s.sp - 2 ∧ storesWord (s.sp - 2) s.ix s t ∧
      changesOnly [.pc, .r, .sp, .bytes] s t) ∧
    (∀ s : State, completes (exec .pushIy s) fun t =>
      advanced 2 2 s t ∧
      t.sp = s.sp - 2 ∧ storesWord (s.sp - 2) s.iy s t ∧
      changesOnly [.pc, .r, .sp, .bytes] s t) ∧
    (∀ (p : Pfx) (q : StackPair) (s : State), completes (exec (.popRs p q) s) fun t =>
      advanced (1 + prefixLength p) (1 + prefixLength p) s t ∧
      t.stackPair q = s.memRead16 s.sp ∧ t.sp = s.sp + 2 ∧
      changesOnly ([.pc, .r, .sp] ++ partsOfStackPair q) s t) ∧
    (∀ (p : Pfx) (s : State), completes (exec (.popAf p) s) fun t =>
      advanced (1 + prefixLength p) (1 + prefixLength p) s t ∧
      join t.a t.f = s.memRead16 s.sp ∧ t.sp = s.sp + 2 ∧
      changesOnly [.pc, .r, .sp, .a, .f] s t) ∧
    (∀ s : State, completes (exec .popIx s) fun t =>
      advanced 2 2 s t ∧
      t.ix = s.memRead16 s.sp ∧ t.sp = s.sp + 2 ∧
      changesOnly [.pc, .r, .sp, .ix] s t) ∧
    (∀ s : State, completes (exec .popIy s) fun t =>
      advanced 2 2 s t ∧
      t.iy = s.memRead16 s.sp ∧ t.sp = s.sp + 2 ∧
      changesOnly [.pc, .r, .sp, .iy] s t)

/-- ADD, ADC, SUB, SBC on A with every operand form give A and F of add8 and sub8, and nothing else changes.
Completion, result and frame; add8 and sub8 are described by AdditionAndItsFlags and SubtractionAndItsFlags. PC and R:
10_state.md R33, R46, where R counts by the default R_MODEL (D14, log 13). -/
def Obligations.AccumulatorArithmetic : Prop :=
    (∀ (p : Pfx) (r : Reg8) (s : State), completes (exec (.addR p r) s) fun t =>
      advanced (1 + prefixLength p) (1 + prefixLength p) s t ∧
      (t.a, t.f) = add8 s.a (s.reg8 r) false ∧
      changesOnly [.pc, .r, .a, .f] s t) ∧
    (∀ (p : Pfx) (n : Byte) (s : State), completes (exec (.addN p n) s) fun t =>
      advanced (2 + prefixLength p) (1 + prefixLength p) s t ∧
      (t.a, t.f) = add8 s.a n false ∧
      changesOnly [.pc, .r, .a, .f] s t) ∧
    (∀ s : State, completes (exec .addMemHl s) fun t =>
      advanced 1 1 s t ∧
      (t.a, t.f) = add8 s.a (s.memRead s.hl) false ∧
      changesOnly [.pc, .r, .a, .f] s t) ∧
    (∀ (x : Half) (s : State), completes (exec (.addX x) s) fun t =>
      advanced 2 2 s t ∧
      (t.a, t.f) = add8 s.a (s.half .ix x) false ∧
      changesOnly [.pc, .r, .a, .f] s t) ∧
    (∀ (x : Half) (s : State), completes (exec (.addY x) s) fun t =>
      advanced 2 2 s t ∧
      (t.a, t.f) = add8 s.a (s.half .iy x) false ∧
      changesOnly [.pc, .r, .a, .f] s t) ∧
    (∀ (o : Byte) (s : State), completes (exec (.addIx o) s) fun t =>
      advanced 3 2 s t ∧
      (t.a, t.f) = add8 s.a (s.memRead (s.ix + sext16 o)) false ∧
      changesOnly [.pc, .r, .a, .f] s t) ∧
    (∀ (o : Byte) (s : State), completes (exec (.addIy o) s) fun t =>
      advanced 3 2 s t ∧
      (t.a, t.f) = add8 s.a (s.memRead (s.iy + sext16 o)) false ∧
      changesOnly [.pc, .r, .a, .f] s t) ∧
    (∀ (p : Pfx) (r : Reg8) (s : State), completes (exec (.adcR p r) s) fun t =>
      advanced (1 + prefixLength p) (1 + prefixLength p) s t ∧
      (t.a, t.f) = add8 s.a (s.reg8 r) (flagC s.f) ∧
      changesOnly [.pc, .r, .a, .f] s t) ∧
    (∀ (p : Pfx) (n : Byte) (s : State), completes (exec (.adcN p n) s) fun t =>
      advanced (2 + prefixLength p) (1 + prefixLength p) s t ∧
      (t.a, t.f) = add8 s.a n (flagC s.f) ∧
      changesOnly [.pc, .r, .a, .f] s t) ∧
    (∀ s : State, completes (exec .adcMemHl s) fun t =>
      advanced 1 1 s t ∧
      (t.a, t.f) = add8 s.a (s.memRead s.hl) (flagC s.f) ∧
      changesOnly [.pc, .r, .a, .f] s t) ∧
    (∀ (x : Half) (s : State), completes (exec (.adcX x) s) fun t =>
      advanced 2 2 s t ∧
      (t.a, t.f) = add8 s.a (s.half .ix x) (flagC s.f) ∧
      changesOnly [.pc, .r, .a, .f] s t) ∧
    (∀ (x : Half) (s : State), completes (exec (.adcY x) s) fun t =>
      advanced 2 2 s t ∧
      (t.a, t.f) = add8 s.a (s.half .iy x) (flagC s.f) ∧
      changesOnly [.pc, .r, .a, .f] s t) ∧
    (∀ (o : Byte) (s : State), completes (exec (.adcIx o) s) fun t =>
      advanced 3 2 s t ∧
      (t.a, t.f) = add8 s.a (s.memRead (s.ix + sext16 o)) (flagC s.f) ∧
      changesOnly [.pc, .r, .a, .f] s t) ∧
    (∀ (o : Byte) (s : State), completes (exec (.adcIy o) s) fun t =>
      advanced 3 2 s t ∧
      (t.a, t.f) = add8 s.a (s.memRead (s.iy + sext16 o)) (flagC s.f) ∧
      changesOnly [.pc, .r, .a, .f] s t) ∧
    (∀ (p : Pfx) (r : Reg8) (s : State), completes (exec (.subR p r) s) fun t =>
      advanced (1 + prefixLength p) (1 + prefixLength p) s t ∧
      (t.a, t.f) = sub8 s.a (s.reg8 r) false ∧
      changesOnly [.pc, .r, .a, .f] s t) ∧
    (∀ (p : Pfx) (n : Byte) (s : State), completes (exec (.subN p n) s) fun t =>
      advanced (2 + prefixLength p) (1 + prefixLength p) s t ∧
      (t.a, t.f) = sub8 s.a n false ∧
      changesOnly [.pc, .r, .a, .f] s t) ∧
    (∀ s : State, completes (exec .subMemHl s) fun t =>
      advanced 1 1 s t ∧
      (t.a, t.f) = sub8 s.a (s.memRead s.hl) false ∧
      changesOnly [.pc, .r, .a, .f] s t) ∧
    (∀ (x : Half) (s : State), completes (exec (.subX x) s) fun t =>
      advanced 2 2 s t ∧
      (t.a, t.f) = sub8 s.a (s.half .ix x) false ∧
      changesOnly [.pc, .r, .a, .f] s t) ∧
    (∀ (x : Half) (s : State), completes (exec (.subY x) s) fun t =>
      advanced 2 2 s t ∧
      (t.a, t.f) = sub8 s.a (s.half .iy x) false ∧
      changesOnly [.pc, .r, .a, .f] s t) ∧
    (∀ (o : Byte) (s : State), completes (exec (.subIx o) s) fun t =>
      advanced 3 2 s t ∧
      (t.a, t.f) = sub8 s.a (s.memRead (s.ix + sext16 o)) false ∧
      changesOnly [.pc, .r, .a, .f] s t) ∧
    (∀ (o : Byte) (s : State), completes (exec (.subIy o) s) fun t =>
      advanced 3 2 s t ∧
      (t.a, t.f) = sub8 s.a (s.memRead (s.iy + sext16 o)) false ∧
      changesOnly [.pc, .r, .a, .f] s t) ∧
    (∀ (p : Pfx) (r : Reg8) (s : State), completes (exec (.sbcR p r) s) fun t =>
      advanced (1 + prefixLength p) (1 + prefixLength p) s t ∧
      (t.a, t.f) = sub8 s.a (s.reg8 r) (flagC s.f) ∧
      changesOnly [.pc, .r, .a, .f] s t) ∧
    (∀ (p : Pfx) (n : Byte) (s : State), completes (exec (.sbcN p n) s) fun t =>
      advanced (2 + prefixLength p) (1 + prefixLength p) s t ∧
      (t.a, t.f) = sub8 s.a n (flagC s.f) ∧
      changesOnly [.pc, .r, .a, .f] s t) ∧
    (∀ s : State, completes (exec .sbcMemHl s) fun t =>
      advanced 1 1 s t ∧
      (t.a, t.f) = sub8 s.a (s.memRead s.hl) (flagC s.f) ∧
      changesOnly [.pc, .r, .a, .f] s t) ∧
    (∀ (x : Half) (s : State), completes (exec (.sbcX x) s) fun t =>
      advanced 2 2 s t ∧
      (t.a, t.f) = sub8 s.a (s.half .ix x) (flagC s.f) ∧
      changesOnly [.pc, .r, .a, .f] s t) ∧
    (∀ (x : Half) (s : State), completes (exec (.sbcY x) s) fun t =>
      advanced 2 2 s t ∧
      (t.a, t.f) = sub8 s.a (s.half .iy x) (flagC s.f) ∧
      changesOnly [.pc, .r, .a, .f] s t) ∧
    (∀ (o : Byte) (s : State), completes (exec (.sbcIx o) s) fun t =>
      advanced 3 2 s t ∧
      (t.a, t.f) = sub8 s.a (s.memRead (s.ix + sext16 o)) (flagC s.f) ∧
      changesOnly [.pc, .r, .a, .f] s t) ∧
    (∀ (o : Byte) (s : State), completes (exec (.sbcIy o) s) fun t =>
      advanced 3 2 s t ∧
      (t.a, t.f) = sub8 s.a (s.memRead (s.iy + sext16 o)) (flagC s.f) ∧
      changesOnly [.pc, .r, .a, .f] s t)

/-- AND, OR, XOR on A with every operand form give A and F; CP gives F alone. Completion, result and frame. PC and R:
10_state.md R33, R46, where R counts by the default R_MODEL (D14, log 13). -/
def Obligations.AccumulatorLogicAndCompare : Prop :=
    (∀ (p : Pfx) (r : Reg8) (s : State), completes (exec (.andR p r) s) fun t =>
      advanced (1 + prefixLength p) (1 + prefixLength p) s t ∧
      (t.a, t.f) = and8 s.a (s.reg8 r) ∧
      changesOnly [.pc, .r, .a, .f] s t) ∧
    (∀ (p : Pfx) (n : Byte) (s : State), completes (exec (.andN p n) s) fun t =>
      advanced (2 + prefixLength p) (1 + prefixLength p) s t ∧
      (t.a, t.f) = and8 s.a n ∧
      changesOnly [.pc, .r, .a, .f] s t) ∧
    (∀ s : State, completes (exec .andMemHl s) fun t =>
      advanced 1 1 s t ∧
      (t.a, t.f) = and8 s.a (s.memRead s.hl) ∧
      changesOnly [.pc, .r, .a, .f] s t) ∧
    (∀ (x : Half) (s : State), completes (exec (.andX x) s) fun t =>
      advanced 2 2 s t ∧
      (t.a, t.f) = and8 s.a (s.half .ix x) ∧
      changesOnly [.pc, .r, .a, .f] s t) ∧
    (∀ (x : Half) (s : State), completes (exec (.andY x) s) fun t =>
      advanced 2 2 s t ∧
      (t.a, t.f) = and8 s.a (s.half .iy x) ∧
      changesOnly [.pc, .r, .a, .f] s t) ∧
    (∀ (o : Byte) (s : State), completes (exec (.andIx o) s) fun t =>
      advanced 3 2 s t ∧
      (t.a, t.f) = and8 s.a (s.memRead (s.ix + sext16 o)) ∧
      changesOnly [.pc, .r, .a, .f] s t) ∧
    (∀ (o : Byte) (s : State), completes (exec (.andIy o) s) fun t =>
      advanced 3 2 s t ∧
      (t.a, t.f) = and8 s.a (s.memRead (s.iy + sext16 o)) ∧
      changesOnly [.pc, .r, .a, .f] s t) ∧
    (∀ (p : Pfx) (r : Reg8) (s : State), completes (exec (.orR p r) s) fun t =>
      advanced (1 + prefixLength p) (1 + prefixLength p) s t ∧
      (t.a, t.f) = or8 s.a (s.reg8 r) ∧
      changesOnly [.pc, .r, .a, .f] s t) ∧
    (∀ (p : Pfx) (n : Byte) (s : State), completes (exec (.orN p n) s) fun t =>
      advanced (2 + prefixLength p) (1 + prefixLength p) s t ∧
      (t.a, t.f) = or8 s.a n ∧
      changesOnly [.pc, .r, .a, .f] s t) ∧
    (∀ s : State, completes (exec .orMemHl s) fun t =>
      advanced 1 1 s t ∧
      (t.a, t.f) = or8 s.a (s.memRead s.hl) ∧
      changesOnly [.pc, .r, .a, .f] s t) ∧
    (∀ (x : Half) (s : State), completes (exec (.orX x) s) fun t =>
      advanced 2 2 s t ∧
      (t.a, t.f) = or8 s.a (s.half .ix x) ∧
      changesOnly [.pc, .r, .a, .f] s t) ∧
    (∀ (x : Half) (s : State), completes (exec (.orY x) s) fun t =>
      advanced 2 2 s t ∧
      (t.a, t.f) = or8 s.a (s.half .iy x) ∧
      changesOnly [.pc, .r, .a, .f] s t) ∧
    (∀ (o : Byte) (s : State), completes (exec (.orIx o) s) fun t =>
      advanced 3 2 s t ∧
      (t.a, t.f) = or8 s.a (s.memRead (s.ix + sext16 o)) ∧
      changesOnly [.pc, .r, .a, .f] s t) ∧
    (∀ (o : Byte) (s : State), completes (exec (.orIy o) s) fun t =>
      advanced 3 2 s t ∧
      (t.a, t.f) = or8 s.a (s.memRead (s.iy + sext16 o)) ∧
      changesOnly [.pc, .r, .a, .f] s t) ∧
    (∀ (p : Pfx) (r : Reg8) (s : State), completes (exec (.xorR p r) s) fun t =>
      advanced (1 + prefixLength p) (1 + prefixLength p) s t ∧
      (t.a, t.f) = xor8 s.a (s.reg8 r) ∧
      changesOnly [.pc, .r, .a, .f] s t) ∧
    (∀ (p : Pfx) (n : Byte) (s : State), completes (exec (.xorN p n) s) fun t =>
      advanced (2 + prefixLength p) (1 + prefixLength p) s t ∧
      (t.a, t.f) = xor8 s.a n ∧
      changesOnly [.pc, .r, .a, .f] s t) ∧
    (∀ s : State, completes (exec .xorMemHl s) fun t =>
      advanced 1 1 s t ∧
      (t.a, t.f) = xor8 s.a (s.memRead s.hl) ∧
      changesOnly [.pc, .r, .a, .f] s t) ∧
    (∀ (x : Half) (s : State), completes (exec (.xorX x) s) fun t =>
      advanced 2 2 s t ∧
      (t.a, t.f) = xor8 s.a (s.half .ix x) ∧
      changesOnly [.pc, .r, .a, .f] s t) ∧
    (∀ (x : Half) (s : State), completes (exec (.xorY x) s) fun t =>
      advanced 2 2 s t ∧
      (t.a, t.f) = xor8 s.a (s.half .iy x) ∧
      changesOnly [.pc, .r, .a, .f] s t) ∧
    (∀ (o : Byte) (s : State), completes (exec (.xorIx o) s) fun t =>
      advanced 3 2 s t ∧
      (t.a, t.f) = xor8 s.a (s.memRead (s.ix + sext16 o)) ∧
      changesOnly [.pc, .r, .a, .f] s t) ∧
    (∀ (o : Byte) (s : State), completes (exec (.xorIy o) s) fun t =>
      advanced 3 2 s t ∧
      (t.a, t.f) = xor8 s.a (s.memRead (s.iy + sext16 o)) ∧
      changesOnly [.pc, .r, .a, .f] s t) ∧
    (∀ (p : Pfx) (r : Reg8) (s : State), completes (exec (.cpR p r) s) fun t =>
      advanced (1 + prefixLength p) (1 + prefixLength p) s t ∧
      t.f = cp8 s.a (s.reg8 r) ∧
      changesOnly [.pc, .r, .f] s t) ∧
    (∀ (p : Pfx) (n : Byte) (s : State), completes (exec (.cpN p n) s) fun t =>
      advanced (2 + prefixLength p) (1 + prefixLength p) s t ∧
      t.f = cp8 s.a n ∧
      changesOnly [.pc, .r, .f] s t) ∧
    (∀ s : State, completes (exec .cpMemHl s) fun t =>
      advanced 1 1 s t ∧
      t.f = cp8 s.a (s.memRead s.hl) ∧
      changesOnly [.pc, .r, .f] s t) ∧
    (∀ (x : Half) (s : State), completes (exec (.cpX x) s) fun t =>
      advanced 2 2 s t ∧
      t.f = cp8 s.a (s.half .ix x) ∧
      changesOnly [.pc, .r, .f] s t) ∧
    (∀ (x : Half) (s : State), completes (exec (.cpY x) s) fun t =>
      advanced 2 2 s t ∧
      t.f = cp8 s.a (s.half .iy x) ∧
      changesOnly [.pc, .r, .f] s t) ∧
    (∀ (o : Byte) (s : State), completes (exec (.cpIx o) s) fun t =>
      advanced 3 2 s t ∧
      t.f = cp8 s.a (s.memRead (s.ix + sext16 o)) ∧
      changesOnly [.pc, .r, .f] s t) ∧
    (∀ (o : Byte) (s : State), completes (exec (.cpIy o) s) fun t =>
      advanced 3 2 s t ∧
      t.f = cp8 s.a (s.memRead (s.iy + sext16 o)) ∧
      changesOnly [.pc, .r, .f] s t)

/-- INC and DEC of a register, an index half or a byte of memory give the byte and F of inc8 and dec8. Completion,
result and frame; inc8 and dec8 are described by StepByOneKeepsCarry. PC and R: 10_state.md R33, R46, where R counts
by the default R_MODEL (D14, log 13). -/
def Obligations.IncrementsAndDecrementsOfAByte : Prop :=
    (∀ (p : Pfx) (r : Reg8) (s : State), completes (exec (.incR p r) s) fun t =>
      advanced (1 + prefixLength p) (1 + prefixLength p) s t ∧
      (t.reg8 r, t.f) = inc8 (s.reg8 r) s.f ∧
      changesOnly [.pc, .r, .f, partOfReg8 r] s t) ∧
    (∀ (x : Half) (s : State), completes (exec (.incX x) s) fun t =>
      advanced 2 2 s t ∧
      (t.half .ix x, t.f) = inc8 (s.half .ix x) s.f ∧ (∀ y, y ≠ x → t.half .ix y = s.half .ix y) ∧
      changesOnly [.pc, .r, .f, .ix] s t) ∧
    (∀ (x : Half) (s : State), completes (exec (.incY x) s) fun t =>
      advanced 2 2 s t ∧
      (t.half .iy x, t.f) = inc8 (s.half .iy x) s.f ∧ (∀ y, y ≠ x → t.half .iy y = s.half .iy y) ∧
      changesOnly [.pc, .r, .f, .iy] s t) ∧
    (∀ s : State, completes (exec .incMemHl s) fun t =>
      advanced 1 1 s t ∧
      storesByte s.hl (inc8 (s.memRead s.hl) s.f).1 s t ∧ t.f = (inc8 (s.memRead s.hl) s.f).2 ∧
      changesOnly [.pc, .r, .f, .bytes] s t) ∧
    (∀ (o : Byte) (s : State), completes (exec (.incIx o) s) fun t =>
      advanced 3 2 s t ∧
      storesByte (s.ea .ix o) (inc8 (s.memRead (s.ea .ix o)) s.f).1 s t ∧
      t.f = (inc8 (s.memRead (s.ea .ix o)) s.f).2 ∧
      changesOnly [.pc, .r, .f, .bytes] s t) ∧
    (∀ (o : Byte) (s : State), completes (exec (.incIy o) s) fun t =>
      advanced 3 2 s t ∧
      storesByte (s.ea .iy o) (inc8 (s.memRead (s.ea .iy o)) s.f).1 s t ∧
      t.f = (inc8 (s.memRead (s.ea .iy o)) s.f).2 ∧
      changesOnly [.pc, .r, .f, .bytes] s t) ∧
    (∀ (p : Pfx) (r : Reg8) (s : State), completes (exec (.decR p r) s) fun t =>
      advanced (1 + prefixLength p) (1 + prefixLength p) s t ∧
      (t.reg8 r, t.f) = dec8 (s.reg8 r) s.f ∧
      changesOnly [.pc, .r, .f, partOfReg8 r] s t) ∧
    (∀ (x : Half) (s : State), completes (exec (.decX x) s) fun t =>
      advanced 2 2 s t ∧
      (t.half .ix x, t.f) = dec8 (s.half .ix x) s.f ∧ (∀ y, y ≠ x → t.half .ix y = s.half .ix y) ∧
      changesOnly [.pc, .r, .f, .ix] s t) ∧
    (∀ (x : Half) (s : State), completes (exec (.decY x) s) fun t =>
      advanced 2 2 s t ∧
      (t.half .iy x, t.f) = dec8 (s.half .iy x) s.f ∧ (∀ y, y ≠ x → t.half .iy y = s.half .iy y) ∧
      changesOnly [.pc, .r, .f, .iy] s t) ∧
    (∀ s : State, completes (exec .decMemHl s) fun t =>
      advanced 1 1 s t ∧
      storesByte s.hl (dec8 (s.memRead s.hl) s.f).1 s t ∧ t.f = (dec8 (s.memRead s.hl) s.f).2 ∧
      changesOnly [.pc, .r, .f, .bytes] s t) ∧
    (∀ (o : Byte) (s : State), completes (exec (.decIx o) s) fun t =>
      advanced 3 2 s t ∧
      storesByte (s.ea .ix o) (dec8 (s.memRead (s.ea .ix o)) s.f).1 s t ∧
      t.f = (dec8 (s.memRead (s.ea .ix o)) s.f).2 ∧
      changesOnly [.pc, .r, .f, .bytes] s t) ∧
    (∀ (o : Byte) (s : State), completes (exec (.decIy o) s) fun t =>
      advanced 3 2 s t ∧
      storesByte (s.ea .iy o) (dec8 (s.memRead (s.ea .iy o)) s.f).1 s t ∧
      t.f = (dec8 (s.memRead (s.ea .iy o)) s.f).2 ∧
      changesOnly [.pc, .r, .f, .bytes] s t)

/-- CPL, NEG, CCF, SCF, DAA: A and every flag. Completion, result and frame; DAA by the default DAA_FN (D10, log 12).
PC and R: 10_state.md R33, R46, where R counts by the default R_MODEL (D14, log 13). -/
def Obligations.AccumulatorAndCarryOperations : Prop :=
    (∀ (p : Pfx) (s : State), completes (exec (.cpl p) s) fun t =>
      advanced (1 + prefixLength p) (1 + prefixLength p) s t ∧
      t.a = ~~~s.a ∧ flagsAre t.f (flagS s.f) (flagZ s.f) ((~~~s.a).getLsbD 5) true ((~~~s.a).getLsbD 3) (flagPV s.f) true (flagC s.f) ∧
      changesOnly [.pc, .r, .a, .f] s t) ∧
    (∀ (k : BitVec 3) (s : State), completes (exec (.neg k) s) fun t =>
      advanced 2 2 s t ∧
      (t.a, t.f) = sub8 0 s.a false ∧
      changesOnly [.pc, .r, .a, .f] s t) ∧
    (∀ (p : Pfx) (s : State), completes (exec (.ccf p) s) fun t =>
      advanced (1 + prefixLength p) (1 + prefixLength p) s t ∧
      flagsAre t.f (flagS s.f) (flagZ s.f) (s.a.getLsbD 5) (flagC s.f) (s.a.getLsbD 3) (flagPV s.f) false (!flagC s.f) ∧
      changesOnly [.pc, .r, .f] s t) ∧
    (∀ (p : Pfx) (s : State), completes (exec (.scf p) s) fun t =>
      advanced (1 + prefixLength p) (1 + prefixLength p) s t ∧
      flagsAre t.f (flagS s.f) (flagZ s.f) (s.a.getLsbD 5) false (s.a.getLsbD 3) (flagPV s.f) false true ∧
      changesOnly [.pc, .r, .f] s t) ∧
    (∀ (p : Pfx) (s : State), completes (exec (.daa p) s) fun t =>
      advanced (1 + prefixLength p) (1 + prefixLength p) s t ∧
      (t.a, t.f) = daa s.a s.f ∧
      changesOnly [.pc, .r, .a, .f] s t)

/-- ADD, ADC, SBC on HL, ADD on IX and IY, INC and DEC of pairs: the pair and the flags. Completion, result and frame;
add16 and sbc16 are described by WordArithmeticAndItsFlags. PC and R: 10_state.md R33, R46, where R counts by the
default R_MODEL (D14, log 13). -/
def Obligations.ArithmeticOnPairs : Prop :=
    (∀ (q : Pair) (s : State), completes (exec (.addHlRr q) s) fun t =>
      advanced 1 1 s t ∧
      t.hl = s.hl + s.pair q ∧
      flagsAre t.f (flagS s.f) (flagZ s.f) (flag5 (add16 s.hl (s.pair q) false).2) (flagH (add16 s.hl (s.pair q) false).2) (flag3 (add16 s.hl (s.pair q) false).2) (flagPV s.f) false (flagC (add16 s.hl (s.pair q) false).2) ∧
      changesOnly [.pc, .r, .h, .l, .f] s t) ∧
    (∀ (q : Pair) (s : State), completes (exec (.adcHlRr q) s) fun t =>
      advanced 2 2 s t ∧
      (t.hl, t.f) = add16 s.hl (s.pair q) (flagC s.f) ∧
      changesOnly [.pc, .r, .h, .l, .f] s t) ∧
    (∀ (q : Pair) (s : State), completes (exec (.sbcHlRr q) s) fun t =>
      advanced 2 2 s t ∧
      (t.hl, t.f) = sbc16 s.hl (s.pair q) (flagC s.f) ∧
      changesOnly [.pc, .r, .h, .l, .f] s t) ∧
    (∀ (q : PairX) (s : State), completes (exec (.addIxRr q) s) fun t =>
      advanced 2 2 s t ∧
      t.ix = s.ix + s.pairX .ix q ∧
      flagsAre t.f (flagS s.f) (flagZ s.f) (flag5 (add16 s.ix (s.pairX .ix q) false).2) (flagH (add16 s.ix (s.pairX .ix q) false).2) (flag3 (add16 s.ix (s.pairX .ix q) false).2) (flagPV s.f) false (flagC (add16 s.ix (s.pairX .ix q) false).2) ∧
      changesOnly [.pc, .r, .ix, .f] s t) ∧
    (∀ (q : PairX) (s : State), completes (exec (.addIyRr q) s) fun t =>
      advanced 2 2 s t ∧
      t.iy = s.iy + s.pairX .iy q ∧
      flagsAre t.f (flagS s.f) (flagZ s.f) (flag5 (add16 s.iy (s.pairX .iy q) false).2) (flagH (add16 s.iy (s.pairX .iy q) false).2) (flag3 (add16 s.iy (s.pairX .iy q) false).2) (flagPV s.f) false (flagC (add16 s.iy (s.pairX .iy q) false).2) ∧
      changesOnly [.pc, .r, .iy, .f] s t) ∧
    (∀ (p : Pfx) (q : Pair) (s : State), completes (exec (.incRr p q) s) fun t =>
      advanced (1 + prefixLength p) (1 + prefixLength p) s t ∧
      t.pair q = s.pair q + 1 ∧
      changesOnly ([.pc, .r] ++ partsOfPair q) s t) ∧
    (∀ (p : Pfx) (q : Pair) (s : State), completes (exec (.decRr p q) s) fun t =>
      advanced (1 + prefixLength p) (1 + prefixLength p) s t ∧
      t.pair q = s.pair q - 1 ∧
      changesOnly ([.pc, .r] ++ partsOfPair q) s t) ∧
    (∀ s : State, completes (exec .incIx16 s) fun t =>
      advanced 2 2 s t ∧
      t.ix = s.ix + 1 ∧
      changesOnly [.pc, .r, .ix] s t) ∧
    (∀ s : State, completes (exec .decIx16 s) fun t =>
      advanced 2 2 s t ∧
      t.ix = s.ix - 1 ∧
      changesOnly [.pc, .r, .ix] s t) ∧
    (∀ s : State, completes (exec .incIy16 s) fun t =>
      advanced 2 2 s t ∧
      t.iy = s.iy + 1 ∧
      changesOnly [.pc, .r, .iy] s t) ∧
    (∀ s : State, completes (exec .decIy16 s) fun t =>
      advanced 2 2 s t ∧
      t.iy = s.iy - 1 ∧
      changesOnly [.pc, .r, .iy] s t)

/-- JP, JR and DJNZ: the new PC, taken or not, and nothing else but R and, for DJNZ, B. Completion, result and frame;
the conditions are described by ConditionTable. PC and R: 10_state.md R33, R46, where R counts by the default R_MODEL
(D14, log 13). -/
def Obligations.JumpsSetOnlyThePc : Prop :=
    (∀ (p : Pfx) (nn : Word) (s : State), completes (exec (.jpNn p nn) s) fun t =>
      t.pc = nn ∧ counted (1 + prefixLength p) s t ∧
      changesOnly [.pc, .r] s t) ∧
    (∀ s : State, completes (exec .jpHl s) fun t =>
      t.pc = s.hl ∧ counted 1 s t ∧
      changesOnly [.pc, .r] s t) ∧
    (∀ s : State, completes (exec .jpIx s) fun t =>
      t.pc = s.ix ∧ counted 2 s t ∧
      changesOnly [.pc, .r] s t) ∧
    (∀ s : State, completes (exec .jpIy s) fun t =>
      t.pc = s.iy ∧ counted 2 s t ∧
      changesOnly [.pc, .r] s t) ∧
    (∀ (p : Pfx) (cc : Cond) (nn : Word) (s : State), completes (exec (.jpCNn p cc nn) s) fun t =>
      t.pc = (if holds s.f cc then nn else s.pc + BitVec.ofNat 16 (3 + prefixLength p)) ∧ counted (1 + prefixLength p) s t ∧
      changesOnly [.pc, .r] s t) ∧
    (∀ (p : Pfx) (o : Byte) (s : State), completes (exec (.jr p o) s) fun t =>
      t.pc = s.pc + BitVec.ofNat 16 (2 + prefixLength p) + sext16 o ∧ counted (1 + prefixLength p) s t ∧
      changesOnly [.pc, .r] s t) ∧
    (∀ (p : Pfx) (cc : Cond4) (o : Byte) (s : State), completes (exec (.jrCc p cc o) s) fun t =>
      t.pc = (if holds s.f (condOfJr cc) then s.pc + BitVec.ofNat 16 (2 + prefixLength p) + sext16 o else s.pc + BitVec.ofNat 16 (2 + prefixLength p)) ∧ counted (1 + prefixLength p) s t ∧
      changesOnly [.pc, .r] s t) ∧
    (∀ (p : Pfx) (o : Byte) (s : State), completes (exec (.djnz p o) s) fun t =>
      t.pc = (if s.b = 1 then s.pc + BitVec.ofNat 16 (2 + prefixLength p) else s.pc + BitVec.ofNat 16 (2 + prefixLength p) + sext16 o) ∧ counted (1 + prefixLength p) s t ∧
      t.b = s.b - 1 ∧
      changesOnly [.pc, .r, .b] s t)

/-- CALL and RST push the address after the instruction and jump; an untaken CALL only passes the instruction.
Completion, result and frame. PC and R: 10_state.md R33, R46, where R counts by the default R_MODEL (D14, log 13). -/
def Obligations.CallsPushTheNextAddress : Prop :=
    (∀ (p : Pfx) (nn : Word) (s : State), completes (exec (.callNn p nn) s) fun t =>
      t.pc = nn ∧ counted (1 + prefixLength p) s t ∧
      t.sp = s.sp - 2 ∧ storesWord (s.sp - 2) (s.pc + BitVec.ofNat 16 (3 + prefixLength p)) s t ∧
      changesOnly [.pc, .r, .sp, .bytes] s t) ∧
    (∀ (p : Pfx) (v : BitVec 3) (s : State), completes (exec (.rst p v) s) fun t =>
      t.pc = BitVec.ofNat 16 (8 * v.toNat) ∧ counted (1 + prefixLength p) s t ∧
      t.sp = s.sp - 2 ∧ storesWord (s.sp - 2) (s.pc + BitVec.ofNat 16 (1 + prefixLength p)) s t ∧
      changesOnly [.pc, .r, .sp, .bytes] s t) ∧
    (∀ (p : Pfx) (cc : Cond) (nn : Word) (s : State), holds s.f cc = true → completes (exec (.callCNn p cc nn) s) fun t =>
      t.pc = nn ∧ counted (1 + prefixLength p) s t ∧
      t.sp = s.sp - 2 ∧ storesWord (s.sp - 2) (s.pc + BitVec.ofNat 16 (3 + prefixLength p)) s t ∧
      changesOnly [.pc, .r, .sp, .bytes] s t) ∧
    (∀ (p : Pfx) (cc : Cond) (nn : Word) (s : State), holds s.f cc = false → completes (exec (.callCNn p cc nn) s) fun t =>
      advanced (3 + prefixLength p) (1 + prefixLength p) s t ∧ changesOnly [.pc, .r] s t)

/-- RET, RET c, RETI, RETN pop PC; RETN alone copies IFF2 to IFF1. Completion, result and frame; that RETI copies
nothing is the spec's decision D22. PC and R: 10_state.md R33, R46, where R counts by the default R_MODEL (D14, log
13). -/
def Obligations.ReturnsPopThePc : Prop :=
    (∀ (p : Pfx) (s : State), completes (exec (.ret p) s) fun t =>
      t.pc = s.memRead16 s.sp ∧ counted (1 + prefixLength p) s t ∧
      t.sp = s.sp + 2 ∧
      changesOnly [.pc, .r, .sp] s t) ∧
    (∀ (k : BitVec 2) (s : State), completes (exec (.reti k) s) fun t =>
      t.pc = s.memRead16 s.sp ∧ counted 2 s t ∧
      t.sp = s.sp + 2 ∧
      changesOnly [.pc, .r, .sp] s t) ∧
    (∀ (k : BitVec 2) (s : State), completes (exec (.retn k) s) fun t =>
      t.pc = s.memRead16 s.sp ∧ counted 2 s t ∧
      t.sp = s.sp + 2 ∧ t.iff1 = s.iff2 ∧
      changesOnly [.pc, .r, .sp, .iff1] s t) ∧
    (∀ (p : Pfx) (cc : Cond) (s : State), holds s.f cc = true → completes (exec (.retC p cc) s) fun t =>
      t.pc = s.memRead16 s.sp ∧ counted (1 + prefixLength p) s t ∧ t.sp = s.sp + 2 ∧
      changesOnly [.pc, .r, .sp] s t) ∧
    (∀ (p : Pfx) (cc : Cond) (s : State), holds s.f cc = false → completes (exec (.retC p cc) s) fun t =>
      advanced (1 + prefixLength p) (1 + prefixLength p) s t ∧ changesOnly [.pc, .r] s t)

/-- RLCA, RRCA, RLA, RRA and the eight CB shifts of a register: the register and every flag. Completion, result and
frame; the functions are described by ShiftFunctionsMoveOneBit. PC and R: 10_state.md R33, R46, where R counts by the
default R_MODEL (D14, log 13). -/
def Obligations.ShiftsOfRegisters : Prop :=
    (∀ (p : Pfx) (s : State), completes (exec (.rlca p) s) fun t =>
      advanced (1 + prefixLength p) (1 + prefixLength p) s t ∧
      t.a = (rlc s.a (flagC s.f)).1 ∧ flagsAre t.f (flagS s.f) (flagZ s.f) (t.a.getLsbD 5) false (t.a.getLsbD 3) (flagPV s.f) false
        (rlc s.a (flagC s.f)).2 ∧
      changesOnly [.pc, .r, .a, .f] s t) ∧
    (∀ (p : Pfx) (s : State), completes (exec (.rrca p) s) fun t =>
      advanced (1 + prefixLength p) (1 + prefixLength p) s t ∧
      t.a = (rrc s.a (flagC s.f)).1 ∧ flagsAre t.f (flagS s.f) (flagZ s.f) (t.a.getLsbD 5) false (t.a.getLsbD 3) (flagPV s.f) false
        (rrc s.a (flagC s.f)).2 ∧
      changesOnly [.pc, .r, .a, .f] s t) ∧
    (∀ (p : Pfx) (s : State), completes (exec (.rla p) s) fun t =>
      advanced (1 + prefixLength p) (1 + prefixLength p) s t ∧
      t.a = (rl s.a (flagC s.f)).1 ∧ flagsAre t.f (flagS s.f) (flagZ s.f) (t.a.getLsbD 5) false (t.a.getLsbD 3) (flagPV s.f) false
        (rl s.a (flagC s.f)).2 ∧
      changesOnly [.pc, .r, .a, .f] s t) ∧
    (∀ (p : Pfx) (s : State), completes (exec (.rra p) s) fun t =>
      advanced (1 + prefixLength p) (1 + prefixLength p) s t ∧
      t.a = (rr s.a (flagC s.f)).1 ∧ flagsAre t.f (flagS s.f) (flagZ s.f) (t.a.getLsbD 5) false (t.a.getLsbD 3) (flagPV s.f) false
        (rr s.a (flagC s.f)).2 ∧
      changesOnly [.pc, .r, .a, .f] s t) ∧
    (∀ (r : Reg8) (s : State), completes (exec (.rlcR r) s) fun t =>
      advanced 2 2 s t ∧
      t.reg8 r = (rlc (s.reg8 r) (flagC s.f)).1 ∧
      shiftFlagsAre t.f (rlc (s.reg8 r) (flagC s.f)).1 (rlc (s.reg8 r) (flagC s.f)).2 ∧
      changesOnly [.pc, .r, .f, partOfReg8 r] s t) ∧
    (∀ (r : Reg8) (s : State), completes (exec (.rrcR r) s) fun t =>
      advanced 2 2 s t ∧
      t.reg8 r = (rrc (s.reg8 r) (flagC s.f)).1 ∧
      shiftFlagsAre t.f (rrc (s.reg8 r) (flagC s.f)).1 (rrc (s.reg8 r) (flagC s.f)).2 ∧
      changesOnly [.pc, .r, .f, partOfReg8 r] s t) ∧
    (∀ (r : Reg8) (s : State), completes (exec (.rlR r) s) fun t =>
      advanced 2 2 s t ∧
      t.reg8 r = (rl (s.reg8 r) (flagC s.f)).1 ∧
      shiftFlagsAre t.f (rl (s.reg8 r) (flagC s.f)).1 (rl (s.reg8 r) (flagC s.f)).2 ∧
      changesOnly [.pc, .r, .f, partOfReg8 r] s t) ∧
    (∀ (r : Reg8) (s : State), completes (exec (.rrR r) s) fun t =>
      advanced 2 2 s t ∧
      t.reg8 r = (rr (s.reg8 r) (flagC s.f)).1 ∧
      shiftFlagsAre t.f (rr (s.reg8 r) (flagC s.f)).1 (rr (s.reg8 r) (flagC s.f)).2 ∧
      changesOnly [.pc, .r, .f, partOfReg8 r] s t) ∧
    (∀ (r : Reg8) (s : State), completes (exec (.slaR r) s) fun t =>
      advanced 2 2 s t ∧
      t.reg8 r = (sla (s.reg8 r) (flagC s.f)).1 ∧
      shiftFlagsAre t.f (sla (s.reg8 r) (flagC s.f)).1 (sla (s.reg8 r) (flagC s.f)).2 ∧
      changesOnly [.pc, .r, .f, partOfReg8 r] s t) ∧
    (∀ (r : Reg8) (s : State), completes (exec (.sraR r) s) fun t =>
      advanced 2 2 s t ∧
      t.reg8 r = (sra (s.reg8 r) (flagC s.f)).1 ∧
      shiftFlagsAre t.f (sra (s.reg8 r) (flagC s.f)).1 (sra (s.reg8 r) (flagC s.f)).2 ∧
      changesOnly [.pc, .r, .f, partOfReg8 r] s t) ∧
    (∀ (r : Reg8) (s : State), completes (exec (.sliR r) s) fun t =>
      advanced 2 2 s t ∧
      t.reg8 r = (sli (s.reg8 r) (flagC s.f)).1 ∧
      shiftFlagsAre t.f (sli (s.reg8 r) (flagC s.f)).1 (sli (s.reg8 r) (flagC s.f)).2 ∧
      changesOnly [.pc, .r, .f, partOfReg8 r] s t) ∧
    (∀ (r : Reg8) (s : State), completes (exec (.srlR r) s) fun t =>
      advanced 2 2 s t ∧
      t.reg8 r = (srl (s.reg8 r) (flagC s.f)).1 ∧
      shiftFlagsAre t.f (srl (s.reg8 r) (flagC s.f)).1 (srl (s.reg8 r) (flagC s.f)).2 ∧
      changesOnly [.pc, .r, .f, partOfReg8 r] s t)

/-- The eight shifts of the byte at HL, IX+s or IY+s: the byte and every flag. Completion, result and frame. PC and R:
10_state.md R33, R46, where R counts by the default R_MODEL (D14, log 13). -/
def Obligations.ShiftsOfMemory : Prop :=
    (∀ s : State, completes (exec .rlcMemHl s) fun t =>
      advanced 2 2 s t ∧
      storesByte s.hl (rlc (s.memRead s.hl) (flagC s.f)).1 s t ∧
      shiftFlagsAre t.f (rlc (s.memRead s.hl) (flagC s.f)).1 (rlc (s.memRead s.hl) (flagC s.f)).2 ∧
      changesOnly [.pc, .r, .f, .bytes] s t) ∧
    (∀ (o : Byte) (s : State), completes (exec (.rlcIx o) s) fun t =>
      advanced 4 2 s t ∧
      storesByte (s.ea .ix o) (rlc (s.memRead (s.ea .ix o)) (flagC s.f)).1 s t ∧
      shiftFlagsAre t.f (rlc (s.memRead (s.ea .ix o)) (flagC s.f)).1 (rlc (s.memRead (s.ea .ix o)) (flagC s.f)).2 ∧
      changesOnly [.pc, .r, .f, .bytes] s t) ∧
    (∀ (o : Byte) (s : State), completes (exec (.rlcIy o) s) fun t =>
      advanced 4 2 s t ∧
      storesByte (s.ea .iy o) (rlc (s.memRead (s.ea .iy o)) (flagC s.f)).1 s t ∧
      shiftFlagsAre t.f (rlc (s.memRead (s.ea .iy o)) (flagC s.f)).1 (rlc (s.memRead (s.ea .iy o)) (flagC s.f)).2 ∧
      changesOnly [.pc, .r, .f, .bytes] s t) ∧
    (∀ s : State, completes (exec .rrcMemHl s) fun t =>
      advanced 2 2 s t ∧
      storesByte s.hl (rrc (s.memRead s.hl) (flagC s.f)).1 s t ∧
      shiftFlagsAre t.f (rrc (s.memRead s.hl) (flagC s.f)).1 (rrc (s.memRead s.hl) (flagC s.f)).2 ∧
      changesOnly [.pc, .r, .f, .bytes] s t) ∧
    (∀ (o : Byte) (s : State), completes (exec (.rrcIx o) s) fun t =>
      advanced 4 2 s t ∧
      storesByte (s.ea .ix o) (rrc (s.memRead (s.ea .ix o)) (flagC s.f)).1 s t ∧
      shiftFlagsAre t.f (rrc (s.memRead (s.ea .ix o)) (flagC s.f)).1 (rrc (s.memRead (s.ea .ix o)) (flagC s.f)).2 ∧
      changesOnly [.pc, .r, .f, .bytes] s t) ∧
    (∀ (o : Byte) (s : State), completes (exec (.rrcIy o) s) fun t =>
      advanced 4 2 s t ∧
      storesByte (s.ea .iy o) (rrc (s.memRead (s.ea .iy o)) (flagC s.f)).1 s t ∧
      shiftFlagsAre t.f (rrc (s.memRead (s.ea .iy o)) (flagC s.f)).1 (rrc (s.memRead (s.ea .iy o)) (flagC s.f)).2 ∧
      changesOnly [.pc, .r, .f, .bytes] s t) ∧
    (∀ s : State, completes (exec .rlMemHl s) fun t =>
      advanced 2 2 s t ∧
      storesByte s.hl (rl (s.memRead s.hl) (flagC s.f)).1 s t ∧
      shiftFlagsAre t.f (rl (s.memRead s.hl) (flagC s.f)).1 (rl (s.memRead s.hl) (flagC s.f)).2 ∧
      changesOnly [.pc, .r, .f, .bytes] s t) ∧
    (∀ (o : Byte) (s : State), completes (exec (.rlIx o) s) fun t =>
      advanced 4 2 s t ∧
      storesByte (s.ea .ix o) (rl (s.memRead (s.ea .ix o)) (flagC s.f)).1 s t ∧
      shiftFlagsAre t.f (rl (s.memRead (s.ea .ix o)) (flagC s.f)).1 (rl (s.memRead (s.ea .ix o)) (flagC s.f)).2 ∧
      changesOnly [.pc, .r, .f, .bytes] s t) ∧
    (∀ (o : Byte) (s : State), completes (exec (.rlIy o) s) fun t =>
      advanced 4 2 s t ∧
      storesByte (s.ea .iy o) (rl (s.memRead (s.ea .iy o)) (flagC s.f)).1 s t ∧
      shiftFlagsAre t.f (rl (s.memRead (s.ea .iy o)) (flagC s.f)).1 (rl (s.memRead (s.ea .iy o)) (flagC s.f)).2 ∧
      changesOnly [.pc, .r, .f, .bytes] s t) ∧
    (∀ s : State, completes (exec .rrMemHl s) fun t =>
      advanced 2 2 s t ∧
      storesByte s.hl (rr (s.memRead s.hl) (flagC s.f)).1 s t ∧
      shiftFlagsAre t.f (rr (s.memRead s.hl) (flagC s.f)).1 (rr (s.memRead s.hl) (flagC s.f)).2 ∧
      changesOnly [.pc, .r, .f, .bytes] s t) ∧
    (∀ (o : Byte) (s : State), completes (exec (.rrIx o) s) fun t =>
      advanced 4 2 s t ∧
      storesByte (s.ea .ix o) (rr (s.memRead (s.ea .ix o)) (flagC s.f)).1 s t ∧
      shiftFlagsAre t.f (rr (s.memRead (s.ea .ix o)) (flagC s.f)).1 (rr (s.memRead (s.ea .ix o)) (flagC s.f)).2 ∧
      changesOnly [.pc, .r, .f, .bytes] s t) ∧
    (∀ (o : Byte) (s : State), completes (exec (.rrIy o) s) fun t =>
      advanced 4 2 s t ∧
      storesByte (s.ea .iy o) (rr (s.memRead (s.ea .iy o)) (flagC s.f)).1 s t ∧
      shiftFlagsAre t.f (rr (s.memRead (s.ea .iy o)) (flagC s.f)).1 (rr (s.memRead (s.ea .iy o)) (flagC s.f)).2 ∧
      changesOnly [.pc, .r, .f, .bytes] s t) ∧
    (∀ s : State, completes (exec .slaMemHl s) fun t =>
      advanced 2 2 s t ∧
      storesByte s.hl (sla (s.memRead s.hl) (flagC s.f)).1 s t ∧
      shiftFlagsAre t.f (sla (s.memRead s.hl) (flagC s.f)).1 (sla (s.memRead s.hl) (flagC s.f)).2 ∧
      changesOnly [.pc, .r, .f, .bytes] s t) ∧
    (∀ (o : Byte) (s : State), completes (exec (.slaIx o) s) fun t =>
      advanced 4 2 s t ∧
      storesByte (s.ea .ix o) (sla (s.memRead (s.ea .ix o)) (flagC s.f)).1 s t ∧
      shiftFlagsAre t.f (sla (s.memRead (s.ea .ix o)) (flagC s.f)).1 (sla (s.memRead (s.ea .ix o)) (flagC s.f)).2 ∧
      changesOnly [.pc, .r, .f, .bytes] s t) ∧
    (∀ (o : Byte) (s : State), completes (exec (.slaIy o) s) fun t =>
      advanced 4 2 s t ∧
      storesByte (s.ea .iy o) (sla (s.memRead (s.ea .iy o)) (flagC s.f)).1 s t ∧
      shiftFlagsAre t.f (sla (s.memRead (s.ea .iy o)) (flagC s.f)).1 (sla (s.memRead (s.ea .iy o)) (flagC s.f)).2 ∧
      changesOnly [.pc, .r, .f, .bytes] s t) ∧
    (∀ s : State, completes (exec .sraMemHl s) fun t =>
      advanced 2 2 s t ∧
      storesByte s.hl (sra (s.memRead s.hl) (flagC s.f)).1 s t ∧
      shiftFlagsAre t.f (sra (s.memRead s.hl) (flagC s.f)).1 (sra (s.memRead s.hl) (flagC s.f)).2 ∧
      changesOnly [.pc, .r, .f, .bytes] s t) ∧
    (∀ (o : Byte) (s : State), completes (exec (.sraIx o) s) fun t =>
      advanced 4 2 s t ∧
      storesByte (s.ea .ix o) (sra (s.memRead (s.ea .ix o)) (flagC s.f)).1 s t ∧
      shiftFlagsAre t.f (sra (s.memRead (s.ea .ix o)) (flagC s.f)).1 (sra (s.memRead (s.ea .ix o)) (flagC s.f)).2 ∧
      changesOnly [.pc, .r, .f, .bytes] s t) ∧
    (∀ (o : Byte) (s : State), completes (exec (.sraIy o) s) fun t =>
      advanced 4 2 s t ∧
      storesByte (s.ea .iy o) (sra (s.memRead (s.ea .iy o)) (flagC s.f)).1 s t ∧
      shiftFlagsAre t.f (sra (s.memRead (s.ea .iy o)) (flagC s.f)).1 (sra (s.memRead (s.ea .iy o)) (flagC s.f)).2 ∧
      changesOnly [.pc, .r, .f, .bytes] s t) ∧
    (∀ s : State, completes (exec .sliMemHl s) fun t =>
      advanced 2 2 s t ∧
      storesByte s.hl (sli (s.memRead s.hl) (flagC s.f)).1 s t ∧
      shiftFlagsAre t.f (sli (s.memRead s.hl) (flagC s.f)).1 (sli (s.memRead s.hl) (flagC s.f)).2 ∧
      changesOnly [.pc, .r, .f, .bytes] s t) ∧
    (∀ (o : Byte) (s : State), completes (exec (.sliIx o) s) fun t =>
      advanced 4 2 s t ∧
      storesByte (s.ea .ix o) (sli (s.memRead (s.ea .ix o)) (flagC s.f)).1 s t ∧
      shiftFlagsAre t.f (sli (s.memRead (s.ea .ix o)) (flagC s.f)).1 (sli (s.memRead (s.ea .ix o)) (flagC s.f)).2 ∧
      changesOnly [.pc, .r, .f, .bytes] s t) ∧
    (∀ (o : Byte) (s : State), completes (exec (.sliIy o) s) fun t =>
      advanced 4 2 s t ∧
      storesByte (s.ea .iy o) (sli (s.memRead (s.ea .iy o)) (flagC s.f)).1 s t ∧
      shiftFlagsAre t.f (sli (s.memRead (s.ea .iy o)) (flagC s.f)).1 (sli (s.memRead (s.ea .iy o)) (flagC s.f)).2 ∧
      changesOnly [.pc, .r, .f, .bytes] s t) ∧
    (∀ s : State, completes (exec .srlMemHl s) fun t =>
      advanced 2 2 s t ∧
      storesByte s.hl (srl (s.memRead s.hl) (flagC s.f)).1 s t ∧
      shiftFlagsAre t.f (srl (s.memRead s.hl) (flagC s.f)).1 (srl (s.memRead s.hl) (flagC s.f)).2 ∧
      changesOnly [.pc, .r, .f, .bytes] s t) ∧
    (∀ (o : Byte) (s : State), completes (exec (.srlIx o) s) fun t =>
      advanced 4 2 s t ∧
      storesByte (s.ea .ix o) (srl (s.memRead (s.ea .ix o)) (flagC s.f)).1 s t ∧
      shiftFlagsAre t.f (srl (s.memRead (s.ea .ix o)) (flagC s.f)).1 (srl (s.memRead (s.ea .ix o)) (flagC s.f)).2 ∧
      changesOnly [.pc, .r, .f, .bytes] s t) ∧
    (∀ (o : Byte) (s : State), completes (exec (.srlIy o) s) fun t =>
      advanced 4 2 s t ∧
      storesByte (s.ea .iy o) (srl (s.memRead (s.ea .iy o)) (flagC s.f)).1 s t ∧
      shiftFlagsAre t.f (srl (s.memRead (s.ea .iy o)) (flagC s.f)).1 (srl (s.memRead (s.ea .iy o)) (flagC s.f)).2 ∧
      changesOnly [.pc, .r, .f, .bytes] s t)

/-- The complex shifts store the shifted byte to memory and to a register, H and L included. Completion, result and
frame; the end state is the spec's decision D32. PC and R: 10_state.md R33, R46, where R counts by the default R_MODEL
(D14, log 13). -/
def Obligations.ShiftsOfMemoryIntoARegister : Prop :=
    (∀ (r : Reg8) (o : Byte) (s : State), completes (exec (.rlcRIx r o) s) fun t =>
      advanced 4 2 s t ∧
      t.reg8 r = (rlc (s.memRead (s.ea .ix o)) (flagC s.f)).1 ∧ storesByte (s.ea .ix o) (rlc (s.memRead (s.ea .ix o)) (flagC s.f)).1 s t ∧
      shiftFlagsAre t.f (rlc (s.memRead (s.ea .ix o)) (flagC s.f)).1 (rlc (s.memRead (s.ea .ix o)) (flagC s.f)).2 ∧
      changesOnly [.pc, .r, .f, .bytes, partOfReg8 r] s t) ∧
    (∀ (r : Reg8) (o : Byte) (s : State), completes (exec (.rlcRIy r o) s) fun t =>
      advanced 4 2 s t ∧
      t.reg8 r = (rlc (s.memRead (s.ea .iy o)) (flagC s.f)).1 ∧ storesByte (s.ea .iy o) (rlc (s.memRead (s.ea .iy o)) (flagC s.f)).1 s t ∧
      shiftFlagsAre t.f (rlc (s.memRead (s.ea .iy o)) (flagC s.f)).1 (rlc (s.memRead (s.ea .iy o)) (flagC s.f)).2 ∧
      changesOnly [.pc, .r, .f, .bytes, partOfReg8 r] s t) ∧
    (∀ (r : Reg8) (o : Byte) (s : State), completes (exec (.rrcRIx r o) s) fun t =>
      advanced 4 2 s t ∧
      t.reg8 r = (rrc (s.memRead (s.ea .ix o)) (flagC s.f)).1 ∧ storesByte (s.ea .ix o) (rrc (s.memRead (s.ea .ix o)) (flagC s.f)).1 s t ∧
      shiftFlagsAre t.f (rrc (s.memRead (s.ea .ix o)) (flagC s.f)).1 (rrc (s.memRead (s.ea .ix o)) (flagC s.f)).2 ∧
      changesOnly [.pc, .r, .f, .bytes, partOfReg8 r] s t) ∧
    (∀ (r : Reg8) (o : Byte) (s : State), completes (exec (.rrcRIy r o) s) fun t =>
      advanced 4 2 s t ∧
      t.reg8 r = (rrc (s.memRead (s.ea .iy o)) (flagC s.f)).1 ∧ storesByte (s.ea .iy o) (rrc (s.memRead (s.ea .iy o)) (flagC s.f)).1 s t ∧
      shiftFlagsAre t.f (rrc (s.memRead (s.ea .iy o)) (flagC s.f)).1 (rrc (s.memRead (s.ea .iy o)) (flagC s.f)).2 ∧
      changesOnly [.pc, .r, .f, .bytes, partOfReg8 r] s t) ∧
    (∀ (r : Reg8) (o : Byte) (s : State), completes (exec (.rlRIx r o) s) fun t =>
      advanced 4 2 s t ∧
      t.reg8 r = (rl (s.memRead (s.ea .ix o)) (flagC s.f)).1 ∧ storesByte (s.ea .ix o) (rl (s.memRead (s.ea .ix o)) (flagC s.f)).1 s t ∧
      shiftFlagsAre t.f (rl (s.memRead (s.ea .ix o)) (flagC s.f)).1 (rl (s.memRead (s.ea .ix o)) (flagC s.f)).2 ∧
      changesOnly [.pc, .r, .f, .bytes, partOfReg8 r] s t) ∧
    (∀ (r : Reg8) (o : Byte) (s : State), completes (exec (.rlRIy r o) s) fun t =>
      advanced 4 2 s t ∧
      t.reg8 r = (rl (s.memRead (s.ea .iy o)) (flagC s.f)).1 ∧ storesByte (s.ea .iy o) (rl (s.memRead (s.ea .iy o)) (flagC s.f)).1 s t ∧
      shiftFlagsAre t.f (rl (s.memRead (s.ea .iy o)) (flagC s.f)).1 (rl (s.memRead (s.ea .iy o)) (flagC s.f)).2 ∧
      changesOnly [.pc, .r, .f, .bytes, partOfReg8 r] s t) ∧
    (∀ (r : Reg8) (o : Byte) (s : State), completes (exec (.rrRIx r o) s) fun t =>
      advanced 4 2 s t ∧
      t.reg8 r = (rr (s.memRead (s.ea .ix o)) (flagC s.f)).1 ∧ storesByte (s.ea .ix o) (rr (s.memRead (s.ea .ix o)) (flagC s.f)).1 s t ∧
      shiftFlagsAre t.f (rr (s.memRead (s.ea .ix o)) (flagC s.f)).1 (rr (s.memRead (s.ea .ix o)) (flagC s.f)).2 ∧
      changesOnly [.pc, .r, .f, .bytes, partOfReg8 r] s t) ∧
    (∀ (r : Reg8) (o : Byte) (s : State), completes (exec (.rrRIy r o) s) fun t =>
      advanced 4 2 s t ∧
      t.reg8 r = (rr (s.memRead (s.ea .iy o)) (flagC s.f)).1 ∧ storesByte (s.ea .iy o) (rr (s.memRead (s.ea .iy o)) (flagC s.f)).1 s t ∧
      shiftFlagsAre t.f (rr (s.memRead (s.ea .iy o)) (flagC s.f)).1 (rr (s.memRead (s.ea .iy o)) (flagC s.f)).2 ∧
      changesOnly [.pc, .r, .f, .bytes, partOfReg8 r] s t) ∧
    (∀ (r : Reg8) (o : Byte) (s : State), completes (exec (.slaRIx r o) s) fun t =>
      advanced 4 2 s t ∧
      t.reg8 r = (sla (s.memRead (s.ea .ix o)) (flagC s.f)).1 ∧ storesByte (s.ea .ix o) (sla (s.memRead (s.ea .ix o)) (flagC s.f)).1 s t ∧
      shiftFlagsAre t.f (sla (s.memRead (s.ea .ix o)) (flagC s.f)).1 (sla (s.memRead (s.ea .ix o)) (flagC s.f)).2 ∧
      changesOnly [.pc, .r, .f, .bytes, partOfReg8 r] s t) ∧
    (∀ (r : Reg8) (o : Byte) (s : State), completes (exec (.slaRIy r o) s) fun t =>
      advanced 4 2 s t ∧
      t.reg8 r = (sla (s.memRead (s.ea .iy o)) (flagC s.f)).1 ∧ storesByte (s.ea .iy o) (sla (s.memRead (s.ea .iy o)) (flagC s.f)).1 s t ∧
      shiftFlagsAre t.f (sla (s.memRead (s.ea .iy o)) (flagC s.f)).1 (sla (s.memRead (s.ea .iy o)) (flagC s.f)).2 ∧
      changesOnly [.pc, .r, .f, .bytes, partOfReg8 r] s t) ∧
    (∀ (r : Reg8) (o : Byte) (s : State), completes (exec (.sraRIx r o) s) fun t =>
      advanced 4 2 s t ∧
      t.reg8 r = (sra (s.memRead (s.ea .ix o)) (flagC s.f)).1 ∧ storesByte (s.ea .ix o) (sra (s.memRead (s.ea .ix o)) (flagC s.f)).1 s t ∧
      shiftFlagsAre t.f (sra (s.memRead (s.ea .ix o)) (flagC s.f)).1 (sra (s.memRead (s.ea .ix o)) (flagC s.f)).2 ∧
      changesOnly [.pc, .r, .f, .bytes, partOfReg8 r] s t) ∧
    (∀ (r : Reg8) (o : Byte) (s : State), completes (exec (.sraRIy r o) s) fun t =>
      advanced 4 2 s t ∧
      t.reg8 r = (sra (s.memRead (s.ea .iy o)) (flagC s.f)).1 ∧ storesByte (s.ea .iy o) (sra (s.memRead (s.ea .iy o)) (flagC s.f)).1 s t ∧
      shiftFlagsAre t.f (sra (s.memRead (s.ea .iy o)) (flagC s.f)).1 (sra (s.memRead (s.ea .iy o)) (flagC s.f)).2 ∧
      changesOnly [.pc, .r, .f, .bytes, partOfReg8 r] s t) ∧
    (∀ (r : Reg8) (o : Byte) (s : State), completes (exec (.sliRIx r o) s) fun t =>
      advanced 4 2 s t ∧
      t.reg8 r = (sli (s.memRead (s.ea .ix o)) (flagC s.f)).1 ∧ storesByte (s.ea .ix o) (sli (s.memRead (s.ea .ix o)) (flagC s.f)).1 s t ∧
      shiftFlagsAre t.f (sli (s.memRead (s.ea .ix o)) (flagC s.f)).1 (sli (s.memRead (s.ea .ix o)) (flagC s.f)).2 ∧
      changesOnly [.pc, .r, .f, .bytes, partOfReg8 r] s t) ∧
    (∀ (r : Reg8) (o : Byte) (s : State), completes (exec (.sliRIy r o) s) fun t =>
      advanced 4 2 s t ∧
      t.reg8 r = (sli (s.memRead (s.ea .iy o)) (flagC s.f)).1 ∧ storesByte (s.ea .iy o) (sli (s.memRead (s.ea .iy o)) (flagC s.f)).1 s t ∧
      shiftFlagsAre t.f (sli (s.memRead (s.ea .iy o)) (flagC s.f)).1 (sli (s.memRead (s.ea .iy o)) (flagC s.f)).2 ∧
      changesOnly [.pc, .r, .f, .bytes, partOfReg8 r] s t) ∧
    (∀ (r : Reg8) (o : Byte) (s : State), completes (exec (.srlRIx r o) s) fun t =>
      advanced 4 2 s t ∧
      t.reg8 r = (srl (s.memRead (s.ea .ix o)) (flagC s.f)).1 ∧ storesByte (s.ea .ix o) (srl (s.memRead (s.ea .ix o)) (flagC s.f)).1 s t ∧
      shiftFlagsAre t.f (srl (s.memRead (s.ea .ix o)) (flagC s.f)).1 (srl (s.memRead (s.ea .ix o)) (flagC s.f)).2 ∧
      changesOnly [.pc, .r, .f, .bytes, partOfReg8 r] s t) ∧
    (∀ (r : Reg8) (o : Byte) (s : State), completes (exec (.srlRIy r o) s) fun t =>
      advanced 4 2 s t ∧
      t.reg8 r = (srl (s.memRead (s.ea .iy o)) (flagC s.f)).1 ∧ storesByte (s.ea .iy o) (srl (s.memRead (s.ea .iy o)) (flagC s.f)).1 s t ∧
      shiftFlagsAre t.f (srl (s.memRead (s.ea .iy o)) (flagC s.f)).1 (srl (s.memRead (s.ea .iy o)) (flagC s.f)).2 ∧
      changesOnly [.pc, .r, .f, .bytes, partOfReg8 r] s t)

/-- RLD and RRD rotate the three digits of A and the byte at HL. Completion, result and frame; both rules are from
general knowledge in the spec (D11, log 15). PC and R: 10_state.md R33, R46, where R counts by the default R_MODEL
(D14, log 13). -/
def Obligations.DigitRotates : Prop :=
    (∀ s : State, completes (exec .rld s) fun t =>
      advanced 2 2 s t ∧
      (∃ m : Byte, m.toNat = (s.memRead s.hl).toNat % 16 * 16 + s.a.toNat % 16 ∧ storesByte s.hl m s t) ∧
      t.a.toNat = s.a.toNat / 16 * 16 + (s.memRead s.hl).toNat / 16 ∧
      flagsAre t.f (t.a.getLsbD 7) (decide (t.a = 0)) (t.a.getLsbD 5) false (t.a.getLsbD 3)
        (decide (onesOf t.a % 2 = 0)) false (flagC s.f) ∧
      changesOnly [.pc, .r, .a, .f, .bytes] s t) ∧
    (∀ s : State, completes (exec .rrd s) fun t =>
      advanced 2 2 s t ∧
      (∃ m : Byte, m.toNat = s.a.toNat % 16 * 16 + (s.memRead s.hl).toNat / 16 ∧ storesByte s.hl m s t) ∧
      t.a.toNat = s.a.toNat / 16 * 16 + (s.memRead s.hl).toNat % 16 ∧
      flagsAre t.f (t.a.getLsbD 7) (decide (t.a = 0)) (t.a.getLsbD 5) false (t.a.getLsbD 3)
        (decide (onesOf t.a % 2 = 0)) false (flagC s.f) ∧
      changesOnly [.pc, .r, .a, .f, .bytes] s t)

/-- SET and RES change one bit of a register or of a byte of memory and no flag. Completion, result and frame; the
complex forms are the spec's decision D32. PC and R: 10_state.md R33, R46, where R counts by the default R_MODEL (D14,
log 13). -/
def Obligations.SetAndResetOfOneBit : Prop :=
    (∀ (b : BitVec 3) (r : Reg8) (s : State), completes (exec (.setR b r) s) fun t =>
      advanced 2 2 s t ∧
      (∀ k, k < 8 → (t.reg8 r).getLsbD k = (if k = b.toNat then true else (s.reg8 r).getLsbD k)) ∧
      changesOnly [.pc, .r, partOfReg8 r] s t) ∧
    (∀ (b : BitVec 3) (s : State), completes (exec (.setMemHl b) s) fun t =>
      advanced 2 2 s t ∧
      (∃ m : Byte, (∀ k, k < 8 → m.getLsbD k = (if k = b.toNat then true else (s.memRead s.hl).getLsbD k)) ∧
        storesByte s.hl m s t) ∧
      changesOnly [.pc, .r, .bytes] s t) ∧
    (∀ (b : BitVec 3) (o : Byte) (s : State), completes (exec (.setIx b o) s) fun t =>
      advanced 4 2 s t ∧
      (∃ m : Byte, (∀ k, k < 8 → m.getLsbD k = (if k = b.toNat then true else (s.memRead (s.ea .ix o)).getLsbD k)) ∧
        storesByte (s.ea .ix o) m s t) ∧
      changesOnly [.pc, .r, .bytes] s t) ∧
    (∀ (b : BitVec 3) (o : Byte) (s : State), completes (exec (.setIy b o) s) fun t =>
      advanced 4 2 s t ∧
      (∃ m : Byte, (∀ k, k < 8 → m.getLsbD k = (if k = b.toNat then true else (s.memRead (s.ea .iy o)).getLsbD k)) ∧
        storesByte (s.ea .iy o) m s t) ∧
      changesOnly [.pc, .r, .bytes] s t) ∧
    (∀ (b : BitVec 3) (r : Reg8) (o : Byte) (s : State), completes (exec (.setRIx b r o) s) fun t =>
      advanced 4 2 s t ∧
      (∀ k, k < 8 → (t.reg8 r).getLsbD k = (if k = b.toNat then true else (s.memRead (s.ea .ix o)).getLsbD k)) ∧
      storesByte (s.ea .ix o) (t.reg8 r) s t ∧
      changesOnly [.pc, .r, .bytes, partOfReg8 r] s t) ∧
    (∀ (b : BitVec 3) (r : Reg8) (o : Byte) (s : State), completes (exec (.setRIy b r o) s) fun t =>
      advanced 4 2 s t ∧
      (∀ k, k < 8 → (t.reg8 r).getLsbD k = (if k = b.toNat then true else (s.memRead (s.ea .iy o)).getLsbD k)) ∧
      storesByte (s.ea .iy o) (t.reg8 r) s t ∧
      changesOnly [.pc, .r, .bytes, partOfReg8 r] s t) ∧
    (∀ (b : BitVec 3) (r : Reg8) (s : State), completes (exec (.resR b r) s) fun t =>
      advanced 2 2 s t ∧
      (∀ k, k < 8 → (t.reg8 r).getLsbD k = (if k = b.toNat then false else (s.reg8 r).getLsbD k)) ∧
      changesOnly [.pc, .r, partOfReg8 r] s t) ∧
    (∀ (b : BitVec 3) (s : State), completes (exec (.resMemHl b) s) fun t =>
      advanced 2 2 s t ∧
      (∃ m : Byte, (∀ k, k < 8 → m.getLsbD k = (if k = b.toNat then false else (s.memRead s.hl).getLsbD k)) ∧
        storesByte s.hl m s t) ∧
      changesOnly [.pc, .r, .bytes] s t) ∧
    (∀ (b : BitVec 3) (o : Byte) (s : State), completes (exec (.resIx b o) s) fun t =>
      advanced 4 2 s t ∧
      (∃ m : Byte, (∀ k, k < 8 → m.getLsbD k = (if k = b.toNat then false else (s.memRead (s.ea .ix o)).getLsbD k)) ∧
        storesByte (s.ea .ix o) m s t) ∧
      changesOnly [.pc, .r, .bytes] s t) ∧
    (∀ (b : BitVec 3) (o : Byte) (s : State), completes (exec (.resIy b o) s) fun t =>
      advanced 4 2 s t ∧
      (∃ m : Byte, (∀ k, k < 8 → m.getLsbD k = (if k = b.toNat then false else (s.memRead (s.ea .iy o)).getLsbD k)) ∧
        storesByte (s.ea .iy o) m s t) ∧
      changesOnly [.pc, .r, .bytes] s t) ∧
    (∀ (b : BitVec 3) (r : Reg8) (o : Byte) (s : State), completes (exec (.resRIx b r o) s) fun t =>
      advanced 4 2 s t ∧
      (∀ k, k < 8 → (t.reg8 r).getLsbD k = (if k = b.toNat then false else (s.memRead (s.ea .ix o)).getLsbD k)) ∧
      storesByte (s.ea .ix o) (t.reg8 r) s t ∧
      changesOnly [.pc, .r, .bytes, partOfReg8 r] s t) ∧
    (∀ (b : BitVec 3) (r : Reg8) (o : Byte) (s : State), completes (exec (.resRIy b r o) s) fun t =>
      advanced 4 2 s t ∧
      (∀ k, k < 8 → (t.reg8 r).getLsbD k = (if k = b.toNat then false else (s.memRead (s.ea .iy o)).getLsbD k)) ∧
      storesByte (s.ea .iy o) (t.reg8 r) s t ∧
      changesOnly [.pc, .r, .bytes, partOfReg8 r] s t)

/-- BIT writes Z and P/V from the tested bit, S for bit 7, flags 5 and 3 by the operand form, and keeps C. Completion,
result and frame; TEMP is a free value (D12, log 10). PC and R: 10_state.md R33, R46, where R counts by the default
R_MODEL (D14, log 13). -/
def Obligations.TestsOfOneBit : Prop :=
    (∀ (b : BitVec 3) (r : Reg8) (s : State), completes (exec (.bitR b r) s) fun t =>
      advanced 2 2 s t ∧
      flagsAre t.f (decide (b = 7) && (s.reg8 r).getLsbD b.toNat) (!(s.reg8 r).getLsbD b.toNat) (decide (b = 5) && (s.reg8 r).getLsbD 5) true (decide (b = 3) && (s.reg8 r).getLsbD 3) (!(s.reg8 r).getLsbD b.toNat) false (flagC s.f) ∧
      changesOnly [.pc, .r, .f] s t) ∧
    (∀ (b : BitVec 3) (s : State), completes (exec (.bitMemHl b) s) fun t =>
      advanced 2 2 s t ∧
      flagsAre t.f (decide (b = 7) && (s.memRead s.hl).getLsbD b.toNat) (!(s.memRead s.hl).getLsbD b.toNat) (t.temp.getLsbD 5) true (t.temp.getLsbD 3) (!(s.memRead s.hl).getLsbD b.toNat) false (flagC s.f) ∧
      changesOnly [.pc, .r, .f, .temp, .draws] s t) ∧
    (∀ (b : BitVec 3) (k : BitVec 3) (o : Byte) (s : State), completes (exec (.bitIx b k o) s) fun t =>
      advanced 4 2 s t ∧
      flagsAre t.f (decide (b = 7) && (s.memRead (s.ea .ix o)).getLsbD b.toNat) (!(s.memRead (s.ea .ix o)).getLsbD b.toNat) ((s.ea .ix o).getLsbD 13) true ((s.ea .ix o).getLsbD 11) (!(s.memRead (s.ea .ix o)).getLsbD b.toNat) false (flagC s.f) ∧
      t.temp.getLsbD 5 = (s.ea .ix o).getLsbD 13 ∧ t.temp.getLsbD 3 = (s.ea .ix o).getLsbD 11 ∧
      changesOnly [.pc, .r, .f, .temp, .draws] s t) ∧
    (∀ (b : BitVec 3) (k : BitVec 3) (o : Byte) (s : State), completes (exec (.bitIy b k o) s) fun t =>
      advanced 4 2 s t ∧
      flagsAre t.f (decide (b = 7) && (s.memRead (s.ea .iy o)).getLsbD b.toNat) (!(s.memRead (s.ea .iy o)).getLsbD b.toNat) ((s.ea .iy o).getLsbD 13) true ((s.ea .iy o).getLsbD 11) (!(s.memRead (s.ea .iy o)).getLsbD b.toNat) false (flagC s.f) ∧
      t.temp.getLsbD 5 = (s.ea .iy o).getLsbD 13 ∧ t.temp.getLsbD 3 = (s.ea .iy o).getLsbD 11 ∧
      changesOnly [.pc, .r, .f, .temp, .draws] s t)

/-- LDI, LDD, LDIR, LDDR: one byte moved, the pointers and BC stepped, the flags, PC back while BC is not 0.
Completion, result and frame; one iteration per step is the spec's decision D27. PC and R: 10_state.md R33, R46, where
R counts by the default R_MODEL (D14, log 13). -/
def Obligations.BlockTransfers : Prop :=
    (∀ s : State, completes (exec .ldi s) fun t =>
      t.pc = s.pc + BitVec.ofNat 16 2 ∧ counted 2 s t ∧
      storesByte s.de (s.memRead s.hl) s t ∧ t.hl = s.hl + 1 ∧ t.de = s.de + 1 ∧ t.bc = s.bc - 1 ∧
      flagsAre t.f (flagS s.f) (flagZ s.f) ((s.memRead s.hl + s.a).getLsbD 1) false ((s.memRead s.hl + s.a).getLsbD 3)
        (decide (s.bc ≠ 1)) false (flagC s.f) ∧
      changesOnly [.pc, .r, .b, .c, .d, .e, .h, .l, .f, .bytes] s t) ∧
    (∀ s : State, completes (exec .ldd s) fun t =>
      t.pc = s.pc + BitVec.ofNat 16 2 ∧ counted 2 s t ∧
      storesByte s.de (s.memRead s.hl) s t ∧ t.hl = s.hl - 1 ∧ t.de = s.de - 1 ∧ t.bc = s.bc - 1 ∧
      flagsAre t.f (flagS s.f) (flagZ s.f) ((s.memRead s.hl + s.a).getLsbD 1) false ((s.memRead s.hl + s.a).getLsbD 3)
        (decide (s.bc ≠ 1)) false (flagC s.f) ∧
      changesOnly [.pc, .r, .b, .c, .d, .e, .h, .l, .f, .bytes] s t) ∧
    (∀ s : State, completes (exec .ldir s) fun t =>
      t.pc = (if s.bc ≠ 1 then s.pc else s.pc + BitVec.ofNat 16 2) ∧ counted 2 s t ∧
      storesByte s.de (s.memRead s.hl) s t ∧ t.hl = s.hl + 1 ∧ t.de = s.de + 1 ∧ t.bc = s.bc - 1 ∧
      flagsAre t.f (flagS s.f) (flagZ s.f) ((s.memRead s.hl + s.a).getLsbD 1) false ((s.memRead s.hl + s.a).getLsbD 3)
        (decide (s.bc ≠ 1)) false (flagC s.f) ∧
      changesOnly [.pc, .r, .b, .c, .d, .e, .h, .l, .f, .bytes] s t) ∧
    (∀ s : State, completes (exec .lddr s) fun t =>
      t.pc = (if s.bc ≠ 1 then s.pc else s.pc + BitVec.ofNat 16 2) ∧ counted 2 s t ∧
      storesByte s.de (s.memRead s.hl) s t ∧ t.hl = s.hl - 1 ∧ t.de = s.de - 1 ∧ t.bc = s.bc - 1 ∧
      flagsAre t.f (flagS s.f) (flagZ s.f) ((s.memRead s.hl + s.a).getLsbD 1) false ((s.memRead s.hl + s.a).getLsbD 3)
        (decide (s.bc ≠ 1)) false (flagC s.f) ∧
      changesOnly [.pc, .r, .b, .c, .d, .e, .h, .l, .f, .bytes] s t)

/-- CPI, CPD, CPIR, CPDR: A compared with the byte at HL, HL and BC stepped, PC back while neither found nor done.
Completion, result and frame; the new H in the expression is the spec's decision D28, one iteration per step D27. PC
and R: 10_state.md R33, R46, where R counts by the default R_MODEL (D14, log 13). -/
def Obligations.BlockSearches : Prop :=
    (∀ s : State, completes (exec .cpi s) fun t =>
      t.pc = s.pc + BitVec.ofNat 16 2 ∧ counted 2 s t ∧
      t.hl = s.hl + 1 ∧ t.bc = s.bc - 1 ∧
      flagsAre t.f (flagS (sub8 s.a (s.memRead s.hl) false).2) (decide (s.a = s.memRead s.hl)) ((s.a - s.memRead s.hl - (if flagH (sub8 s.a (s.memRead s.hl) false).2 then 1 else 0)).getLsbD 1) (flagH (sub8 s.a (s.memRead s.hl) false).2)
        ((s.a - s.memRead s.hl - (if flagH (sub8 s.a (s.memRead s.hl) false).2 then 1 else 0)).getLsbD 3) (decide (s.bc ≠ 1)) true (flagC s.f) ∧
      changesOnly [.pc, .r, .b, .c, .h, .l, .f] s t) ∧
    (∀ s : State, completes (exec .cpd s) fun t =>
      t.pc = s.pc + BitVec.ofNat 16 2 ∧ counted 2 s t ∧
      t.hl = s.hl - 1 ∧ t.bc = s.bc - 1 ∧
      flagsAre t.f (flagS (sub8 s.a (s.memRead s.hl) false).2) (decide (s.a = s.memRead s.hl)) ((s.a - s.memRead s.hl - (if flagH (sub8 s.a (s.memRead s.hl) false).2 then 1 else 0)).getLsbD 1) (flagH (sub8 s.a (s.memRead s.hl) false).2)
        ((s.a - s.memRead s.hl - (if flagH (sub8 s.a (s.memRead s.hl) false).2 then 1 else 0)).getLsbD 3) (decide (s.bc ≠ 1)) true (flagC s.f) ∧
      changesOnly [.pc, .r, .b, .c, .h, .l, .f] s t) ∧
    (∀ s : State, completes (exec .cpir s) fun t =>
      t.pc = (if s.bc ≠ 1 ∧ s.a ≠ s.memRead s.hl then s.pc else s.pc + BitVec.ofNat 16 2) ∧ counted 2 s t ∧
      t.hl = s.hl + 1 ∧ t.bc = s.bc - 1 ∧
      flagsAre t.f (flagS (sub8 s.a (s.memRead s.hl) false).2) (decide (s.a = s.memRead s.hl)) ((s.a - s.memRead s.hl - (if flagH (sub8 s.a (s.memRead s.hl) false).2 then 1 else 0)).getLsbD 1) (flagH (sub8 s.a (s.memRead s.hl) false).2)
        ((s.a - s.memRead s.hl - (if flagH (sub8 s.a (s.memRead s.hl) false).2 then 1 else 0)).getLsbD 3) (decide (s.bc ≠ 1)) true (flagC s.f) ∧
      changesOnly [.pc, .r, .b, .c, .h, .l, .f] s t) ∧
    (∀ s : State, completes (exec .cpdr s) fun t =>
      t.pc = (if s.bc ≠ 1 ∧ s.a ≠ s.memRead s.hl then s.pc else s.pc + BitVec.ofNat 16 2) ∧ counted 2 s t ∧
      t.hl = s.hl - 1 ∧ t.bc = s.bc - 1 ∧
      flagsAre t.f (flagS (sub8 s.a (s.memRead s.hl) false).2) (decide (s.a = s.memRead s.hl)) ((s.a - s.memRead s.hl - (if flagH (sub8 s.a (s.memRead s.hl) false).2 then 1 else 0)).getLsbD 1) (flagH (sub8 s.a (s.memRead s.hl) false).2)
        ((s.a - s.memRead s.hl - (if flagH (sub8 s.a (s.memRead s.hl) false).2 then 1 else 0)).getLsbD 3) (decide (s.bc ≠ 1)) true (flagC s.f) ∧
      changesOnly [.pc, .r, .b, .c, .h, .l, .f] s t)

/-- IN A,(N); IN r,(C); INF; OUT (N),A; OUT (C),r; OUTF: one access to the port, the register and the flags.
Completion, result and frame, for every byte the device may answer (log 5); OUTF_VALUE is 0 (D25, log 14). PC and R:
10_state.md R33, R46, where R counts by the default R_MODEL (D14, log 13). -/
def Obligations.PortReadsAndWrites : Prop :=
    (∀ (p : Pfx) (n : Byte) (s : State), completes (exec (.inAN p n) s) fun t =>
      advanced (2 + prefixLength p) (1 + prefixLength p) s t ∧
      (∃ v : Byte, t.a = v ∧ t.ports = ⟨.input, join s.a n, v⟩ :: s.ports) ∧
      changesOnly [.pc, .r, .a, .ports] s t) ∧
    (∀ (r : Reg8) (s : State), completes (exec (.inRC r) s) fun t =>
      advanced 2 2 s t ∧
      (∃ v : Byte, t.reg8 r = v ∧ t.ports = ⟨.input, s.bc, v⟩ :: s.ports ∧
        flagsAre t.f (v.getLsbD 7) (decide (v = 0)) (v.getLsbD 5) false (v.getLsbD 3) (decide (onesOf v % 2 = 0)) false (flagC s.f)) ∧
      changesOnly [.pc, .r, .f, .ports, partOfReg8 r] s t) ∧
    (∀ s : State, completes (exec .inf s) fun t =>
      advanced 2 2 s t ∧
      (∃ v : Byte, t.ports = ⟨.input, s.bc, v⟩ :: s.ports ∧
        flagsAre t.f (v.getLsbD 7) (decide (v = 0)) (v.getLsbD 5) false (v.getLsbD 3) (decide (onesOf v % 2 = 0)) false (flagC s.f)) ∧
      changesOnly [.pc, .r, .f, .ports] s t) ∧
    (∀ (p : Pfx) (n : Byte) (s : State), completes (exec (.outNA p n) s) fun t =>
      advanced (2 + prefixLength p) (1 + prefixLength p) s t ∧
      t.ports = ⟨.output, join s.a n, s.a⟩ :: s.ports ∧
      changesOnly [.pc, .r, .ports] s t) ∧
    (∀ (r : Reg8) (s : State), completes (exec (.outCR r) s) fun t =>
      advanced 2 2 s t ∧
      t.ports = ⟨.output, s.bc, s.reg8 r⟩ :: s.ports ∧
      changesOnly [.pc, .r, .ports] s t) ∧
    (∀ s : State, completes (exec .outf s) fun t =>
      advanced 2 2 s t ∧
      t.ports = ⟨.output, s.bc, 0x00⟩ :: s.ports ∧
      changesOnly [.pc, .r, .ports] s t)

/-- The eight block port instructions: one access to port BC, HL and B stepped, PC back while B is not 0. Completion,
result and frame; the flags are free values (D13, log 9), the port address is the spec's decision D26, one iteration
per step D27. PC and R: 10_state.md R33, R46, where R counts by the default R_MODEL (D14, log 13). -/
def Obligations.BlockInputsAndOutputs : Prop :=
    (∀ s : State, completes (exec .ini s) fun t =>
      t.pc = s.pc + BitVec.ofNat 16 2 ∧ counted 2 s t ∧
      (∃ v : Byte, t.ports = ⟨.input, s.bc, v⟩ :: s.ports ∧ storesByte s.hl v s t) ∧
      t.hl = s.hl + 1 ∧ t.b = s.b - 1 ∧
      changesOnly [.pc, .r, .b, .h, .l, .f, .bytes, .ports, .draws] s t) ∧
    (∀ s : State, completes (exec .ind s) fun t =>
      t.pc = s.pc + BitVec.ofNat 16 2 ∧ counted 2 s t ∧
      (∃ v : Byte, t.ports = ⟨.input, s.bc, v⟩ :: s.ports ∧ storesByte s.hl v s t) ∧
      t.hl = s.hl - 1 ∧ t.b = s.b - 1 ∧
      changesOnly [.pc, .r, .b, .h, .l, .f, .bytes, .ports, .draws] s t) ∧
    (∀ s : State, completes (exec .inir s) fun t =>
      t.pc = (if s.b ≠ 1 then s.pc else s.pc + BitVec.ofNat 16 2) ∧ counted 2 s t ∧
      (∃ v : Byte, t.ports = ⟨.input, s.bc, v⟩ :: s.ports ∧ storesByte s.hl v s t) ∧
      t.hl = s.hl + 1 ∧ t.b = s.b - 1 ∧
      changesOnly [.pc, .r, .b, .h, .l, .f, .bytes, .ports, .draws] s t) ∧
    (∀ s : State, completes (exec .indr s) fun t =>
      t.pc = (if s.b ≠ 1 then s.pc else s.pc + BitVec.ofNat 16 2) ∧ counted 2 s t ∧
      (∃ v : Byte, t.ports = ⟨.input, s.bc, v⟩ :: s.ports ∧ storesByte s.hl v s t) ∧
      t.hl = s.hl - 1 ∧ t.b = s.b - 1 ∧
      changesOnly [.pc, .r, .b, .h, .l, .f, .bytes, .ports, .draws] s t) ∧
    (∀ s : State, completes (exec .oti s) fun t =>
      t.pc = s.pc + BitVec.ofNat 16 2 ∧ counted 2 s t ∧
      t.ports = ⟨.output, s.bc, s.memRead s.hl⟩ :: s.ports ∧
      t.hl = s.hl + 1 ∧ t.b = s.b - 1 ∧ flagN t.f = true ∧
      changesOnly [.pc, .r, .b, .h, .l, .f, .ports, .draws] s t) ∧
    (∀ s : State, completes (exec .otd s) fun t =>
      t.pc = s.pc + BitVec.ofNat 16 2 ∧ counted 2 s t ∧
      t.ports = ⟨.output, s.bc, s.memRead s.hl⟩ :: s.ports ∧
      t.hl = s.hl - 1 ∧ t.b = s.b - 1 ∧ flagN t.f = true ∧
      changesOnly [.pc, .r, .b, .h, .l, .f, .ports, .draws] s t) ∧
    (∀ s : State, completes (exec .otir s) fun t =>
      t.pc = (if s.b ≠ 1 then s.pc else s.pc + BitVec.ofNat 16 2) ∧ counted 2 s t ∧
      t.ports = ⟨.output, s.bc, s.memRead s.hl⟩ :: s.ports ∧
      t.hl = s.hl + 1 ∧ t.b = s.b - 1 ∧ flagN t.f = true ∧
      changesOnly [.pc, .r, .b, .h, .l, .f, .ports, .draws] s t) ∧
    (∀ s : State, completes (exec .otdr s) fun t =>
      t.pc = (if s.b ≠ 1 then s.pc else s.pc + BitVec.ofNat 16 2) ∧ counted 2 s t ∧
      t.ports = ⟨.output, s.bc, s.memRead s.hl⟩ :: s.ports ∧
      t.hl = s.hl - 1 ∧ t.b = s.b - 1 ∧ flagN t.f = true ∧
      changesOnly [.pc, .r, .b, .h, .l, .f, .ports, .draws] s t)

/-- NOP, the undefined ED opcodes, DI, EI, IM, HALT and the ignored prefixes change exactly what the rules name.
Completion, result and frame; D15, D16, D17, D20 and D31 are the spec's decisions. PC and R: 10_state.md R33, R46,
where R counts by the default R_MODEL (D14, log 13). -/
def Obligations.SystemInstructions : Prop :=
    (∀ (p : Pfx) (s : State), completes (exec (.nop p) s) fun t =>
      advanced (1 + prefixLength p) (1 + prefixLength p) s t ∧
      changesOnly [.pc, .r] s t) ∧
    (∀ (op : Byte) (s : State), completes (exec (.nopEd op) s) fun t =>
      advanced 2 2 s t ∧
      changesOnly [.pc, .r] s t) ∧
    (∀ (p : Pfx) (s : State), completes (exec (.di p) s) fun t =>
      advanced (1 + prefixLength p) (1 + prefixLength p) s t ∧
      t.iff1 = false ∧ t.iff2 = false ∧
      changesOnly [.pc, .r, .iff1, .iff2] s t) ∧
    (∀ (p : Pfx) (s : State), completes (exec (.ei p) s) fun t =>
      advanced (1 + prefixLength p) (1 + prefixLength p) s t ∧
      t.iff1 = true ∧ t.iff2 = true ∧ t.inhibit = true ∧
      changesOnly [.pc, .r, .iff1, .iff2, .inhibit] s t) ∧
    (∀ (k : BitVec 1) (m : BitVec 2) (s : State), completes (exec (.im k m) s) fun t =>
      advanced 2 2 s t ∧
      (m = 0 ∨ m = 1 → t.im = .im0) ∧ (m = 2 → t.im = .im1) ∧ (m = 3 → t.im = .im2) ∧
      changesOnly [.pc, .r, .im] s t) ∧
    (∀ (p : Pfx) (s : State), completes (exec (.halt p) s) fun t =>
      advanced (1 + prefixLength p) (1 + prefixLength p) s t ∧
      t.halted = true ∧
      changesOnly [.pc, .r, .halted] s t) ∧
    (∀ (x : Index) (s : State), completes (exec (.ignoredNextDd x) s) fun t =>
      advanced 1 1 s t ∧
      t.inhibit = true ∧
      changesOnly [.pc, .r, .inhibit] s t) ∧
    (∀ (x : Index) (s : State), completes (exec (.ignoredNextEd x) s) fun t =>
      advanced 1 1 s t ∧
      t.inhibit = true ∧
      changesOnly [.pc, .r, .inhibit] s t) ∧
    (∀ (x : Index) (s : State), completes (exec (.ignoredNextFd x) s) fun t =>
      advanced 1 1 s t ∧
      t.inhibit = true ∧
      changesOnly [.pc, .r, .inhibit] s t)

/-- A prefix row answers the next state of the instruction that its byte and the bytes after it are. A prefix "is part
of the instruction it starts" (R111); the rows as constructors are the model's reading (log 17). -/
def Obligations.PrefixBytesRunTheInstructionTheyStart : Prop :=
    (∀ s : State, ∃ t, exec .prefixCb s = .next t ∧ exec (decode4 0xCB (s.memRead (s.pc + 1)) (s.memRead (s.pc + 2)) (s.memRead (s.pc + 3))) s = .next t) ∧
    (∀ s : State, ∃ t, exec .prefixDd s = .next t ∧ exec (decode4 0xDD (s.memRead (s.pc + 1)) (s.memRead (s.pc + 2)) (s.memRead (s.pc + 3))) s = .next t) ∧
    (∀ s : State, ∃ t, exec .prefixEd s = .next t ∧ exec (decode4 0xED (s.memRead (s.pc + 1)) (s.memRead (s.pc + 2)) (s.memRead (s.pc + 3))) s = .next t) ∧
    (∀ s : State, ∃ t, exec .prefixFd s = .next t ∧ exec (decode4 0xFD (s.memRead (s.pc + 1)) (s.memRead (s.pc + 2)) (s.memRead (s.pc + 3))) s = .next t) ∧
    (∀ s : State, ∃ t, exec .prefixDdCb s = .next t ∧ exec (decode4 0xDD 0xCB (s.memRead (s.pc + 2)) (s.memRead (s.pc + 3))) s = .next t) ∧
    (∀ s : State, ∃ t, exec .prefixFdCb s = .next t ∧ exec (decode4 0xFD 0xCB (s.memRead (s.pc + 2)) (s.memRead (s.pc + 3))) s = .next t)
end

