-- ==== Sys2Proof/Laws/State.lean ====
section
/-! SUPPORT. One lemma per field per update of State, so that no later proof unfolds a record update. -/

namespace Sys2Proof.Machine

variable (s : State)

/-! ### `memWrite` -/

@[simp] theorem State.memWrite_a (a : Word) (v : Byte) : (s.memWrite a v).a = s.a := rfl
@[simp] theorem State.memWrite_f (a : Word) (v : Byte) : (s.memWrite a v).f = s.f := rfl
@[simp] theorem State.memWrite_b (a : Word) (v : Byte) : (s.memWrite a v).b = s.b := rfl
@[simp] theorem State.memWrite_c (a : Word) (v : Byte) : (s.memWrite a v).c = s.c := rfl
@[simp] theorem State.memWrite_d (a : Word) (v : Byte) : (s.memWrite a v).d = s.d := rfl
@[simp] theorem State.memWrite_e (a : Word) (v : Byte) : (s.memWrite a v).e = s.e := rfl
@[simp] theorem State.memWrite_h (a : Word) (v : Byte) : (s.memWrite a v).h = s.h := rfl
@[simp] theorem State.memWrite_l (a : Word) (v : Byte) : (s.memWrite a v).l = s.l := rfl
@[simp] theorem State.memWrite_a' (a : Word) (v : Byte) : (s.memWrite a v).a' = s.a' := rfl
@[simp] theorem State.memWrite_f' (a : Word) (v : Byte) : (s.memWrite a v).f' = s.f' := rfl
@[simp] theorem State.memWrite_b' (a : Word) (v : Byte) : (s.memWrite a v).b' = s.b' := rfl
@[simp] theorem State.memWrite_c' (a : Word) (v : Byte) : (s.memWrite a v).c' = s.c' := rfl
@[simp] theorem State.memWrite_d' (a : Word) (v : Byte) : (s.memWrite a v).d' = s.d' := rfl
@[simp] theorem State.memWrite_e' (a : Word) (v : Byte) : (s.memWrite a v).e' = s.e' := rfl
@[simp] theorem State.memWrite_h' (a : Word) (v : Byte) : (s.memWrite a v).h' = s.h' := rfl
@[simp] theorem State.memWrite_l' (a : Word) (v : Byte) : (s.memWrite a v).l' = s.l' := rfl
@[simp] theorem State.memWrite_ix (a : Word) (v : Byte) : (s.memWrite a v).ix = s.ix := rfl
@[simp] theorem State.memWrite_iy (a : Word) (v : Byte) : (s.memWrite a v).iy = s.iy := rfl
@[simp] theorem State.memWrite_sp (a : Word) (v : Byte) : (s.memWrite a v).sp = s.sp := rfl
@[simp] theorem State.memWrite_pc (a : Word) (v : Byte) : (s.memWrite a v).pc = s.pc := rfl
@[simp] theorem State.memWrite_i (a : Word) (v : Byte) : (s.memWrite a v).i = s.i := rfl
@[simp] theorem State.memWrite_r (a : Word) (v : Byte) : (s.memWrite a v).r = s.r := rfl
@[simp] theorem State.memWrite_iff1 (a : Word) (v : Byte) : (s.memWrite a v).iff1 = s.iff1 := rfl
@[simp] theorem State.memWrite_iff2 (a : Word) (v : Byte) : (s.memWrite a v).iff2 = s.iff2 := rfl
@[simp] theorem State.memWrite_im (a : Word) (v : Byte) : (s.memWrite a v).im = s.im := rfl
@[simp] theorem State.memWrite_halted (a : Word) (v : Byte) : (s.memWrite a v).halted = s.halted := rfl
@[simp] theorem State.memWrite_nmiPending (a : Word) (v : Byte) : (s.memWrite a v).nmiPending = s.nmiPending := rfl
@[simp] theorem State.memWrite_inhibit (a : Word) (v : Byte) : (s.memWrite a v).inhibit = s.inhibit := rfl
@[simp] theorem State.memWrite_temp (a : Word) (v : Byte) : (s.memWrite a v).temp = s.temp := rfl
@[simp] theorem State.memWrite_resetLine (a : Word) (v : Byte) : (s.memWrite a v).resetLine = s.resetLine := rfl
@[simp] theorem State.memWrite_intLine (a : Word) (v : Byte) : (s.memWrite a v).intLine = s.intLine := rfl
@[simp] theorem State.memWrite_busByte (a : Word) (v : Byte) : (s.memWrite a v).busByte = s.busByte := rfl
@[simp] theorem State.memWrite_inputs (a : Word) (v : Byte) : (s.memWrite a v).inputs = s.inputs := rfl
@[simp] theorem State.memWrite_mem (a : Word) (v : Byte) : (s.memWrite a v).mem = s.mem.write a v := rfl
@[simp] theorem State.memWrite_ports (a : Word) (v : Byte) : (s.memWrite a v).ports = s.ports := rfl
@[simp] theorem State.memWrite_draws (a : Word) (v : Byte) : (s.memWrite a v).draws = s.draws := rfl

/-! ### `memWrite16` -/

@[simp] theorem State.memWrite16_a (a w : Word) : (s.memWrite16 a w).a = s.a := rfl
@[simp] theorem State.memWrite16_f (a w : Word) : (s.memWrite16 a w).f = s.f := rfl
@[simp] theorem State.memWrite16_b (a w : Word) : (s.memWrite16 a w).b = s.b := rfl
@[simp] theorem State.memWrite16_c (a w : Word) : (s.memWrite16 a w).c = s.c := rfl
@[simp] theorem State.memWrite16_d (a w : Word) : (s.memWrite16 a w).d = s.d := rfl
@[simp] theorem State.memWrite16_e (a w : Word) : (s.memWrite16 a w).e = s.e := rfl
@[simp] theorem State.memWrite16_h (a w : Word) : (s.memWrite16 a w).h = s.h := rfl
@[simp] theorem State.memWrite16_l (a w : Word) : (s.memWrite16 a w).l = s.l := rfl
@[simp] theorem State.memWrite16_a' (a w : Word) : (s.memWrite16 a w).a' = s.a' := rfl
@[simp] theorem State.memWrite16_f' (a w : Word) : (s.memWrite16 a w).f' = s.f' := rfl
@[simp] theorem State.memWrite16_b' (a w : Word) : (s.memWrite16 a w).b' = s.b' := rfl
@[simp] theorem State.memWrite16_c' (a w : Word) : (s.memWrite16 a w).c' = s.c' := rfl
@[simp] theorem State.memWrite16_d' (a w : Word) : (s.memWrite16 a w).d' = s.d' := rfl
@[simp] theorem State.memWrite16_e' (a w : Word) : (s.memWrite16 a w).e' = s.e' := rfl
@[simp] theorem State.memWrite16_h' (a w : Word) : (s.memWrite16 a w).h' = s.h' := rfl
@[simp] theorem State.memWrite16_l' (a w : Word) : (s.memWrite16 a w).l' = s.l' := rfl
@[simp] theorem State.memWrite16_ix (a w : Word) : (s.memWrite16 a w).ix = s.ix := rfl
@[simp] theorem State.memWrite16_iy (a w : Word) : (s.memWrite16 a w).iy = s.iy := rfl
@[simp] theorem State.memWrite16_sp (a w : Word) : (s.memWrite16 a w).sp = s.sp := rfl
@[simp] theorem State.memWrite16_pc (a w : Word) : (s.memWrite16 a w).pc = s.pc := rfl
@[simp] theorem State.memWrite16_i (a w : Word) : (s.memWrite16 a w).i = s.i := rfl
@[simp] theorem State.memWrite16_r (a w : Word) : (s.memWrite16 a w).r = s.r := rfl
@[simp] theorem State.memWrite16_iff1 (a w : Word) : (s.memWrite16 a w).iff1 = s.iff1 := rfl
@[simp] theorem State.memWrite16_iff2 (a w : Word) : (s.memWrite16 a w).iff2 = s.iff2 := rfl
@[simp] theorem State.memWrite16_im (a w : Word) : (s.memWrite16 a w).im = s.im := rfl
@[simp] theorem State.memWrite16_halted (a w : Word) : (s.memWrite16 a w).halted = s.halted := rfl
@[simp] theorem State.memWrite16_nmiPending (a w : Word) : (s.memWrite16 a w).nmiPending = s.nmiPending := rfl
@[simp] theorem State.memWrite16_inhibit (a w : Word) : (s.memWrite16 a w).inhibit = s.inhibit := rfl
@[simp] theorem State.memWrite16_temp (a w : Word) : (s.memWrite16 a w).temp = s.temp := rfl
@[simp] theorem State.memWrite16_resetLine (a w : Word) : (s.memWrite16 a w).resetLine = s.resetLine := rfl
@[simp] theorem State.memWrite16_intLine (a w : Word) : (s.memWrite16 a w).intLine = s.intLine := rfl
@[simp] theorem State.memWrite16_busByte (a w : Word) : (s.memWrite16 a w).busByte = s.busByte := rfl
@[simp] theorem State.memWrite16_inputs (a w : Word) : (s.memWrite16 a w).inputs = s.inputs := rfl
@[simp] theorem State.memWrite16_mem (a w : Word) : (s.memWrite16 a w).mem = (s.mem.write a (lo w)).write (a + 1) (hi w) := rfl
@[simp] theorem State.memWrite16_ports (a w : Word) : (s.memWrite16 a w).ports = s.ports := rfl
@[simp] theorem State.memWrite16_draws (a w : Word) : (s.memWrite16 a w).draws = s.draws := rfl

/-! ### `memWrite16HighFirst` -/

@[simp] theorem State.memWrite16HighFirst_a (a w : Word) : (s.memWrite16HighFirst a w).a = s.a := rfl
@[simp] theorem State.memWrite16HighFirst_f (a w : Word) : (s.memWrite16HighFirst a w).f = s.f := rfl
@[simp] theorem State.memWrite16HighFirst_b (a w : Word) : (s.memWrite16HighFirst a w).b = s.b := rfl
@[simp] theorem State.memWrite16HighFirst_c (a w : Word) : (s.memWrite16HighFirst a w).c = s.c := rfl
@[simp] theorem State.memWrite16HighFirst_d (a w : Word) : (s.memWrite16HighFirst a w).d = s.d := rfl
@[simp] theorem State.memWrite16HighFirst_e (a w : Word) : (s.memWrite16HighFirst a w).e = s.e := rfl
@[simp] theorem State.memWrite16HighFirst_h (a w : Word) : (s.memWrite16HighFirst a w).h = s.h := rfl
@[simp] theorem State.memWrite16HighFirst_l (a w : Word) : (s.memWrite16HighFirst a w).l = s.l := rfl
@[simp] theorem State.memWrite16HighFirst_a' (a w : Word) : (s.memWrite16HighFirst a w).a' = s.a' := rfl
@[simp] theorem State.memWrite16HighFirst_f' (a w : Word) : (s.memWrite16HighFirst a w).f' = s.f' := rfl
@[simp] theorem State.memWrite16HighFirst_b' (a w : Word) : (s.memWrite16HighFirst a w).b' = s.b' := rfl
@[simp] theorem State.memWrite16HighFirst_c' (a w : Word) : (s.memWrite16HighFirst a w).c' = s.c' := rfl
@[simp] theorem State.memWrite16HighFirst_d' (a w : Word) : (s.memWrite16HighFirst a w).d' = s.d' := rfl
@[simp] theorem State.memWrite16HighFirst_e' (a w : Word) : (s.memWrite16HighFirst a w).e' = s.e' := rfl
@[simp] theorem State.memWrite16HighFirst_h' (a w : Word) : (s.memWrite16HighFirst a w).h' = s.h' := rfl
@[simp] theorem State.memWrite16HighFirst_l' (a w : Word) : (s.memWrite16HighFirst a w).l' = s.l' := rfl
@[simp] theorem State.memWrite16HighFirst_ix (a w : Word) : (s.memWrite16HighFirst a w).ix = s.ix := rfl
@[simp] theorem State.memWrite16HighFirst_iy (a w : Word) : (s.memWrite16HighFirst a w).iy = s.iy := rfl
@[simp] theorem State.memWrite16HighFirst_sp (a w : Word) : (s.memWrite16HighFirst a w).sp = s.sp := rfl
@[simp] theorem State.memWrite16HighFirst_pc (a w : Word) : (s.memWrite16HighFirst a w).pc = s.pc := rfl
@[simp] theorem State.memWrite16HighFirst_i (a w : Word) : (s.memWrite16HighFirst a w).i = s.i := rfl
@[simp] theorem State.memWrite16HighFirst_r (a w : Word) : (s.memWrite16HighFirst a w).r = s.r := rfl
@[simp] theorem State.memWrite16HighFirst_iff1 (a w : Word) : (s.memWrite16HighFirst a w).iff1 = s.iff1 := rfl
@[simp] theorem State.memWrite16HighFirst_iff2 (a w : Word) : (s.memWrite16HighFirst a w).iff2 = s.iff2 := rfl
@[simp] theorem State.memWrite16HighFirst_im (a w : Word) : (s.memWrite16HighFirst a w).im = s.im := rfl
@[simp] theorem State.memWrite16HighFirst_halted (a w : Word) : (s.memWrite16HighFirst a w).halted = s.halted := rfl
@[simp] theorem State.memWrite16HighFirst_nmiPending (a w : Word) : (s.memWrite16HighFirst a w).nmiPending = s.nmiPending := rfl
@[simp] theorem State.memWrite16HighFirst_inhibit (a w : Word) : (s.memWrite16HighFirst a w).inhibit = s.inhibit := rfl
@[simp] theorem State.memWrite16HighFirst_temp (a w : Word) : (s.memWrite16HighFirst a w).temp = s.temp := rfl
@[simp] theorem State.memWrite16HighFirst_resetLine (a w : Word) : (s.memWrite16HighFirst a w).resetLine = s.resetLine := rfl
@[simp] theorem State.memWrite16HighFirst_intLine (a w : Word) : (s.memWrite16HighFirst a w).intLine = s.intLine := rfl
@[simp] theorem State.memWrite16HighFirst_busByte (a w : Word) : (s.memWrite16HighFirst a w).busByte = s.busByte := rfl
@[simp] theorem State.memWrite16HighFirst_inputs (a w : Word) : (s.memWrite16HighFirst a w).inputs = s.inputs := rfl
@[simp] theorem State.memWrite16HighFirst_mem (a w : Word) : (s.memWrite16HighFirst a w).mem = (s.mem.write (a + 1) (hi w)).write a (lo w) := rfl
@[simp] theorem State.memWrite16HighFirst_ports (a w : Word) : (s.memWrite16HighFirst a w).ports = s.ports := rfl
@[simp] theorem State.memWrite16HighFirst_draws (a w : Word) : (s.memWrite16HighFirst a w).draws = s.draws := rfl

/-! ### `push16` -/

@[simp] theorem State.push16_a (w : Word) : (s.push16 w).a = s.a := rfl
@[simp] theorem State.push16_f (w : Word) : (s.push16 w).f = s.f := rfl
@[simp] theorem State.push16_b (w : Word) : (s.push16 w).b = s.b := rfl
@[simp] theorem State.push16_c (w : Word) : (s.push16 w).c = s.c := rfl
@[simp] theorem State.push16_d (w : Word) : (s.push16 w).d = s.d := rfl
@[simp] theorem State.push16_e (w : Word) : (s.push16 w).e = s.e := rfl
@[simp] theorem State.push16_h (w : Word) : (s.push16 w).h = s.h := rfl
@[simp] theorem State.push16_l (w : Word) : (s.push16 w).l = s.l := rfl
@[simp] theorem State.push16_a' (w : Word) : (s.push16 w).a' = s.a' := rfl
@[simp] theorem State.push16_f' (w : Word) : (s.push16 w).f' = s.f' := rfl
@[simp] theorem State.push16_b' (w : Word) : (s.push16 w).b' = s.b' := rfl
@[simp] theorem State.push16_c' (w : Word) : (s.push16 w).c' = s.c' := rfl
@[simp] theorem State.push16_d' (w : Word) : (s.push16 w).d' = s.d' := rfl
@[simp] theorem State.push16_e' (w : Word) : (s.push16 w).e' = s.e' := rfl
@[simp] theorem State.push16_h' (w : Word) : (s.push16 w).h' = s.h' := rfl
@[simp] theorem State.push16_l' (w : Word) : (s.push16 w).l' = s.l' := rfl
@[simp] theorem State.push16_ix (w : Word) : (s.push16 w).ix = s.ix := rfl
@[simp] theorem State.push16_iy (w : Word) : (s.push16 w).iy = s.iy := rfl
@[simp] theorem State.push16_sp (w : Word) : (s.push16 w).sp = s.sp - 2 := rfl
@[simp] theorem State.push16_pc (w : Word) : (s.push16 w).pc = s.pc := rfl
@[simp] theorem State.push16_i (w : Word) : (s.push16 w).i = s.i := rfl
@[simp] theorem State.push16_r (w : Word) : (s.push16 w).r = s.r := rfl
@[simp] theorem State.push16_iff1 (w : Word) : (s.push16 w).iff1 = s.iff1 := rfl
@[simp] theorem State.push16_iff2 (w : Word) : (s.push16 w).iff2 = s.iff2 := rfl
@[simp] theorem State.push16_im (w : Word) : (s.push16 w).im = s.im := rfl
@[simp] theorem State.push16_halted (w : Word) : (s.push16 w).halted = s.halted := rfl
@[simp] theorem State.push16_nmiPending (w : Word) : (s.push16 w).nmiPending = s.nmiPending := rfl
@[simp] theorem State.push16_inhibit (w : Word) : (s.push16 w).inhibit = s.inhibit := rfl
@[simp] theorem State.push16_temp (w : Word) : (s.push16 w).temp = s.temp := rfl
@[simp] theorem State.push16_resetLine (w : Word) : (s.push16 w).resetLine = s.resetLine := rfl
@[simp] theorem State.push16_intLine (w : Word) : (s.push16 w).intLine = s.intLine := rfl
@[simp] theorem State.push16_busByte (w : Word) : (s.push16 w).busByte = s.busByte := rfl
@[simp] theorem State.push16_inputs (w : Word) : (s.push16 w).inputs = s.inputs := rfl
@[simp] theorem State.push16_mem (w : Word) : (s.push16 w).mem = (s.mem.write (s.sp - 2 + 1) (hi w)).write (s.sp - 2) (lo w) := rfl
@[simp] theorem State.push16_ports (w : Word) : (s.push16 w).ports = s.ports := rfl
@[simp] theorem State.push16_draws (w : Word) : (s.push16 w).draws = s.draws := rfl

/-! ### `dropWord` -/

@[simp] theorem State.dropWord_a : (s.dropWord).a = s.a := rfl
@[simp] theorem State.dropWord_f : (s.dropWord).f = s.f := rfl
@[simp] theorem State.dropWord_b : (s.dropWord).b = s.b := rfl
@[simp] theorem State.dropWord_c : (s.dropWord).c = s.c := rfl
@[simp] theorem State.dropWord_d : (s.dropWord).d = s.d := rfl
@[simp] theorem State.dropWord_e : (s.dropWord).e = s.e := rfl
@[simp] theorem State.dropWord_h : (s.dropWord).h = s.h := rfl
@[simp] theorem State.dropWord_l : (s.dropWord).l = s.l := rfl
@[simp] theorem State.dropWord_a' : (s.dropWord).a' = s.a' := rfl
@[simp] theorem State.dropWord_f' : (s.dropWord).f' = s.f' := rfl
@[simp] theorem State.dropWord_b' : (s.dropWord).b' = s.b' := rfl
@[simp] theorem State.dropWord_c' : (s.dropWord).c' = s.c' := rfl
@[simp] theorem State.dropWord_d' : (s.dropWord).d' = s.d' := rfl
@[simp] theorem State.dropWord_e' : (s.dropWord).e' = s.e' := rfl
@[simp] theorem State.dropWord_h' : (s.dropWord).h' = s.h' := rfl
@[simp] theorem State.dropWord_l' : (s.dropWord).l' = s.l' := rfl
@[simp] theorem State.dropWord_ix : (s.dropWord).ix = s.ix := rfl
@[simp] theorem State.dropWord_iy : (s.dropWord).iy = s.iy := rfl
@[simp] theorem State.dropWord_sp : (s.dropWord).sp = s.sp + 2 := rfl
@[simp] theorem State.dropWord_pc : (s.dropWord).pc = s.pc := rfl
@[simp] theorem State.dropWord_i : (s.dropWord).i = s.i := rfl
@[simp] theorem State.dropWord_r : (s.dropWord).r = s.r := rfl
@[simp] theorem State.dropWord_iff1 : (s.dropWord).iff1 = s.iff1 := rfl
@[simp] theorem State.dropWord_iff2 : (s.dropWord).iff2 = s.iff2 := rfl
@[simp] theorem State.dropWord_im : (s.dropWord).im = s.im := rfl
@[simp] theorem State.dropWord_halted : (s.dropWord).halted = s.halted := rfl
@[simp] theorem State.dropWord_nmiPending : (s.dropWord).nmiPending = s.nmiPending := rfl
@[simp] theorem State.dropWord_inhibit : (s.dropWord).inhibit = s.inhibit := rfl
@[simp] theorem State.dropWord_temp : (s.dropWord).temp = s.temp := rfl
@[simp] theorem State.dropWord_resetLine : (s.dropWord).resetLine = s.resetLine := rfl
@[simp] theorem State.dropWord_intLine : (s.dropWord).intLine = s.intLine := rfl
@[simp] theorem State.dropWord_busByte : (s.dropWord).busByte = s.busByte := rfl
@[simp] theorem State.dropWord_inputs : (s.dropWord).inputs = s.inputs := rfl
@[simp] theorem State.dropWord_mem : (s.dropWord).mem = s.mem := rfl
@[simp] theorem State.dropWord_ports : (s.dropWord).ports = s.ports := rfl
@[simp] theorem State.dropWord_draws : (s.dropWord).draws = s.draws := rfl

/-! ### `countR` -/

@[simp] theorem State.countR_a (m : Nat) : (s.countR m).a = s.a := rfl
@[simp] theorem State.countR_f (m : Nat) : (s.countR m).f = s.f := rfl
@[simp] theorem State.countR_b (m : Nat) : (s.countR m).b = s.b := rfl
@[simp] theorem State.countR_c (m : Nat) : (s.countR m).c = s.c := rfl
@[simp] theorem State.countR_d (m : Nat) : (s.countR m).d = s.d := rfl
@[simp] theorem State.countR_e (m : Nat) : (s.countR m).e = s.e := rfl
@[simp] theorem State.countR_h (m : Nat) : (s.countR m).h = s.h := rfl
@[simp] theorem State.countR_l (m : Nat) : (s.countR m).l = s.l := rfl
@[simp] theorem State.countR_a' (m : Nat) : (s.countR m).a' = s.a' := rfl
@[simp] theorem State.countR_f' (m : Nat) : (s.countR m).f' = s.f' := rfl
@[simp] theorem State.countR_b' (m : Nat) : (s.countR m).b' = s.b' := rfl
@[simp] theorem State.countR_c' (m : Nat) : (s.countR m).c' = s.c' := rfl
@[simp] theorem State.countR_d' (m : Nat) : (s.countR m).d' = s.d' := rfl
@[simp] theorem State.countR_e' (m : Nat) : (s.countR m).e' = s.e' := rfl
@[simp] theorem State.countR_h' (m : Nat) : (s.countR m).h' = s.h' := rfl
@[simp] theorem State.countR_l' (m : Nat) : (s.countR m).l' = s.l' := rfl
@[simp] theorem State.countR_ix (m : Nat) : (s.countR m).ix = s.ix := rfl
@[simp] theorem State.countR_iy (m : Nat) : (s.countR m).iy = s.iy := rfl
@[simp] theorem State.countR_sp (m : Nat) : (s.countR m).sp = s.sp := rfl
@[simp] theorem State.countR_pc (m : Nat) : (s.countR m).pc = s.pc := rfl
@[simp] theorem State.countR_i (m : Nat) : (s.countR m).i = s.i := rfl
@[simp] theorem State.countR_r (m : Nat) : (s.countR m).r = s.r.extractLsb' 7 1 ++ (s.r.extractLsb' 0 7 + BitVec.ofNat 7 m) := rfl
@[simp] theorem State.countR_iff1 (m : Nat) : (s.countR m).iff1 = s.iff1 := rfl
@[simp] theorem State.countR_iff2 (m : Nat) : (s.countR m).iff2 = s.iff2 := rfl
@[simp] theorem State.countR_im (m : Nat) : (s.countR m).im = s.im := rfl
@[simp] theorem State.countR_halted (m : Nat) : (s.countR m).halted = s.halted := rfl
@[simp] theorem State.countR_nmiPending (m : Nat) : (s.countR m).nmiPending = s.nmiPending := rfl
@[simp] theorem State.countR_inhibit (m : Nat) : (s.countR m).inhibit = s.inhibit := rfl
@[simp] theorem State.countR_temp (m : Nat) : (s.countR m).temp = s.temp := rfl
@[simp] theorem State.countR_resetLine (m : Nat) : (s.countR m).resetLine = s.resetLine := rfl
@[simp] theorem State.countR_intLine (m : Nat) : (s.countR m).intLine = s.intLine := rfl
@[simp] theorem State.countR_busByte (m : Nat) : (s.countR m).busByte = s.busByte := rfl
@[simp] theorem State.countR_inputs (m : Nat) : (s.countR m).inputs = s.inputs := rfl
@[simp] theorem State.countR_mem (m : Nat) : (s.countR m).mem = s.mem := rfl
@[simp] theorem State.countR_ports (m : Nat) : (s.countR m).ports = s.ports := rfl
@[simp] theorem State.countR_draws (m : Nat) : (s.countR m).draws = s.draws := rfl

/-! ### `begin` -/

@[simp] theorem State.begin_a (len fetches : Nat) : (s.begin len fetches).a = s.a := rfl
@[simp] theorem State.begin_f (len fetches : Nat) : (s.begin len fetches).f = s.f := rfl
@[simp] theorem State.begin_b (len fetches : Nat) : (s.begin len fetches).b = s.b := rfl
@[simp] theorem State.begin_c (len fetches : Nat) : (s.begin len fetches).c = s.c := rfl
@[simp] theorem State.begin_d (len fetches : Nat) : (s.begin len fetches).d = s.d := rfl
@[simp] theorem State.begin_e (len fetches : Nat) : (s.begin len fetches).e = s.e := rfl
@[simp] theorem State.begin_h (len fetches : Nat) : (s.begin len fetches).h = s.h := rfl
@[simp] theorem State.begin_l (len fetches : Nat) : (s.begin len fetches).l = s.l := rfl
@[simp] theorem State.begin_a' (len fetches : Nat) : (s.begin len fetches).a' = s.a' := rfl
@[simp] theorem State.begin_f' (len fetches : Nat) : (s.begin len fetches).f' = s.f' := rfl
@[simp] theorem State.begin_b' (len fetches : Nat) : (s.begin len fetches).b' = s.b' := rfl
@[simp] theorem State.begin_c' (len fetches : Nat) : (s.begin len fetches).c' = s.c' := rfl
@[simp] theorem State.begin_d' (len fetches : Nat) : (s.begin len fetches).d' = s.d' := rfl
@[simp] theorem State.begin_e' (len fetches : Nat) : (s.begin len fetches).e' = s.e' := rfl
@[simp] theorem State.begin_h' (len fetches : Nat) : (s.begin len fetches).h' = s.h' := rfl
@[simp] theorem State.begin_l' (len fetches : Nat) : (s.begin len fetches).l' = s.l' := rfl
@[simp] theorem State.begin_ix (len fetches : Nat) : (s.begin len fetches).ix = s.ix := rfl
@[simp] theorem State.begin_iy (len fetches : Nat) : (s.begin len fetches).iy = s.iy := rfl
@[simp] theorem State.begin_sp (len fetches : Nat) : (s.begin len fetches).sp = s.sp := rfl
@[simp] theorem State.begin_pc (len fetches : Nat) : (s.begin len fetches).pc = s.pc + BitVec.ofNat 16 len := rfl
@[simp] theorem State.begin_i (len fetches : Nat) : (s.begin len fetches).i = s.i := rfl
@[simp] theorem State.begin_r (len fetches : Nat) : (s.begin len fetches).r = (s.countR fetches).r := rfl
@[simp] theorem State.begin_iff1 (len fetches : Nat) : (s.begin len fetches).iff1 = s.iff1 := rfl
@[simp] theorem State.begin_iff2 (len fetches : Nat) : (s.begin len fetches).iff2 = s.iff2 := rfl
@[simp] theorem State.begin_im (len fetches : Nat) : (s.begin len fetches).im = s.im := rfl
@[simp] theorem State.begin_halted (len fetches : Nat) : (s.begin len fetches).halted = s.halted := rfl
@[simp] theorem State.begin_nmiPending (len fetches : Nat) : (s.begin len fetches).nmiPending = s.nmiPending := rfl
@[simp] theorem State.begin_inhibit (len fetches : Nat) : (s.begin len fetches).inhibit = s.inhibit := rfl
@[simp] theorem State.begin_temp (len fetches : Nat) : (s.begin len fetches).temp = s.temp := rfl
@[simp] theorem State.begin_resetLine (len fetches : Nat) : (s.begin len fetches).resetLine = s.resetLine := rfl
@[simp] theorem State.begin_intLine (len fetches : Nat) : (s.begin len fetches).intLine = s.intLine := rfl
@[simp] theorem State.begin_busByte (len fetches : Nat) : (s.begin len fetches).busByte = s.busByte := rfl
@[simp] theorem State.begin_inputs (len fetches : Nat) : (s.begin len fetches).inputs = s.inputs := rfl
@[simp] theorem State.begin_mem (len fetches : Nat) : (s.begin len fetches).mem = s.mem := rfl
@[simp] theorem State.begin_ports (len fetches : Nat) : (s.begin len fetches).ports = s.ports := rfl
@[simp] theorem State.begin_draws (len fetches : Nat) : (s.begin len fetches).draws = s.draws := rfl

/-! ### `beginP` -/

@[simp] theorem State.beginP_a (p : Pfx) (len : Nat) : (s.beginP p len).a = s.a := rfl
@[simp] theorem State.beginP_f (p : Pfx) (len : Nat) : (s.beginP p len).f = s.f := rfl
@[simp] theorem State.beginP_b (p : Pfx) (len : Nat) : (s.beginP p len).b = s.b := rfl
@[simp] theorem State.beginP_c (p : Pfx) (len : Nat) : (s.beginP p len).c = s.c := rfl
@[simp] theorem State.beginP_d (p : Pfx) (len : Nat) : (s.beginP p len).d = s.d := rfl
@[simp] theorem State.beginP_e (p : Pfx) (len : Nat) : (s.beginP p len).e = s.e := rfl
@[simp] theorem State.beginP_h (p : Pfx) (len : Nat) : (s.beginP p len).h = s.h := rfl
@[simp] theorem State.beginP_l (p : Pfx) (len : Nat) : (s.beginP p len).l = s.l := rfl
@[simp] theorem State.beginP_a' (p : Pfx) (len : Nat) : (s.beginP p len).a' = s.a' := rfl
@[simp] theorem State.beginP_f' (p : Pfx) (len : Nat) : (s.beginP p len).f' = s.f' := rfl
@[simp] theorem State.beginP_b' (p : Pfx) (len : Nat) : (s.beginP p len).b' = s.b' := rfl
@[simp] theorem State.beginP_c' (p : Pfx) (len : Nat) : (s.beginP p len).c' = s.c' := rfl
@[simp] theorem State.beginP_d' (p : Pfx) (len : Nat) : (s.beginP p len).d' = s.d' := rfl
@[simp] theorem State.beginP_e' (p : Pfx) (len : Nat) : (s.beginP p len).e' = s.e' := rfl
@[simp] theorem State.beginP_h' (p : Pfx) (len : Nat) : (s.beginP p len).h' = s.h' := rfl
@[simp] theorem State.beginP_l' (p : Pfx) (len : Nat) : (s.beginP p len).l' = s.l' := rfl
@[simp] theorem State.beginP_ix (p : Pfx) (len : Nat) : (s.beginP p len).ix = s.ix := rfl
@[simp] theorem State.beginP_iy (p : Pfx) (len : Nat) : (s.beginP p len).iy = s.iy := rfl
@[simp] theorem State.beginP_sp (p : Pfx) (len : Nat) : (s.beginP p len).sp = s.sp := rfl
@[simp] theorem State.beginP_pc (p : Pfx) (len : Nat) : (s.beginP p len).pc = s.pc + BitVec.ofNat 16 (len + prefixLength p) := rfl
@[simp] theorem State.beginP_i (p : Pfx) (len : Nat) : (s.beginP p len).i = s.i := rfl
@[simp] theorem State.beginP_r (p : Pfx) (len : Nat) : (s.beginP p len).r = (s.countR (1 + prefixLength p)).r := rfl
@[simp] theorem State.beginP_iff1 (p : Pfx) (len : Nat) : (s.beginP p len).iff1 = s.iff1 := rfl
@[simp] theorem State.beginP_iff2 (p : Pfx) (len : Nat) : (s.beginP p len).iff2 = s.iff2 := rfl
@[simp] theorem State.beginP_im (p : Pfx) (len : Nat) : (s.beginP p len).im = s.im := rfl
@[simp] theorem State.beginP_halted (p : Pfx) (len : Nat) : (s.beginP p len).halted = s.halted := rfl
@[simp] theorem State.beginP_nmiPending (p : Pfx) (len : Nat) : (s.beginP p len).nmiPending = s.nmiPending := rfl
@[simp] theorem State.beginP_inhibit (p : Pfx) (len : Nat) : (s.beginP p len).inhibit = s.inhibit := rfl
@[simp] theorem State.beginP_temp (p : Pfx) (len : Nat) : (s.beginP p len).temp = s.temp := rfl
@[simp] theorem State.beginP_resetLine (p : Pfx) (len : Nat) : (s.beginP p len).resetLine = s.resetLine := rfl
@[simp] theorem State.beginP_intLine (p : Pfx) (len : Nat) : (s.beginP p len).intLine = s.intLine := rfl
@[simp] theorem State.beginP_busByte (p : Pfx) (len : Nat) : (s.beginP p len).busByte = s.busByte := rfl
@[simp] theorem State.beginP_inputs (p : Pfx) (len : Nat) : (s.beginP p len).inputs = s.inputs := rfl
@[simp] theorem State.beginP_mem (p : Pfx) (len : Nat) : (s.beginP p len).mem = s.mem := rfl
@[simp] theorem State.beginP_ports (p : Pfx) (len : Nat) : (s.beginP p len).ports = s.ports := rfl
@[simp] theorem State.beginP_draws (p : Pfx) (len : Nat) : (s.beginP p len).draws = s.draws := rfl

/-! ### `again` -/

@[simp] theorem State.again_a (len : Nat) : (s.again len).a = s.a := rfl
@[simp] theorem State.again_f (len : Nat) : (s.again len).f = s.f := rfl
@[simp] theorem State.again_b (len : Nat) : (s.again len).b = s.b := rfl
@[simp] theorem State.again_c (len : Nat) : (s.again len).c = s.c := rfl
@[simp] theorem State.again_d (len : Nat) : (s.again len).d = s.d := rfl
@[simp] theorem State.again_e (len : Nat) : (s.again len).e = s.e := rfl
@[simp] theorem State.again_h (len : Nat) : (s.again len).h = s.h := rfl
@[simp] theorem State.again_l (len : Nat) : (s.again len).l = s.l := rfl
@[simp] theorem State.again_a' (len : Nat) : (s.again len).a' = s.a' := rfl
@[simp] theorem State.again_f' (len : Nat) : (s.again len).f' = s.f' := rfl
@[simp] theorem State.again_b' (len : Nat) : (s.again len).b' = s.b' := rfl
@[simp] theorem State.again_c' (len : Nat) : (s.again len).c' = s.c' := rfl
@[simp] theorem State.again_d' (len : Nat) : (s.again len).d' = s.d' := rfl
@[simp] theorem State.again_e' (len : Nat) : (s.again len).e' = s.e' := rfl
@[simp] theorem State.again_h' (len : Nat) : (s.again len).h' = s.h' := rfl
@[simp] theorem State.again_l' (len : Nat) : (s.again len).l' = s.l' := rfl
@[simp] theorem State.again_ix (len : Nat) : (s.again len).ix = s.ix := rfl
@[simp] theorem State.again_iy (len : Nat) : (s.again len).iy = s.iy := rfl
@[simp] theorem State.again_sp (len : Nat) : (s.again len).sp = s.sp := rfl
@[simp] theorem State.again_pc (len : Nat) : (s.again len).pc = s.pc - BitVec.ofNat 16 len := rfl
@[simp] theorem State.again_i (len : Nat) : (s.again len).i = s.i := rfl
@[simp] theorem State.again_r (len : Nat) : (s.again len).r = s.r := rfl
@[simp] theorem State.again_iff1 (len : Nat) : (s.again len).iff1 = s.iff1 := rfl
@[simp] theorem State.again_iff2 (len : Nat) : (s.again len).iff2 = s.iff2 := rfl
@[simp] theorem State.again_im (len : Nat) : (s.again len).im = s.im := rfl
@[simp] theorem State.again_halted (len : Nat) : (s.again len).halted = s.halted := rfl
@[simp] theorem State.again_nmiPending (len : Nat) : (s.again len).nmiPending = s.nmiPending := rfl
@[simp] theorem State.again_inhibit (len : Nat) : (s.again len).inhibit = s.inhibit := rfl
@[simp] theorem State.again_temp (len : Nat) : (s.again len).temp = s.temp := rfl
@[simp] theorem State.again_resetLine (len : Nat) : (s.again len).resetLine = s.resetLine := rfl
@[simp] theorem State.again_intLine (len : Nat) : (s.again len).intLine = s.intLine := rfl
@[simp] theorem State.again_busByte (len : Nat) : (s.again len).busByte = s.busByte := rfl
@[simp] theorem State.again_inputs (len : Nat) : (s.again len).inputs = s.inputs := rfl
@[simp] theorem State.again_mem (len : Nat) : (s.again len).mem = s.mem := rfl
@[simp] theorem State.again_ports (len : Nat) : (s.again len).ports = s.ports := rfl
@[simp] theorem State.again_draws (len : Nat) : (s.again len).draws = s.draws := rfl

/-! ### `jump` -/

@[simp] theorem State.jump_a (target : Word) : (s.jump target).a = s.a := rfl
@[simp] theorem State.jump_f (target : Word) : (s.jump target).f = s.f := rfl
@[simp] theorem State.jump_b (target : Word) : (s.jump target).b = s.b := rfl
@[simp] theorem State.jump_c (target : Word) : (s.jump target).c = s.c := rfl
@[simp] theorem State.jump_d (target : Word) : (s.jump target).d = s.d := rfl
@[simp] theorem State.jump_e (target : Word) : (s.jump target).e = s.e := rfl
@[simp] theorem State.jump_h (target : Word) : (s.jump target).h = s.h := rfl
@[simp] theorem State.jump_l (target : Word) : (s.jump target).l = s.l := rfl
@[simp] theorem State.jump_a' (target : Word) : (s.jump target).a' = s.a' := rfl
@[simp] theorem State.jump_f' (target : Word) : (s.jump target).f' = s.f' := rfl
@[simp] theorem State.jump_b' (target : Word) : (s.jump target).b' = s.b' := rfl
@[simp] theorem State.jump_c' (target : Word) : (s.jump target).c' = s.c' := rfl
@[simp] theorem State.jump_d' (target : Word) : (s.jump target).d' = s.d' := rfl
@[simp] theorem State.jump_e' (target : Word) : (s.jump target).e' = s.e' := rfl
@[simp] theorem State.jump_h' (target : Word) : (s.jump target).h' = s.h' := rfl
@[simp] theorem State.jump_l' (target : Word) : (s.jump target).l' = s.l' := rfl
@[simp] theorem State.jump_ix (target : Word) : (s.jump target).ix = s.ix := rfl
@[simp] theorem State.jump_iy (target : Word) : (s.jump target).iy = s.iy := rfl
@[simp] theorem State.jump_sp (target : Word) : (s.jump target).sp = s.sp := rfl
@[simp] theorem State.jump_pc (target : Word) : (s.jump target).pc = target := rfl
@[simp] theorem State.jump_i (target : Word) : (s.jump target).i = s.i := rfl
@[simp] theorem State.jump_r (target : Word) : (s.jump target).r = s.r := rfl
@[simp] theorem State.jump_iff1 (target : Word) : (s.jump target).iff1 = s.iff1 := rfl
@[simp] theorem State.jump_iff2 (target : Word) : (s.jump target).iff2 = s.iff2 := rfl
@[simp] theorem State.jump_im (target : Word) : (s.jump target).im = s.im := rfl
@[simp] theorem State.jump_halted (target : Word) : (s.jump target).halted = s.halted := rfl
@[simp] theorem State.jump_nmiPending (target : Word) : (s.jump target).nmiPending = s.nmiPending := rfl
@[simp] theorem State.jump_inhibit (target : Word) : (s.jump target).inhibit = s.inhibit := rfl
@[simp] theorem State.jump_temp (target : Word) : (s.jump target).temp = s.temp := rfl
@[simp] theorem State.jump_resetLine (target : Word) : (s.jump target).resetLine = s.resetLine := rfl
@[simp] theorem State.jump_intLine (target : Word) : (s.jump target).intLine = s.intLine := rfl
@[simp] theorem State.jump_busByte (target : Word) : (s.jump target).busByte = s.busByte := rfl
@[simp] theorem State.jump_inputs (target : Word) : (s.jump target).inputs = s.inputs := rfl
@[simp] theorem State.jump_mem (target : Word) : (s.jump target).mem = s.mem := rfl
@[simp] theorem State.jump_ports (target : Word) : (s.jump target).ports = s.ports := rfl
@[simp] theorem State.jump_draws (target : Word) : (s.jump target).draws = s.draws := rfl

/-! ### `portRead` -/

@[simp] theorem State.portRead_a (port : Word) : (s.portRead port).a = s.a := rfl
@[simp] theorem State.portRead_f (port : Word) : (s.portRead port).f = s.f := rfl
@[simp] theorem State.portRead_b (port : Word) : (s.portRead port).b = s.b := rfl
@[simp] theorem State.portRead_c (port : Word) : (s.portRead port).c = s.c := rfl
@[simp] theorem State.portRead_d (port : Word) : (s.portRead port).d = s.d := rfl
@[simp] theorem State.portRead_e (port : Word) : (s.portRead port).e = s.e := rfl
@[simp] theorem State.portRead_h (port : Word) : (s.portRead port).h = s.h := rfl
@[simp] theorem State.portRead_l (port : Word) : (s.portRead port).l = s.l := rfl
@[simp] theorem State.portRead_a' (port : Word) : (s.portRead port).a' = s.a' := rfl
@[simp] theorem State.portRead_f' (port : Word) : (s.portRead port).f' = s.f' := rfl
@[simp] theorem State.portRead_b' (port : Word) : (s.portRead port).b' = s.b' := rfl
@[simp] theorem State.portRead_c' (port : Word) : (s.portRead port).c' = s.c' := rfl
@[simp] theorem State.portRead_d' (port : Word) : (s.portRead port).d' = s.d' := rfl
@[simp] theorem State.portRead_e' (port : Word) : (s.portRead port).e' = s.e' := rfl
@[simp] theorem State.portRead_h' (port : Word) : (s.portRead port).h' = s.h' := rfl
@[simp] theorem State.portRead_l' (port : Word) : (s.portRead port).l' = s.l' := rfl
@[simp] theorem State.portRead_ix (port : Word) : (s.portRead port).ix = s.ix := rfl
@[simp] theorem State.portRead_iy (port : Word) : (s.portRead port).iy = s.iy := rfl
@[simp] theorem State.portRead_sp (port : Word) : (s.portRead port).sp = s.sp := rfl
@[simp] theorem State.portRead_pc (port : Word) : (s.portRead port).pc = s.pc := rfl
@[simp] theorem State.portRead_i (port : Word) : (s.portRead port).i = s.i := rfl
@[simp] theorem State.portRead_r (port : Word) : (s.portRead port).r = s.r := rfl
@[simp] theorem State.portRead_iff1 (port : Word) : (s.portRead port).iff1 = s.iff1 := rfl
@[simp] theorem State.portRead_iff2 (port : Word) : (s.portRead port).iff2 = s.iff2 := rfl
@[simp] theorem State.portRead_im (port : Word) : (s.portRead port).im = s.im := rfl
@[simp] theorem State.portRead_halted (port : Word) : (s.portRead port).halted = s.halted := rfl
@[simp] theorem State.portRead_nmiPending (port : Word) : (s.portRead port).nmiPending = s.nmiPending := rfl
@[simp] theorem State.portRead_inhibit (port : Word) : (s.portRead port).inhibit = s.inhibit := rfl
@[simp] theorem State.portRead_temp (port : Word) : (s.portRead port).temp = s.temp := rfl
@[simp] theorem State.portRead_resetLine (port : Word) : (s.portRead port).resetLine = s.resetLine := rfl
@[simp] theorem State.portRead_intLine (port : Word) : (s.portRead port).intLine = s.intLine := rfl
@[simp] theorem State.portRead_busByte (port : Word) : (s.portRead port).busByte = s.busByte := rfl
@[simp] theorem State.portRead_inputs (port : Word) : (s.portRead port).inputs = s.inputs := rfl
@[simp] theorem State.portRead_mem (port : Word) : (s.portRead port).mem = s.mem := rfl
@[simp] theorem State.portRead_ports (port : Word) : (s.portRead port).ports = ⟨.input, port, s.portByte port⟩ :: s.ports := rfl
@[simp] theorem State.portRead_draws (port : Word) : (s.portRead port).draws = s.draws := rfl

/-! ### `portWrite` -/

@[simp] theorem State.portWrite_a (port : Word) (v : Byte) : (s.portWrite port v).a = s.a := rfl
@[simp] theorem State.portWrite_f (port : Word) (v : Byte) : (s.portWrite port v).f = s.f := rfl
@[simp] theorem State.portWrite_b (port : Word) (v : Byte) : (s.portWrite port v).b = s.b := rfl
@[simp] theorem State.portWrite_c (port : Word) (v : Byte) : (s.portWrite port v).c = s.c := rfl
@[simp] theorem State.portWrite_d (port : Word) (v : Byte) : (s.portWrite port v).d = s.d := rfl
@[simp] theorem State.portWrite_e (port : Word) (v : Byte) : (s.portWrite port v).e = s.e := rfl
@[simp] theorem State.portWrite_h (port : Word) (v : Byte) : (s.portWrite port v).h = s.h := rfl
@[simp] theorem State.portWrite_l (port : Word) (v : Byte) : (s.portWrite port v).l = s.l := rfl
@[simp] theorem State.portWrite_a' (port : Word) (v : Byte) : (s.portWrite port v).a' = s.a' := rfl
@[simp] theorem State.portWrite_f' (port : Word) (v : Byte) : (s.portWrite port v).f' = s.f' := rfl
@[simp] theorem State.portWrite_b' (port : Word) (v : Byte) : (s.portWrite port v).b' = s.b' := rfl
@[simp] theorem State.portWrite_c' (port : Word) (v : Byte) : (s.portWrite port v).c' = s.c' := rfl
@[simp] theorem State.portWrite_d' (port : Word) (v : Byte) : (s.portWrite port v).d' = s.d' := rfl
@[simp] theorem State.portWrite_e' (port : Word) (v : Byte) : (s.portWrite port v).e' = s.e' := rfl
@[simp] theorem State.portWrite_h' (port : Word) (v : Byte) : (s.portWrite port v).h' = s.h' := rfl
@[simp] theorem State.portWrite_l' (port : Word) (v : Byte) : (s.portWrite port v).l' = s.l' := rfl
@[simp] theorem State.portWrite_ix (port : Word) (v : Byte) : (s.portWrite port v).ix = s.ix := rfl
@[simp] theorem State.portWrite_iy (port : Word) (v : Byte) : (s.portWrite port v).iy = s.iy := rfl
@[simp] theorem State.portWrite_sp (port : Word) (v : Byte) : (s.portWrite port v).sp = s.sp := rfl
@[simp] theorem State.portWrite_pc (port : Word) (v : Byte) : (s.portWrite port v).pc = s.pc := rfl
@[simp] theorem State.portWrite_i (port : Word) (v : Byte) : (s.portWrite port v).i = s.i := rfl
@[simp] theorem State.portWrite_r (port : Word) (v : Byte) : (s.portWrite port v).r = s.r := rfl
@[simp] theorem State.portWrite_iff1 (port : Word) (v : Byte) : (s.portWrite port v).iff1 = s.iff1 := rfl
@[simp] theorem State.portWrite_iff2 (port : Word) (v : Byte) : (s.portWrite port v).iff2 = s.iff2 := rfl
@[simp] theorem State.portWrite_im (port : Word) (v : Byte) : (s.portWrite port v).im = s.im := rfl
@[simp] theorem State.portWrite_halted (port : Word) (v : Byte) : (s.portWrite port v).halted = s.halted := rfl
@[simp] theorem State.portWrite_nmiPending (port : Word) (v : Byte) : (s.portWrite port v).nmiPending = s.nmiPending := rfl
@[simp] theorem State.portWrite_inhibit (port : Word) (v : Byte) : (s.portWrite port v).inhibit = s.inhibit := rfl
@[simp] theorem State.portWrite_temp (port : Word) (v : Byte) : (s.portWrite port v).temp = s.temp := rfl
@[simp] theorem State.portWrite_resetLine (port : Word) (v : Byte) : (s.portWrite port v).resetLine = s.resetLine := rfl
@[simp] theorem State.portWrite_intLine (port : Word) (v : Byte) : (s.portWrite port v).intLine = s.intLine := rfl
@[simp] theorem State.portWrite_busByte (port : Word) (v : Byte) : (s.portWrite port v).busByte = s.busByte := rfl
@[simp] theorem State.portWrite_inputs (port : Word) (v : Byte) : (s.portWrite port v).inputs = s.inputs := rfl
@[simp] theorem State.portWrite_mem (port : Word) (v : Byte) : (s.portWrite port v).mem = s.mem := rfl
@[simp] theorem State.portWrite_ports (port : Word) (v : Byte) : (s.portWrite port v).ports = ⟨.output, port, v⟩ :: s.ports := rfl
@[simp] theorem State.portWrite_draws (port : Word) (v : Byte) : (s.portWrite port v).draws = s.draws := rfl

/-! ### `drawn` -/

@[simp] theorem State.drawn_a : (s.drawn).a = s.a := rfl
@[simp] theorem State.drawn_f : (s.drawn).f = s.f := rfl
@[simp] theorem State.drawn_b : (s.drawn).b = s.b := rfl
@[simp] theorem State.drawn_c : (s.drawn).c = s.c := rfl
@[simp] theorem State.drawn_d : (s.drawn).d = s.d := rfl
@[simp] theorem State.drawn_e : (s.drawn).e = s.e := rfl
@[simp] theorem State.drawn_h : (s.drawn).h = s.h := rfl
@[simp] theorem State.drawn_l : (s.drawn).l = s.l := rfl
@[simp] theorem State.drawn_a' : (s.drawn).a' = s.a' := rfl
@[simp] theorem State.drawn_f' : (s.drawn).f' = s.f' := rfl
@[simp] theorem State.drawn_b' : (s.drawn).b' = s.b' := rfl
@[simp] theorem State.drawn_c' : (s.drawn).c' = s.c' := rfl
@[simp] theorem State.drawn_d' : (s.drawn).d' = s.d' := rfl
@[simp] theorem State.drawn_e' : (s.drawn).e' = s.e' := rfl
@[simp] theorem State.drawn_h' : (s.drawn).h' = s.h' := rfl
@[simp] theorem State.drawn_l' : (s.drawn).l' = s.l' := rfl
@[simp] theorem State.drawn_ix : (s.drawn).ix = s.ix := rfl
@[simp] theorem State.drawn_iy : (s.drawn).iy = s.iy := rfl
@[simp] theorem State.drawn_sp : (s.drawn).sp = s.sp := rfl
@[simp] theorem State.drawn_pc : (s.drawn).pc = s.pc := rfl
@[simp] theorem State.drawn_i : (s.drawn).i = s.i := rfl
@[simp] theorem State.drawn_r : (s.drawn).r = s.r := rfl
@[simp] theorem State.drawn_iff1 : (s.drawn).iff1 = s.iff1 := rfl
@[simp] theorem State.drawn_iff2 : (s.drawn).iff2 = s.iff2 := rfl
@[simp] theorem State.drawn_im : (s.drawn).im = s.im := rfl
@[simp] theorem State.drawn_halted : (s.drawn).halted = s.halted := rfl
@[simp] theorem State.drawn_nmiPending : (s.drawn).nmiPending = s.nmiPending := rfl
@[simp] theorem State.drawn_inhibit : (s.drawn).inhibit = s.inhibit := rfl
@[simp] theorem State.drawn_temp : (s.drawn).temp = s.temp := rfl
@[simp] theorem State.drawn_resetLine : (s.drawn).resetLine = s.resetLine := rfl
@[simp] theorem State.drawn_intLine : (s.drawn).intLine = s.intLine := rfl
@[simp] theorem State.drawn_busByte : (s.drawn).busByte = s.busByte := rfl
@[simp] theorem State.drawn_inputs : (s.drawn).inputs = s.inputs := rfl
@[simp] theorem State.drawn_mem : (s.drawn).mem = s.mem := rfl
@[simp] theorem State.drawn_ports : (s.drawn).ports = s.ports := rfl
@[simp] theorem State.drawn_draws : (s.drawn).draws = s.draws + 1 := rfl

/-! ### `setBc` -/

@[simp] theorem State.setBc_a (w : Word) : (s.setBc w).a = s.a := rfl
@[simp] theorem State.setBc_f (w : Word) : (s.setBc w).f = s.f := rfl
@[simp] theorem State.setBc_b (w : Word) : (s.setBc w).b = hi w := rfl
@[simp] theorem State.setBc_c (w : Word) : (s.setBc w).c = lo w := rfl
@[simp] theorem State.setBc_d (w : Word) : (s.setBc w).d = s.d := rfl
@[simp] theorem State.setBc_e (w : Word) : (s.setBc w).e = s.e := rfl
@[simp] theorem State.setBc_h (w : Word) : (s.setBc w).h = s.h := rfl
@[simp] theorem State.setBc_l (w : Word) : (s.setBc w).l = s.l := rfl
@[simp] theorem State.setBc_a' (w : Word) : (s.setBc w).a' = s.a' := rfl
@[simp] theorem State.setBc_f' (w : Word) : (s.setBc w).f' = s.f' := rfl
@[simp] theorem State.setBc_b' (w : Word) : (s.setBc w).b' = s.b' := rfl
@[simp] theorem State.setBc_c' (w : Word) : (s.setBc w).c' = s.c' := rfl
@[simp] theorem State.setBc_d' (w : Word) : (s.setBc w).d' = s.d' := rfl
@[simp] theorem State.setBc_e' (w : Word) : (s.setBc w).e' = s.e' := rfl
@[simp] theorem State.setBc_h' (w : Word) : (s.setBc w).h' = s.h' := rfl
@[simp] theorem State.setBc_l' (w : Word) : (s.setBc w).l' = s.l' := rfl
@[simp] theorem State.setBc_ix (w : Word) : (s.setBc w).ix = s.ix := rfl
@[simp] theorem State.setBc_iy (w : Word) : (s.setBc w).iy = s.iy := rfl
@[simp] theorem State.setBc_sp (w : Word) : (s.setBc w).sp = s.sp := rfl
@[simp] theorem State.setBc_pc (w : Word) : (s.setBc w).pc = s.pc := rfl
@[simp] theorem State.setBc_i (w : Word) : (s.setBc w).i = s.i := rfl
@[simp] theorem State.setBc_r (w : Word) : (s.setBc w).r = s.r := rfl
@[simp] theorem State.setBc_iff1 (w : Word) : (s.setBc w).iff1 = s.iff1 := rfl
@[simp] theorem State.setBc_iff2 (w : Word) : (s.setBc w).iff2 = s.iff2 := rfl
@[simp] theorem State.setBc_im (w : Word) : (s.setBc w).im = s.im := rfl
@[simp] theorem State.setBc_halted (w : Word) : (s.setBc w).halted = s.halted := rfl
@[simp] theorem State.setBc_nmiPending (w : Word) : (s.setBc w).nmiPending = s.nmiPending := rfl
@[simp] theorem State.setBc_inhibit (w : Word) : (s.setBc w).inhibit = s.inhibit := rfl
@[simp] theorem State.setBc_temp (w : Word) : (s.setBc w).temp = s.temp := rfl
@[simp] theorem State.setBc_resetLine (w : Word) : (s.setBc w).resetLine = s.resetLine := rfl
@[simp] theorem State.setBc_intLine (w : Word) : (s.setBc w).intLine = s.intLine := rfl
@[simp] theorem State.setBc_busByte (w : Word) : (s.setBc w).busByte = s.busByte := rfl
@[simp] theorem State.setBc_inputs (w : Word) : (s.setBc w).inputs = s.inputs := rfl
@[simp] theorem State.setBc_mem (w : Word) : (s.setBc w).mem = s.mem := rfl
@[simp] theorem State.setBc_ports (w : Word) : (s.setBc w).ports = s.ports := rfl
@[simp] theorem State.setBc_draws (w : Word) : (s.setBc w).draws = s.draws := rfl

/-! ### `setDe` -/

@[simp] theorem State.setDe_a (w : Word) : (s.setDe w).a = s.a := rfl
@[simp] theorem State.setDe_f (w : Word) : (s.setDe w).f = s.f := rfl
@[simp] theorem State.setDe_b (w : Word) : (s.setDe w).b = s.b := rfl
@[simp] theorem State.setDe_c (w : Word) : (s.setDe w).c = s.c := rfl
@[simp] theorem State.setDe_d (w : Word) : (s.setDe w).d = hi w := rfl
@[simp] theorem State.setDe_e (w : Word) : (s.setDe w).e = lo w := rfl
@[simp] theorem State.setDe_h (w : Word) : (s.setDe w).h = s.h := rfl
@[simp] theorem State.setDe_l (w : Word) : (s.setDe w).l = s.l := rfl
@[simp] theorem State.setDe_a' (w : Word) : (s.setDe w).a' = s.a' := rfl
@[simp] theorem State.setDe_f' (w : Word) : (s.setDe w).f' = s.f' := rfl
@[simp] theorem State.setDe_b' (w : Word) : (s.setDe w).b' = s.b' := rfl
@[simp] theorem State.setDe_c' (w : Word) : (s.setDe w).c' = s.c' := rfl
@[simp] theorem State.setDe_d' (w : Word) : (s.setDe w).d' = s.d' := rfl
@[simp] theorem State.setDe_e' (w : Word) : (s.setDe w).e' = s.e' := rfl
@[simp] theorem State.setDe_h' (w : Word) : (s.setDe w).h' = s.h' := rfl
@[simp] theorem State.setDe_l' (w : Word) : (s.setDe w).l' = s.l' := rfl
@[simp] theorem State.setDe_ix (w : Word) : (s.setDe w).ix = s.ix := rfl
@[simp] theorem State.setDe_iy (w : Word) : (s.setDe w).iy = s.iy := rfl
@[simp] theorem State.setDe_sp (w : Word) : (s.setDe w).sp = s.sp := rfl
@[simp] theorem State.setDe_pc (w : Word) : (s.setDe w).pc = s.pc := rfl
@[simp] theorem State.setDe_i (w : Word) : (s.setDe w).i = s.i := rfl
@[simp] theorem State.setDe_r (w : Word) : (s.setDe w).r = s.r := rfl
@[simp] theorem State.setDe_iff1 (w : Word) : (s.setDe w).iff1 = s.iff1 := rfl
@[simp] theorem State.setDe_iff2 (w : Word) : (s.setDe w).iff2 = s.iff2 := rfl
@[simp] theorem State.setDe_im (w : Word) : (s.setDe w).im = s.im := rfl
@[simp] theorem State.setDe_halted (w : Word) : (s.setDe w).halted = s.halted := rfl
@[simp] theorem State.setDe_nmiPending (w : Word) : (s.setDe w).nmiPending = s.nmiPending := rfl
@[simp] theorem State.setDe_inhibit (w : Word) : (s.setDe w).inhibit = s.inhibit := rfl
@[simp] theorem State.setDe_temp (w : Word) : (s.setDe w).temp = s.temp := rfl
@[simp] theorem State.setDe_resetLine (w : Word) : (s.setDe w).resetLine = s.resetLine := rfl
@[simp] theorem State.setDe_intLine (w : Word) : (s.setDe w).intLine = s.intLine := rfl
@[simp] theorem State.setDe_busByte (w : Word) : (s.setDe w).busByte = s.busByte := rfl
@[simp] theorem State.setDe_inputs (w : Word) : (s.setDe w).inputs = s.inputs := rfl
@[simp] theorem State.setDe_mem (w : Word) : (s.setDe w).mem = s.mem := rfl
@[simp] theorem State.setDe_ports (w : Word) : (s.setDe w).ports = s.ports := rfl
@[simp] theorem State.setDe_draws (w : Word) : (s.setDe w).draws = s.draws := rfl

/-! ### `setHl` -/

@[simp] theorem State.setHl_a (w : Word) : (s.setHl w).a = s.a := rfl
@[simp] theorem State.setHl_f (w : Word) : (s.setHl w).f = s.f := rfl
@[simp] theorem State.setHl_b (w : Word) : (s.setHl w).b = s.b := rfl
@[simp] theorem State.setHl_c (w : Word) : (s.setHl w).c = s.c := rfl
@[simp] theorem State.setHl_d (w : Word) : (s.setHl w).d = s.d := rfl
@[simp] theorem State.setHl_e (w : Word) : (s.setHl w).e = s.e := rfl
@[simp] theorem State.setHl_h (w : Word) : (s.setHl w).h = hi w := rfl
@[simp] theorem State.setHl_l (w : Word) : (s.setHl w).l = lo w := rfl
@[simp] theorem State.setHl_a' (w : Word) : (s.setHl w).a' = s.a' := rfl
@[simp] theorem State.setHl_f' (w : Word) : (s.setHl w).f' = s.f' := rfl
@[simp] theorem State.setHl_b' (w : Word) : (s.setHl w).b' = s.b' := rfl
@[simp] theorem State.setHl_c' (w : Word) : (s.setHl w).c' = s.c' := rfl
@[simp] theorem State.setHl_d' (w : Word) : (s.setHl w).d' = s.d' := rfl
@[simp] theorem State.setHl_e' (w : Word) : (s.setHl w).e' = s.e' := rfl
@[simp] theorem State.setHl_h' (w : Word) : (s.setHl w).h' = s.h' := rfl
@[simp] theorem State.setHl_l' (w : Word) : (s.setHl w).l' = s.l' := rfl
@[simp] theorem State.setHl_ix (w : Word) : (s.setHl w).ix = s.ix := rfl
@[simp] theorem State.setHl_iy (w : Word) : (s.setHl w).iy = s.iy := rfl
@[simp] theorem State.setHl_sp (w : Word) : (s.setHl w).sp = s.sp := rfl
@[simp] theorem State.setHl_pc (w : Word) : (s.setHl w).pc = s.pc := rfl
@[simp] theorem State.setHl_i (w : Word) : (s.setHl w).i = s.i := rfl
@[simp] theorem State.setHl_r (w : Word) : (s.setHl w).r = s.r := rfl
@[simp] theorem State.setHl_iff1 (w : Word) : (s.setHl w).iff1 = s.iff1 := rfl
@[simp] theorem State.setHl_iff2 (w : Word) : (s.setHl w).iff2 = s.iff2 := rfl
@[simp] theorem State.setHl_im (w : Word) : (s.setHl w).im = s.im := rfl
@[simp] theorem State.setHl_halted (w : Word) : (s.setHl w).halted = s.halted := rfl
@[simp] theorem State.setHl_nmiPending (w : Word) : (s.setHl w).nmiPending = s.nmiPending := rfl
@[simp] theorem State.setHl_inhibit (w : Word) : (s.setHl w).inhibit = s.inhibit := rfl
@[simp] theorem State.setHl_temp (w : Word) : (s.setHl w).temp = s.temp := rfl
@[simp] theorem State.setHl_resetLine (w : Word) : (s.setHl w).resetLine = s.resetLine := rfl
@[simp] theorem State.setHl_intLine (w : Word) : (s.setHl w).intLine = s.intLine := rfl
@[simp] theorem State.setHl_busByte (w : Word) : (s.setHl w).busByte = s.busByte := rfl
@[simp] theorem State.setHl_inputs (w : Word) : (s.setHl w).inputs = s.inputs := rfl
@[simp] theorem State.setHl_mem (w : Word) : (s.setHl w).mem = s.mem := rfl
@[simp] theorem State.setHl_ports (w : Word) : (s.setHl w).ports = s.ports := rfl
@[simp] theorem State.setHl_draws (w : Word) : (s.setHl w).draws = s.draws := rfl

/-! ### `setAf` -/

@[simp] theorem State.setAf_a (w : Word) : (s.setAf w).a = hi w := rfl
@[simp] theorem State.setAf_f (w : Word) : (s.setAf w).f = lo w := rfl
@[simp] theorem State.setAf_b (w : Word) : (s.setAf w).b = s.b := rfl
@[simp] theorem State.setAf_c (w : Word) : (s.setAf w).c = s.c := rfl
@[simp] theorem State.setAf_d (w : Word) : (s.setAf w).d = s.d := rfl
@[simp] theorem State.setAf_e (w : Word) : (s.setAf w).e = s.e := rfl
@[simp] theorem State.setAf_h (w : Word) : (s.setAf w).h = s.h := rfl
@[simp] theorem State.setAf_l (w : Word) : (s.setAf w).l = s.l := rfl
@[simp] theorem State.setAf_a' (w : Word) : (s.setAf w).a' = s.a' := rfl
@[simp] theorem State.setAf_f' (w : Word) : (s.setAf w).f' = s.f' := rfl
@[simp] theorem State.setAf_b' (w : Word) : (s.setAf w).b' = s.b' := rfl
@[simp] theorem State.setAf_c' (w : Word) : (s.setAf w).c' = s.c' := rfl
@[simp] theorem State.setAf_d' (w : Word) : (s.setAf w).d' = s.d' := rfl
@[simp] theorem State.setAf_e' (w : Word) : (s.setAf w).e' = s.e' := rfl
@[simp] theorem State.setAf_h' (w : Word) : (s.setAf w).h' = s.h' := rfl
@[simp] theorem State.setAf_l' (w : Word) : (s.setAf w).l' = s.l' := rfl
@[simp] theorem State.setAf_ix (w : Word) : (s.setAf w).ix = s.ix := rfl
@[simp] theorem State.setAf_iy (w : Word) : (s.setAf w).iy = s.iy := rfl
@[simp] theorem State.setAf_sp (w : Word) : (s.setAf w).sp = s.sp := rfl
@[simp] theorem State.setAf_pc (w : Word) : (s.setAf w).pc = s.pc := rfl
@[simp] theorem State.setAf_i (w : Word) : (s.setAf w).i = s.i := rfl
@[simp] theorem State.setAf_r (w : Word) : (s.setAf w).r = s.r := rfl
@[simp] theorem State.setAf_iff1 (w : Word) : (s.setAf w).iff1 = s.iff1 := rfl
@[simp] theorem State.setAf_iff2 (w : Word) : (s.setAf w).iff2 = s.iff2 := rfl
@[simp] theorem State.setAf_im (w : Word) : (s.setAf w).im = s.im := rfl
@[simp] theorem State.setAf_halted (w : Word) : (s.setAf w).halted = s.halted := rfl
@[simp] theorem State.setAf_nmiPending (w : Word) : (s.setAf w).nmiPending = s.nmiPending := rfl
@[simp] theorem State.setAf_inhibit (w : Word) : (s.setAf w).inhibit = s.inhibit := rfl
@[simp] theorem State.setAf_temp (w : Word) : (s.setAf w).temp = s.temp := rfl
@[simp] theorem State.setAf_resetLine (w : Word) : (s.setAf w).resetLine = s.resetLine := rfl
@[simp] theorem State.setAf_intLine (w : Word) : (s.setAf w).intLine = s.intLine := rfl
@[simp] theorem State.setAf_busByte (w : Word) : (s.setAf w).busByte = s.busByte := rfl
@[simp] theorem State.setAf_inputs (w : Word) : (s.setAf w).inputs = s.inputs := rfl
@[simp] theorem State.setAf_mem (w : Word) : (s.setAf w).mem = s.mem := rfl
@[simp] theorem State.setAf_ports (w : Word) : (s.setAf w).ports = s.ports := rfl
@[simp] theorem State.setAf_draws (w : Word) : (s.setAf w).draws = s.draws := rfl

/-! ### `setAF` -/

@[simp] theorem State.setAF_a (vf : Byte × Byte) : (s.setAF vf).a = vf.1 := rfl
@[simp] theorem State.setAF_f (vf : Byte × Byte) : (s.setAF vf).f = vf.2 := rfl
@[simp] theorem State.setAF_b (vf : Byte × Byte) : (s.setAF vf).b = s.b := rfl
@[simp] theorem State.setAF_c (vf : Byte × Byte) : (s.setAF vf).c = s.c := rfl
@[simp] theorem State.setAF_d (vf : Byte × Byte) : (s.setAF vf).d = s.d := rfl
@[simp] theorem State.setAF_e (vf : Byte × Byte) : (s.setAF vf).e = s.e := rfl
@[simp] theorem State.setAF_h (vf : Byte × Byte) : (s.setAF vf).h = s.h := rfl
@[simp] theorem State.setAF_l (vf : Byte × Byte) : (s.setAF vf).l = s.l := rfl
@[simp] theorem State.setAF_a' (vf : Byte × Byte) : (s.setAF vf).a' = s.a' := rfl
@[simp] theorem State.setAF_f' (vf : Byte × Byte) : (s.setAF vf).f' = s.f' := rfl
@[simp] theorem State.setAF_b' (vf : Byte × Byte) : (s.setAF vf).b' = s.b' := rfl
@[simp] theorem State.setAF_c' (vf : Byte × Byte) : (s.setAF vf).c' = s.c' := rfl
@[simp] theorem State.setAF_d' (vf : Byte × Byte) : (s.setAF vf).d' = s.d' := rfl
@[simp] theorem State.setAF_e' (vf : Byte × Byte) : (s.setAF vf).e' = s.e' := rfl
@[simp] theorem State.setAF_h' (vf : Byte × Byte) : (s.setAF vf).h' = s.h' := rfl
@[simp] theorem State.setAF_l' (vf : Byte × Byte) : (s.setAF vf).l' = s.l' := rfl
@[simp] theorem State.setAF_ix (vf : Byte × Byte) : (s.setAF vf).ix = s.ix := rfl
@[simp] theorem State.setAF_iy (vf : Byte × Byte) : (s.setAF vf).iy = s.iy := rfl
@[simp] theorem State.setAF_sp (vf : Byte × Byte) : (s.setAF vf).sp = s.sp := rfl
@[simp] theorem State.setAF_pc (vf : Byte × Byte) : (s.setAF vf).pc = s.pc := rfl
@[simp] theorem State.setAF_i (vf : Byte × Byte) : (s.setAF vf).i = s.i := rfl
@[simp] theorem State.setAF_r (vf : Byte × Byte) : (s.setAF vf).r = s.r := rfl
@[simp] theorem State.setAF_iff1 (vf : Byte × Byte) : (s.setAF vf).iff1 = s.iff1 := rfl
@[simp] theorem State.setAF_iff2 (vf : Byte × Byte) : (s.setAF vf).iff2 = s.iff2 := rfl
@[simp] theorem State.setAF_im (vf : Byte × Byte) : (s.setAF vf).im = s.im := rfl
@[simp] theorem State.setAF_halted (vf : Byte × Byte) : (s.setAF vf).halted = s.halted := rfl
@[simp] theorem State.setAF_nmiPending (vf : Byte × Byte) : (s.setAF vf).nmiPending = s.nmiPending := rfl
@[simp] theorem State.setAF_inhibit (vf : Byte × Byte) : (s.setAF vf).inhibit = s.inhibit := rfl
@[simp] theorem State.setAF_temp (vf : Byte × Byte) : (s.setAF vf).temp = s.temp := rfl
@[simp] theorem State.setAF_resetLine (vf : Byte × Byte) : (s.setAF vf).resetLine = s.resetLine := rfl
@[simp] theorem State.setAF_intLine (vf : Byte × Byte) : (s.setAF vf).intLine = s.intLine := rfl
@[simp] theorem State.setAF_busByte (vf : Byte × Byte) : (s.setAF vf).busByte = s.busByte := rfl
@[simp] theorem State.setAF_inputs (vf : Byte × Byte) : (s.setAF vf).inputs = s.inputs := rfl
@[simp] theorem State.setAF_mem (vf : Byte × Byte) : (s.setAF vf).mem = s.mem := rfl
@[simp] theorem State.setAF_ports (vf : Byte × Byte) : (s.setAF vf).ports = s.ports := rfl
@[simp] theorem State.setAF_draws (vf : Byte × Byte) : (s.setAF vf).draws = s.draws := rfl

/-! ### `setHlF` -/

@[simp] theorem State.setHlF_a (wf : Word × Byte) : (s.setHlF wf).a = s.a := rfl
@[simp] theorem State.setHlF_f (wf : Word × Byte) : (s.setHlF wf).f = wf.2 := rfl
@[simp] theorem State.setHlF_b (wf : Word × Byte) : (s.setHlF wf).b = s.b := rfl
@[simp] theorem State.setHlF_c (wf : Word × Byte) : (s.setHlF wf).c = s.c := rfl
@[simp] theorem State.setHlF_d (wf : Word × Byte) : (s.setHlF wf).d = s.d := rfl
@[simp] theorem State.setHlF_e (wf : Word × Byte) : (s.setHlF wf).e = s.e := rfl
@[simp] theorem State.setHlF_h (wf : Word × Byte) : (s.setHlF wf).h = hi wf.1 := rfl
@[simp] theorem State.setHlF_l (wf : Word × Byte) : (s.setHlF wf).l = lo wf.1 := rfl
@[simp] theorem State.setHlF_a' (wf : Word × Byte) : (s.setHlF wf).a' = s.a' := rfl
@[simp] theorem State.setHlF_f' (wf : Word × Byte) : (s.setHlF wf).f' = s.f' := rfl
@[simp] theorem State.setHlF_b' (wf : Word × Byte) : (s.setHlF wf).b' = s.b' := rfl
@[simp] theorem State.setHlF_c' (wf : Word × Byte) : (s.setHlF wf).c' = s.c' := rfl
@[simp] theorem State.setHlF_d' (wf : Word × Byte) : (s.setHlF wf).d' = s.d' := rfl
@[simp] theorem State.setHlF_e' (wf : Word × Byte) : (s.setHlF wf).e' = s.e' := rfl
@[simp] theorem State.setHlF_h' (wf : Word × Byte) : (s.setHlF wf).h' = s.h' := rfl
@[simp] theorem State.setHlF_l' (wf : Word × Byte) : (s.setHlF wf).l' = s.l' := rfl
@[simp] theorem State.setHlF_ix (wf : Word × Byte) : (s.setHlF wf).ix = s.ix := rfl
@[simp] theorem State.setHlF_iy (wf : Word × Byte) : (s.setHlF wf).iy = s.iy := rfl
@[simp] theorem State.setHlF_sp (wf : Word × Byte) : (s.setHlF wf).sp = s.sp := rfl
@[simp] theorem State.setHlF_pc (wf : Word × Byte) : (s.setHlF wf).pc = s.pc := rfl
@[simp] theorem State.setHlF_i (wf : Word × Byte) : (s.setHlF wf).i = s.i := rfl
@[simp] theorem State.setHlF_r (wf : Word × Byte) : (s.setHlF wf).r = s.r := rfl
@[simp] theorem State.setHlF_iff1 (wf : Word × Byte) : (s.setHlF wf).iff1 = s.iff1 := rfl
@[simp] theorem State.setHlF_iff2 (wf : Word × Byte) : (s.setHlF wf).iff2 = s.iff2 := rfl
@[simp] theorem State.setHlF_im (wf : Word × Byte) : (s.setHlF wf).im = s.im := rfl
@[simp] theorem State.setHlF_halted (wf : Word × Byte) : (s.setHlF wf).halted = s.halted := rfl
@[simp] theorem State.setHlF_nmiPending (wf : Word × Byte) : (s.setHlF wf).nmiPending = s.nmiPending := rfl
@[simp] theorem State.setHlF_inhibit (wf : Word × Byte) : (s.setHlF wf).inhibit = s.inhibit := rfl
@[simp] theorem State.setHlF_temp (wf : Word × Byte) : (s.setHlF wf).temp = s.temp := rfl
@[simp] theorem State.setHlF_resetLine (wf : Word × Byte) : (s.setHlF wf).resetLine = s.resetLine := rfl
@[simp] theorem State.setHlF_intLine (wf : Word × Byte) : (s.setHlF wf).intLine = s.intLine := rfl
@[simp] theorem State.setHlF_busByte (wf : Word × Byte) : (s.setHlF wf).busByte = s.busByte := rfl
@[simp] theorem State.setHlF_inputs (wf : Word × Byte) : (s.setHlF wf).inputs = s.inputs := rfl
@[simp] theorem State.setHlF_mem (wf : Word × Byte) : (s.setHlF wf).mem = s.mem := rfl
@[simp] theorem State.setHlF_ports (wf : Word × Byte) : (s.setHlF wf).ports = s.ports := rfl
@[simp] theorem State.setHlF_draws (wf : Word × Byte) : (s.setHlF wf).draws = s.draws := rfl

/-! ### `clearInhibit` -/

@[simp] theorem State.clearInhibit_a : (s.clearInhibit).a = s.a := rfl
@[simp] theorem State.clearInhibit_f : (s.clearInhibit).f = s.f := rfl
@[simp] theorem State.clearInhibit_b : (s.clearInhibit).b = s.b := rfl
@[simp] theorem State.clearInhibit_c : (s.clearInhibit).c = s.c := rfl
@[simp] theorem State.clearInhibit_d : (s.clearInhibit).d = s.d := rfl
@[simp] theorem State.clearInhibit_e : (s.clearInhibit).e = s.e := rfl
@[simp] theorem State.clearInhibit_h : (s.clearInhibit).h = s.h := rfl
@[simp] theorem State.clearInhibit_l : (s.clearInhibit).l = s.l := rfl
@[simp] theorem State.clearInhibit_a' : (s.clearInhibit).a' = s.a' := rfl
@[simp] theorem State.clearInhibit_f' : (s.clearInhibit).f' = s.f' := rfl
@[simp] theorem State.clearInhibit_b' : (s.clearInhibit).b' = s.b' := rfl
@[simp] theorem State.clearInhibit_c' : (s.clearInhibit).c' = s.c' := rfl
@[simp] theorem State.clearInhibit_d' : (s.clearInhibit).d' = s.d' := rfl
@[simp] theorem State.clearInhibit_e' : (s.clearInhibit).e' = s.e' := rfl
@[simp] theorem State.clearInhibit_h' : (s.clearInhibit).h' = s.h' := rfl
@[simp] theorem State.clearInhibit_l' : (s.clearInhibit).l' = s.l' := rfl
@[simp] theorem State.clearInhibit_ix : (s.clearInhibit).ix = s.ix := rfl
@[simp] theorem State.clearInhibit_iy : (s.clearInhibit).iy = s.iy := rfl
@[simp] theorem State.clearInhibit_sp : (s.clearInhibit).sp = s.sp := rfl
@[simp] theorem State.clearInhibit_pc : (s.clearInhibit).pc = s.pc := rfl
@[simp] theorem State.clearInhibit_i : (s.clearInhibit).i = s.i := rfl
@[simp] theorem State.clearInhibit_r : (s.clearInhibit).r = s.r := rfl
@[simp] theorem State.clearInhibit_iff1 : (s.clearInhibit).iff1 = s.iff1 := rfl
@[simp] theorem State.clearInhibit_iff2 : (s.clearInhibit).iff2 = s.iff2 := rfl
@[simp] theorem State.clearInhibit_im : (s.clearInhibit).im = s.im := rfl
@[simp] theorem State.clearInhibit_halted : (s.clearInhibit).halted = s.halted := rfl
@[simp] theorem State.clearInhibit_nmiPending : (s.clearInhibit).nmiPending = s.nmiPending := rfl
@[simp] theorem State.clearInhibit_inhibit : (s.clearInhibit).inhibit = false := rfl
@[simp] theorem State.clearInhibit_temp : (s.clearInhibit).temp = s.temp := rfl
@[simp] theorem State.clearInhibit_resetLine : (s.clearInhibit).resetLine = s.resetLine := rfl
@[simp] theorem State.clearInhibit_intLine : (s.clearInhibit).intLine = s.intLine := rfl
@[simp] theorem State.clearInhibit_busByte : (s.clearInhibit).busByte = s.busByte := rfl
@[simp] theorem State.clearInhibit_inputs : (s.clearInhibit).inputs = s.inputs := rfl
@[simp] theorem State.clearInhibit_mem : (s.clearInhibit).mem = s.mem := rfl
@[simp] theorem State.clearInhibit_ports : (s.clearInhibit).ports = s.ports := rfl
@[simp] theorem State.clearInhibit_draws : (s.clearInhibit).draws = s.draws := rfl

/-! ### `haltedStep` -/

@[simp] theorem State.haltedStep_a : (s.haltedStep).a = s.a := rfl
@[simp] theorem State.haltedStep_f : (s.haltedStep).f = s.f := rfl
@[simp] theorem State.haltedStep_b : (s.haltedStep).b = s.b := rfl
@[simp] theorem State.haltedStep_c : (s.haltedStep).c = s.c := rfl
@[simp] theorem State.haltedStep_d : (s.haltedStep).d = s.d := rfl
@[simp] theorem State.haltedStep_e : (s.haltedStep).e = s.e := rfl
@[simp] theorem State.haltedStep_h : (s.haltedStep).h = s.h := rfl
@[simp] theorem State.haltedStep_l : (s.haltedStep).l = s.l := rfl
@[simp] theorem State.haltedStep_a' : (s.haltedStep).a' = s.a' := rfl
@[simp] theorem State.haltedStep_f' : (s.haltedStep).f' = s.f' := rfl
@[simp] theorem State.haltedStep_b' : (s.haltedStep).b' = s.b' := rfl
@[simp] theorem State.haltedStep_c' : (s.haltedStep).c' = s.c' := rfl
@[simp] theorem State.haltedStep_d' : (s.haltedStep).d' = s.d' := rfl
@[simp] theorem State.haltedStep_e' : (s.haltedStep).e' = s.e' := rfl
@[simp] theorem State.haltedStep_h' : (s.haltedStep).h' = s.h' := rfl
@[simp] theorem State.haltedStep_l' : (s.haltedStep).l' = s.l' := rfl
@[simp] theorem State.haltedStep_ix : (s.haltedStep).ix = s.ix := rfl
@[simp] theorem State.haltedStep_iy : (s.haltedStep).iy = s.iy := rfl
@[simp] theorem State.haltedStep_sp : (s.haltedStep).sp = s.sp := rfl
@[simp] theorem State.haltedStep_pc : (s.haltedStep).pc = s.pc := rfl
@[simp] theorem State.haltedStep_i : (s.haltedStep).i = s.i := rfl
@[simp] theorem State.haltedStep_r : (s.haltedStep).r = (s.countR 1).r := rfl
@[simp] theorem State.haltedStep_iff1 : (s.haltedStep).iff1 = s.iff1 := rfl
@[simp] theorem State.haltedStep_iff2 : (s.haltedStep).iff2 = s.iff2 := rfl
@[simp] theorem State.haltedStep_im : (s.haltedStep).im = s.im := rfl
@[simp] theorem State.haltedStep_halted : (s.haltedStep).halted = s.halted := rfl
@[simp] theorem State.haltedStep_nmiPending : (s.haltedStep).nmiPending = s.nmiPending := rfl
@[simp] theorem State.haltedStep_inhibit : (s.haltedStep).inhibit = s.inhibit := rfl
@[simp] theorem State.haltedStep_temp : (s.haltedStep).temp = s.temp := rfl
@[simp] theorem State.haltedStep_resetLine : (s.haltedStep).resetLine = s.resetLine := rfl
@[simp] theorem State.haltedStep_intLine : (s.haltedStep).intLine = s.intLine := rfl
@[simp] theorem State.haltedStep_busByte : (s.haltedStep).busByte = s.busByte := rfl
@[simp] theorem State.haltedStep_inputs : (s.haltedStep).inputs = s.inputs := rfl
@[simp] theorem State.haltedStep_mem : (s.haltedStep).mem = s.mem := rfl
@[simp] theorem State.haltedStep_ports : (s.haltedStep).ports = s.ports := rfl
@[simp] theorem State.haltedStep_draws : (s.haltedStep).draws = s.draws := rfl

/-! ### `ret` -/

@[simp] theorem State.ret_a : (s.ret).a = s.a := rfl
@[simp] theorem State.ret_f : (s.ret).f = s.f := rfl
@[simp] theorem State.ret_b : (s.ret).b = s.b := rfl
@[simp] theorem State.ret_c : (s.ret).c = s.c := rfl
@[simp] theorem State.ret_d : (s.ret).d = s.d := rfl
@[simp] theorem State.ret_e : (s.ret).e = s.e := rfl
@[simp] theorem State.ret_h : (s.ret).h = s.h := rfl
@[simp] theorem State.ret_l : (s.ret).l = s.l := rfl
@[simp] theorem State.ret_a' : (s.ret).a' = s.a' := rfl
@[simp] theorem State.ret_f' : (s.ret).f' = s.f' := rfl
@[simp] theorem State.ret_b' : (s.ret).b' = s.b' := rfl
@[simp] theorem State.ret_c' : (s.ret).c' = s.c' := rfl
@[simp] theorem State.ret_d' : (s.ret).d' = s.d' := rfl
@[simp] theorem State.ret_e' : (s.ret).e' = s.e' := rfl
@[simp] theorem State.ret_h' : (s.ret).h' = s.h' := rfl
@[simp] theorem State.ret_l' : (s.ret).l' = s.l' := rfl
@[simp] theorem State.ret_ix : (s.ret).ix = s.ix := rfl
@[simp] theorem State.ret_iy : (s.ret).iy = s.iy := rfl
@[simp] theorem State.ret_sp : (s.ret).sp = s.sp + 2 := rfl
@[simp] theorem State.ret_pc : (s.ret).pc = s.topOfStack := rfl
@[simp] theorem State.ret_i : (s.ret).i = s.i := rfl
@[simp] theorem State.ret_r : (s.ret).r = s.r := rfl
@[simp] theorem State.ret_iff1 : (s.ret).iff1 = s.iff1 := rfl
@[simp] theorem State.ret_iff2 : (s.ret).iff2 = s.iff2 := rfl
@[simp] theorem State.ret_im : (s.ret).im = s.im := rfl
@[simp] theorem State.ret_halted : (s.ret).halted = s.halted := rfl
@[simp] theorem State.ret_nmiPending : (s.ret).nmiPending = s.nmiPending := rfl
@[simp] theorem State.ret_inhibit : (s.ret).inhibit = s.inhibit := rfl
@[simp] theorem State.ret_temp : (s.ret).temp = s.temp := rfl
@[simp] theorem State.ret_resetLine : (s.ret).resetLine = s.resetLine := rfl
@[simp] theorem State.ret_intLine : (s.ret).intLine = s.intLine := rfl
@[simp] theorem State.ret_busByte : (s.ret).busByte = s.busByte := rfl
@[simp] theorem State.ret_inputs : (s.ret).inputs = s.inputs := rfl
@[simp] theorem State.ret_mem : (s.ret).mem = s.mem := rfl
@[simp] theorem State.ret_ports : (s.ret).ports = s.ports := rfl
@[simp] theorem State.ret_draws : (s.ret).draws = s.draws := rfl

/-! ### `call` -/

@[simp] theorem State.call_a (target : Word) : (s.call target).a = s.a := rfl
@[simp] theorem State.call_f (target : Word) : (s.call target).f = s.f := rfl
@[simp] theorem State.call_b (target : Word) : (s.call target).b = s.b := rfl
@[simp] theorem State.call_c (target : Word) : (s.call target).c = s.c := rfl
@[simp] theorem State.call_d (target : Word) : (s.call target).d = s.d := rfl
@[simp] theorem State.call_e (target : Word) : (s.call target).e = s.e := rfl
@[simp] theorem State.call_h (target : Word) : (s.call target).h = s.h := rfl
@[simp] theorem State.call_l (target : Word) : (s.call target).l = s.l := rfl
@[simp] theorem State.call_a' (target : Word) : (s.call target).a' = s.a' := rfl
@[simp] theorem State.call_f' (target : Word) : (s.call target).f' = s.f' := rfl
@[simp] theorem State.call_b' (target : Word) : (s.call target).b' = s.b' := rfl
@[simp] theorem State.call_c' (target : Word) : (s.call target).c' = s.c' := rfl
@[simp] theorem State.call_d' (target : Word) : (s.call target).d' = s.d' := rfl
@[simp] theorem State.call_e' (target : Word) : (s.call target).e' = s.e' := rfl
@[simp] theorem State.call_h' (target : Word) : (s.call target).h' = s.h' := rfl
@[simp] theorem State.call_l' (target : Word) : (s.call target).l' = s.l' := rfl
@[simp] theorem State.call_ix (target : Word) : (s.call target).ix = s.ix := rfl
@[simp] theorem State.call_iy (target : Word) : (s.call target).iy = s.iy := rfl
@[simp] theorem State.call_sp (target : Word) : (s.call target).sp = s.sp - 2 := rfl
@[simp] theorem State.call_pc (target : Word) : (s.call target).pc = target := rfl
@[simp] theorem State.call_i (target : Word) : (s.call target).i = s.i := rfl
@[simp] theorem State.call_r (target : Word) : (s.call target).r = s.r := rfl
@[simp] theorem State.call_iff1 (target : Word) : (s.call target).iff1 = s.iff1 := rfl
@[simp] theorem State.call_iff2 (target : Word) : (s.call target).iff2 = s.iff2 := rfl
@[simp] theorem State.call_im (target : Word) : (s.call target).im = s.im := rfl
@[simp] theorem State.call_halted (target : Word) : (s.call target).halted = s.halted := rfl
@[simp] theorem State.call_nmiPending (target : Word) : (s.call target).nmiPending = s.nmiPending := rfl
@[simp] theorem State.call_inhibit (target : Word) : (s.call target).inhibit = s.inhibit := rfl
@[simp] theorem State.call_temp (target : Word) : (s.call target).temp = s.temp := rfl
@[simp] theorem State.call_resetLine (target : Word) : (s.call target).resetLine = s.resetLine := rfl
@[simp] theorem State.call_intLine (target : Word) : (s.call target).intLine = s.intLine := rfl
@[simp] theorem State.call_busByte (target : Word) : (s.call target).busByte = s.busByte := rfl
@[simp] theorem State.call_inputs (target : Word) : (s.call target).inputs = s.inputs := rfl
@[simp] theorem State.call_mem (target : Word) : (s.call target).mem = (s.push16 s.pc).mem := rfl
@[simp] theorem State.call_ports (target : Word) : (s.call target).ports = s.ports := rfl
@[simp] theorem State.call_draws (target : Word) : (s.call target).draws = s.draws := rfl

/-! ### `setReg8` -/

@[simp] theorem State.setReg8_f (r : Reg8) (v : Byte) : (s.setReg8 r v).f = s.f := by cases r <;> rfl
@[simp] theorem State.setReg8_a' (r : Reg8) (v : Byte) : (s.setReg8 r v).a' = s.a' := by cases r <;> rfl
@[simp] theorem State.setReg8_f' (r : Reg8) (v : Byte) : (s.setReg8 r v).f' = s.f' := by cases r <;> rfl
@[simp] theorem State.setReg8_b' (r : Reg8) (v : Byte) : (s.setReg8 r v).b' = s.b' := by cases r <;> rfl
@[simp] theorem State.setReg8_c' (r : Reg8) (v : Byte) : (s.setReg8 r v).c' = s.c' := by cases r <;> rfl
@[simp] theorem State.setReg8_d' (r : Reg8) (v : Byte) : (s.setReg8 r v).d' = s.d' := by cases r <;> rfl
@[simp] theorem State.setReg8_e' (r : Reg8) (v : Byte) : (s.setReg8 r v).e' = s.e' := by cases r <;> rfl
@[simp] theorem State.setReg8_h' (r : Reg8) (v : Byte) : (s.setReg8 r v).h' = s.h' := by cases r <;> rfl
@[simp] theorem State.setReg8_l' (r : Reg8) (v : Byte) : (s.setReg8 r v).l' = s.l' := by cases r <;> rfl
@[simp] theorem State.setReg8_ix (r : Reg8) (v : Byte) : (s.setReg8 r v).ix = s.ix := by cases r <;> rfl
@[simp] theorem State.setReg8_iy (r : Reg8) (v : Byte) : (s.setReg8 r v).iy = s.iy := by cases r <;> rfl
@[simp] theorem State.setReg8_sp (r : Reg8) (v : Byte) : (s.setReg8 r v).sp = s.sp := by cases r <;> rfl
@[simp] theorem State.setReg8_pc (r : Reg8) (v : Byte) : (s.setReg8 r v).pc = s.pc := by cases r <;> rfl
@[simp] theorem State.setReg8_i (r : Reg8) (v : Byte) : (s.setReg8 r v).i = s.i := by cases r <;> rfl
@[simp] theorem State.setReg8_r (r : Reg8) (v : Byte) : (s.setReg8 r v).r = s.r := by cases r <;> rfl
@[simp] theorem State.setReg8_iff1 (r : Reg8) (v : Byte) : (s.setReg8 r v).iff1 = s.iff1 := by cases r <;> rfl
@[simp] theorem State.setReg8_iff2 (r : Reg8) (v : Byte) : (s.setReg8 r v).iff2 = s.iff2 := by cases r <;> rfl
@[simp] theorem State.setReg8_im (r : Reg8) (v : Byte) : (s.setReg8 r v).im = s.im := by cases r <;> rfl
@[simp] theorem State.setReg8_halted (r : Reg8) (v : Byte) : (s.setReg8 r v).halted = s.halted := by cases r <;> rfl
@[simp] theorem State.setReg8_nmiPending (r : Reg8) (v : Byte) : (s.setReg8 r v).nmiPending = s.nmiPending := by cases r <;> rfl
@[simp] theorem State.setReg8_inhibit (r : Reg8) (v : Byte) : (s.setReg8 r v).inhibit = s.inhibit := by cases r <;> rfl
@[simp] theorem State.setReg8_temp (r : Reg8) (v : Byte) : (s.setReg8 r v).temp = s.temp := by cases r <;> rfl
@[simp] theorem State.setReg8_resetLine (r : Reg8) (v : Byte) : (s.setReg8 r v).resetLine = s.resetLine := by cases r <;> rfl
@[simp] theorem State.setReg8_intLine (r : Reg8) (v : Byte) : (s.setReg8 r v).intLine = s.intLine := by cases r <;> rfl
@[simp] theorem State.setReg8_busByte (r : Reg8) (v : Byte) : (s.setReg8 r v).busByte = s.busByte := by cases r <;> rfl
@[simp] theorem State.setReg8_inputs (r : Reg8) (v : Byte) : (s.setReg8 r v).inputs = s.inputs := by cases r <;> rfl
@[simp] theorem State.setReg8_mem (r : Reg8) (v : Byte) : (s.setReg8 r v).mem = s.mem := by cases r <;> rfl
@[simp] theorem State.setReg8_ports (r : Reg8) (v : Byte) : (s.setReg8 r v).ports = s.ports := by cases r <;> rfl
@[simp] theorem State.setReg8_draws (r : Reg8) (v : Byte) : (s.setReg8 r v).draws = s.draws := by cases r <;> rfl

/-! ### `setIndex` -/

@[simp] theorem State.setIndex_a (x : Index) (w : Word) : (s.setIndex x w).a = s.a := by cases x <;> rfl
@[simp] theorem State.setIndex_f (x : Index) (w : Word) : (s.setIndex x w).f = s.f := by cases x <;> rfl
@[simp] theorem State.setIndex_b (x : Index) (w : Word) : (s.setIndex x w).b = s.b := by cases x <;> rfl
@[simp] theorem State.setIndex_c (x : Index) (w : Word) : (s.setIndex x w).c = s.c := by cases x <;> rfl
@[simp] theorem State.setIndex_d (x : Index) (w : Word) : (s.setIndex x w).d = s.d := by cases x <;> rfl
@[simp] theorem State.setIndex_e (x : Index) (w : Word) : (s.setIndex x w).e = s.e := by cases x <;> rfl
@[simp] theorem State.setIndex_h (x : Index) (w : Word) : (s.setIndex x w).h = s.h := by cases x <;> rfl
@[simp] theorem State.setIndex_l (x : Index) (w : Word) : (s.setIndex x w).l = s.l := by cases x <;> rfl
@[simp] theorem State.setIndex_a' (x : Index) (w : Word) : (s.setIndex x w).a' = s.a' := by cases x <;> rfl
@[simp] theorem State.setIndex_f' (x : Index) (w : Word) : (s.setIndex x w).f' = s.f' := by cases x <;> rfl
@[simp] theorem State.setIndex_b' (x : Index) (w : Word) : (s.setIndex x w).b' = s.b' := by cases x <;> rfl
@[simp] theorem State.setIndex_c' (x : Index) (w : Word) : (s.setIndex x w).c' = s.c' := by cases x <;> rfl
@[simp] theorem State.setIndex_d' (x : Index) (w : Word) : (s.setIndex x w).d' = s.d' := by cases x <;> rfl
@[simp] theorem State.setIndex_e' (x : Index) (w : Word) : (s.setIndex x w).e' = s.e' := by cases x <;> rfl
@[simp] theorem State.setIndex_h' (x : Index) (w : Word) : (s.setIndex x w).h' = s.h' := by cases x <;> rfl
@[simp] theorem State.setIndex_l' (x : Index) (w : Word) : (s.setIndex x w).l' = s.l' := by cases x <;> rfl
@[simp] theorem State.setIndex_sp (x : Index) (w : Word) : (s.setIndex x w).sp = s.sp := by cases x <;> rfl
@[simp] theorem State.setIndex_pc (x : Index) (w : Word) : (s.setIndex x w).pc = s.pc := by cases x <;> rfl
@[simp] theorem State.setIndex_i (x : Index) (w : Word) : (s.setIndex x w).i = s.i := by cases x <;> rfl
@[simp] theorem State.setIndex_r (x : Index) (w : Word) : (s.setIndex x w).r = s.r := by cases x <;> rfl
@[simp] theorem State.setIndex_iff1 (x : Index) (w : Word) : (s.setIndex x w).iff1 = s.iff1 := by cases x <;> rfl
@[simp] theorem State.setIndex_iff2 (x : Index) (w : Word) : (s.setIndex x w).iff2 = s.iff2 := by cases x <;> rfl
@[simp] theorem State.setIndex_im (x : Index) (w : Word) : (s.setIndex x w).im = s.im := by cases x <;> rfl
@[simp] theorem State.setIndex_halted (x : Index) (w : Word) : (s.setIndex x w).halted = s.halted := by cases x <;> rfl
@[simp] theorem State.setIndex_nmiPending (x : Index) (w : Word) : (s.setIndex x w).nmiPending = s.nmiPending := by cases x <;> rfl
@[simp] theorem State.setIndex_inhibit (x : Index) (w : Word) : (s.setIndex x w).inhibit = s.inhibit := by cases x <;> rfl
@[simp] theorem State.setIndex_temp (x : Index) (w : Word) : (s.setIndex x w).temp = s.temp := by cases x <;> rfl
@[simp] theorem State.setIndex_resetLine (x : Index) (w : Word) : (s.setIndex x w).resetLine = s.resetLine := by cases x <;> rfl
@[simp] theorem State.setIndex_intLine (x : Index) (w : Word) : (s.setIndex x w).intLine = s.intLine := by cases x <;> rfl
@[simp] theorem State.setIndex_busByte (x : Index) (w : Word) : (s.setIndex x w).busByte = s.busByte := by cases x <;> rfl
@[simp] theorem State.setIndex_inputs (x : Index) (w : Word) : (s.setIndex x w).inputs = s.inputs := by cases x <;> rfl
@[simp] theorem State.setIndex_mem (x : Index) (w : Word) : (s.setIndex x w).mem = s.mem := by cases x <;> rfl
@[simp] theorem State.setIndex_ports (x : Index) (w : Word) : (s.setIndex x w).ports = s.ports := by cases x <;> rfl
@[simp] theorem State.setIndex_draws (x : Index) (w : Word) : (s.setIndex x w).draws = s.draws := by cases x <;> rfl

/-! ### `setHalf` -/

@[simp] theorem State.setHalf_a (x : Index) (hf : Half) (v : Byte) : (s.setHalf x hf v).a = s.a := by cases x <;> rfl
@[simp] theorem State.setHalf_f (x : Index) (hf : Half) (v : Byte) : (s.setHalf x hf v).f = s.f := by cases x <;> rfl
@[simp] theorem State.setHalf_b (x : Index) (hf : Half) (v : Byte) : (s.setHalf x hf v).b = s.b := by cases x <;> rfl
@[simp] theorem State.setHalf_c (x : Index) (hf : Half) (v : Byte) : (s.setHalf x hf v).c = s.c := by cases x <;> rfl
@[simp] theorem State.setHalf_d (x : Index) (hf : Half) (v : Byte) : (s.setHalf x hf v).d = s.d := by cases x <;> rfl
@[simp] theorem State.setHalf_e (x : Index) (hf : Half) (v : Byte) : (s.setHalf x hf v).e = s.e := by cases x <;> rfl
@[simp] theorem State.setHalf_h (x : Index) (hf : Half) (v : Byte) : (s.setHalf x hf v).h = s.h := by cases x <;> rfl
@[simp] theorem State.setHalf_l (x : Index) (hf : Half) (v : Byte) : (s.setHalf x hf v).l = s.l := by cases x <;> rfl
@[simp] theorem State.setHalf_a' (x : Index) (hf : Half) (v : Byte) : (s.setHalf x hf v).a' = s.a' := by cases x <;> rfl
@[simp] theorem State.setHalf_f' (x : Index) (hf : Half) (v : Byte) : (s.setHalf x hf v).f' = s.f' := by cases x <;> rfl
@[simp] theorem State.setHalf_b' (x : Index) (hf : Half) (v : Byte) : (s.setHalf x hf v).b' = s.b' := by cases x <;> rfl
@[simp] theorem State.setHalf_c' (x : Index) (hf : Half) (v : Byte) : (s.setHalf x hf v).c' = s.c' := by cases x <;> rfl
@[simp] theorem State.setHalf_d' (x : Index) (hf : Half) (v : Byte) : (s.setHalf x hf v).d' = s.d' := by cases x <;> rfl
@[simp] theorem State.setHalf_e' (x : Index) (hf : Half) (v : Byte) : (s.setHalf x hf v).e' = s.e' := by cases x <;> rfl
@[simp] theorem State.setHalf_h' (x : Index) (hf : Half) (v : Byte) : (s.setHalf x hf v).h' = s.h' := by cases x <;> rfl
@[simp] theorem State.setHalf_l' (x : Index) (hf : Half) (v : Byte) : (s.setHalf x hf v).l' = s.l' := by cases x <;> rfl
@[simp] theorem State.setHalf_sp (x : Index) (hf : Half) (v : Byte) : (s.setHalf x hf v).sp = s.sp := by cases x <;> rfl
@[simp] theorem State.setHalf_pc (x : Index) (hf : Half) (v : Byte) : (s.setHalf x hf v).pc = s.pc := by cases x <;> rfl
@[simp] theorem State.setHalf_i (x : Index) (hf : Half) (v : Byte) : (s.setHalf x hf v).i = s.i := by cases x <;> rfl
@[simp] theorem State.setHalf_r (x : Index) (hf : Half) (v : Byte) : (s.setHalf x hf v).r = s.r := by cases x <;> rfl
@[simp] theorem State.setHalf_iff1 (x : Index) (hf : Half) (v : Byte) : (s.setHalf x hf v).iff1 = s.iff1 := by cases x <;> rfl
@[simp] theorem State.setHalf_iff2 (x : Index) (hf : Half) (v : Byte) : (s.setHalf x hf v).iff2 = s.iff2 := by cases x <;> rfl
@[simp] theorem State.setHalf_im (x : Index) (hf : Half) (v : Byte) : (s.setHalf x hf v).im = s.im := by cases x <;> rfl
@[simp] theorem State.setHalf_halted (x : Index) (hf : Half) (v : Byte) : (s.setHalf x hf v).halted = s.halted := by cases x <;> rfl
@[simp] theorem State.setHalf_nmiPending (x : Index) (hf : Half) (v : Byte) : (s.setHalf x hf v).nmiPending = s.nmiPending := by cases x <;> rfl
@[simp] theorem State.setHalf_inhibit (x : Index) (hf : Half) (v : Byte) : (s.setHalf x hf v).inhibit = s.inhibit := by cases x <;> rfl
@[simp] theorem State.setHalf_temp (x : Index) (hf : Half) (v : Byte) : (s.setHalf x hf v).temp = s.temp := by cases x <;> rfl
@[simp] theorem State.setHalf_resetLine (x : Index) (hf : Half) (v : Byte) : (s.setHalf x hf v).resetLine = s.resetLine := by cases x <;> rfl
@[simp] theorem State.setHalf_intLine (x : Index) (hf : Half) (v : Byte) : (s.setHalf x hf v).intLine = s.intLine := by cases x <;> rfl
@[simp] theorem State.setHalf_busByte (x : Index) (hf : Half) (v : Byte) : (s.setHalf x hf v).busByte = s.busByte := by cases x <;> rfl
@[simp] theorem State.setHalf_inputs (x : Index) (hf : Half) (v : Byte) : (s.setHalf x hf v).inputs = s.inputs := by cases x <;> rfl
@[simp] theorem State.setHalf_mem (x : Index) (hf : Half) (v : Byte) : (s.setHalf x hf v).mem = s.mem := by cases x <;> rfl
@[simp] theorem State.setHalf_ports (x : Index) (hf : Half) (v : Byte) : (s.setHalf x hf v).ports = s.ports := by cases x <;> rfl
@[simp] theorem State.setHalf_draws (x : Index) (hf : Half) (v : Byte) : (s.setHalf x hf v).draws = s.draws := by cases x <;> rfl

/-! ### `setRegX` -/

@[simp] theorem State.setRegX_f (x : Index) (r : RegX) (v : Byte) : (s.setRegX x r v).f = s.f := by cases r <;> cases x <;> rfl
@[simp] theorem State.setRegX_h (x : Index) (r : RegX) (v : Byte) : (s.setRegX x r v).h = s.h := by cases r <;> cases x <;> rfl
@[simp] theorem State.setRegX_l (x : Index) (r : RegX) (v : Byte) : (s.setRegX x r v).l = s.l := by cases r <;> cases x <;> rfl
@[simp] theorem State.setRegX_a' (x : Index) (r : RegX) (v : Byte) : (s.setRegX x r v).a' = s.a' := by cases r <;> cases x <;> rfl
@[simp] theorem State.setRegX_f' (x : Index) (r : RegX) (v : Byte) : (s.setRegX x r v).f' = s.f' := by cases r <;> cases x <;> rfl
@[simp] theorem State.setRegX_b' (x : Index) (r : RegX) (v : Byte) : (s.setRegX x r v).b' = s.b' := by cases r <;> cases x <;> rfl
@[simp] theorem State.setRegX_c' (x : Index) (r : RegX) (v : Byte) : (s.setRegX x r v).c' = s.c' := by cases r <;> cases x <;> rfl
@[simp] theorem State.setRegX_d' (x : Index) (r : RegX) (v : Byte) : (s.setRegX x r v).d' = s.d' := by cases r <;> cases x <;> rfl
@[simp] theorem State.setRegX_e' (x : Index) (r : RegX) (v : Byte) : (s.setRegX x r v).e' = s.e' := by cases r <;> cases x <;> rfl
@[simp] theorem State.setRegX_h' (x : Index) (r : RegX) (v : Byte) : (s.setRegX x r v).h' = s.h' := by cases r <;> cases x <;> rfl
@[simp] theorem State.setRegX_l' (x : Index) (r : RegX) (v : Byte) : (s.setRegX x r v).l' = s.l' := by cases r <;> cases x <;> rfl
@[simp] theorem State.setRegX_sp (x : Index) (r : RegX) (v : Byte) : (s.setRegX x r v).sp = s.sp := by cases r <;> cases x <;> rfl
@[simp] theorem State.setRegX_pc (x : Index) (r : RegX) (v : Byte) : (s.setRegX x r v).pc = s.pc := by cases r <;> cases x <;> rfl
@[simp] theorem State.setRegX_i (x : Index) (r : RegX) (v : Byte) : (s.setRegX x r v).i = s.i := by cases r <;> cases x <;> rfl
@[simp] theorem State.setRegX_r (x : Index) (r : RegX) (v : Byte) : (s.setRegX x r v).r = s.r := by cases r <;> cases x <;> rfl
@[simp] theorem State.setRegX_iff1 (x : Index) (r : RegX) (v : Byte) : (s.setRegX x r v).iff1 = s.iff1 := by cases r <;> cases x <;> rfl
@[simp] theorem State.setRegX_iff2 (x : Index) (r : RegX) (v : Byte) : (s.setRegX x r v).iff2 = s.iff2 := by cases r <;> cases x <;> rfl
@[simp] theorem State.setRegX_im (x : Index) (r : RegX) (v : Byte) : (s.setRegX x r v).im = s.im := by cases r <;> cases x <;> rfl
@[simp] theorem State.setRegX_halted (x : Index) (r : RegX) (v : Byte) : (s.setRegX x r v).halted = s.halted := by cases r <;> cases x <;> rfl
@[simp] theorem State.setRegX_nmiPending (x : Index) (r : RegX) (v : Byte) : (s.setRegX x r v).nmiPending = s.nmiPending := by cases r <;> cases x <;> rfl
@[simp] theorem State.setRegX_inhibit (x : Index) (r : RegX) (v : Byte) : (s.setRegX x r v).inhibit = s.inhibit := by cases r <;> cases x <;> rfl
@[simp] theorem State.setRegX_temp (x : Index) (r : RegX) (v : Byte) : (s.setRegX x r v).temp = s.temp := by cases r <;> cases x <;> rfl
@[simp] theorem State.setRegX_resetLine (x : Index) (r : RegX) (v : Byte) : (s.setRegX x r v).resetLine = s.resetLine := by cases r <;> cases x <;> rfl
@[simp] theorem State.setRegX_intLine (x : Index) (r : RegX) (v : Byte) : (s.setRegX x r v).intLine = s.intLine := by cases r <;> cases x <;> rfl
@[simp] theorem State.setRegX_busByte (x : Index) (r : RegX) (v : Byte) : (s.setRegX x r v).busByte = s.busByte := by cases r <;> cases x <;> rfl
@[simp] theorem State.setRegX_inputs (x : Index) (r : RegX) (v : Byte) : (s.setRegX x r v).inputs = s.inputs := by cases r <;> cases x <;> rfl
@[simp] theorem State.setRegX_mem (x : Index) (r : RegX) (v : Byte) : (s.setRegX x r v).mem = s.mem := by cases r <;> cases x <;> rfl
@[simp] theorem State.setRegX_ports (x : Index) (r : RegX) (v : Byte) : (s.setRegX x r v).ports = s.ports := by cases r <;> cases x <;> rfl
@[simp] theorem State.setRegX_draws (x : Index) (r : RegX) (v : Byte) : (s.setRegX x r v).draws = s.draws := by cases r <;> cases x <;> rfl

/-! ### `setPair` -/

@[simp] theorem State.setPair_a (q : Pair) (w : Word) : (s.setPair q w).a = s.a := by cases q <;> rfl
@[simp] theorem State.setPair_f (q : Pair) (w : Word) : (s.setPair q w).f = s.f := by cases q <;> rfl
@[simp] theorem State.setPair_a' (q : Pair) (w : Word) : (s.setPair q w).a' = s.a' := by cases q <;> rfl
@[simp] theorem State.setPair_f' (q : Pair) (w : Word) : (s.setPair q w).f' = s.f' := by cases q <;> rfl
@[simp] theorem State.setPair_b' (q : Pair) (w : Word) : (s.setPair q w).b' = s.b' := by cases q <;> rfl
@[simp] theorem State.setPair_c' (q : Pair) (w : Word) : (s.setPair q w).c' = s.c' := by cases q <;> rfl
@[simp] theorem State.setPair_d' (q : Pair) (w : Word) : (s.setPair q w).d' = s.d' := by cases q <;> rfl
@[simp] theorem State.setPair_e' (q : Pair) (w : Word) : (s.setPair q w).e' = s.e' := by cases q <;> rfl
@[simp] theorem State.setPair_h' (q : Pair) (w : Word) : (s.setPair q w).h' = s.h' := by cases q <;> rfl
@[simp] theorem State.setPair_l' (q : Pair) (w : Word) : (s.setPair q w).l' = s.l' := by cases q <;> rfl
@[simp] theorem State.setPair_ix (q : Pair) (w : Word) : (s.setPair q w).ix = s.ix := by cases q <;> rfl
@[simp] theorem State.setPair_iy (q : Pair) (w : Word) : (s.setPair q w).iy = s.iy := by cases q <;> rfl
@[simp] theorem State.setPair_pc (q : Pair) (w : Word) : (s.setPair q w).pc = s.pc := by cases q <;> rfl
@[simp] theorem State.setPair_i (q : Pair) (w : Word) : (s.setPair q w).i = s.i := by cases q <;> rfl
@[simp] theorem State.setPair_r (q : Pair) (w : Word) : (s.setPair q w).r = s.r := by cases q <;> rfl
@[simp] theorem State.setPair_iff1 (q : Pair) (w : Word) : (s.setPair q w).iff1 = s.iff1 := by cases q <;> rfl
@[simp] theorem State.setPair_iff2 (q : Pair) (w : Word) : (s.setPair q w).iff2 = s.iff2 := by cases q <;> rfl
@[simp] theorem State.setPair_im (q : Pair) (w : Word) : (s.setPair q w).im = s.im := by cases q <;> rfl
@[simp] theorem State.setPair_halted (q : Pair) (w : Word) : (s.setPair q w).halted = s.halted := by cases q <;> rfl
@[simp] theorem State.setPair_nmiPending (q : Pair) (w : Word) : (s.setPair q w).nmiPending = s.nmiPending := by cases q <;> rfl
@[simp] theorem State.setPair_inhibit (q : Pair) (w : Word) : (s.setPair q w).inhibit = s.inhibit := by cases q <;> rfl
@[simp] theorem State.setPair_temp (q : Pair) (w : Word) : (s.setPair q w).temp = s.temp := by cases q <;> rfl
@[simp] theorem State.setPair_resetLine (q : Pair) (w : Word) : (s.setPair q w).resetLine = s.resetLine := by cases q <;> rfl
@[simp] theorem State.setPair_intLine (q : Pair) (w : Word) : (s.setPair q w).intLine = s.intLine := by cases q <;> rfl
@[simp] theorem State.setPair_busByte (q : Pair) (w : Word) : (s.setPair q w).busByte = s.busByte := by cases q <;> rfl
@[simp] theorem State.setPair_inputs (q : Pair) (w : Word) : (s.setPair q w).inputs = s.inputs := by cases q <;> rfl
@[simp] theorem State.setPair_mem (q : Pair) (w : Word) : (s.setPair q w).mem = s.mem := by cases q <;> rfl
@[simp] theorem State.setPair_ports (q : Pair) (w : Word) : (s.setPair q w).ports = s.ports := by cases q <;> rfl
@[simp] theorem State.setPair_draws (q : Pair) (w : Word) : (s.setPair q w).draws = s.draws := by cases q <;> rfl

/-! ### `setStackPair` -/

@[simp] theorem State.setStackPair_a (q : StackPair) (w : Word) : (s.setStackPair q w).a = s.a := by cases q <;> rfl
@[simp] theorem State.setStackPair_f (q : StackPair) (w : Word) : (s.setStackPair q w).f = s.f := by cases q <;> rfl
@[simp] theorem State.setStackPair_a' (q : StackPair) (w : Word) : (s.setStackPair q w).a' = s.a' := by cases q <;> rfl
@[simp] theorem State.setStackPair_f' (q : StackPair) (w : Word) : (s.setStackPair q w).f' = s.f' := by cases q <;> rfl
@[simp] theorem State.setStackPair_b' (q : StackPair) (w : Word) : (s.setStackPair q w).b' = s.b' := by cases q <;> rfl
@[simp] theorem State.setStackPair_c' (q : StackPair) (w : Word) : (s.setStackPair q w).c' = s.c' := by cases q <;> rfl
@[simp] theorem State.setStackPair_d' (q : StackPair) (w : Word) : (s.setStackPair q w).d' = s.d' := by cases q <;> rfl
@[simp] theorem State.setStackPair_e' (q : StackPair) (w : Word) : (s.setStackPair q w).e' = s.e' := by cases q <;> rfl
@[simp] theorem State.setStackPair_h' (q : StackPair) (w : Word) : (s.setStackPair q w).h' = s.h' := by cases q <;> rfl
@[simp] theorem State.setStackPair_l' (q : StackPair) (w : Word) : (s.setStackPair q w).l' = s.l' := by cases q <;> rfl
@[simp] theorem State.setStackPair_ix (q : StackPair) (w : Word) : (s.setStackPair q w).ix = s.ix := by cases q <;> rfl
@[simp] theorem State.setStackPair_iy (q : StackPair) (w : Word) : (s.setStackPair q w).iy = s.iy := by cases q <;> rfl
@[simp] theorem State.setStackPair_sp (q : StackPair) (w : Word) : (s.setStackPair q w).sp = s.sp := by cases q <;> rfl
@[simp] theorem State.setStackPair_pc (q : StackPair) (w : Word) : (s.setStackPair q w).pc = s.pc := by cases q <;> rfl
@[simp] theorem State.setStackPair_i (q : StackPair) (w : Word) : (s.setStackPair q w).i = s.i := by cases q <;> rfl
@[simp] theorem State.setStackPair_r (q : StackPair) (w : Word) : (s.setStackPair q w).r = s.r := by cases q <;> rfl
@[simp] theorem State.setStackPair_iff1 (q : StackPair) (w : Word) : (s.setStackPair q w).iff1 = s.iff1 := by cases q <;> rfl
@[simp] theorem State.setStackPair_iff2 (q : StackPair) (w : Word) : (s.setStackPair q w).iff2 = s.iff2 := by cases q <;> rfl
@[simp] theorem State.setStackPair_im (q : StackPair) (w : Word) : (s.setStackPair q w).im = s.im := by cases q <;> rfl
@[simp] theorem State.setStackPair_halted (q : StackPair) (w : Word) : (s.setStackPair q w).halted = s.halted := by cases q <;> rfl
@[simp] theorem State.setStackPair_nmiPending (q : StackPair) (w : Word) : (s.setStackPair q w).nmiPending = s.nmiPending := by cases q <;> rfl
@[simp] theorem State.setStackPair_inhibit (q : StackPair) (w : Word) : (s.setStackPair q w).inhibit = s.inhibit := by cases q <;> rfl
@[simp] theorem State.setStackPair_temp (q : StackPair) (w : Word) : (s.setStackPair q w).temp = s.temp := by cases q <;> rfl
@[simp] theorem State.setStackPair_resetLine (q : StackPair) (w : Word) : (s.setStackPair q w).resetLine = s.resetLine := by cases q <;> rfl
@[simp] theorem State.setStackPair_intLine (q : StackPair) (w : Word) : (s.setStackPair q w).intLine = s.intLine := by cases q <;> rfl
@[simp] theorem State.setStackPair_busByte (q : StackPair) (w : Word) : (s.setStackPair q w).busByte = s.busByte := by cases q <;> rfl
@[simp] theorem State.setStackPair_inputs (q : StackPair) (w : Word) : (s.setStackPair q w).inputs = s.inputs := by cases q <;> rfl
@[simp] theorem State.setStackPair_mem (q : StackPair) (w : Word) : (s.setStackPair q w).mem = s.mem := by cases q <;> rfl
@[simp] theorem State.setStackPair_ports (q : StackPair) (w : Word) : (s.setStackPair q w).ports = s.ports := by cases q <;> rfl
@[simp] theorem State.setStackPair_draws (q : StackPair) (w : Word) : (s.setStackPair q w).draws = s.draws := by cases q <;> rfl

/-! ### Reading back what was written -/

@[simp] theorem State.setReg8_reg8 (r q : Reg8) (v : Byte) : (s.setReg8 r v).reg8 q = if q = r then v else s.reg8 q := by
  cases r <;> cases q <;> rfl
@[simp] theorem State.setIndex_index (x y : Index) (w : Word) :
    (s.setIndex x w).index y = if y = x then w else s.index y := by
  cases x <;> cases y <;> rfl

end Sys2Proof.Machine
end

