-- ==== Sys2Proof/Laws/Memory.lean ====
section
/-! SUPPORT. What the memory operations do: a read after a write, and the canonical form (20_memory.md R84, R85). -/

namespace Sys2Proof.Machine

/-! ## Cells -/

theorem cellAt_eraseCell (cells : List Host.Cell) (k j : Nat) :
    cellAt (eraseCell cells k) j = if j = k then unlistedByte else cellAt cells j := by
  induction cells with
  | nil => simp [eraseCell, cellAt]
  | cons c rest ih =>
    obtain ⟨x, v⟩ := c
    by_cases hx : x = k
    · rw [eraseCell, if_pos hx, ih]
      by_cases hj : j = k
      · rw [if_pos hj, if_pos hj]
      · rw [if_neg hj, if_neg hj, cellAt, if_neg (by omega)]
    · rw [eraseCell, if_neg hx, cellAt, ih, cellAt]
      by_cases hj : j = k
      · rw [if_neg (by omega), if_pos hj, if_pos hj]
      · rw [if_neg hj, if_neg hj]

/-- No cell at `k` is listed. -/
def unlisted (cells : List Host.Cell) (k : Nat) : Prop := ∀ c ∈ cells, c.1 ≠ k

theorem unlisted_eraseCell (cells : List Host.Cell) (k : Nat) : unlisted (eraseCell cells k) k := by
  induction cells with
  | nil => simp [eraseCell, unlisted]
  | cons c rest ih =>
    obtain ⟨x, v⟩ := c
    by_cases hx : x = k
    · rw [eraseCell, if_pos hx]; exact ih
    · rw [eraseCell, if_neg hx]
      intro d hd
      rcases List.mem_cons.1 hd with rfl | hd
      · exact hx
      · exact ih d hd

theorem cellAt_insertCell (cells : List Host.Cell) (k j : Nat) (v : Byte) (h : unlisted cells k) :
    cellAt (insertCell cells k v) j = if j = k then v else cellAt cells j := by
  induction cells with
  | nil => simp [insertCell, cellAt, eq_comm]
  | cons c rest ih =>
    obtain ⟨x, w⟩ := c
    have hx : x ≠ k := h (x, w) (by simp)
    have hr : unlisted rest k := fun d hd => h d (List.mem_cons_of_mem _ hd)
    by_cases hk : k < x
    · rw [insertCell, if_pos hk, cellAt]
      by_cases hj : j = k
      · rw [if_pos hj.symm, if_pos hj]
      · rw [if_neg (by omega), if_neg hj]
    · rw [insertCell, if_neg hk, cellAt, ih hr, cellAt]
      by_cases hj : j = k
      · rw [if_neg (by omega), if_pos hj, if_pos hj]
      · rw [if_neg hj, if_neg hj]

/-- What a cell reads as after a cell was put. -/
theorem cellAt_putCell (cells : List Host.Cell) (k j : Nat) (v : Byte) :
    cellAt (putCell cells k v) j = if j = k then v else cellAt cells j := by
  unfold putCell
  by_cases hv : v = unlistedByte
  · rw [if_pos hv, cellAt_eraseCell, hv]
  · rw [if_neg hv, cellAt_insertCell _ _ _ _ (unlisted_eraseCell cells k)]
    by_cases hj : j = k
    · rw [if_pos hj, if_pos hj]
    · rw [if_neg hj, if_neg hj, cellAt_eraseCell, if_neg hj]

/-! ## The canonical form -/

theorem cellsWf_mono (cells : List Host.Cell) (m n : Nat) (hmn : m ≤ n) (h : cellsWf n cells = true) :
    cellsWf m cells = true := by
  cases cells with
  | nil => rfl
  | cons c rest =>
    obtain ⟨x, v⟩ := c
    simp only [cellsWf, Bool.and_eq_true, decide_eq_true_eq] at h ⊢
    exact ⟨⟨⟨by omega, h.1.1.2⟩, h.1.2⟩, h.2⟩

theorem cellsWf_eraseCell (cells : List Host.Cell) (k n : Nat) (h : cellsWf n cells = true) :
    cellsWf n (eraseCell cells k) = true := by
  induction cells generalizing n with
  | nil => rfl
  | cons c rest ih =>
    obtain ⟨x, v⟩ := c
    have h' := h
    simp only [cellsWf, Bool.and_eq_true, decide_eq_true_eq] at h'
    by_cases hx : x = k
    · rw [eraseCell, if_pos hx]
      exact ih n (cellsWf_mono rest n (x + 1) (by omega) h'.2)
    · rw [eraseCell, if_neg hx]
      simp only [cellsWf, Bool.and_eq_true, decide_eq_true_eq]
      exact ⟨h'.1, ih (x + 1) h'.2⟩

theorem cellsWf_insertCell (cells : List Host.Cell) (k n : Nat) (v : Byte) (h : cellsWf n cells = true)
    (hn : n ≤ k) (hk : k < 65536) (hv : v ≠ unlistedByte) (hu : unlisted cells k) :
    cellsWf n (insertCell cells k v) = true := by
  induction cells generalizing n with
  | nil => simp [insertCell, cellsWf, hn, hk, hv]
  | cons c rest ih =>
    obtain ⟨x, w⟩ := c
    have hx : x ≠ k := hu (x, w) (by simp)
    have hr : unlisted rest k := fun d hd => hu d (List.mem_cons_of_mem _ hd)
    have h' := h
    simp only [cellsWf, Bool.and_eq_true, decide_eq_true_eq] at h'
    by_cases hlt : k < x
    · rw [insertCell, if_pos hlt]
      simp only [cellsWf, Bool.and_eq_true, decide_eq_true_eq]
      exact ⟨⟨⟨hn, hk⟩, hv⟩, ⟨⟨by omega, h'.1.1.2⟩, h'.1.2⟩, h'.2⟩
    · rw [insertCell, if_neg hlt]
      simp only [cellsWf, Bool.and_eq_true, decide_eq_true_eq]
      exact ⟨h'.1, ih (x + 1) h'.2 (by omega) hr⟩

theorem cellsWf_putCell (cells : List Host.Cell) (k : Nat) (v : Byte) (h : cellsWf 0 cells = true)
    (hk : k < 65536) : cellsWf 0 (putCell cells k v) = true := by
  unfold putCell
  by_cases hv : v = unlistedByte
  · rw [if_pos hv]; exact cellsWf_eraseCell cells k 0 h
  · rw [if_neg hv]
    exact cellsWf_insertCell _ k 0 v (cellsWf_eraseCell cells k 0 h) (Nat.zero_le k) hk hv
      (unlisted_eraseCell cells k)

/-- A write keeps the canonical form. -/
theorem Memory.write_wf (m : Memory) (a : Word) (v : Byte) (h : m.wf = true) : (m.write a v).wf = true := by
  unfold Memory.write
  split
  · exact cellsWf_putCell m.cells a.toNat v h a.isLt
  · exact h
  · exact h

/-- Placing a byte keeps the canonical form. -/
theorem Memory.place_wf (m : Memory) (a : Word) (v : Byte) (h : m.wf = true) : (m.place a v).wf = true :=
  cellsWf_putCell m.cells a.toNat v h a.isLt

/-- Placing bytes keeps the canonical form. -/
theorem Memory.placeBytes_wf (bs : List Byte) (m : Memory) (a : Word) (h : m.wf = true) :
    (m.placeBytes a bs).wf = true := by
  induction bs generalizing m a with
  | nil => exact h
  | cons v rest ih => exact ih _ _ (Memory.place_wf m a v h)

/-! ## Reading and writing (20_memory.md R84, R85) -/

/-- A write leaves the memory map alone. -/
@[simp] theorem Memory.write_map (m : Memory) (a : Word) (v : Byte) : (m.write a v).map = m.map := by
  unfold Memory.write
  split <;> rfl

@[simp] theorem Memory.write_kindAt (m : Memory) (a b : Word) (v : Byte) :
    (m.write a v).kindAt b = m.kindAt b := by
  simp [Memory.kindAt]

/-- What any address reads as after a write: the byte where it was written to ram, else what it read as before. -/
theorem Memory.read_write (m : Memory) (a b : Word) (v : Byte) :
    (m.write a v).read b = if b = a ∧ m.kindAt a = .ram then v else m.read b := by
  have hk : (m.write a v).kindAt b = m.kindAt b := Memory.write_kindAt m a b v
  have hn : b.toNat = a.toNat ↔ b = a := ⟨BitVec.eq_of_toNat_eq, fun h => h ▸ rfl⟩
  unfold Memory.read
  rw [hk]
  unfold Memory.write
  cases ha : m.kindAt a <;> simp only [reduceCtorEq, and_false, and_true, if_false]
  rw [cellAt_putCell]
  by_cases hab : b = a
  · subst hab; simp [ha]
  · have : b.toNat ≠ a.toNat := fun h => hab (hn.1 h)
    simp [hab, this]

/-- A read of another address is not changed by a write. -/
theorem Memory.read_write_of_ne (m : Memory) (a b : Word) (v : Byte) (h : b ≠ a) :
    (m.write a v).read b = m.read b := by
  rw [Memory.read_write, if_neg (fun hh => h hh.1)]

/-- Two states with the same memory read alike. -/
theorem State.memRead_congr (s t : State) (h : t.mem = s.mem) (a : Word) : t.memRead a = s.memRead a := by
  unfold State.memRead; rw [h]

/-- What any address reads as after a write. -/
theorem State.memRead_memWrite (s : State) (a b : Word) (v : Byte) :
    (s.memWrite a v).memRead b = if b = a ∧ s.mem.kindAt a = .ram then v else s.memRead b :=
  Memory.read_write s.mem a b v

/-- The bytes of the two addresses of a word are different cells. -/
theorem word_succ_ne (a : Word) : a + 1 ≠ a := by
  intro h
  bv_omega

/-! ### Reads after updates that leave memory alone -/

variable (s : State)

@[simp] theorem State.memRead_dropWord (m0 : Word) : (s.dropWord).memRead m0 = s.memRead m0 := rfl
@[simp] theorem State.memRead_countR (m : Nat) (m0 : Word) : (s.countR m).memRead m0 = s.memRead m0 := rfl
@[simp] theorem State.memRead_begin (len fetches : Nat) (m0 : Word) : (s.begin len fetches).memRead m0 = s.memRead m0 := rfl
@[simp] theorem State.memRead_beginP (p : Pfx) (len : Nat) (m0 : Word) : (s.beginP p len).memRead m0 = s.memRead m0 := rfl
@[simp] theorem State.memRead_again (len : Nat) (m0 : Word) : (s.again len).memRead m0 = s.memRead m0 := rfl
@[simp] theorem State.memRead_jump (target : Word) (m0 : Word) : (s.jump target).memRead m0 = s.memRead m0 := rfl
@[simp] theorem State.memRead_portRead (port : Word) (m0 : Word) : (s.portRead port).memRead m0 = s.memRead m0 := rfl
@[simp] theorem State.memRead_portWrite (port : Word) (v : Byte) (m0 : Word) : (s.portWrite port v).memRead m0 = s.memRead m0 := rfl
@[simp] theorem State.memRead_drawn (m0 : Word) : (s.drawn).memRead m0 = s.memRead m0 := rfl
@[simp] theorem State.memRead_setBc (w : Word) (m0 : Word) : (s.setBc w).memRead m0 = s.memRead m0 := rfl
@[simp] theorem State.memRead_setDe (w : Word) (m0 : Word) : (s.setDe w).memRead m0 = s.memRead m0 := rfl
@[simp] theorem State.memRead_setHl (w : Word) (m0 : Word) : (s.setHl w).memRead m0 = s.memRead m0 := rfl
@[simp] theorem State.memRead_setAf (w : Word) (m0 : Word) : (s.setAf w).memRead m0 = s.memRead m0 := rfl
@[simp] theorem State.memRead_setAF (vf : Byte × Byte) (m0 : Word) : (s.setAF vf).memRead m0 = s.memRead m0 := rfl
@[simp] theorem State.memRead_setHlF (wf : Word × Byte) (m0 : Word) : (s.setHlF wf).memRead m0 = s.memRead m0 := rfl
@[simp] theorem State.memRead_clearInhibit (m0 : Word) : (s.clearInhibit).memRead m0 = s.memRead m0 := rfl
@[simp] theorem State.memRead_haltedStep (m0 : Word) : (s.haltedStep).memRead m0 = s.memRead m0 := rfl
@[simp] theorem State.memRead_ret (m0 : Word) : (s.ret).memRead m0 = s.memRead m0 := rfl
@[simp] theorem State.memRead_setReg8 (r : Reg8) (v : Byte) (m0 : Word) : (s.setReg8 r v).memRead m0 = s.memRead m0 := by cases r <;> rfl
@[simp] theorem State.memRead_setIndex (x : Index) (w : Word) (m0 : Word) : (s.setIndex x w).memRead m0 = s.memRead m0 := by cases x <;> rfl
@[simp] theorem State.memRead_setHalf (x : Index) (hf : Half) (v : Byte) (m0 : Word) : (s.setHalf x hf v).memRead m0 = s.memRead m0 := by cases x <;> rfl
@[simp] theorem State.memRead_setRegX (x : Index) (r : RegX) (v : Byte) (m0 : Word) : (s.setRegX x r v).memRead m0 = s.memRead m0 := by cases r <;> cases x <;> rfl
@[simp] theorem State.memRead_setPair (q : Pair) (w : Word) (m0 : Word) : (s.setPair q w).memRead m0 = s.memRead m0 := by cases q <;> rfl
@[simp] theorem State.memRead_setStackPair (q : StackPair) (w : Word) (m0 : Word) : (s.setStackPair q w).memRead m0 = s.memRead m0 := by cases q <;> rfl

end Sys2Proof.Machine
end

