-- ==== Sys2Proof/Laws/Fetch.lean ====
section
/-! SUPPORT. The fetch leaves every operand alone: reading one after `begin`, `beginP` or `countR` reads it before; and what
the count does to R (10_state.md R46). -/

namespace Sys2Proof.Machine

variable (s : State)

@[simp] theorem State.reg8_begin (len fetches : Nat) (q : Reg8) :
    (s.begin len fetches).reg8 q = s.reg8 q := by cases q <;> rfl
@[simp] theorem State.index_begin (len fetches : Nat) (x : Index) :
    (s.begin len fetches).index x = s.index x := by cases x <;> rfl
@[simp] theorem State.half_begin (len fetches : Nat) (x : Index) (y : Half) :
    (s.begin len fetches).half x y = s.half x y := by cases x <;> rfl
@[simp] theorem State.regX_begin (len fetches : Nat) (x : Index) (q : RegX) :
    (s.begin len fetches).regX x q = s.regX x q := by cases q <;> cases x <;> rfl
@[simp] theorem State.bc_begin (len fetches : Nat) :
    (s.begin len fetches).bc = s.bc := rfl
@[simp] theorem State.de_begin (len fetches : Nat) :
    (s.begin len fetches).de = s.de := rfl
@[simp] theorem State.hl_begin (len fetches : Nat) :
    (s.begin len fetches).hl = s.hl := rfl
@[simp] theorem State.af_begin (len fetches : Nat) :
    (s.begin len fetches).af = s.af := rfl
@[simp] theorem State.pair_begin (len fetches : Nat) (q : Pair) :
    (s.begin len fetches).pair q = s.pair q := by cases q <;> rfl
@[simp] theorem State.pairX_begin (len fetches : Nat) (x : Index) (q : PairX) :
    (s.begin len fetches).pairX x q = s.pairX x q := by cases q <;> cases x <;> rfl
@[simp] theorem State.stackPair_begin (len fetches : Nat) (q : StackPair) :
    (s.begin len fetches).stackPair q = s.stackPair q := by cases q <;> rfl
@[simp] theorem State.ea_begin (len fetches : Nat) (x : Index) (o : Byte) :
    (s.begin len fetches).ea x o = s.ea x o := by cases x <;> rfl
@[simp] theorem State.cond_begin (len fetches : Nat) (cc : Cond) :
    (s.begin len fetches).cond cc = s.cond cc := rfl
@[simp] theorem State.memRead16_begin (len fetches : Nat) (a : Word) :
    (s.begin len fetches).memRead16 a = s.memRead16 a := rfl
@[simp] theorem State.topOfStack_begin (len fetches : Nat) :
    (s.begin len fetches).topOfStack = s.topOfStack := rfl
@[simp] theorem State.portByte_begin (len fetches : Nat) (x : Word) :
    (s.begin len fetches).portByte x = s.portByte x := rfl

@[simp] theorem State.reg8_beginP (p : Pfx) (len : Nat) (q : Reg8) :
    (s.beginP p len).reg8 q = s.reg8 q := by cases q <;> rfl
@[simp] theorem State.index_beginP (p : Pfx) (len : Nat) (x : Index) :
    (s.beginP p len).index x = s.index x := by cases x <;> rfl
@[simp] theorem State.half_beginP (p : Pfx) (len : Nat) (x : Index) (y : Half) :
    (s.beginP p len).half x y = s.half x y := by cases x <;> rfl
@[simp] theorem State.regX_beginP (p : Pfx) (len : Nat) (x : Index) (q : RegX) :
    (s.beginP p len).regX x q = s.regX x q := by cases q <;> cases x <;> rfl
@[simp] theorem State.bc_beginP (p : Pfx) (len : Nat) :
    (s.beginP p len).bc = s.bc := rfl
@[simp] theorem State.de_beginP (p : Pfx) (len : Nat) :
    (s.beginP p len).de = s.de := rfl
@[simp] theorem State.hl_beginP (p : Pfx) (len : Nat) :
    (s.beginP p len).hl = s.hl := rfl
@[simp] theorem State.af_beginP (p : Pfx) (len : Nat) :
    (s.beginP p len).af = s.af := rfl
@[simp] theorem State.pair_beginP (p : Pfx) (len : Nat) (q : Pair) :
    (s.beginP p len).pair q = s.pair q := by cases q <;> rfl
@[simp] theorem State.pairX_beginP (p : Pfx) (len : Nat) (x : Index) (q : PairX) :
    (s.beginP p len).pairX x q = s.pairX x q := by cases q <;> cases x <;> rfl
@[simp] theorem State.stackPair_beginP (p : Pfx) (len : Nat) (q : StackPair) :
    (s.beginP p len).stackPair q = s.stackPair q := by cases q <;> rfl
@[simp] theorem State.ea_beginP (p : Pfx) (len : Nat) (x : Index) (o : Byte) :
    (s.beginP p len).ea x o = s.ea x o := by cases x <;> rfl
@[simp] theorem State.cond_beginP (p : Pfx) (len : Nat) (cc : Cond) :
    (s.beginP p len).cond cc = s.cond cc := rfl
@[simp] theorem State.memRead16_beginP (p : Pfx) (len : Nat) (a : Word) :
    (s.beginP p len).memRead16 a = s.memRead16 a := rfl
@[simp] theorem State.topOfStack_beginP (p : Pfx) (len : Nat) :
    (s.beginP p len).topOfStack = s.topOfStack := rfl
@[simp] theorem State.portByte_beginP (p : Pfx) (len : Nat) (x : Word) :
    (s.beginP p len).portByte x = s.portByte x := rfl

@[simp] theorem State.reg8_clearInhibit (q : Reg8) :
    (s.clearInhibit).reg8 q = s.reg8 q := by cases q <;> rfl
@[simp] theorem State.index_clearInhibit (x : Index) :
    (s.clearInhibit).index x = s.index x := by cases x <;> rfl
@[simp] theorem State.half_clearInhibit (x : Index) (y : Half) :
    (s.clearInhibit).half x y = s.half x y := by cases x <;> rfl
@[simp] theorem State.regX_clearInhibit (x : Index) (q : RegX) :
    (s.clearInhibit).regX x q = s.regX x q := by cases q <;> cases x <;> rfl
@[simp] theorem State.bc_clearInhibit :
    (s.clearInhibit).bc = s.bc := rfl
@[simp] theorem State.de_clearInhibit :
    (s.clearInhibit).de = s.de := rfl
@[simp] theorem State.hl_clearInhibit :
    (s.clearInhibit).hl = s.hl := rfl
@[simp] theorem State.af_clearInhibit :
    (s.clearInhibit).af = s.af := rfl
@[simp] theorem State.pair_clearInhibit (q : Pair) :
    (s.clearInhibit).pair q = s.pair q := by cases q <;> rfl
@[simp] theorem State.pairX_clearInhibit (x : Index) (q : PairX) :
    (s.clearInhibit).pairX x q = s.pairX x q := by cases q <;> cases x <;> rfl
@[simp] theorem State.stackPair_clearInhibit (q : StackPair) :
    (s.clearInhibit).stackPair q = s.stackPair q := by cases q <;> rfl
@[simp] theorem State.ea_clearInhibit (x : Index) (o : Byte) :
    (s.clearInhibit).ea x o = s.ea x o := by cases x <;> rfl
@[simp] theorem State.cond_clearInhibit (cc : Cond) :
    (s.clearInhibit).cond cc = s.cond cc := rfl
@[simp] theorem State.memRead16_clearInhibit (a : Word) :
    (s.clearInhibit).memRead16 a = s.memRead16 a := rfl
@[simp] theorem State.topOfStack_clearInhibit :
    (s.clearInhibit).topOfStack = s.topOfStack := rfl
@[simp] theorem State.portByte_clearInhibit (x : Word) :
    (s.clearInhibit).portByte x = s.portByte x := rfl

/-- R after a count: bit 7 kept, the low seven bits advanced modulo 128. -/
theorem State.toNat_countR_r (m : Nat) :
    (s.countR m).r.toNat = s.r.toNat / 128 * 128 + (s.r.toNat + m) % 128 := by
  have := s.r.isLt
  simp only [State.countR_r, BitVec.toNat_append, BitVec.extractLsb'_toNat, BitVec.toNat_add, BitVec.toNat_ofNat,
    Nat.shiftRight_eq_div_pow]
  rw [← Nat.shiftLeft_add_eq_or_of_lt (by omega)]
  simp only [Nat.shiftLeft_eq]
  omega

/-- A count keeps bit 7 of R. -/
theorem State.countR_bit7 (m : Nat) : (s.countR m).r.getLsbD 7 = s.r.getLsbD 7 := by
  simp only [State.countR_r, BitVec.getLsbD_append]
  simp

/-- The R of a fetch behind an unchanged prefix. -/
theorem State.toNat_beginP_r (p : Pfx) (len : Nat) :
    (s.beginP p len).r.toNat = s.r.toNat / 128 * 128 + (s.r.toNat + (1 + prefixLength p)) % 128 := by
  rw [State.beginP_r]; exact State.toNat_countR_r s _

/-- The R of a fetch. -/
theorem State.toNat_begin_r (len fetches : Nat) :
    (s.begin len fetches).r.toNat = s.r.toNat / 128 * 128 + (s.r.toNat + fetches) % 128 := by
  rw [State.begin_r]; exact State.toNat_countR_r s _

end Sys2Proof.Machine
end

