-- ==== Sys2Proof/Laws/Flags.lean ====
section
/-! SUPPORT. The flags of a flag byte built from eight flags, bits and words taken apart and joined (10_state.md R36,
00_scope.md R9). -/

namespace Sys2Proof.Machine

/-! ## The flag byte -/

variable (sf zf f5 hf f3 pv nf cf : Bool)

@[simp] theorem flagC_mkFlags : flagC (mkFlags sf zf f5 hf f3 pv nf cf) = cf := by
  unfold flagC mkFlags; simp only [BitVec.getLsbD_append]; cases cf <;> rfl
@[simp] theorem flagN_mkFlags : flagN (mkFlags sf zf f5 hf f3 pv nf cf) = nf := by
  unfold flagN mkFlags; simp only [BitVec.getLsbD_append]; cases nf <;> rfl
@[simp] theorem flagPV_mkFlags : flagPV (mkFlags sf zf f5 hf f3 pv nf cf) = pv := by
  unfold flagPV mkFlags; simp only [BitVec.getLsbD_append]; cases pv <;> rfl
@[simp] theorem flag3_mkFlags : flag3 (mkFlags sf zf f5 hf f3 pv nf cf) = f3 := by
  unfold flag3 mkFlags; simp only [BitVec.getLsbD_append]; cases f3 <;> rfl
@[simp] theorem flagH_mkFlags : flagH (mkFlags sf zf f5 hf f3 pv nf cf) = hf := by
  unfold flagH mkFlags; simp only [BitVec.getLsbD_append]; cases hf <;> rfl
@[simp] theorem flag5_mkFlags : flag5 (mkFlags sf zf f5 hf f3 pv nf cf) = f5 := by
  unfold flag5 mkFlags; simp only [BitVec.getLsbD_append]; cases f5 <;> rfl
@[simp] theorem flagZ_mkFlags : flagZ (mkFlags sf zf f5 hf f3 pv nf cf) = zf := by
  unfold flagZ mkFlags; simp only [BitVec.getLsbD_append]; cases zf <;> rfl
@[simp] theorem flagS_mkFlags : flagS (mkFlags sf zf f5 hf f3 pv nf cf) = sf := by
  unfold flagS mkFlags; simp only [BitVec.getLsbD_append]; cases sf <;> rfl

/-! ## Words and their halves -/

@[simp] theorem join_hi_lo (w : Word) : join (hi w) (lo w) = w := by
  apply BitVec.eq_of_getLsbD_eq
  intro k hk
  simp only [join, hi, lo, BitVec.getLsbD_append, BitVec.getLsbD_extractLsb']
  by_cases h : k < 8
  · simp [h]
  · have : 8 + (k - 8) = k := by omega
    simp [h, this]
    intro
    omega

@[simp] theorem hi_join (a b : Byte) : hi (join a b) = a := by
  apply BitVec.eq_of_getLsbD_eq
  intro k hk
  simp only [join, hi, BitVec.getLsbD_append, BitVec.getLsbD_extractLsb']
  simp [hk]

@[simp] theorem lo_join (a b : Byte) : lo (join a b) = b := by
  apply BitVec.eq_of_getLsbD_eq
  intro k hk
  simp only [join, lo, BitVec.getLsbD_append, BitVec.getLsbD_extractLsb']
  simp [hk]

/-- The number a joined word is. -/
theorem toNat_join (a b : Byte) : (join a b).toNat = a.toNat * 256 + b.toNat := by
  have := b.isLt
  simp only [join, BitVec.toNat_append]
  rw [← Nat.shiftLeft_add_eq_or_of_lt (by omega), Nat.shiftLeft_eq]

@[simp] theorem halfOf_withHalf (x y : Half) (v : Byte) (w : Word) :
    halfOf y (withHalf x v w) = if y = x then v else halfOf y w := by
  cases x <;> cases y <;> simp [halfOf, withHalf]

@[simp] theorem State.setHalf_half (s : State) (x : Index) (y z : Half) (v : Byte) :
    (s.setHalf x y v).half x z = if z = y then v else s.half x z := by
  simp [State.setHalf, State.half]

@[simp] theorem State.setRegX_regX (s : State) (x : Index) (r q : RegX) (v : Byte) :
    (s.setRegX x r v).regX x q = if q = r then v else s.regX x q := by
  cases r <;> cases q <;> first | rfl | simp [State.setRegX, State.regX]

@[simp] theorem State.setBc_bc (s : State) (w : Word) : (s.setBc w).bc = w := join_hi_lo w
@[simp] theorem State.setDe_de (s : State) (w : Word) : (s.setDe w).de = w := join_hi_lo w
@[simp] theorem State.setHl_hl (s : State) (w : Word) : (s.setHl w).hl = w := join_hi_lo w
@[simp] theorem State.setAf_af (s : State) (w : Word) : (s.setAf w).af = w := join_hi_lo w
@[simp] theorem State.setPair_pair (s : State) (q : Pair) (w : Word) : (s.setPair q w).pair q = w := by
  cases q <;> simp [State.setPair, State.pair]
@[simp] theorem State.setStackPair_stackPair (s : State) (q : StackPair) (w : Word) :
    (s.setStackPair q w).stackPair q = w := by
  cases q <;> simp [State.setStackPair, State.stackPair]

/-! ## Fields of an opcode byte (30_encoding.md R110) -/

@[simp] theorem xField_opByte (x : BitVec 2) (y z : BitVec 3) : xField (opByte x y z) = x := by
  revert x y z; decide
@[simp] theorem yField_opByte (x : BitVec 2) (y z : BitVec 3) : yField (opByte x y z) = y := by
  revert x y z; decide
@[simp] theorem zField_opByte (x : BitVec 2) (y z : BitVec 3) : zField (opByte x y z) = z := by
  revert x y z; decide

/-- A byte is made of its three fields. -/
theorem opByte_fields (op : Byte) : opByte (xField op) (yField op) (zField op) = op := by
  revert op; decide

end Sys2Proof.Machine
end

