-- ==== Sys2Proof/Laws/Decode.lean ====
section
/-! SUPPORT. No four bytes decode to one of the six prefix rows: a prefix byte is part of the instruction it starts
(30_encoding.md R111, R135; log 17). -/

namespace Sys2Proof.Machine

/-- The six rows that are prefix bytes on their own. -/
def prefixRows : List Instr := [.prefixCb, .prefixDd, .prefixEd, .prefixFd, .prefixDdCb, .prefixFdCb]

/-- The arithmetic rows are no prefix rows. -/
theorem aluR_not_prefix (p : Pfx) (y : BitVec 3) (r : Reg8) : aluR p y r ∉ prefixRows := by
  unfold aluR; split <;> simp [prefixRows]

theorem aluMemHl_not_prefix (y : BitVec 3) : aluMemHl y ∉ prefixRows := by
  unfold aluMemHl; split <;> simp [prefixRows]

theorem aluN_not_prefix (p : Pfx) (y : BitVec 3) (n : Byte) : aluN p y n ∉ prefixRows := by
  unfold aluN; split <;> simp [prefixRows]

theorem aluHalf_not_prefix (x : Index) (y : BitVec 3) (hf : Half) : aluHalf x y hf ∉ prefixRows := by
  unfold aluHalf; split <;> cases x <;> simp [prefixRows, pick]

theorem aluIndex_not_prefix (x : Index) (y : BitVec 3) (o : Byte) : aluIndex x y o ∉ prefixRows := by
  unfold aluIndex; split <;> cases x <;> simp [prefixRows, pick]

/-- The shift rows are no prefix rows. -/
theorem shiftR_not_prefix (y : BitVec 3) (r : Reg8) : shiftR y r ∉ prefixRows := by
  unfold shiftR; split <;> simp [prefixRows]

theorem shiftMemHl_not_prefix (y : BitVec 3) : shiftMemHl y ∉ prefixRows := by
  unfold shiftMemHl; split <;> simp [prefixRows]

theorem shiftIndex_not_prefix (x : Index) (y : BitVec 3) (o : Byte) : shiftIndex x y o ∉ prefixRows := by
  unfold shiftIndex; split <;> cases x <;> simp [prefixRows, pick]

theorem shiftRIndex_not_prefix (x : Index) (y : BitVec 3) (r : Reg8) (o : Byte) :
    shiftRIndex x y r o ∉ prefixRows := by
  unfold shiftRIndex; split <;> cases x <;> simp [prefixRows, pick]

/-! ## The maps -/

theorem decodeMain0_not_prefix (p : Pfx) (y z : BitVec 3) (n1 n2 : Byte) : decodeMain0 p y z n1 n2 ∉ prefixRows := by
  unfold decodeMain0
  split
  · unfold decodeMain00; split <;> simp [prefixRows]
  · split <;> simp [prefixRows]
  · unfold decodeMain02; split <;> simp [prefixRows]
  · split <;> simp [prefixRows]
  · split <;> simp [prefixRows]
  · split <;> simp [prefixRows]
  · split <;> simp [prefixRows]
  · unfold decodeMain07; split <;> simp [prefixRows]

/-- In the quarter `11 yyy zzz` only the four prefix bytes are prefix rows. -/
theorem decodeMain3_not_prefix (p : Pfx) (y z : BitVec 3) (n1 n2 : Byte) (hcb : ¬(y = 1#3 ∧ z = 3#3))
    (hdd : ¬(y = 3#3 ∧ z = 5#3)) (hed : ¬(y = 5#3 ∧ z = 5#3)) (hfd : ¬(y = 7#3 ∧ z = 5#3)) :
    decodeMain3 p y z n1 n2 ∉ prefixRows := by
  unfold decodeMain3
  split
  · simp [prefixRows]
  · unfold decodeMain31; split <;> split <;> simp [prefixRows]
  · simp [prefixRows]
  · unfold decodeMain33; split <;> simp_all [prefixRows]
  · simp [prefixRows]
  · unfold decodeMain35
    split
    · split
      · simp [prefixRows]
      · simp_all
      · simp_all
      · revert y; decide
    · split <;> simp [prefixRows]
  · exact aluN_not_prefix p y n1
  · simp [prefixRows]

/-- The unprefixed map away from the four prefix bytes. -/
theorem decodeMain_not_prefix (p : Pfx) (op n1 n2 : Byte) (hcb : op ≠ 0xCB) (hdd : op ≠ 0xDD) (hed : op ≠ 0xED)
    (hfd : op ≠ 0xFD) : decodeMain p op n1 n2 ∉ prefixRows := by
  unfold decodeMain
  split
  · exact decodeMain0_not_prefix p _ _ n1 n2
  · unfold decodeMain1; split <;> simp [prefixRows]
  · unfold decodeMain2; split
    · exact aluR_not_prefix p _ _
    · exact aluMemHl_not_prefix _
  · rename_i h0 h1 h2
    have hx : xField op = 3#2 := by revert h0 h1 h2; generalize xField op = x; revert x; decide
    have hop : opByte 3#2 (yField op) (zField op) = op := hx ▸ opByte_fields op
    apply decodeMain3_not_prefix <;> rintro ⟨hy, hz⟩ <;> rw [hy, hz] at hop <;> subst hop <;> contradiction

theorem decodeCb_not_prefix (op : Byte) : decodeCb op ∉ prefixRows := by
  unfold decodeCb
  split <;> first
    | exact shiftR_not_prefix _ _
    | exact shiftMemHl_not_prefix _
    | simp [prefixRows]

theorem decodeIndexCb_not_prefix (x : Index) (o op : Byte) : decodeIndexCb x o op ∉ prefixRows := by
  unfold decodeIndexCb
  split <;> first
    | exact shiftRIndex_not_prefix _ _ _ _
    | exact shiftIndex_not_prefix _ _ _
    | (cases x <;> simp [prefixRows, pick])

theorem decodeEd_not_prefix (op n1 n2 : Byte) : decodeEd op n1 n2 ∉ prefixRows := by
  unfold decodeEd
  split
  · unfold decodeEd1
    split
    · split <;> simp [prefixRows]
    · split <;> simp [prefixRows]
    · split <;> simp [prefixRows]
    · split <;> simp [prefixRows]
    · simp [prefixRows]
    · split <;> simp [prefixRows]
    · simp [prefixRows]
    · unfold decodeEd17; split <;> simp [prefixRows]
  · unfold decodeEd2; split <;> simp [prefixRows]
  · simp [prefixRows]

/-- What DD or FD changes is no prefix row. -/
theorem changed_not_prefix (x : Index) (op n1 n2 : Byte) (i : Instr) (h : changed x op n1 n2 = some i) :
    i ∉ prefixRows := by
  unfold changed changed0 changed1 changed2 changed3 at h
  repeat' split at h
  all_goals first
    | (cases h; done)
    | (cases h; cases x <;> simp [prefixRows, pick]; done)
    | (cases h; first | exact aluHalf_not_prefix _ _ _ | exact aluIndex_not_prefix _ _ _)

/-- No four bytes decode to a prefix row. -/
theorem decode4_not_prefix (b0 b1 b2 b3 : Byte) : decode4 b0 b1 b2 b3 ∉ prefixRows := by
  have after : ∀ x, decodeAfterIndex x b1 b2 b3 ∉ prefixRows := by
    intro x
    unfold decodeAfterIndex
    split; · simp [prefixRows]
    split; · simp [prefixRows]
    split; · simp [prefixRows]
    split; · exact decodeIndexCb_not_prefix x b2 b3
    unfold decodeIndex
    cases hc : changed x b1 b2 b3 with
    | some i => exact changed_not_prefix x b1 b2 b3 i hc
    | none => exact decodeMain_not_prefix _ b1 b2 b3 ‹_› ‹_› ‹_› ‹_›
  unfold decode4
  split; · exact decodeCb_not_prefix b1
  split; · exact decodeEd_not_prefix b1 b2 b3
  split; · exact after .ix
  split; · exact after .iy
  exact decodeMain_not_prefix _ b0 b1 b2 ‹_› ‹_› ‹_› ‹_›

end Sys2Proof.Machine
end

