-- ==== Sys2Proof/Laws/Ops.lean ====
section
/-! SUPPORT. What the shared operations do, said once: stores, the stack, taking an interrupt, a step. -/

namespace Sys2Proof.Machine

/-- A property of a completed outcome. -/
theorem completes_next (u : State) (post : State → Prop) : completes (.next u) post ↔ post u :=
  ⟨fun ⟨t, h, hp⟩ => by cases h; exact hp, fun h => ⟨u, rfl, h⟩⟩

/-- A state whose R is that of the fetch has counted. -/
theorem counted_of_begin (s t : State) (len fetches : Nat) (h : t.r = (s.begin len fetches).r) :
    counted fetches s t := by
  unfold counted
  rw [h]
  exact State.toNat_begin_r s len fetches

/-- A state whose R is that of the fetch behind an unchanged prefix has counted. -/
theorem counted_of_beginP (s t : State) (p : Pfx) (len : Nat) (h : t.r = (s.beginP p len).r) :
    counted (1 + prefixLength p) s t := by
  unfold counted
  rw [h]
  exact State.toNat_beginP_r s p len

/-! ## Stores -/

/-- One write stores one byte. -/
theorem storesByte_of_write (s t : State) (a : Word) (v : Byte) (h : t.mem = s.mem.write a v) :
    storesByte a v s t := by
  have hr : ∀ x, t.memRead x = (s.memWrite a v).memRead x := fun x => State.memRead_congr (s.memWrite a v) t h x
  constructor
  · rw [hr, State.memRead_memWrite]
    unfold State.afterStore
    cases s.mem.kindAt a <;> simp
  · intro x hx
    rw [hr, State.memRead_memWrite, if_neg (fun q => hx q.1)]

/-- Two writes at different addresses, read at the first, at the second and elsewhere. -/
theorem memRead_two_writes (s t : State) (a b : Word) (v w : Byte) (hab : a ≠ b)
    (h : t.mem = (s.mem.write a v).write b w) :
    t.memRead a = s.afterStore a v ∧ t.memRead b = s.afterStore b w ∧
      ∀ x, x ≠ a → x ≠ b → t.memRead x = s.memRead x := by
  have hr : ∀ x, t.memRead x = ((s.memWrite a v).memWrite b w).memRead x := fun x =>
    State.memRead_congr ((s.memWrite a v).memWrite b w) t h x
  refine ⟨?_, ?_, ?_⟩
  · rw [hr, State.memRead_memWrite, if_neg (fun q => hab q.1), State.memRead_memWrite]
    unfold State.afterStore
    cases s.mem.kindAt a <;> simp
  · rw [hr, State.memRead_memWrite, State.memRead_memWrite]
    unfold State.afterStore
    simp only [State.memWrite_mem, Memory.write_kindAt]
    cases s.mem.kindAt b <;> simp [hab.symm]
  · intro x hxa hxb
    rw [hr, State.memRead_memWrite, if_neg (fun q => hxb q.1), State.memRead_memWrite, if_neg (fun q => hxa q.1)]

/-- Low byte first or high byte first, two writes store a word. -/
theorem storesWord_of_writes (s t : State) (a w : Word)
    (h : t.mem = (s.mem.write a (lo w)).write (a + 1) (hi w) ∨ t.mem = (s.mem.write (a + 1) (hi w)).write a (lo w)) :
    storesWord a w s t := by
  rcases h with h | h
  · exact memRead_two_writes s t a (a + 1) _ _ (word_succ_ne a).symm h
  · have := memRead_two_writes s t (a + 1) a _ _ (word_succ_ne a) h
    exact ⟨this.2.1, this.1, fun x h0 h1 => this.2.2 x h1 h0⟩

/-! ## The canonical form of memory -/

/-- Memory right after reset is in canonical form (log 2). -/
theorem State.reset_mem_wf : State.reset.mem.wf = true := rfl

/-- A store of a byte keeps the canonical form. -/
theorem State.memWrite_mem_wf (s : State) (a : Word) (v : Byte) (h : s.mem.wf = true) : (s.memWrite a v).mem.wf = true :=
  Memory.write_wf s.mem a v h

/-- A store of a word keeps it. -/
theorem State.memWrite16_mem_wf (s : State) (a w : Word) (h : s.mem.wf = true) : (s.memWrite16 a w).mem.wf = true :=
  Memory.write_wf _ _ _ (Memory.write_wf _ _ _ h)

/-- A store of a word, high byte first, keeps it. -/
theorem State.memWrite16HighFirst_mem_wf (s : State) (a w : Word) (h : s.mem.wf = true) :
    (s.memWrite16HighFirst a w).mem.wf = true :=
  Memory.write_wf _ _ _ (Memory.write_wf _ _ _ h)

/-- A push keeps it. -/
theorem State.push16_mem_wf (s : State) (w : Word) (h : s.mem.wf = true) : (s.push16 w).mem.wf = true :=
  State.memWrite16HighFirst_mem_wf { s with sp := s.sp - 2 } _ _ h

/-- Taking an interrupt keeps it. -/
theorem State.takeInterrupt_mem_wf (s : State) (k : Bool) (g : State → Word) (h : s.mem.wf = true) :
    (s.takeInterrupt k g).mem.wf = true := by
  unfold State.takeInterrupt
  simp only [State.jump_mem]
  exact State.push16_mem_wf _ _ h

/-- The placing of a program keeps it. -/
theorem State.withInstruction_mem_wf (s : State) (nbits w : Nat) (h : s.mem.wf = true) :
    (s.withInstruction nbits w).mem.wf = true :=
  Memory.placeBytes_wf _ s.mem _ h

/-! ## Taking an interrupt -/

/-- What the acceptance of an interrupt leaves (60_exceptions.md R510, R512). -/
theorem State.takeInterrupt_spec (s : State) (keepIff2 : Bool) (handler : State → Word) :
    ∃ u : State, s.takeInterrupt keepIff2 handler = u.jump (handler u) ∧
      u.sp = s.sp - 2 ∧ u.mem = (s.push16 s.pc).mem ∧ u.halted = false ∧ u.iff1 = false ∧
      u.iff2 = (keepIff2 && s.iff2) ∧ u.r = (s.countR 1).r :=
  ⟨_, rfl, rfl, rfl, rfl, rfl, rfl, rfl⟩

/-- The ways INT is accepted or refused (60_exceptions.md R512 to R516). -/
theorem State.acceptInt_cases (s : State) :
    (s.im = .im0 ∧ isRst s.busByte = true ∧
      s.acceptInt = .next (s.takeInterrupt false fun _ => rstTarget (yField s.busByte))) ∨
    (s.im = .im0 ∧ isRst s.busByte = false ∧ s.acceptInt = .refused (.mode0BusByteNotRst s.busByte)) ∨
    (s.im = .im1 ∧ s.acceptInt = .next (s.takeInterrupt false fun _ => 0x0038)) ∨
    (s.im = .im2 ∧
      s.acceptInt = .next (s.takeInterrupt false fun t => t.memRead16 (join t.i t.busByte))) := by
  unfold State.acceptInt
  cases h : s.im
  · cases hb : isRst s.busByte <;> simp
  · simp
  · simp

/-! ## A step -/

/-- The five things a step can be, with what selects each (60_exceptions.md R504). -/
theorem step_cases (s : State) :
    (s.sampleInputs.boundary = .resetEvent ∧ step s = .next s.sampleInputs.resetEvent) ∨
    (s.sampleInputs.boundary = .nmi ∧ step s = .next s.sampleInputs.clearInhibit.acceptNmi) ∨
    (s.sampleInputs.boundary = .int ∧ step s = s.sampleInputs.clearInhibit.acceptInt) ∨
    (s.sampleInputs.boundary = .haltedStep ∧ step s = .next s.sampleInputs.clearInhibit.haltedStep) ∨
    (s.sampleInputs.boundary = .instruction ∧
      step s = exec s.sampleInputs.fetched s.sampleInputs.clearInhibit) := by
  unfold step State.machineStep
  cases h : s.sampleInputs.boundary <;> simp [State.serve]

/-- Sampling the inputs changes only the lines, NMI_PENDING and the list of samples. -/
theorem State.sampleInputs_eq (s : State) :
    s.sampleInputs = { s with
      resetLine := s.sampleInputs.resetLine, nmiPending := s.sampleInputs.nmiPending
      intLine := s.sampleInputs.intLine, busByte := s.sampleInputs.busByte, inputs := s.sampleInputs.inputs } := by
  unfold State.sampleInputs
  cases s.inputs <;> rfl

end Sys2Proof.Machine
end

