-- ==== Sys2Proof/Laws/Frame.lean ====
section
/-! SUPPORT. What each shared operation leaves alone, said once: the frame of a meaning is put together from these by
`changesOnly_trans` and `changesOnly_mono`, with no case split over the parts of the state. -/

namespace Sys2Proof.Machine

/-- A state differs from itself in no part. -/
theorem Part.same_refl (p : Part) (s : State) : p.same s s := by cases p <;> first | rfl | (intro; rfl)

/-- Sameness of a part carries over two transitions. -/
theorem Part.same_trans (p : Part) (s t u : State) (h1 : p.same s t) (h2 : p.same t u) : p.same s u := by
  cases p <;> first | exact Eq.trans h2 h1 | exact fun a => (h2 a).trans (h1 a)

/-- A state differs from itself in no part. -/
theorem changesOnly_refl (ps : List Part) (s : State) : changesOnly ps s s := fun p _ => p.same_refl s

/-- A longer list allows more. -/
theorem changesOnly_mono (ps qs : List Part) (s t : State) (h : changesOnly ps s t) (hsub : ∀ p ∈ ps, p ∈ qs) :
    changesOnly qs s t := fun p hp => h p fun q => hp (hsub p q)

/-- Two transitions change what the one or the other changes. -/
theorem changesOnly_trans (ps qs : List Part) (s t u : State) (h1 : changesOnly ps s t) (h2 : changesOnly qs t u) :
    changesOnly (ps ++ qs) s u := fun p hp =>
  p.same_trans s t u (h1 p fun q => hp (List.mem_append.2 (.inl q))) (h2 p fun q => hp (List.mem_append.2 (.inr q)))

/-! ## The shared operations -/

variable (s : State)

/-- Writes of single registers by name. -/
theorem State.setF_changesOnly (v : Byte) : changesOnly [.f] s { s with f := v } := by
  intro q hq; cases q <;> first | rfl | (intro; rfl) | (exfalso; apply hq; simp)
theorem State.setA_changesOnly (v : Byte) : changesOnly [.a] s { s with a := v } := by
  intro q hq; cases q <;> first | rfl | (intro; rfl) | (exfalso; apply hq; simp)
theorem State.setSp_changesOnly (w : Word) : changesOnly [.sp] s { s with sp := w } := by
  intro q hq; cases q <;> first | rfl | (intro; rfl) | (exfalso; apply hq; simp)
theorem State.setBF_changesOnly (v f : Byte) : changesOnly [.b, .f] s { s with b := v, f := f } := by
  intro q hq; cases q <;> first | rfl | (intro; rfl) | (exfalso; apply hq; simp)
theorem State.setIff1_changesOnly (v : Bool) : changesOnly [.iff1] s { s with iff1 := v } := by
  intro q hq; cases q <;> first | rfl | (intro; rfl) | (exfalso; apply hq; simp)
theorem State.clearNmi_changesOnly : changesOnly [.nmiPending] s { s with nmiPending := false } := by
  intro q hq; cases q <;> first | rfl | (intro; rfl) | (exfalso; apply hq; simp)
theorem State.interruptFlags_changesOnly (k : Bool) :
    changesOnly [.halted, .iff1, .iff2] s { s with halted := false, iff1 := false, iff2 := k && s.iff2 } := by
  intro q hq; cases q <;> first | rfl | (intro; rfl) | (exfalso; apply hq; simp)

theorem State.memWrite_changesOnly (a : Word) (v : Byte) : changesOnly [.bytes] s (s.memWrite a v) := by
  intro q hq; cases q <;> first | rfl | exact Memory.write_map _ _ _ | (exfalso; apply hq; simp)
theorem State.memWrite16_changesOnly (a w : Word) : changesOnly [.bytes] s (s.memWrite16 a w) :=
  changesOnly_mono _ _ _ _ (changesOnly_trans _ _ _ _ _ (State.memWrite_changesOnly _ _ _) (State.memWrite_changesOnly _ _ _))
    (by decide)
theorem State.memWrite16HighFirst_changesOnly (a w : Word) :
    changesOnly [.bytes] s (s.memWrite16HighFirst a w) :=
  changesOnly_mono _ _ _ _ (changesOnly_trans _ _ _ _ _ (State.memWrite_changesOnly _ _ _) (State.memWrite_changesOnly _ _ _))
    (by decide)
theorem State.push16_changesOnly (w : Word) : changesOnly [.sp, .bytes] s (s.push16 w) :=
  changesOnly_mono _ _ _ _ (changesOnly_trans _ _ _ _ _ (State.setSp_changesOnly s (s.sp - 2)) (State.memWrite16HighFirst_changesOnly _ _ _))
    (by decide)
theorem State.dropWord_changesOnly : changesOnly [.sp] s (s.dropWord) :=
  changesOnly_mono _ _ _ _ (State.setSp_changesOnly s (s.sp + 2))
    (by decide)
theorem State.countR_changesOnly (m : Nat) : changesOnly [.r] s (s.countR m) := by
  intro q hq; cases q <;> first | rfl | (intro; rfl) | (exfalso; apply hq; simp)
theorem State.begin_changesOnly (len fetches : Nat) : changesOnly [.pc, .r] s (s.begin len fetches) := by
  intro q hq; cases q <;> first | rfl | (intro; rfl) | (exfalso; apply hq; simp)
theorem State.beginP_changesOnly (p : Pfx) (len : Nat) : changesOnly [.pc, .r] s (s.beginP p len) := by
  intro q hq; cases q <;> first | rfl | (intro; rfl) | (exfalso; apply hq; simp)
theorem State.again_changesOnly (len : Nat) : changesOnly [.pc] s (s.again len) := by
  intro q hq; cases q <;> first | rfl | (intro; rfl) | (exfalso; apply hq; simp)
theorem State.jump_changesOnly (target : Word) : changesOnly [.pc] s (s.jump target) := by
  intro q hq; cases q <;> first | rfl | (intro; rfl) | (exfalso; apply hq; simp)
theorem State.portRead_changesOnly (port : Word) : changesOnly [.ports] s (s.portRead port) := by
  intro q hq; cases q <;> first | rfl | (intro; rfl) | (exfalso; apply hq; simp)
theorem State.portWrite_changesOnly (port : Word) (v : Byte) : changesOnly [.ports] s (s.portWrite port v) := by
  intro q hq; cases q <;> first | rfl | (intro; rfl) | (exfalso; apply hq; simp)
theorem State.drawn_changesOnly : changesOnly [.draws] s (s.drawn) := by
  intro q hq; cases q <;> first | rfl | (intro; rfl) | (exfalso; apply hq; simp)
theorem State.takeInterrupt_changesOnly (k : Bool) (g : State → Word) :
    changesOnly [.pc, .sp, .bytes, .halted, .iff1, .iff2, .r] s (s.takeInterrupt k g) :=
  changesOnly_mono _ _ _ _ (changesOnly_trans _ _ _ _ _
    (changesOnly_trans _ _ _ _ _ (changesOnly_trans _ _ _ _ _ (State.interruptFlags_changesOnly s k) (State.countR_changesOnly _ 1)) (State.push16_changesOnly _ s.pc)) (State.jump_changesOnly _ _))
    (by decide)
/-- NMI keeps IFF2. -/
theorem State.acceptNmi_changesOnly :
    changesOnly [.pc, .sp, .bytes, .nmiPending, .halted, .iff1, .r] s (s.acceptNmi) := by
  intro q hq
  by_cases h : q = .iff2
  · subst h
    simp [Part.same, State.acceptNmi, State.takeInterrupt]
  · refine q.same_trans s { s with nmiPending := false } _ (State.clearNmi_changesOnly s q ?_)
      (State.takeInterrupt_changesOnly _ true _ q ?_)
    · intro hm; exact hq (by simp_all)
    · intro hm; exact hq (by simp_all)
theorem State.ret_changesOnly : changesOnly [.pc, .sp] s (s.ret) :=
  changesOnly_mono _ _ _ _ (changesOnly_trans _ _ _ _ _ (State.dropWord_changesOnly s) (State.jump_changesOnly _ _))
    (by decide)
theorem State.retFromNmi_changesOnly : changesOnly [.pc, .sp, .iff1] s (s.retFromNmi) :=
  changesOnly_mono _ _ _ _ (changesOnly_trans _ _ _ _ _ (State.ret_changesOnly s) (State.setIff1_changesOnly s.ret s.iff2)) (by decide)
theorem State.call_changesOnly (target : Word) : changesOnly [.pc, .sp, .bytes] s (s.call target) :=
  changesOnly_mono _ _ _ _ (changesOnly_trans _ _ _ _ _ (State.push16_changesOnly s _) (State.jump_changesOnly _ _))
    (by decide)
theorem State.setReg8_changesOnly (r : Reg8) (v : Byte) : changesOnly [partOfReg8 r] s (s.setReg8 r v) := by
  cases r <;> (intro q hq; cases q <;> first | rfl | (intro; rfl) | (exfalso; apply hq; simp [partOfReg8]))
theorem State.setIndex_changesOnly (x : Index) (w : Word) : changesOnly [partOfIndex x] s (s.setIndex x w) := by
  cases x <;> (intro q hq; cases q <;> first | rfl | (intro; rfl) | (exfalso; apply hq; simp [partOfIndex]))
theorem State.setHalf_changesOnly (x : Index) (y : Half) (v : Byte) :
    changesOnly [partOfIndex x] s (s.setHalf x y v) :=
  State.setIndex_changesOnly s x _
theorem State.setRegX_changesOnly (x : Index) (r : RegX) (v : Byte) :
    changesOnly [partOfRegX x r] s (s.setRegX x r v) := by
  cases r <;> first
    | exact State.setIndex_changesOnly s x _
    | (intro q hq; cases q <;> first | rfl | (intro; rfl) | (exfalso; apply hq; simp [partOfRegX]))
theorem State.setBc_changesOnly (w : Word) : changesOnly [.b, .c] s (s.setBc w) := by
  intro q hq; cases q <;> first | rfl | (intro; rfl) | (exfalso; apply hq; simp)
theorem State.setDe_changesOnly (w : Word) : changesOnly [.d, .e] s (s.setDe w) := by
  intro q hq; cases q <;> first | rfl | (intro; rfl) | (exfalso; apply hq; simp)
theorem State.setHl_changesOnly (w : Word) : changesOnly [.h, .l] s (s.setHl w) := by
  intro q hq; cases q <;> first | rfl | (intro; rfl) | (exfalso; apply hq; simp)
theorem State.setAf_changesOnly (w : Word) : changesOnly [.a, .f] s (s.setAf w) := by
  intro q hq; cases q <;> first | rfl | (intro; rfl) | (exfalso; apply hq; simp)
theorem State.setAF_changesOnly (vf : Byte × Byte) : changesOnly [.a, .f] s (s.setAF vf) := by
  intro q hq; cases q <;> first | rfl | (intro; rfl) | (exfalso; apply hq; simp)
theorem State.setHlF_changesOnly (wf : Word × Byte) : changesOnly [.h, .l, .f] s (s.setHlF wf) := by
  intro q hq; cases q <;> first | rfl | (intro; rfl) | (exfalso; apply hq; simp)
theorem State.setPair_changesOnly (q : Pair) (w : Word) : changesOnly (partsOfPair q) s (s.setPair q w) := by
  cases q
  · exact State.setBc_changesOnly s w
  · exact State.setDe_changesOnly s w
  · exact State.setHl_changesOnly s w
  · exact State.setSp_changesOnly s w
theorem State.setStackPair_changesOnly (q : StackPair) (w : Word) :
    changesOnly (partsOfStackPair q) s (s.setStackPair q w) := by
  cases q
  · exact State.setBc_changesOnly s w
  · exact State.setDe_changesOnly s w
  · exact State.setHl_changesOnly s w
theorem State.exchangeTop_changesOnly (w : Word) : changesOnly [.bytes] s (s.exchangeTop w) :=
  changesOnly_mono _ _ _ _ (State.memWrite16HighFirst_changesOnly s _ _)
    (by decide)
theorem State.stepMem_changesOnly (g : Byte → Byte → Byte × Byte) (a : Word) :
    changesOnly [.f, .bytes] s (s.stepMem g a) :=
  changesOnly_mono _ _ _ _ (changesOnly_trans _ _ _ _ _ (State.memWrite_changesOnly s _ _) (State.setF_changesOnly _ _))
    (by decide)
theorem State.shiftAcc_changesOnly (g : Byte → Bool → Byte × Bool) : changesOnly [.a, .f] s (s.shiftAcc g) := by
  intro q hq; cases q <;> first | rfl | (intro; rfl) | (exfalso; apply hq; simp)
theorem State.shiftMem_changesOnly (g : Byte → Bool → Byte × Bool) (a : Word) :
    changesOnly [.f, .bytes] s (s.shiftMem g a) :=
  changesOnly_mono _ _ _ _ (changesOnly_trans _ _ _ _ _ (State.memWrite_changesOnly s _ _) (State.setF_changesOnly _ _))
    (by decide)
theorem State.digitRotate_changesOnly (m v : Byte) : changesOnly [.a, .f, .bytes] s (s.digitRotate m v) :=
  changesOnly_mono _ _ _ _ (changesOnly_trans _ _ _ _ _ (State.memWrite_changesOnly s _ _) (State.setAF_changesOnly _ (v, byteFlagsKeepC v s.f)))
    (by decide)
theorem State.ldStep_changesOnly (step : Word) :
    changesOnly [.b, .c, .d, .e, .h, .l, .f, .bytes] s (s.ldStep step) :=
  changesOnly_mono _ _ _ _ (changesOnly_trans _ _ _ _ _
    (changesOnly_trans _ _ _ _ _ (changesOnly_trans _ _ _ _ _
    (changesOnly_trans _ _ _ _ _ (State.memWrite_changesOnly s _ _) (State.setHl_changesOnly _ _)) (State.setDe_changesOnly _ _)) (State.setBc_changesOnly _ _)) (State.setF_changesOnly _ _))
    (by decide)
theorem State.cpStep_changesOnly (step : Word) : changesOnly [.b, .c, .h, .l, .f] s (s.cpStep step) :=
  changesOnly_mono _ _ _ _ (changesOnly_trans _ _ _ _ _
    (changesOnly_trans _ _ _ _ _ (State.setHl_changesOnly s _) (State.setBc_changesOnly _ _)) (State.setF_changesOnly _ _))
    (by decide)
theorem State.inStep_changesOnly (step : Word) :
    changesOnly [.b, .h, .l, .f, .bytes, .ports, .draws] s (s.inStep step) :=
  changesOnly_mono _ _ _ _ (changesOnly_trans _ _ _ _ _
    (changesOnly_trans _ _ _ _ _ (changesOnly_trans _ _ _ _ _
    (changesOnly_trans _ _ _ _ _ (State.portRead_changesOnly s _) (State.memWrite_changesOnly _ _ _)) (State.setHl_changesOnly _ _)) (State.drawn_changesOnly _)) (State.setBF_changesOnly _ _ _))
    (by decide)
theorem State.outStep_changesOnly (step : Word) :
    changesOnly [.b, .h, .l, .f, .ports, .draws] s (s.outStep step) :=
  changesOnly_mono _ _ _ _ (changesOnly_trans _ _ _ _ _
    (changesOnly_trans _ _ _ _ _ (changesOnly_trans _ _ _ _ _ (State.portWrite_changesOnly s _ _) (State.setHl_changesOnly _ _)) (State.drawn_changesOnly _)) (State.setBF_changesOnly _ _ _))
    (by decide)
theorem State.repeatWhileBc_changesOnly : changesOnly [.pc] s (s.repeatWhileBc) := by
  unfold State.repeatWhileBc
  split
  · exact State.again_changesOnly s 2
  · exact changesOnly_refl _ s
theorem State.repeatWhileBcNotZ_changesOnly : changesOnly [.pc] s (s.repeatWhileBcNotZ) := by
  unfold State.repeatWhileBcNotZ
  split
  · exact State.again_changesOnly s 2
  · exact changesOnly_refl _ s
theorem State.repeatWhileB_changesOnly : changesOnly [.pc] s (s.repeatWhileB) := by
  unfold State.repeatWhileB
  split
  · exact State.again_changesOnly s 2
  · exact changesOnly_refl _ s
theorem State.clearInhibit_changesOnly : changesOnly [.inhibit] s (s.clearInhibit) := by
  intro q hq; cases q <;> first | rfl | (intro; rfl) | (exfalso; apply hq; simp)
theorem State.haltedStep_changesOnly : changesOnly [.r] s (s.haltedStep) := by
  intro q hq; cases q <;> first | rfl | (intro; rfl) | (exfalso; apply hq; simp)

end Sys2Proof.Machine
end

