-- ==== Sys2Proof/Laws/PerInstr.lean ====
section
/-! SUPPORT. One lemma per constructor of Instr: an encoding is one to four bytes long, and the instruction's own length is
no more than that (the byte after an ignored prefix is written but not consumed, 30_encoding.md R112, R137). -/

/-- The encoding of an instruction is 1 to 4 bytes and covers the instruction (30_encoding.md R112). -/
def Sys2Proof.Laws.EncodeLength.Statement (i : Sys2Proof.Instr) : Prop :=
  1 ≤ Sys2Proof.size i ∧ Sys2Proof.size i ≤ (Sys2Proof.encode i).length ∧ (Sys2Proof.encode i).length ≤ 4

namespace Sys2Proof.Laws

/-- The three comparisons by computation. -/
theorem encodeLength_of (i : Instr)
    (h : (Nat.ble 1 (size i) && Nat.ble (size i) (encode i).length && Nat.ble (encode i).length 4) = true) :
    EncodeLength.Statement i := by
  simp only [Bool.and_eq_true, Nat.ble_eq] at h
  exact ⟨h.1.1, h.1.2, h.2⟩

theorem EncodeLength.nop (p : Pfx) : EncodeLength.Statement (.nop p) :=
  match p with
  | .plain => encodeLength_of _ rfl
  | .dd => encodeLength_of _ rfl
  | .fd => encodeLength_of _ rfl
theorem EncodeLength.exAfAf (p : Pfx) : EncodeLength.Statement (.exAfAf p) :=
  match p with
  | .plain => encodeLength_of _ rfl
  | .dd => encodeLength_of _ rfl
  | .fd => encodeLength_of _ rfl
theorem EncodeLength.djnz (p : Pfx) (o : Byte) : EncodeLength.Statement (.djnz p o) :=
  match p with
  | .plain => encodeLength_of _ rfl
  | .dd => encodeLength_of _ rfl
  | .fd => encodeLength_of _ rfl
theorem EncodeLength.jr (p : Pfx) (o : Byte) : EncodeLength.Statement (.jr p o) :=
  match p with
  | .plain => encodeLength_of _ rfl
  | .dd => encodeLength_of _ rfl
  | .fd => encodeLength_of _ rfl
theorem EncodeLength.jrCc (p : Pfx) (cc : Cond4) (o : Byte) : EncodeLength.Statement (.jrCc p cc o) :=
  match p with
  | .plain => encodeLength_of _ rfl
  | .dd => encodeLength_of _ rfl
  | .fd => encodeLength_of _ rfl
theorem EncodeLength.ldRrNn (p : Pfx) (q : Pair) (nn : Word) : EncodeLength.Statement (.ldRrNn p q nn) :=
  match p with
  | .plain => encodeLength_of _ rfl
  | .dd => encodeLength_of _ rfl
  | .fd => encodeLength_of _ rfl
theorem EncodeLength.addHlRr (q : Pair) : EncodeLength.Statement (.addHlRr q) := encodeLength_of _ rfl
theorem EncodeLength.ldMemBcA (p : Pfx) : EncodeLength.Statement (.ldMemBcA p) :=
  match p with
  | .plain => encodeLength_of _ rfl
  | .dd => encodeLength_of _ rfl
  | .fd => encodeLength_of _ rfl
theorem EncodeLength.ldAMemBc (p : Pfx) : EncodeLength.Statement (.ldAMemBc p) :=
  match p with
  | .plain => encodeLength_of _ rfl
  | .dd => encodeLength_of _ rfl
  | .fd => encodeLength_of _ rfl
theorem EncodeLength.ldMemDeA (p : Pfx) : EncodeLength.Statement (.ldMemDeA p) :=
  match p with
  | .plain => encodeLength_of _ rfl
  | .dd => encodeLength_of _ rfl
  | .fd => encodeLength_of _ rfl
theorem EncodeLength.ldAMemDe (p : Pfx) : EncodeLength.Statement (.ldAMemDe p) :=
  match p with
  | .plain => encodeLength_of _ rfl
  | .dd => encodeLength_of _ rfl
  | .fd => encodeLength_of _ rfl
theorem EncodeLength.ldMemNnHl (nn : Word) : EncodeLength.Statement (.ldMemNnHl nn) := encodeLength_of _ rfl
theorem EncodeLength.ldHlMemNn (nn : Word) : EncodeLength.Statement (.ldHlMemNn nn) := encodeLength_of _ rfl
theorem EncodeLength.ldMemNnA (p : Pfx) (nn : Word) : EncodeLength.Statement (.ldMemNnA p nn) :=
  match p with
  | .plain => encodeLength_of _ rfl
  | .dd => encodeLength_of _ rfl
  | .fd => encodeLength_of _ rfl
theorem EncodeLength.ldAMemNn (p : Pfx) (nn : Word) : EncodeLength.Statement (.ldAMemNn p nn) :=
  match p with
  | .plain => encodeLength_of _ rfl
  | .dd => encodeLength_of _ rfl
  | .fd => encodeLength_of _ rfl
theorem EncodeLength.incRr (p : Pfx) (q : Pair) : EncodeLength.Statement (.incRr p q) :=
  match p with
  | .plain => encodeLength_of _ rfl
  | .dd => encodeLength_of _ rfl
  | .fd => encodeLength_of _ rfl
theorem EncodeLength.decRr (p : Pfx) (q : Pair) : EncodeLength.Statement (.decRr p q) :=
  match p with
  | .plain => encodeLength_of _ rfl
  | .dd => encodeLength_of _ rfl
  | .fd => encodeLength_of _ rfl
theorem EncodeLength.incR (p : Pfx) (r : Reg8) : EncodeLength.Statement (.incR p r) :=
  match p with
  | .plain => encodeLength_of _ rfl
  | .dd => encodeLength_of _ rfl
  | .fd => encodeLength_of _ rfl
theorem EncodeLength.incMemHl : EncodeLength.Statement .incMemHl := encodeLength_of _ rfl
theorem EncodeLength.decR (p : Pfx) (r : Reg8) : EncodeLength.Statement (.decR p r) :=
  match p with
  | .plain => encodeLength_of _ rfl
  | .dd => encodeLength_of _ rfl
  | .fd => encodeLength_of _ rfl
theorem EncodeLength.decMemHl : EncodeLength.Statement .decMemHl := encodeLength_of _ rfl
theorem EncodeLength.ldRN (p : Pfx) (r : Reg8) (n : Byte) : EncodeLength.Statement (.ldRN p r n) :=
  match p with
  | .plain => encodeLength_of _ rfl
  | .dd => encodeLength_of _ rfl
  | .fd => encodeLength_of _ rfl
theorem EncodeLength.ldMemHlN (n : Byte) : EncodeLength.Statement (.ldMemHlN n) := encodeLength_of _ rfl
theorem EncodeLength.rlca (p : Pfx) : EncodeLength.Statement (.rlca p) :=
  match p with
  | .plain => encodeLength_of _ rfl
  | .dd => encodeLength_of _ rfl
  | .fd => encodeLength_of _ rfl
theorem EncodeLength.rrca (p : Pfx) : EncodeLength.Statement (.rrca p) :=
  match p with
  | .plain => encodeLength_of _ rfl
  | .dd => encodeLength_of _ rfl
  | .fd => encodeLength_of _ rfl
theorem EncodeLength.rla (p : Pfx) : EncodeLength.Statement (.rla p) :=
  match p with
  | .plain => encodeLength_of _ rfl
  | .dd => encodeLength_of _ rfl
  | .fd => encodeLength_of _ rfl
theorem EncodeLength.rra (p : Pfx) : EncodeLength.Statement (.rra p) :=
  match p with
  | .plain => encodeLength_of _ rfl
  | .dd => encodeLength_of _ rfl
  | .fd => encodeLength_of _ rfl
theorem EncodeLength.daa (p : Pfx) : EncodeLength.Statement (.daa p) :=
  match p with
  | .plain => encodeLength_of _ rfl
  | .dd => encodeLength_of _ rfl
  | .fd => encodeLength_of _ rfl
theorem EncodeLength.cpl (p : Pfx) : EncodeLength.Statement (.cpl p) :=
  match p with
  | .plain => encodeLength_of _ rfl
  | .dd => encodeLength_of _ rfl
  | .fd => encodeLength_of _ rfl
theorem EncodeLength.scf (p : Pfx) : EncodeLength.Statement (.scf p) :=
  match p with
  | .plain => encodeLength_of _ rfl
  | .dd => encodeLength_of _ rfl
  | .fd => encodeLength_of _ rfl
theorem EncodeLength.ccf (p : Pfx) : EncodeLength.Statement (.ccf p) :=
  match p with
  | .plain => encodeLength_of _ rfl
  | .dd => encodeLength_of _ rfl
  | .fd => encodeLength_of _ rfl
theorem EncodeLength.ldDR (p : Pfx) (rd : Reg8) (r : Reg8) : EncodeLength.Statement (.ldDR p rd r) :=
  match p with
  | .plain => encodeLength_of _ rfl
  | .dd => encodeLength_of _ rfl
  | .fd => encodeLength_of _ rfl
theorem EncodeLength.ldDMemHl (rd : Reg8) : EncodeLength.Statement (.ldDMemHl rd) := encodeLength_of _ rfl
theorem EncodeLength.ldMemHlR (r : Reg8) : EncodeLength.Statement (.ldMemHlR r) := encodeLength_of _ rfl
theorem EncodeLength.halt (p : Pfx) : EncodeLength.Statement (.halt p) :=
  match p with
  | .plain => encodeLength_of _ rfl
  | .dd => encodeLength_of _ rfl
  | .fd => encodeLength_of _ rfl
theorem EncodeLength.addR (p : Pfx) (r : Reg8) : EncodeLength.Statement (.addR p r) :=
  match p with
  | .plain => encodeLength_of _ rfl
  | .dd => encodeLength_of _ rfl
  | .fd => encodeLength_of _ rfl
theorem EncodeLength.addMemHl : EncodeLength.Statement .addMemHl := encodeLength_of _ rfl
theorem EncodeLength.adcR (p : Pfx) (r : Reg8) : EncodeLength.Statement (.adcR p r) :=
  match p with
  | .plain => encodeLength_of _ rfl
  | .dd => encodeLength_of _ rfl
  | .fd => encodeLength_of _ rfl
theorem EncodeLength.adcMemHl : EncodeLength.Statement .adcMemHl := encodeLength_of _ rfl
theorem EncodeLength.subR (p : Pfx) (r : Reg8) : EncodeLength.Statement (.subR p r) :=
  match p with
  | .plain => encodeLength_of _ rfl
  | .dd => encodeLength_of _ rfl
  | .fd => encodeLength_of _ rfl
theorem EncodeLength.subMemHl : EncodeLength.Statement .subMemHl := encodeLength_of _ rfl
theorem EncodeLength.sbcR (p : Pfx) (r : Reg8) : EncodeLength.Statement (.sbcR p r) :=
  match p with
  | .plain => encodeLength_of _ rfl
  | .dd => encodeLength_of _ rfl
  | .fd => encodeLength_of _ rfl
theorem EncodeLength.sbcMemHl : EncodeLength.Statement .sbcMemHl := encodeLength_of _ rfl
theorem EncodeLength.andR (p : Pfx) (r : Reg8) : EncodeLength.Statement (.andR p r) :=
  match p with
  | .plain => encodeLength_of _ rfl
  | .dd => encodeLength_of _ rfl
  | .fd => encodeLength_of _ rfl
theorem EncodeLength.andMemHl : EncodeLength.Statement .andMemHl := encodeLength_of _ rfl
theorem EncodeLength.xorR (p : Pfx) (r : Reg8) : EncodeLength.Statement (.xorR p r) :=
  match p with
  | .plain => encodeLength_of _ rfl
  | .dd => encodeLength_of _ rfl
  | .fd => encodeLength_of _ rfl
theorem EncodeLength.xorMemHl : EncodeLength.Statement .xorMemHl := encodeLength_of _ rfl
theorem EncodeLength.orR (p : Pfx) (r : Reg8) : EncodeLength.Statement (.orR p r) :=
  match p with
  | .plain => encodeLength_of _ rfl
  | .dd => encodeLength_of _ rfl
  | .fd => encodeLength_of _ rfl
theorem EncodeLength.orMemHl : EncodeLength.Statement .orMemHl := encodeLength_of _ rfl
theorem EncodeLength.cpR (p : Pfx) (r : Reg8) : EncodeLength.Statement (.cpR p r) :=
  match p with
  | .plain => encodeLength_of _ rfl
  | .dd => encodeLength_of _ rfl
  | .fd => encodeLength_of _ rfl
theorem EncodeLength.cpMemHl : EncodeLength.Statement .cpMemHl := encodeLength_of _ rfl
theorem EncodeLength.retC (p : Pfx) (cc : Cond) : EncodeLength.Statement (.retC p cc) :=
  match p with
  | .plain => encodeLength_of _ rfl
  | .dd => encodeLength_of _ rfl
  | .fd => encodeLength_of _ rfl
theorem EncodeLength.popRs (p : Pfx) (q : StackPair) : EncodeLength.Statement (.popRs p q) :=
  match p with
  | .plain => encodeLength_of _ rfl
  | .dd => encodeLength_of _ rfl
  | .fd => encodeLength_of _ rfl
theorem EncodeLength.popAf (p : Pfx) : EncodeLength.Statement (.popAf p) :=
  match p with
  | .plain => encodeLength_of _ rfl
  | .dd => encodeLength_of _ rfl
  | .fd => encodeLength_of _ rfl
theorem EncodeLength.ret (p : Pfx) : EncodeLength.Statement (.ret p) :=
  match p with
  | .plain => encodeLength_of _ rfl
  | .dd => encodeLength_of _ rfl
  | .fd => encodeLength_of _ rfl
theorem EncodeLength.exx (p : Pfx) : EncodeLength.Statement (.exx p) :=
  match p with
  | .plain => encodeLength_of _ rfl
  | .dd => encodeLength_of _ rfl
  | .fd => encodeLength_of _ rfl
theorem EncodeLength.jpHl : EncodeLength.Statement .jpHl := encodeLength_of _ rfl
theorem EncodeLength.ldSpHl : EncodeLength.Statement .ldSpHl := encodeLength_of _ rfl
theorem EncodeLength.jpCNn (p : Pfx) (cc : Cond) (nn : Word) : EncodeLength.Statement (.jpCNn p cc nn) :=
  match p with
  | .plain => encodeLength_of _ rfl
  | .dd => encodeLength_of _ rfl
  | .fd => encodeLength_of _ rfl
theorem EncodeLength.jpNn (p : Pfx) (nn : Word) : EncodeLength.Statement (.jpNn p nn) :=
  match p with
  | .plain => encodeLength_of _ rfl
  | .dd => encodeLength_of _ rfl
  | .fd => encodeLength_of _ rfl
theorem EncodeLength.outNA (p : Pfx) (n : Byte) : EncodeLength.Statement (.outNA p n) :=
  match p with
  | .plain => encodeLength_of _ rfl
  | .dd => encodeLength_of _ rfl
  | .fd => encodeLength_of _ rfl
theorem EncodeLength.inAN (p : Pfx) (n : Byte) : EncodeLength.Statement (.inAN p n) :=
  match p with
  | .plain => encodeLength_of _ rfl
  | .dd => encodeLength_of _ rfl
  | .fd => encodeLength_of _ rfl
theorem EncodeLength.exSpHl : EncodeLength.Statement .exSpHl := encodeLength_of _ rfl
theorem EncodeLength.exDeHl (p : Pfx) : EncodeLength.Statement (.exDeHl p) :=
  match p with
  | .plain => encodeLength_of _ rfl
  | .dd => encodeLength_of _ rfl
  | .fd => encodeLength_of _ rfl
theorem EncodeLength.di (p : Pfx) : EncodeLength.Statement (.di p) :=
  match p with
  | .plain => encodeLength_of _ rfl
  | .dd => encodeLength_of _ rfl
  | .fd => encodeLength_of _ rfl
theorem EncodeLength.ei (p : Pfx) : EncodeLength.Statement (.ei p) :=
  match p with
  | .plain => encodeLength_of _ rfl
  | .dd => encodeLength_of _ rfl
  | .fd => encodeLength_of _ rfl
theorem EncodeLength.callCNn (p : Pfx) (cc : Cond) (nn : Word) : EncodeLength.Statement (.callCNn p cc nn) :=
  match p with
  | .plain => encodeLength_of _ rfl
  | .dd => encodeLength_of _ rfl
  | .fd => encodeLength_of _ rfl
theorem EncodeLength.pushRs (p : Pfx) (q : StackPair) : EncodeLength.Statement (.pushRs p q) :=
  match p with
  | .plain => encodeLength_of _ rfl
  | .dd => encodeLength_of _ rfl
  | .fd => encodeLength_of _ rfl
theorem EncodeLength.pushAf (p : Pfx) : EncodeLength.Statement (.pushAf p) :=
  match p with
  | .plain => encodeLength_of _ rfl
  | .dd => encodeLength_of _ rfl
  | .fd => encodeLength_of _ rfl
theorem EncodeLength.callNn (p : Pfx) (nn : Word) : EncodeLength.Statement (.callNn p nn) :=
  match p with
  | .plain => encodeLength_of _ rfl
  | .dd => encodeLength_of _ rfl
  | .fd => encodeLength_of _ rfl
theorem EncodeLength.addN (p : Pfx) (n : Byte) : EncodeLength.Statement (.addN p n) :=
  match p with
  | .plain => encodeLength_of _ rfl
  | .dd => encodeLength_of _ rfl
  | .fd => encodeLength_of _ rfl
theorem EncodeLength.adcN (p : Pfx) (n : Byte) : EncodeLength.Statement (.adcN p n) :=
  match p with
  | .plain => encodeLength_of _ rfl
  | .dd => encodeLength_of _ rfl
  | .fd => encodeLength_of _ rfl
theorem EncodeLength.subN (p : Pfx) (n : Byte) : EncodeLength.Statement (.subN p n) :=
  match p with
  | .plain => encodeLength_of _ rfl
  | .dd => encodeLength_of _ rfl
  | .fd => encodeLength_of _ rfl
theorem EncodeLength.sbcN (p : Pfx) (n : Byte) : EncodeLength.Statement (.sbcN p n) :=
  match p with
  | .plain => encodeLength_of _ rfl
  | .dd => encodeLength_of _ rfl
  | .fd => encodeLength_of _ rfl
theorem EncodeLength.andN (p : Pfx) (n : Byte) : EncodeLength.Statement (.andN p n) :=
  match p with
  | .plain => encodeLength_of _ rfl
  | .dd => encodeLength_of _ rfl
  | .fd => encodeLength_of _ rfl
theorem EncodeLength.xorN (p : Pfx) (n : Byte) : EncodeLength.Statement (.xorN p n) :=
  match p with
  | .plain => encodeLength_of _ rfl
  | .dd => encodeLength_of _ rfl
  | .fd => encodeLength_of _ rfl
theorem EncodeLength.orN (p : Pfx) (n : Byte) : EncodeLength.Statement (.orN p n) :=
  match p with
  | .plain => encodeLength_of _ rfl
  | .dd => encodeLength_of _ rfl
  | .fd => encodeLength_of _ rfl
theorem EncodeLength.cpN (p : Pfx) (n : Byte) : EncodeLength.Statement (.cpN p n) :=
  match p with
  | .plain => encodeLength_of _ rfl
  | .dd => encodeLength_of _ rfl
  | .fd => encodeLength_of _ rfl
theorem EncodeLength.rst (p : Pfx) (v : BitVec 3) : EncodeLength.Statement (.rst p v) :=
  match p with
  | .plain => encodeLength_of _ rfl
  | .dd => encodeLength_of _ rfl
  | .fd => encodeLength_of _ rfl
theorem EncodeLength.rlcR (r : Reg8) : EncodeLength.Statement (.rlcR r) := encodeLength_of _ rfl
theorem EncodeLength.rlcMemHl : EncodeLength.Statement .rlcMemHl := encodeLength_of _ rfl
theorem EncodeLength.rrcR (r : Reg8) : EncodeLength.Statement (.rrcR r) := encodeLength_of _ rfl
theorem EncodeLength.rrcMemHl : EncodeLength.Statement .rrcMemHl := encodeLength_of _ rfl
theorem EncodeLength.rlR (r : Reg8) : EncodeLength.Statement (.rlR r) := encodeLength_of _ rfl
theorem EncodeLength.rlMemHl : EncodeLength.Statement .rlMemHl := encodeLength_of _ rfl
theorem EncodeLength.rrR (r : Reg8) : EncodeLength.Statement (.rrR r) := encodeLength_of _ rfl
theorem EncodeLength.rrMemHl : EncodeLength.Statement .rrMemHl := encodeLength_of _ rfl
theorem EncodeLength.slaR (r : Reg8) : EncodeLength.Statement (.slaR r) := encodeLength_of _ rfl
theorem EncodeLength.slaMemHl : EncodeLength.Statement .slaMemHl := encodeLength_of _ rfl
theorem EncodeLength.sraR (r : Reg8) : EncodeLength.Statement (.sraR r) := encodeLength_of _ rfl
theorem EncodeLength.sraMemHl : EncodeLength.Statement .sraMemHl := encodeLength_of _ rfl
theorem EncodeLength.sliR (r : Reg8) : EncodeLength.Statement (.sliR r) := encodeLength_of _ rfl
theorem EncodeLength.sliMemHl : EncodeLength.Statement .sliMemHl := encodeLength_of _ rfl
theorem EncodeLength.srlR (r : Reg8) : EncodeLength.Statement (.srlR r) := encodeLength_of _ rfl
theorem EncodeLength.srlMemHl : EncodeLength.Statement .srlMemHl := encodeLength_of _ rfl
theorem EncodeLength.bitR (b : BitVec 3) (r : Reg8) : EncodeLength.Statement (.bitR b r) := encodeLength_of _ rfl
theorem EncodeLength.bitMemHl (b : BitVec 3) : EncodeLength.Statement (.bitMemHl b) := encodeLength_of _ rfl
theorem EncodeLength.resR (b : BitVec 3) (r : Reg8) : EncodeLength.Statement (.resR b r) := encodeLength_of _ rfl
theorem EncodeLength.resMemHl (b : BitVec 3) : EncodeLength.Statement (.resMemHl b) := encodeLength_of _ rfl
theorem EncodeLength.setR (b : BitVec 3) (r : Reg8) : EncodeLength.Statement (.setR b r) := encodeLength_of _ rfl
theorem EncodeLength.setMemHl (b : BitVec 3) : EncodeLength.Statement (.setMemHl b) := encodeLength_of _ rfl
theorem EncodeLength.nopEd (op : Byte) : EncodeLength.Statement (.nopEd op) := encodeLength_of _ rfl
theorem EncodeLength.inRC (r : Reg8) : EncodeLength.Statement (.inRC r) := encodeLength_of _ rfl
theorem EncodeLength.inf : EncodeLength.Statement .inf := encodeLength_of _ rfl
theorem EncodeLength.outCR (r : Reg8) : EncodeLength.Statement (.outCR r) := encodeLength_of _ rfl
theorem EncodeLength.outf : EncodeLength.Statement .outf := encodeLength_of _ rfl
theorem EncodeLength.sbcHlRr (q : Pair) : EncodeLength.Statement (.sbcHlRr q) := encodeLength_of _ rfl
theorem EncodeLength.adcHlRr (q : Pair) : EncodeLength.Statement (.adcHlRr q) := encodeLength_of _ rfl
theorem EncodeLength.ldMemNnRr (q : Pair) (nn : Word) : EncodeLength.Statement (.ldMemNnRr q nn) := encodeLength_of _ rfl
theorem EncodeLength.ldRrMemNn (q : Pair) (nn : Word) : EncodeLength.Statement (.ldRrMemNn q nn) := encodeLength_of _ rfl
theorem EncodeLength.neg (k : BitVec 3) : EncodeLength.Statement (.neg k) := encodeLength_of _ rfl
theorem EncodeLength.retn (k : BitVec 2) : EncodeLength.Statement (.retn k) := encodeLength_of _ rfl
theorem EncodeLength.reti (k : BitVec 2) : EncodeLength.Statement (.reti k) := encodeLength_of _ rfl
theorem EncodeLength.im (k : BitVec 1) (m : BitVec 2) : EncodeLength.Statement (.im k m) := encodeLength_of _ rfl
theorem EncodeLength.ldIA : EncodeLength.Statement .ldIA := encodeLength_of _ rfl
theorem EncodeLength.ldRA : EncodeLength.Statement .ldRA := encodeLength_of _ rfl
theorem EncodeLength.ldAI : EncodeLength.Statement .ldAI := encodeLength_of _ rfl
theorem EncodeLength.ldAR : EncodeLength.Statement .ldAR := encodeLength_of _ rfl
theorem EncodeLength.rrd : EncodeLength.Statement .rrd := encodeLength_of _ rfl
theorem EncodeLength.rld : EncodeLength.Statement .rld := encodeLength_of _ rfl
theorem EncodeLength.ldIxNn (nn : Word) : EncodeLength.Statement (.ldIxNn nn) := encodeLength_of _ rfl
theorem EncodeLength.addIxRr (q : PairX) : EncodeLength.Statement (.addIxRr q) := encodeLength_of _ rfl
theorem EncodeLength.ldMemNnIx (nn : Word) : EncodeLength.Statement (.ldMemNnIx nn) := encodeLength_of _ rfl
theorem EncodeLength.ldIxMemNn (nn : Word) : EncodeLength.Statement (.ldIxMemNn nn) := encodeLength_of _ rfl
theorem EncodeLength.incIx16 : EncodeLength.Statement .incIx16 := encodeLength_of _ rfl
theorem EncodeLength.decIx16 : EncodeLength.Statement .decIx16 := encodeLength_of _ rfl
theorem EncodeLength.incX (x : Half) : EncodeLength.Statement (.incX x) := encodeLength_of _ rfl
theorem EncodeLength.decX (x : Half) : EncodeLength.Statement (.decX x) := encodeLength_of _ rfl
theorem EncodeLength.ldXN (x : Half) (n : Byte) : EncodeLength.Statement (.ldXN x n) := encodeLength_of _ rfl
theorem EncodeLength.incIx (o : Byte) : EncodeLength.Statement (.incIx o) := encodeLength_of _ rfl
theorem EncodeLength.decIx (o : Byte) : EncodeLength.Statement (.decIx o) := encodeLength_of _ rfl
theorem EncodeLength.ldIxN (o : Byte) (n : Byte) : EncodeLength.Statement (.ldIxN o n) := encodeLength_of _ rfl
theorem EncodeLength.ldXX (rd : RegX) (r : RegX) : EncodeLength.Statement (.ldXX rd r) := encodeLength_of _ rfl
theorem EncodeLength.ldDIx (rd : Reg8) (o : Byte) : EncodeLength.Statement (.ldDIx rd o) := encodeLength_of _ rfl
theorem EncodeLength.ldIxR (r : Reg8) (o : Byte) : EncodeLength.Statement (.ldIxR r o) := encodeLength_of _ rfl
theorem EncodeLength.addX (x : Half) : EncodeLength.Statement (.addX x) := encodeLength_of _ rfl
theorem EncodeLength.addIx (o : Byte) : EncodeLength.Statement (.addIx o) := encodeLength_of _ rfl
theorem EncodeLength.adcX (x : Half) : EncodeLength.Statement (.adcX x) := encodeLength_of _ rfl
theorem EncodeLength.adcIx (o : Byte) : EncodeLength.Statement (.adcIx o) := encodeLength_of _ rfl
theorem EncodeLength.subX (x : Half) : EncodeLength.Statement (.subX x) := encodeLength_of _ rfl
theorem EncodeLength.subIx (o : Byte) : EncodeLength.Statement (.subIx o) := encodeLength_of _ rfl
theorem EncodeLength.sbcX (x : Half) : EncodeLength.Statement (.sbcX x) := encodeLength_of _ rfl
theorem EncodeLength.sbcIx (o : Byte) : EncodeLength.Statement (.sbcIx o) := encodeLength_of _ rfl
theorem EncodeLength.andX (x : Half) : EncodeLength.Statement (.andX x) := encodeLength_of _ rfl
theorem EncodeLength.andIx (o : Byte) : EncodeLength.Statement (.andIx o) := encodeLength_of _ rfl
theorem EncodeLength.xorX (x : Half) : EncodeLength.Statement (.xorX x) := encodeLength_of _ rfl
theorem EncodeLength.xorIx (o : Byte) : EncodeLength.Statement (.xorIx o) := encodeLength_of _ rfl
theorem EncodeLength.orX (x : Half) : EncodeLength.Statement (.orX x) := encodeLength_of _ rfl
theorem EncodeLength.orIx (o : Byte) : EncodeLength.Statement (.orIx o) := encodeLength_of _ rfl
theorem EncodeLength.cpX (x : Half) : EncodeLength.Statement (.cpX x) := encodeLength_of _ rfl
theorem EncodeLength.cpIx (o : Byte) : EncodeLength.Statement (.cpIx o) := encodeLength_of _ rfl
theorem EncodeLength.popIx : EncodeLength.Statement .popIx := encodeLength_of _ rfl
theorem EncodeLength.pushIx : EncodeLength.Statement .pushIx := encodeLength_of _ rfl
theorem EncodeLength.jpIx : EncodeLength.Statement .jpIx := encodeLength_of _ rfl
theorem EncodeLength.ldSpIx : EncodeLength.Statement .ldSpIx := encodeLength_of _ rfl
theorem EncodeLength.exSpIx : EncodeLength.Statement .exSpIx := encodeLength_of _ rfl
theorem EncodeLength.ignoredNextDd (x : Index) : EncodeLength.Statement (.ignoredNextDd x) := encodeLength_of _ rfl
theorem EncodeLength.ignoredNextEd (x : Index) : EncodeLength.Statement (.ignoredNextEd x) := encodeLength_of _ rfl
theorem EncodeLength.ignoredNextFd (x : Index) : EncodeLength.Statement (.ignoredNextFd x) := encodeLength_of _ rfl
theorem EncodeLength.rlcIx (o : Byte) : EncodeLength.Statement (.rlcIx o) := encodeLength_of _ rfl
theorem EncodeLength.rlcRIx (r : Reg8) (o : Byte) : EncodeLength.Statement (.rlcRIx r o) := encodeLength_of _ rfl
theorem EncodeLength.rrcIx (o : Byte) : EncodeLength.Statement (.rrcIx o) := encodeLength_of _ rfl
theorem EncodeLength.rrcRIx (r : Reg8) (o : Byte) : EncodeLength.Statement (.rrcRIx r o) := encodeLength_of _ rfl
theorem EncodeLength.rlIx (o : Byte) : EncodeLength.Statement (.rlIx o) := encodeLength_of _ rfl
theorem EncodeLength.rlRIx (r : Reg8) (o : Byte) : EncodeLength.Statement (.rlRIx r o) := encodeLength_of _ rfl
theorem EncodeLength.rrIx (o : Byte) : EncodeLength.Statement (.rrIx o) := encodeLength_of _ rfl
theorem EncodeLength.rrRIx (r : Reg8) (o : Byte) : EncodeLength.Statement (.rrRIx r o) := encodeLength_of _ rfl
theorem EncodeLength.slaIx (o : Byte) : EncodeLength.Statement (.slaIx o) := encodeLength_of _ rfl
theorem EncodeLength.slaRIx (r : Reg8) (o : Byte) : EncodeLength.Statement (.slaRIx r o) := encodeLength_of _ rfl
theorem EncodeLength.sraIx (o : Byte) : EncodeLength.Statement (.sraIx o) := encodeLength_of _ rfl
theorem EncodeLength.sraRIx (r : Reg8) (o : Byte) : EncodeLength.Statement (.sraRIx r o) := encodeLength_of _ rfl
theorem EncodeLength.sliIx (o : Byte) : EncodeLength.Statement (.sliIx o) := encodeLength_of _ rfl
theorem EncodeLength.sliRIx (r : Reg8) (o : Byte) : EncodeLength.Statement (.sliRIx r o) := encodeLength_of _ rfl
theorem EncodeLength.srlIx (o : Byte) : EncodeLength.Statement (.srlIx o) := encodeLength_of _ rfl
theorem EncodeLength.srlRIx (r : Reg8) (o : Byte) : EncodeLength.Statement (.srlRIx r o) := encodeLength_of _ rfl
theorem EncodeLength.bitIx (b : BitVec 3) (k : BitVec 3) (o : Byte) : EncodeLength.Statement (.bitIx b k o) := encodeLength_of _ rfl
theorem EncodeLength.resIx (b : BitVec 3) (o : Byte) : EncodeLength.Statement (.resIx b o) := encodeLength_of _ rfl
theorem EncodeLength.resRIx (b : BitVec 3) (r : Reg8) (o : Byte) : EncodeLength.Statement (.resRIx b r o) := encodeLength_of _ rfl
theorem EncodeLength.setIx (b : BitVec 3) (o : Byte) : EncodeLength.Statement (.setIx b o) := encodeLength_of _ rfl
theorem EncodeLength.setRIx (b : BitVec 3) (r : Reg8) (o : Byte) : EncodeLength.Statement (.setRIx b r o) := encodeLength_of _ rfl
theorem EncodeLength.ldIyNn (nn : Word) : EncodeLength.Statement (.ldIyNn nn) := encodeLength_of _ rfl
theorem EncodeLength.addIyRr (q : PairX) : EncodeLength.Statement (.addIyRr q) := encodeLength_of _ rfl
theorem EncodeLength.ldMemNnIy (nn : Word) : EncodeLength.Statement (.ldMemNnIy nn) := encodeLength_of _ rfl
theorem EncodeLength.ldIyMemNn (nn : Word) : EncodeLength.Statement (.ldIyMemNn nn) := encodeLength_of _ rfl
theorem EncodeLength.incIy16 : EncodeLength.Statement .incIy16 := encodeLength_of _ rfl
theorem EncodeLength.decIy16 : EncodeLength.Statement .decIy16 := encodeLength_of _ rfl
theorem EncodeLength.incY (x : Half) : EncodeLength.Statement (.incY x) := encodeLength_of _ rfl
theorem EncodeLength.decY (x : Half) : EncodeLength.Statement (.decY x) := encodeLength_of _ rfl
theorem EncodeLength.ldYN (x : Half) (n : Byte) : EncodeLength.Statement (.ldYN x n) := encodeLength_of _ rfl
theorem EncodeLength.incIy (o : Byte) : EncodeLength.Statement (.incIy o) := encodeLength_of _ rfl
theorem EncodeLength.decIy (o : Byte) : EncodeLength.Statement (.decIy o) := encodeLength_of _ rfl
theorem EncodeLength.ldIyN (o : Byte) (n : Byte) : EncodeLength.Statement (.ldIyN o n) := encodeLength_of _ rfl
theorem EncodeLength.ldYY (rd : RegX) (r : RegX) : EncodeLength.Statement (.ldYY rd r) := encodeLength_of _ rfl
theorem EncodeLength.ldDIy (rd : Reg8) (o : Byte) : EncodeLength.Statement (.ldDIy rd o) := encodeLength_of _ rfl
theorem EncodeLength.ldIyR (r : Reg8) (o : Byte) : EncodeLength.Statement (.ldIyR r o) := encodeLength_of _ rfl
theorem EncodeLength.addY (x : Half) : EncodeLength.Statement (.addY x) := encodeLength_of _ rfl
theorem EncodeLength.addIy (o : Byte) : EncodeLength.Statement (.addIy o) := encodeLength_of _ rfl
theorem EncodeLength.adcY (x : Half) : EncodeLength.Statement (.adcY x) := encodeLength_of _ rfl
theorem EncodeLength.adcIy (o : Byte) : EncodeLength.Statement (.adcIy o) := encodeLength_of _ rfl
theorem EncodeLength.subY (x : Half) : EncodeLength.Statement (.subY x) := encodeLength_of _ rfl
theorem EncodeLength.subIy (o : Byte) : EncodeLength.Statement (.subIy o) := encodeLength_of _ rfl
theorem EncodeLength.sbcY (x : Half) : EncodeLength.Statement (.sbcY x) := encodeLength_of _ rfl
theorem EncodeLength.sbcIy (o : Byte) : EncodeLength.Statement (.sbcIy o) := encodeLength_of _ rfl
theorem EncodeLength.andY (x : Half) : EncodeLength.Statement (.andY x) := encodeLength_of _ rfl
theorem EncodeLength.andIy (o : Byte) : EncodeLength.Statement (.andIy o) := encodeLength_of _ rfl
theorem EncodeLength.xorY (x : Half) : EncodeLength.Statement (.xorY x) := encodeLength_of _ rfl
theorem EncodeLength.xorIy (o : Byte) : EncodeLength.Statement (.xorIy o) := encodeLength_of _ rfl
theorem EncodeLength.orY (x : Half) : EncodeLength.Statement (.orY x) := encodeLength_of _ rfl
theorem EncodeLength.orIy (o : Byte) : EncodeLength.Statement (.orIy o) := encodeLength_of _ rfl
theorem EncodeLength.cpY (x : Half) : EncodeLength.Statement (.cpY x) := encodeLength_of _ rfl
theorem EncodeLength.cpIy (o : Byte) : EncodeLength.Statement (.cpIy o) := encodeLength_of _ rfl
theorem EncodeLength.popIy : EncodeLength.Statement .popIy := encodeLength_of _ rfl
theorem EncodeLength.pushIy : EncodeLength.Statement .pushIy := encodeLength_of _ rfl
theorem EncodeLength.jpIy : EncodeLength.Statement .jpIy := encodeLength_of _ rfl
theorem EncodeLength.ldSpIy : EncodeLength.Statement .ldSpIy := encodeLength_of _ rfl
theorem EncodeLength.exSpIy : EncodeLength.Statement .exSpIy := encodeLength_of _ rfl
theorem EncodeLength.rlcIy (o : Byte) : EncodeLength.Statement (.rlcIy o) := encodeLength_of _ rfl
theorem EncodeLength.rlcRIy (r : Reg8) (o : Byte) : EncodeLength.Statement (.rlcRIy r o) := encodeLength_of _ rfl
theorem EncodeLength.rrcIy (o : Byte) : EncodeLength.Statement (.rrcIy o) := encodeLength_of _ rfl
theorem EncodeLength.rrcRIy (r : Reg8) (o : Byte) : EncodeLength.Statement (.rrcRIy r o) := encodeLength_of _ rfl
theorem EncodeLength.rlIy (o : Byte) : EncodeLength.Statement (.rlIy o) := encodeLength_of _ rfl
theorem EncodeLength.rlRIy (r : Reg8) (o : Byte) : EncodeLength.Statement (.rlRIy r o) := encodeLength_of _ rfl
theorem EncodeLength.rrIy (o : Byte) : EncodeLength.Statement (.rrIy o) := encodeLength_of _ rfl
theorem EncodeLength.rrRIy (r : Reg8) (o : Byte) : EncodeLength.Statement (.rrRIy r o) := encodeLength_of _ rfl
theorem EncodeLength.slaIy (o : Byte) : EncodeLength.Statement (.slaIy o) := encodeLength_of _ rfl
theorem EncodeLength.slaRIy (r : Reg8) (o : Byte) : EncodeLength.Statement (.slaRIy r o) := encodeLength_of _ rfl
theorem EncodeLength.sraIy (o : Byte) : EncodeLength.Statement (.sraIy o) := encodeLength_of _ rfl
theorem EncodeLength.sraRIy (r : Reg8) (o : Byte) : EncodeLength.Statement (.sraRIy r o) := encodeLength_of _ rfl
theorem EncodeLength.sliIy (o : Byte) : EncodeLength.Statement (.sliIy o) := encodeLength_of _ rfl
theorem EncodeLength.sliRIy (r : Reg8) (o : Byte) : EncodeLength.Statement (.sliRIy r o) := encodeLength_of _ rfl
theorem EncodeLength.srlIy (o : Byte) : EncodeLength.Statement (.srlIy o) := encodeLength_of _ rfl
theorem EncodeLength.srlRIy (r : Reg8) (o : Byte) : EncodeLength.Statement (.srlRIy r o) := encodeLength_of _ rfl
theorem EncodeLength.bitIy (b : BitVec 3) (k : BitVec 3) (o : Byte) : EncodeLength.Statement (.bitIy b k o) := encodeLength_of _ rfl
theorem EncodeLength.resIy (b : BitVec 3) (o : Byte) : EncodeLength.Statement (.resIy b o) := encodeLength_of _ rfl
theorem EncodeLength.resRIy (b : BitVec 3) (r : Reg8) (o : Byte) : EncodeLength.Statement (.resRIy b r o) := encodeLength_of _ rfl
theorem EncodeLength.setIy (b : BitVec 3) (o : Byte) : EncodeLength.Statement (.setIy b o) := encodeLength_of _ rfl
theorem EncodeLength.setRIy (b : BitVec 3) (r : Reg8) (o : Byte) : EncodeLength.Statement (.setRIy b r o) := encodeLength_of _ rfl
theorem EncodeLength.prefixCb : EncodeLength.Statement .prefixCb := encodeLength_of _ rfl
theorem EncodeLength.prefixDd : EncodeLength.Statement .prefixDd := encodeLength_of _ rfl
theorem EncodeLength.prefixEd : EncodeLength.Statement .prefixEd := encodeLength_of _ rfl
theorem EncodeLength.prefixFd : EncodeLength.Statement .prefixFd := encodeLength_of _ rfl
theorem EncodeLength.ldi : EncodeLength.Statement .ldi := encodeLength_of _ rfl
theorem EncodeLength.ldd : EncodeLength.Statement .ldd := encodeLength_of _ rfl
theorem EncodeLength.ldir : EncodeLength.Statement .ldir := encodeLength_of _ rfl
theorem EncodeLength.lddr : EncodeLength.Statement .lddr := encodeLength_of _ rfl
theorem EncodeLength.cpi : EncodeLength.Statement .cpi := encodeLength_of _ rfl
theorem EncodeLength.cpd : EncodeLength.Statement .cpd := encodeLength_of _ rfl
theorem EncodeLength.cpir : EncodeLength.Statement .cpir := encodeLength_of _ rfl
theorem EncodeLength.cpdr : EncodeLength.Statement .cpdr := encodeLength_of _ rfl
theorem EncodeLength.ini : EncodeLength.Statement .ini := encodeLength_of _ rfl
theorem EncodeLength.ind : EncodeLength.Statement .ind := encodeLength_of _ rfl
theorem EncodeLength.inir : EncodeLength.Statement .inir := encodeLength_of _ rfl
theorem EncodeLength.indr : EncodeLength.Statement .indr := encodeLength_of _ rfl
theorem EncodeLength.oti : EncodeLength.Statement .oti := encodeLength_of _ rfl
theorem EncodeLength.otd : EncodeLength.Statement .otd := encodeLength_of _ rfl
theorem EncodeLength.otir : EncodeLength.Statement .otir := encodeLength_of _ rfl
theorem EncodeLength.otdr : EncodeLength.Statement .otdr := encodeLength_of _ rfl
theorem EncodeLength.prefixDdCb : EncodeLength.Statement .prefixDdCb := encodeLength_of _ rfl
theorem EncodeLength.prefixFdCb : EncodeLength.Statement .prefixFdCb := encodeLength_of _ rfl

end Sys2Proof.Laws
end

