-- ==== Sys2Proof/Tests/Slice0.lean ====
section
/-! SUPPORT. The model's own tests: what WellFormed refuses, words of every row of the opcode table, one-step vectors
of 95_test_vectors.md, and for every obligation with hypotheses a state that meets them. -/

namespace Sys2Proof.Tests

open Sys2Proof Sys2Proof.Machine

/-! ## WellFormed: an ill-formed term for each check -/

/-- H under DD is an index half, so `DD 26 n` is another row (30_encoding.md R123). -/
theorem test_wf_register_behind_prefix : (Instr.ldRN .dd .h 0x12).wellFormed = false := by decide
/-- HL under FD is IY (30_encoding.md R131). -/
theorem test_wf_pair_behind_prefix : (Instr.incRr .fd .hl).wellFormed = false := by decide
/-- HL under DD is IX in PUSH (30_encoding.md R131). -/
theorem test_wf_stack_pair_behind_prefix : (Instr.pushRs .dd .hl).wellFormed = false := by decide
/-- LD d,r under DD names an index half in this row (30_encoding.md R123). -/
theorem test_wf_names_half : (Instr.ldXX .b .c).wellFormed = false := by decide
/-- ED A0 is LDI, not an undefined opcode (49_system.md R489). -/
theorem test_wf_undefined_ed : (Instr.nopEd 0xA0).wellFormed = false := by decide
/-- Well-formed neighbours of the five. -/
theorem test_wf_accepts : [Instr.ldRN .plain .h 0x12, .incRr .plain .hl, .pushRs .plain .hl, .ldXX .xh .c, .nopEd 0xA4].all
    Instr.wellFormed = true := by decide

/-! ## Decoding: words written out from the encodings of opcode_table.json, one for every row -/

/-- The bytes decode to the instruction. -/
def decodesTo (x : List Byte × Instr) : Bool :=
  match decode x.1 with
  | .ok i => i == x.2
  | .error _ => false

theorem test_decode_Alu16_DD : [
    ([0xDD, 0x09], .addIxRr .bc), ([0xDD, 0x23], .incIx16), ([0xDD, 0x2B], .decIx16),
    ([0xDD, 0x33], .incRr .dd .sp), ([0xDD, 0x1B], .decRr .dd .de)].all decodesTo = true := by
  decide

theorem test_decode_Alu16_ED : [
    ([0xED, 0x52], .sbcHlRr .de), ([0xED, 0x6A], .adcHlRr .hl)].all decodesTo = true := by
  decide

theorem test_decode_Alu16_FD : [
    ([0xFD, 0x19], .addIyRr .de), ([0xFD, 0x23], .incIy16), ([0xFD, 0x2B], .decIy16),
    ([0xFD, 0x13], .incRr .fd .de), ([0xFD, 0x0B], .decRr .fd .bc)].all decodesTo = true := by
  decide

theorem test_decode_Alu16_main : [
    ([0x19], .addHlRr .de), ([0x23], .incRr .plain .hl), ([0x3B], .decRr .plain .sp)].all decodesTo = true := by
  decide

theorem test_decode_Alu8_DD_1 : [
    ([0xDD, 0x2C], .incX .lo), ([0xDD, 0x25], .decX .hi), ([0xDD, 0x34, 0xF9], .incIx 0xF9),
    ([0xDD, 0x35, 0xFA], .decIx 0xFA), ([0xDD, 0x84], .addX .hi), ([0xDD, 0x86, 0xF0], .addIx 0xF0),
    ([0xDD, 0x8C], .adcX .hi), ([0xDD, 0x8E, 0xF2], .adcIx 0xF2), ([0xDD, 0x94], .subX .hi),
    ([0xDD, 0x96, 0xF4], .subIx 0xF4), ([0xDD, 0x9C], .sbcX .hi), ([0xDD, 0x9E, 0xF6], .sbcIx 0xF6),
    ([0xDD, 0xA4], .andX .hi), ([0xDD, 0xA6, 0xF8], .andIx 0xF8)].all decodesTo = true := by
  decide

theorem test_decode_Alu8_DD_2 : [
    ([0xDD, 0xAC], .xorX .hi), ([0xDD, 0xAE, 0xFA], .xorIx 0xFA), ([0xDD, 0xB4], .orX .hi),
    ([0xDD, 0xB6, 0xFC], .orIx 0xFC), ([0xDD, 0xBC], .cpX .hi), ([0xDD, 0xBE, 0xFE], .cpIx 0xFE),
    ([0xDD, 0x1C], .incR .dd .e), ([0xDD, 0x1D], .decR .dd .e), ([0xDD, 0x27], .daa .dd),
    ([0xDD, 0x2F], .cpl .dd), ([0xDD, 0x37], .scf .dd), ([0xDD, 0x3F], .ccf .dd), ([0xDD, 0x83], .addR .dd .e),
    ([0xDD, 0x8B], .adcR .dd .e)].all decodesTo = true := by
  decide

theorem test_decode_Alu8_DD_3 : [
    ([0xDD, 0x93], .subR .dd .e), ([0xDD, 0x9B], .sbcR .dd .e), ([0xDD, 0xA3], .andR .dd .e),
    ([0xDD, 0xAB], .xorR .dd .e), ([0xDD, 0xB3], .orR .dd .e), ([0xDD, 0xBB], .cpR .dd .e),
    ([0xDD, 0xC6, 0xAE], .addN .dd 0xAE), ([0xDD, 0xCE, 0xA9], .adcN .dd 0xA9),
    ([0xDD, 0xD6, 0xA8], .subN .dd 0xA8), ([0xDD, 0xDE, 0xAB], .sbcN .dd 0xAB),
    ([0xDD, 0xE6, 0xAA], .andN .dd 0xAA), ([0xDD, 0xEE, 0xB5], .xorN .dd 0xB5),
    ([0xDD, 0xF6, 0xB4], .orN .dd 0xB4), ([0xDD, 0xFE, 0xB7], .cpN .dd 0xB7)].all decodesTo = true := by
  decide

theorem test_decode_Alu8_ED : [
    ([0xED, 0x6C], .neg 5)].all decodesTo = true := by
  decide

theorem test_decode_Alu8_FD_1 : [
    ([0xFD, 0x24], .incY .hi), ([0xFD, 0x2D], .decY .lo), ([0xFD, 0x34, 0xF2], .incIy 0xF2),
    ([0xFD, 0x35, 0xF3], .decIy 0xF3), ([0xFD, 0x85], .addY .lo), ([0xFD, 0x86, 0xF9], .addIy 0xF9),
    ([0xFD, 0x8D], .adcY .lo), ([0xFD, 0x8E, 0xFB], .adcIy 0xFB), ([0xFD, 0x95], .subY .lo),
    ([0xFD, 0x96, 0xFD], .subIy 0xFD), ([0xFD, 0x9D], .sbcY .lo), ([0xFD, 0x9E, 0xFF], .sbcIy 0xFF),
    ([0xFD, 0xA5], .andY .lo), ([0xFD, 0xA6, 0xF1], .andIy 0xF1)].all decodesTo = true := by
  decide

theorem test_decode_Alu8_FD_2 : [
    ([0xFD, 0xAD], .xorY .lo), ([0xFD, 0xAE, 0xF3], .xorIy 0xF3), ([0xFD, 0xB5], .orY .lo),
    ([0xFD, 0xB6, 0xF5], .orIy 0xF5), ([0xFD, 0xBD], .cpY .lo), ([0xFD, 0xBE, 0xF7], .cpIy 0xF7),
    ([0xFD, 0x1C], .incR .fd .e), ([0xFD, 0x1D], .decR .fd .e), ([0xFD, 0x27], .daa .fd),
    ([0xFD, 0x2F], .cpl .fd), ([0xFD, 0x37], .scf .fd), ([0xFD, 0x3F], .ccf .fd), ([0xFD, 0x83], .addR .fd .e),
    ([0xFD, 0x8B], .adcR .fd .e)].all decodesTo = true := by
  decide

theorem test_decode_Alu8_FD_3 : [
    ([0xFD, 0x93], .subR .fd .e), ([0xFD, 0x9B], .sbcR .fd .e), ([0xFD, 0xA3], .andR .fd .e),
    ([0xFD, 0xAB], .xorR .fd .e), ([0xFD, 0xB3], .orR .fd .e), ([0xFD, 0xBB], .cpR .fd .e),
    ([0xFD, 0xC6, 0xA1], .addN .fd 0xA1), ([0xFD, 0xCE, 0xA0], .adcN .fd 0xA0),
    ([0xFD, 0xD6, 0xA3], .subN .fd 0xA3), ([0xFD, 0xDE, 0xA2], .sbcN .fd 0xA2),
    ([0xFD, 0xE6, 0xAD], .andN .fd 0xAD), ([0xFD, 0xEE, 0xAC], .xorN .fd 0xAC),
    ([0xFD, 0xF6, 0xAF], .orN .fd 0xAF), ([0xFD, 0xFE, 0xAE], .cpN .fd 0xAE)].all decodesTo = true := by
  decide

theorem test_decode_Alu8_main_1 : [
    ([0x24], .incR .plain .h), ([0x34], .incMemHl), ([0x05], .decR .plain .b), ([0x35], .decMemHl),
    ([0x27], .daa .plain), ([0x2F], .cpl .plain), ([0x37], .scf .plain), ([0x3F], .ccf .plain),
    ([0x83], .addR .plain .e), ([0x86], .addMemHl), ([0x8F], .adcR .plain .a), ([0x8E], .adcMemHl),
    ([0x92], .subR .plain .d), ([0x96], .subMemHl)].all decodesTo = true := by
  decide

theorem test_decode_Alu8_main_2 : [
    ([0x9D], .sbcR .plain .l), ([0x9E], .sbcMemHl), ([0xA1], .andR .plain .c), ([0xA6], .andMemHl),
    ([0xAC], .xorR .plain .h), ([0xAE], .xorMemHl), ([0xB0], .orR .plain .b), ([0xB6], .orMemHl),
    ([0xBB], .cpR .plain .e), ([0xBE], .cpMemHl), ([0xC6, 0xAF], .addN .plain 0xAF),
    ([0xCE, 0xAE], .adcN .plain 0xAE), ([0xD6, 0xA9], .subN .plain 0xA9), ([0xDE, 0xA8], .sbcN .plain 0xA8)].all decodesTo = true := by
  decide

theorem test_decode_Alu8_main_3 : [
    ([0xE6, 0xAB], .andN .plain 0xAB), ([0xEE, 0xAA], .xorN .plain 0xAA), ([0xF6, 0xB5], .orN .plain 0xB5),
    ([0xFE, 0xB4], .cpN .plain 0xB4)].all decodesTo = true := by
  decide

theorem test_decode_Bit_CB : [
    ([0xCB, 0x79], .bitR 7 .c), ([0xCB, 0x7E], .bitMemHl 7), ([0xCB, 0x84], .resR 0 .h),
    ([0xCB, 0x8E], .resMemHl 1), ([0xCB, 0xD0], .setR 2 .b), ([0xCB, 0xDE], .setMemHl 3)].all decodesTo = true := by
  decide

theorem test_decode_Bit_DDCB : [
    ([0xDD, 0xCB, 0xF4, 0x57], .bitIx 2 7 0xF4), ([0xDD, 0xCB, 0xF5, 0xA6], .resIx 4 0xF5),
    ([0xDD, 0xCB, 0xF6, 0x9C], .resRIx 3 .h 0xF6), ([0xDD, 0xCB, 0xF7, 0xF6], .setIx 6 0xF7),
    ([0xDD, 0xCB, 0xF8, 0xE8], .setRIx 5 .b 0xF8)].all decodesTo = true := by
  decide

theorem test_decode_Bit_FDCB : [
    ([0xFD, 0xCB, 0xFD, 0x74], .bitIy 6 4 0xFD), ([0xFD, 0xCB, 0xFE, 0x8E], .resIy 1 0xFE),
    ([0xFD, 0xCB, 0xFF, 0x90], .resRIy 2 .b 0xFF), ([0xFD, 0xCB, 0xF0, 0xDE], .setIy 3 0xF0),
    ([0xFD, 0xCB, 0xF1, 0xDB], .setRIy 3 .e 0xF1)].all decodesTo = true := by
  decide

theorem test_decode_Block_ED : [
    ([0xED, 0xA0], .ldi), ([0xED, 0xA8], .ldd), ([0xED, 0xB0], .ldir), ([0xED, 0xB8], .lddr),
    ([0xED, 0xA1], .cpi), ([0xED, 0xA9], .cpd), ([0xED, 0xB1], .cpir), ([0xED, 0xB9], .cpdr)].all decodesTo = true := by
  decide

theorem test_decode_Control_DD : [
    ([0xDD, 0xE9], .jpIx), ([0xDD, 0x10, 0xFA], .djnz .dd 0xFA), ([0xDD, 0x18, 0xFB], .jr .dd 0xFB),
    ([0xDD, 0x38, 0xFC], .jrCc .dd .c 0xFC), ([0xDD, 0xD0], .retC .dd .nc), ([0xDD, 0xC9], .ret .dd),
    ([0xDD, 0xDA, 0x34, 0x12], .jpCNn .dd .c 0x1234), ([0xDD, 0xC3, 0x35, 0x13], .jpNn .dd 0x1335),
    ([0xDD, 0xF4, 0x33, 0x15], .callCNn .dd .p 0x1533), ([0xDD, 0xCD, 0x36, 0x14], .callNn .dd 0x1436),
    ([0xDD, 0xD7], .rst .dd 2)].all decodesTo = true := by
  decide

theorem test_decode_Control_FD : [
    ([0xFD, 0xE9], .jpIy), ([0xFD, 0x10, 0xF3], .djnz .fd 0xF3), ([0xFD, 0x18, 0xF4], .jr .fd 0xF4),
    ([0xFD, 0x20, 0xF5], .jrCc .fd .nz 0xF5), ([0xFD, 0xF8], .retC .fd .m), ([0xFD, 0xC9], .ret .fd),
    ([0xFD, 0xC2, 0x35, 0x13], .jpCNn .fd .nz 0x1335), ([0xFD, 0xC3, 0x36, 0x14], .jpNn .fd 0x1436),
    ([0xFD, 0xDC, 0x34, 0x12], .callCNn .fd .c 0x1234), ([0xFD, 0xCD, 0x37, 0x15], .callNn .fd 0x1537),
    ([0xFD, 0xFF], .rst .fd 7)].all decodesTo = true := by
  decide

theorem test_decode_Control_main : [
    ([0x10, 0xF2], .djnz .plain 0xF2), ([0x18, 0xF3], .jr .plain 0xF3), ([0x38, 0xF4], .jrCc .plain .c 0xF4),
    ([0xD0], .retC .plain .nc), ([0xC9], .ret .plain), ([0xE9], .jpHl),
    ([0xEA, 0x36, 0x14], .jpCNn .plain .pe 0x1436), ([0xC3, 0x37, 0x15], .jpNn .plain 0x1537),
    ([0xD4, 0x37, 0x15], .callCNn .plain .nc 0x1537), ([0xCD, 0x32, 0x14], .callNn .plain 0x1432),
    ([0xEF], .rst .plain 5)].all decodesTo = true := by
  decide

theorem test_decode_Io_DD : [
    ([0xDD, 0xD3, 0xA7], .outNA .dd 0xA7), ([0xDD, 0xDB, 0xA6], .inAN .dd 0xA6)].all decodesTo = true := by
  decide

theorem test_decode_Io_ED : [
    ([0xED, 0x48], .inRC .c), ([0xED, 0x70], .inf), ([0xED, 0x61], .outCR .h), ([0xED, 0x71], .outf),
    ([0xED, 0xA2], .ini), ([0xED, 0xAA], .ind), ([0xED, 0xB2], .inir), ([0xED, 0xBA], .indr),
    ([0xED, 0xA3], .oti), ([0xED, 0xAB], .otd), ([0xED, 0xB3], .otir), ([0xED, 0xBB], .otdr)].all decodesTo = true := by
  decide

theorem test_decode_Io_FD : [
    ([0xFD, 0xD3, 0xBE], .outNA .fd 0xBE), ([0xFD, 0xDB, 0xB9], .inAN .fd 0xB9)].all decodesTo = true := by
  decide

theorem test_decode_Io_main : [
    ([0xD3, 0xB8], .outNA .plain 0xB8), ([0xDB, 0xBB], .inAN .plain 0xBB)].all decodesTo = true := by
  decide

theorem test_decode_Load16_DD_1 : [
    ([0xDD, 0x21, 0x34, 0x12], .ldIxNn 0x1234), ([0xDD, 0x22, 0x36, 0x14], .ldMemNnIx 0x1436),
    ([0xDD, 0x2A, 0x37, 0x15], .ldIxMemNn 0x1537), ([0xDD, 0xE1], .popIx), ([0xDD, 0xE5], .pushIx),
    ([0xDD, 0xF9], .ldSpIx), ([0xDD, 0xE3], .exSpIx), ([0xDD, 0x08], .exAfAf .dd),
    ([0xDD, 0x01, 0x31, 0x13], .ldRrNn .dd .bc 0x1331), ([0xDD, 0xD1], .popRs .dd .de),
    ([0xDD, 0xF1], .popAf .dd), ([0xDD, 0xD9], .exx .dd), ([0xDD, 0xEB], .exDeHl .dd),
    ([0xDD, 0xD5], .pushRs .dd .de)].all decodesTo = true := by
  decide

theorem test_decode_Load16_DD_2 : [
    ([0xDD, 0xF5], .pushAf .dd)].all decodesTo = true := by
  decide

theorem test_decode_Load16_ED : [
    ([0xED, 0x73, 0x34, 0x12], .ldMemNnRr .sp 0x1234), ([0xED, 0x4B, 0x35, 0x13], .ldRrMemNn .bc 0x1335)].all decodesTo = true := by
  decide

theorem test_decode_Load16_FD_1 : [
    ([0xFD, 0x21, 0x35, 0x13], .ldIyNn 0x1335), ([0xFD, 0x22, 0x37, 0x15], .ldMemNnIy 0x1537),
    ([0xFD, 0x2A, 0x30, 0x12], .ldIyMemNn 0x1230), ([0xFD, 0xE1], .popIy), ([0xFD, 0xE5], .pushIy),
    ([0xFD, 0xF9], .ldSpIy), ([0xFD, 0xE3], .exSpIy), ([0xFD, 0x08], .exAfAf .fd),
    ([0xFD, 0x31, 0x32, 0x14], .ldRrNn .fd .sp 0x1432), ([0xFD, 0xC1], .popRs .fd .bc),
    ([0xFD, 0xF1], .popAf .fd), ([0xFD, 0xD9], .exx .fd), ([0xFD, 0xEB], .exDeHl .fd),
    ([0xFD, 0xC5], .pushRs .fd .bc)].all decodesTo = true := by
  decide

theorem test_decode_Load16_FD_2 : [
    ([0xFD, 0xF5], .pushAf .fd)].all decodesTo = true := by
  decide

theorem test_decode_Load16_main : [
    ([0x08], .exAfAf .plain), ([0x01, 0x31, 0x13], .ldRrNn .plain .bc 0x1331),
    ([0x22, 0x37, 0x15], .ldMemNnHl 0x1537), ([0x2A, 0x30, 0x12], .ldHlMemNn 0x1230),
    ([0xE1], .popRs .plain .hl), ([0xF1], .popAf .plain), ([0xD9], .exx .plain), ([0xF9], .ldSpHl),
    ([0xE3], .exSpHl), ([0xEB], .exDeHl .plain), ([0xD5], .pushRs .plain .de), ([0xF5], .pushAf .plain)].all decodesTo = true := by
  decide

theorem test_decode_Load8_DD : [
    ([0xDD, 0x2E, 0xBD], .ldXN .lo 0xBD), ([0xDD, 0x36, 0xFB, 0xBE], .ldIxN 0xFB 0xBE),
    ([0xDD, 0x68], .ldXX .xl .b), ([0xDD, 0x66, 0xFD], .ldDIx .h 0xFD), ([0xDD, 0x72, 0xFE], .ldIxR .d 0xFE),
    ([0xDD, 0x02], .ldMemBcA .dd), ([0xDD, 0x0A], .ldAMemBc .dd), ([0xDD, 0x12], .ldMemDeA .dd),
    ([0xDD, 0x1A], .ldAMemDe .dd), ([0xDD, 0x32, 0x36, 0x14], .ldMemNnA .dd 0x1436),
    ([0xDD, 0x3A, 0x37, 0x15], .ldAMemNn .dd 0x1537), ([0xDD, 0x1E, 0xAD], .ldRN .dd .e 0xAD),
    ([0xDD, 0x7B], .ldDR .dd .a .e)].all decodesTo = true := by
  decide

theorem test_decode_Load8_ED : [
    ([0xED, 0x47], .ldIA), ([0xED, 0x4F], .ldRA), ([0xED, 0x57], .ldAI), ([0xED, 0x5F], .ldAR)].all decodesTo = true := by
  decide

theorem test_decode_Load8_FD : [
    ([0xFD, 0x26, 0xB4], .ldYN .hi 0xB4), ([0xFD, 0x36, 0xF4, 0xB1], .ldIyN 0xF4 0xB1),
    ([0xFD, 0x6D], .ldYY .xl .xl), ([0xFD, 0x46, 0xF6], .ldDIy .b 0xF6), ([0xFD, 0x75, 0xF7], .ldIyR .l 0xF7),
    ([0xFD, 0x02], .ldMemBcA .fd), ([0xFD, 0x0A], .ldAMemBc .fd), ([0xFD, 0x12], .ldMemDeA .fd),
    ([0xFD, 0x1A], .ldAMemDe .fd), ([0xFD, 0x32, 0x37, 0x15], .ldMemNnA .fd 0x1537),
    ([0xFD, 0x3A, 0x30, 0x12], .ldAMemNn .fd 0x1230), ([0xFD, 0x1E, 0xA4], .ldRN .fd .e 0xA4),
    ([0xFD, 0x43], .ldDR .fd .b .e)].all decodesTo = true := by
  decide

theorem test_decode_Load8_main : [
    ([0x02], .ldMemBcA .plain), ([0x0A], .ldAMemBc .plain), ([0x12], .ldMemDeA .plain),
    ([0x1A], .ldAMemDe .plain), ([0x32, 0x31, 0x13], .ldMemNnA .plain 0x1331),
    ([0x3A, 0x32, 0x14], .ldAMemNn .plain 0x1432), ([0x1E, 0xB0], .ldRN .plain .e 0xB0),
    ([0x36, 0xB3], .ldMemHlN 0xB3), ([0x4C], .ldDR .plain .c .h), ([0x56], .ldDMemHl .d), ([0x70], .ldMemHlR .b)].all decodesTo = true := by
  decide

theorem test_decode_Prefix_DD : [
    ([0xDD, 0xCB], .prefixDdCb)].all decodesTo = true := by
  decide

theorem test_decode_Prefix_FD : [
    ([0xFD, 0xCB], .prefixFdCb)].all decodesTo = true := by
  decide

theorem test_decode_Prefix_main : [
    ([0xCB], .prefixCb), ([0xDD], .prefixDd), ([0xED], .prefixEd), ([0xFD], .prefixFd)].all decodesTo = true := by
  decide

theorem test_decode_Rotate_CB_1 : [
    ([0xCB, 0x05], .rlcR .l), ([0xCB, 0x06], .rlcMemHl), ([0xCB, 0x09], .rrcR .c), ([0xCB, 0x0E], .rrcMemHl),
    ([0xCB, 0x14], .rlR .h), ([0xCB, 0x16], .rlMemHl), ([0xCB, 0x18], .rrR .b), ([0xCB, 0x1E], .rrMemHl),
    ([0xCB, 0x23], .slaR .e), ([0xCB, 0x26], .slaMemHl), ([0xCB, 0x2F], .sraR .a), ([0xCB, 0x2E], .sraMemHl),
    ([0xCB, 0x32], .sliR .d), ([0xCB, 0x36], .sliMemHl)].all decodesTo = true := by
  decide

theorem test_decode_Rotate_CB_2 : [
    ([0xCB, 0x3D], .srlR .l), ([0xCB, 0x3E], .srlMemHl)].all decodesTo = true := by
  decide

theorem test_decode_Rotate_DD : [
    ([0xDD, 0x07], .rlca .dd), ([0xDD, 0x0F], .rrca .dd), ([0xDD, 0x17], .rla .dd), ([0xDD, 0x1F], .rra .dd)].all decodesTo = true := by
  decide

theorem test_decode_Rotate_DDCB_1 : [
    ([0xDD, 0xCB, 0xF4, 0x06], .rlcIx 0xF4), ([0xDD, 0xCB, 0xF5, 0x03], .rlcRIx .e 0xF5),
    ([0xDD, 0xCB, 0xF6, 0x0E], .rrcIx 0xF6), ([0xDD, 0xCB, 0xF7, 0x0F], .rrcRIx .a 0xF7),
    ([0xDD, 0xCB, 0xF8, 0x16], .rlIx 0xF8), ([0xDD, 0xCB, 0xF9, 0x12], .rlRIx .d 0xF9),
    ([0xDD, 0xCB, 0xFA, 0x1E], .rrIx 0xFA), ([0xDD, 0xCB, 0xFB, 0x1D], .rrRIx .l 0xFB),
    ([0xDD, 0xCB, 0xFC, 0x26], .slaIx 0xFC), ([0xDD, 0xCB, 0xFD, 0x21], .slaRIx .c 0xFD),
    ([0xDD, 0xCB, 0xFE, 0x2E], .sraIx 0xFE), ([0xDD, 0xCB, 0xFF, 0x2C], .sraRIx .h 0xFF),
    ([0xDD, 0xCB, 0xF0, 0x36], .sliIx 0xF0), ([0xDD, 0xCB, 0xF1, 0x30], .sliRIx .b 0xF1)].all decodesTo = true := by
  decide

theorem test_decode_Rotate_DDCB_2 : [
    ([0xDD, 0xCB, 0xF2, 0x3E], .srlIx 0xF2), ([0xDD, 0xCB, 0xF3, 0x3B], .srlRIx .e 0xF3)].all decodesTo = true := by
  decide

theorem test_decode_Rotate_ED : [
    ([0xED, 0x67], .rrd), ([0xED, 0x6F], .rld)].all decodesTo = true := by
  decide

theorem test_decode_Rotate_FD : [
    ([0xFD, 0x07], .rlca .fd), ([0xFD, 0x0F], .rrca .fd), ([0xFD, 0x17], .rla .fd), ([0xFD, 0x1F], .rra .fd)].all decodesTo = true := by
  decide

theorem test_decode_Rotate_FDCB_1 : [
    ([0xFD, 0xCB, 0xFD, 0x06], .rlcIy 0xFD), ([0xFD, 0xCB, 0xFE, 0x07], .rlcRIy .a 0xFE),
    ([0xFD, 0xCB, 0xFF, 0x0E], .rrcIy 0xFF), ([0xFD, 0xCB, 0xF0, 0x0A], .rrcRIy .d 0xF0),
    ([0xFD, 0xCB, 0xF1, 0x16], .rlIy 0xF1), ([0xFD, 0xCB, 0xF2, 0x15], .rlRIy .l 0xF2),
    ([0xFD, 0xCB, 0xF3, 0x1E], .rrIy 0xF3), ([0xFD, 0xCB, 0xF4, 0x19], .rrRIy .c 0xF4),
    ([0xFD, 0xCB, 0xF5, 0x26], .slaIy 0xF5), ([0xFD, 0xCB, 0xF6, 0x24], .slaRIy .h 0xF6),
    ([0xFD, 0xCB, 0xF7, 0x2E], .sraIy 0xF7), ([0xFD, 0xCB, 0xF8, 0x28], .sraRIy .b 0xF8),
    ([0xFD, 0xCB, 0xF9, 0x36], .sliIy 0xF9), ([0xFD, 0xCB, 0xFA, 0x33], .sliRIy .e 0xFA)].all decodesTo = true := by
  decide

theorem test_decode_Rotate_FDCB_2 : [
    ([0xFD, 0xCB, 0xFB, 0x3E], .srlIy 0xFB), ([0xFD, 0xCB, 0xFC, 0x3F], .srlRIy .a 0xFC)].all decodesTo = true := by
  decide

theorem test_decode_Rotate_main : [
    ([0x07], .rlca .plain), ([0x0F], .rrca .plain), ([0x17], .rla .plain), ([0x1F], .rra .plain)].all decodesTo = true := by
  decide

theorem test_decode_System_DD : [
    ([0xDD, 0xDD], .ignoredNextDd .ix), ([0xDD, 0xED], .ignoredNextEd .ix), ([0xDD, 0xFD], .ignoredNextFd .ix),
    ([0xDD, 0x00], .nop .dd), ([0xDD, 0x76], .halt .dd), ([0xDD, 0xF3], .di .dd), ([0xDD, 0xFB], .ei .dd)].all decodesTo = true := by
  decide

theorem test_decode_System_ED : [
    ([0xED, 0x10], .nopEd 0x10), ([0xED, 0x65], .retn 2), ([0xED, 0x7D], .reti 3), ([0xED, 0x66], .im 1 0),
    ([0xED, 0x7F], .nopEd 0x7F), ([0xED, 0x94], .nopEd 0x94), ([0xED, 0xB5], .nopEd 0xB5),
    ([0xED, 0xCE], .nopEd 0xCE)].all decodesTo = true := by
  decide

theorem test_decode_System_FD : [
    ([0xFD, 0xDD], .ignoredNextDd .iy), ([0xFD, 0xED], .ignoredNextEd .iy), ([0xFD, 0xFD], .ignoredNextFd .iy),
    ([0xFD, 0x00], .nop .fd), ([0xFD, 0x76], .halt .fd), ([0xFD, 0xF3], .di .fd), ([0xFD, 0xFB], .ei .fd)].all decodesTo = true := by
  decide

theorem test_decode_System_main : [
    ([0x00], .nop .plain), ([0x76], .halt .plain), ([0xF3], .di .plain), ([0xFB], .ei .plain)].all decodesTo = true := by
  decide

/-! ## States for one step -/

/-- Every register 0, PC at 0x1000: the defaults of 95_test_vectors.md section 3. -/
def blank : State := { State.reset with a := 0, f := 0, sp := 0, pc := 0x1000 }

/-- A state with bytes in memory. -/
def placed (bs : List (Word × List Byte)) (s : State) : State :=
  { s with mem := bs.foldl (fun m x => m.placeBytes x.1 x.2) s.mem }

/-- The outcome is a next state that passes the check. -/
def answers (o : Result) (check : State → Bool) : Bool :=
  match o with
  | .next t => check t
  | .fault _ => false
  | .refused _ => false

/-! ## One step: the vectors of 95_test_vectors.md section 3, each named by its number there -/

/-- Vector L1: LD A,#5A. -/
theorem test_L1 : answers (step (placed [(0x1000, [0x3E, 0x5A])]
      { blank with f := 0xFF }))
    (fun t => t.a == 0x5A && t.f == 0xFF && t.pc == 0x1002) = true := by
  decide

/-- Vector L2: LD B,C. -/
theorem test_L2 : answers (step (placed [(0x1000, [0x41])]
      { blank with c := 0x77 }))
    (fun t => t.f == 0x0 && t.b == 0x77 && t.pc == 0x1001) = true := by
  decide

/-- Vector L3: LD H,(HL). -/
theorem test_L3 : answers (step (placed [(0x1000, [0x66]), (0x4000, [0x12])]
      { blank with h := 0x40, l := 0x0 }))
    (fun t => t.f == 0x0 && t.h == 0x12 && t.pc == 0x1001) = true := by
  decide

/-- Vector L4: LD (HL),E. -/
theorem test_L4 : answers (step (placed [(0x1000, [0x73])]
      { blank with h := 0x40, l := 0x0, e := 0xAB }))
    (fun t => t.f == 0x0 && t.pc == 0x1001 && t.memRead 0x4000 == 0xAB) = true := by
  decide

/-- Vector L6: LD A,(BC). -/
theorem test_L6 : answers (step (placed [(0x1000, [0x0A]), (0x2000, [0x42])]
      { blank with b := 0x20, c := 0x0 }))
    (fun t => t.a == 0x42 && t.f == 0x0 && t.pc == 0x1001) = true := by
  decide

/-- Vector L8: LD A,(#1234). -/
theorem test_L8 : answers (step (placed [(0x1000, [0x3A, 0x34, 0x12]), (0x1234, [0xEE])] blank))
    (fun t => t.a == 0xEE && t.f == 0x0 && t.pc == 0x1003) = true := by
  decide

/-- Vector L9: LD (#1234),A. -/
theorem test_L9 : answers (step (placed [(0x1000, [0x32, 0x34, 0x12])]
      { blank with a := 0x5C }))
    (fun t => t.f == 0x0 && t.pc == 0x1003 && t.memRead 0x1234 == 0x5C) = true := by
  decide

/-- Vector L10: LD C,(IX-1). -/
theorem test_L10 : answers (step (placed [(0x1000, [0xDD, 0x4E, 0xFF]), (0x2FFF, [0x66])]
      { blank with ix := 0x3000 }))
    (fun t => t.f == 0x0 && t.c == 0x66 && t.pc == 0x1003) = true := by
  decide

/-- Vector L11: LD (IY+127),D. -/
theorem test_L11 : answers (step (placed [(0x1000, [0xFD, 0x72, 0x7F])]
      { blank with iy := 0xFFF0, d := 0x31 }))
    (fun t => t.f == 0x0 && t.pc == 0x1003 && t.memRead 0x6F == 0x31) = true := by
  decide

/-- Vector L16: LD A,YL. -/
theorem test_L16 : answers (step (placed [(0x1000, [0xFD, 0x7D])]
      { blank with iy := 0x12EF }))
    (fun t => t.a == 0xEF && t.f == 0x0 && t.pc == 0x1002) = true := by
  decide

/-- Vector L19: LD A,I (IFF2 = 1). -/
theorem test_L19 : answers (step (placed [(0x1000, [0xED, 0x57])]
      { blank with i := 0x80, iff2 := true, f := 0x3B }))
    (fun t => t.a == 0x80 && t.f == 0xAD && t.pc == 0x1002) = true := by
  decide

/-- Vector L21: LD A,R (R read after its own count of 2). -/
theorem test_L21 : answers (step (placed [(0x1000, [0xED, 0x5F])]
      { blank with r := 0x7E, iff2 := true }))
    (fun t => t.f == 0x44 && t.r == 0x0 && t.pc == 0x1002) = true := by
  decide

/-- Vector L22: LD R,A. -/
theorem test_L22 : answers (step (placed [(0x1000, [0xED, 0x4F])]
      { blank with a := 0xC3 }))
    (fun t => t.f == 0x0 && t.r == 0xC3 && t.pc == 0x1002) = true := by
  decide

/-- Vector W1: LD HL,#1225. -/
theorem test_W1 : answers (step (placed [(0x1000, [0x21, 0x25, 0x12])] blank))
    (fun t => t.f == 0x0 && t.h == 0x12 && t.l == 0x25 && t.pc == 0x1003) = true := by
  decide

/-- Vector W3: LD IY,#3A4B. -/
theorem test_W3 : answers (step (placed [(0x1000, [0xFD, 0x21, 0x4B, 0x3A])] blank))
    (fun t => t.f == 0x0 && t.iy == 0x3A4B && t.pc == 0x1004) = true := by
  decide

/-- Vector W6: LD (#4000),HL. -/
theorem test_W6 : answers (step (placed [(0x1000, [0x22, 0x00, 0x40])]
      { blank with h := 0xBE, l := 0xEF }))
    (fun t => t.f == 0x0 && t.pc == 0x1003 && t.memRead 0x4000 == 0xEF && t.memRead 0x4001 == 0xBE) = true := by
  decide

/-- Vector W8: LD (#4000),SP. -/
theorem test_W8 : answers (step (placed [(0x1000, [0xED, 0x73, 0x00, 0x40])]
      { blank with sp := 0x8642 }))
    (fun t => t.f == 0x0 && t.pc == 0x1004 && t.memRead 0x4000 == 0x42 && t.memRead 0x4001 == 0x86) = true := by
  decide

/-- Vector W12: LD SP,HL. -/
theorem test_W12 : answers (step (placed [(0x1000, [0xF9])]
      { blank with h := 0x90, l := 0x0 }))
    (fun t => t.f == 0x0 && t.sp == 0x9000 && t.pc == 0x1001) = true := by
  decide

/-- Vector W14: PUSH BC. -/
theorem test_W14 : answers (step (placed [(0x1000, [0xC5])]
      { blank with b := 0x12, c := 0x34, sp := 0x8000 }))
    (fun t => t.f == 0x0 && t.sp == 0x7FFE && t.pc == 0x1001 && t.memRead 0x7FFE == 0x34 &&
      t.memRead 0x7FFF == 0x12) = true := by
  decide

/-- Vector W15: PUSH AF. -/
theorem test_W15 : answers (step (placed [(0x1000, [0xF5])]
      { blank with a := 0x12, f := 0xD7, sp := 0x8000 }))
    (fun t => t.f == 0xD7 && t.sp == 0x7FFE && t.pc == 0x1001 && t.memRead 0x7FFE == 0xD7 &&
      t.memRead 0x7FFF == 0x12) = true := by
  decide

/-- Vector W18: POP AF (all 8 bits of F are loaded). -/
theorem test_W18 : answers (step (placed [(0x1000, [0xF1]), (0x7FFE, [0xFF, 0x80])]
      { blank with sp := 0x7FFE }))
    (fun t => t.a == 0x80 && t.f == 0xFF && t.sp == 0x8000 && t.pc == 0x1001) = true := by
  decide

/-- Vector W19: PUSH IX. -/
theorem test_W19 : answers (step (placed [(0x1000, [0xDD, 0xE5])]
      { blank with ix := 0x5566, sp := 0x8000 }))
    (fun t => t.f == 0x0 && t.sp == 0x7FFE && t.pc == 0x1002 && t.memRead 0x7FFE == 0x66 &&
      t.memRead 0x7FFF == 0x55) = true := by
  decide

/-- Vector W21: EX DE,HL. -/
theorem test_W21 : answers (step (placed [(0x1000, [0xEB])]
      { blank with d := 0x11, e := 0x11, h := 0x22, l := 0x22 }))
    (fun t => t.f == 0x0 && t.d == 0x22 && t.e == 0x22 && t.h == 0x11 && t.l == 0x11 && t.pc == 0x1001) = true := by
  decide

/-- Vector W23: EX AF,AF'. -/
theorem test_W23 : answers (step (placed [(0x1000, [0x08])]
      { blank with a := 0x1, f := 0x2, a' := 0xF0, f' := 0xFF }))
    (fun t => t.a == 0xF0 && t.f == 0xFF && t.a' == 0x1 && t.f' == 0x2 && t.pc == 0x1001) = true := by
  decide

/-- Vector W24: EXX. -/
theorem test_W24 : answers (step (placed [(0x1000, [0xD9])]
      { blank with b := 0x0, c := 0x1, d := 0x0, e := 0x2, h := 0x0, l := 0x3, b' := 0x10, c' := 0x0, d' := 0x20,
                   e' := 0x0, h' := 0x30, l' := 0x0 }))
    (fun t => t.f == 0x0 && t.b == 0x10 && t.c == 0x0 && t.d == 0x20 && t.e == 0x0 && t.h == 0x30 && t.l == 0x0 &&
      t.b' == 0x0 && t.c' == 0x1 && t.d' == 0x0 && t.e' == 0x2 && t.h' == 0x0 && t.l' == 0x3 &&
      t.pc == 0x1001) = true := by
  decide

/-- Vector W25: EX (SP),HL. -/
theorem test_W25 : answers (step (placed [(0x1000, [0xE3]), (0x7000, [0x78, 0x56])]
      { blank with h := 0x12, l := 0x34, sp := 0x7000 }))
    (fun t => t.f == 0x0 && t.h == 0x56 && t.l == 0x78 && t.pc == 0x1001 && t.memRead 0x7000 == 0x34 &&
      t.memRead 0x7001 == 0x12) = true := by
  decide

/-- Vector A1: ADD A,B (overflow into sign). -/
theorem test_A1 : answers (step (placed [(0x1000, [0x80])]
      { blank with a := 0x7F, b := 0x1 }))
    (fun t => t.a == 0x80 && t.f == 0x94 && t.pc == 0x1001) = true := by
  decide

/-- Vector A3: ADD A,#03 (the source: 254 + 3 = 257, result 1, C = 1). -/
theorem test_A3 : answers (step (placed [(0x1000, [0xC6, 0x03])]
      { blank with a := 0xFE }))
    (fun t => t.a == 0x1 && t.f == 0x11 && t.pc == 0x1002) = true := by
  decide

/-- Vector A6: ADD A,(IX+3). -/
theorem test_A6 : answers (step (placed [(0x1000, [0xDD, 0x86, 0x03]), (0x4003, [0x28])]
      { blank with a := 0x10, ix := 0x4000 }))
    (fun t => t.a == 0x38 && t.f == 0x28 && t.pc == 0x1003) = true := by
  decide

/-- Vector A8: ADC A,C with C flag = 1. -/
theorem test_A8 : answers (step (placed [(0x1000, [0x89])]
      { blank with a := 0xF, c := 0x0, f := 0x1 }))
    (fun t => t.a == 0x10 && t.f == 0x10 && t.pc == 0x1001) = true := by
  decide

/-- Vector A11: SUB B (the source: 2 - 3 borrows, C = 1). -/
theorem test_A11 : answers (step (placed [(0x1000, [0x90])]
      { blank with a := 0x2, b := 0x3 }))
    (fun t => t.a == 0xFF && t.f == 0xBB && t.pc == 0x1001) = true := by
  decide

/-- Vector A13: SUB #01 (0x80 - 1: overflow). -/
theorem test_A13 : answers (step (placed [(0x1000, [0xD6, 0x01])]
      { blank with a := 0x80 }))
    (fun t => t.a == 0x7F && t.f == 0x3E && t.pc == 0x1002) = true := by
  decide

/-- Vector A14: SBC A,E with C flag = 1. -/
theorem test_A14 : answers (step (placed [(0x1000, [0x9B])]
      { blank with a := 0x10, e := 0xF, f := 0x1 }))
    (fun t => t.a == 0x0 && t.f == 0x52 && t.pc == 0x1001) = true := by
  decide

/-- Vector A15: SBC A,(IY-2) with C flag = 1. -/
theorem test_A15 : answers (step (placed [(0x1000, [0xFD, 0x9E, 0xFE]), (0x4000, [0xFF])]
      { blank with a := 0x0, iy := 0x4002, f := 0x1 }))
    (fun t => t.f == 0x53 && t.pc == 0x1003) = true := by
  decide

/-- Vector A16: AND B (H = 1). -/
theorem test_A16 : answers (step (placed [(0x1000, [0xA0])]
      { blank with a := 0xF0, b := 0x3C, f := 0x3 }))
    (fun t => t.a == 0x30 && t.f == 0x34 && t.pc == 0x1001) = true := by
  decide

/-- Vector A19: OR A with A = 0. -/
theorem test_A19 : answers (step (placed [(0x1000, [0xB7])]
      { blank with a := 0x0, f := 0x13 }))
    (fun t => t.f == 0x44 && t.pc == 0x1001) = true := by
  decide

/-- Vector A22: XOR YH. -/
theorem test_A22 : answers (step (placed [(0x1000, [0xFD, 0xAC])]
      { blank with a := 0xFF, iy := 0x28AA }))
    (fun t => t.a == 0xD7 && t.f == 0x84 && t.pc == 0x1002) = true := by
  decide

/-- Vector A23: CP B (equal; flags 5, 3 from the operand 0x28). -/
theorem test_A23 : answers (step (placed [(0x1000, [0xB8])]
      { blank with a := 0x28, b := 0x28 }))
    (fun t => t.f == 0x6A && t.pc == 0x1001) = true := by
  decide

/-- Vector A24: CP #28 (result 0xD8 would give flags 5 = 0, 3 = 1; the operand gives 5 = 1, 3 = 1). -/
theorem test_A24 : answers (step (placed [(0x1000, [0xFE, 0x28])]
      { blank with a := 0x0 }))
    (fun t => t.f == 0xBB && t.pc == 0x1002) = true := by
  decide

/-- Vector A27: INC A from 0x7F (V = 1; C kept). -/
theorem test_A27 : answers (step (placed [(0x1000, [0x3C])]
      { blank with a := 0x7F, f := 0x1 }))
    (fun t => t.a == 0x80 && t.f == 0x95 && t.pc == 0x1001) = true := by
  decide

/-- Vector A29: INC (HL). -/
theorem test_A29 : answers (step (placed [(0x1000, [0x34]), (0x4000, [0x0F])]
      { blank with h := 0x40, l := 0x0, f := 0x2 }))
    (fun t => t.f == 0x10 && t.pc == 0x1001 && t.memRead 0x4000 == 0x10) = true := by
  decide

/-- Vector A30: INC (IX-128). -/
theorem test_A30 : answers (step (placed [(0x1000, [0xDD, 0x34, 0x80]), (0x4000, [0xFE])]
      { blank with ix := 0x4080 }))
    (fun t => t.f == 0xA8 && t.pc == 0x1003 && t.memRead 0x4000 == 0xFF) = true := by
  decide

/-- Vector A32: DEC A from 0x80 (V = 1). -/
theorem test_A32 : answers (step (placed [(0x1000, [0x3D])]
      { blank with a := 0x80, f := 0x1 }))
    (fun t => t.a == 0x7F && t.f == 0x3F && t.pc == 0x1001) = true := by
  decide

/-- Vector A37: CPL. -/
theorem test_A37 : answers (step (placed [(0x1000, [0x2F])]
      { blank with a := 0x5A, f := 0xC5 }))
    (fun t => t.a == 0xA5 && t.f == 0xF7 && t.pc == 0x1001) = true := by
  decide

/-- Vector A38: NEG of 0x01. -/
theorem test_A38 : answers (step (placed [(0x1000, [0xED, 0x44])]
      { blank with a := 0x1 }))
    (fun t => t.a == 0xFF && t.f == 0xBB && t.pc == 0x1002) = true := by
  decide

/-- Vector A42: SCF (flags 5, 3 from A). -/
theorem test_A42 : answers (step (placed [(0x1000, [0x37])]
      { blank with a := 0x28, f := 0xD6 }))
    (fun t => t.f == 0xED && t.pc == 0x1001) = true := by
  decide

/-- Vector A43: CCF with C = 1 (H takes the old C). -/
theorem test_A43 : answers (step (placed [(0x1000, [0x3F])]
      { blank with a := 0x0, f := 0x1 }))
    (fun t => t.f == 0x10 && t.pc == 0x1001) = true := by
  decide

/-- Vector A45: DAA after 0x15 + 0x27 (A = 0x3C, F = 0x28). -/
theorem test_A45 : answers (step (placed [(0x1000, [0x27])]
      { blank with a := 0x3C, f := 0x28 }))
    (fun t => t.a == 0x42 && t.f == 0x14 && t.pc == 0x1001) = true := by
  decide

/-- Vector B1: ADD HL,DE (carry out; S, Z, P/V kept). -/
theorem test_B1 : answers (step (placed [(0x1000, [0x19])]
      { blank with h := 0x12, l := 0x34, d := 0xED, e := 0xCC, f := 0xC4 }))
    (fun t => t.f == 0xD5 && t.h == 0x0 && t.l == 0x0 && t.pc == 0x1001) = true := by
  decide

/-- Vector B5: ADD IX,IX (code 10 is IX itself). -/
theorem test_B5 : answers (step (placed [(0x1000, [0xDD, 0x29])]
      { blank with ix := 0x4000, h := 0x11, l := 0x11 }))
    (fun t => t.f == 0x0 && t.ix == 0x8000 && t.pc == 0x1002) = true := by
  decide

/-- Vector B7: ADC HL,BC (signed overflow). -/
theorem test_B7 : answers (step (placed [(0x1000, [0xED, 0x4A])]
      { blank with h := 0x7F, l := 0xFF, b := 0x0, c := 0x0, f := 0x1 }))
    (fun t => t.f == 0x94 && t.h == 0x80 && t.l == 0x0 && t.pc == 0x1002) = true := by
  decide

/-- Vector B11: SBC HL,DE (borrow). -/
theorem test_B11 : answers (step (placed [(0x1000, [0xED, 0x52])]
      { blank with h := 0x0, l := 0x0, d := 0x0, e := 0x1, f := 0x0 }))
    (fun t => t.f == 0xBB && t.h == 0xFF && t.l == 0xFF && t.pc == 0x1002) = true := by
  decide

/-- Vector B15: INC BC from 0xFFFF (no flag changes). -/
theorem test_B15 : answers (step (placed [(0x1000, [0x03])]
      { blank with b := 0xFF, c := 0xFF, f := 0xA5 }))
    (fun t => t.f == 0xA5 && t.b == 0x0 && t.c == 0x0 && t.pc == 0x1001) = true := by
  decide

/-- Vector B16: DEC SP from 0x0000. -/
theorem test_B16 : answers (step (placed [(0x1000, [0x3B])]
      { blank with sp := 0x0, f := 0x5A }))
    (fun t => t.f == 0x5A && t.sp == 0xFFFF && t.pc == 0x1001) = true := by
  decide

/-- Vector J2: JP NZ,#8000 with Z = 1 (not taken). -/
theorem test_J2 : answers (step (placed [(0x1000, [0xC2, 0x00, 0x80])]
      { blank with f := 0x40 }))
    (fun t => t.f == 0x40 && t.pc == 0x1003) = true := by
  decide

/-- Vector J6: JP (HL) (no memory read). -/
theorem test_J6 : answers (step (placed [(0x1000, [0xE9]), (0x4321, [0x00, 0x90])]
      { blank with h := 0x43, l := 0x21 }))
    (fun t => t.f == 0x0 && t.pc == 0x4321) = true := by
  decide

/-- Vector J8: JR +5. -/
theorem test_J8 : answers (step (placed [(0x1000, [0x18, 0x05])] blank))
    (fun t => t.f == 0x0 && t.pc == 0x1007) = true := by
  decide

/-- Vector J12: JR Z,+16 with Z = 0 (not taken). -/
theorem test_J12 : answers (step (placed [(0x1000, [0x28, 0x10])]
      { blank with f := 0x0 }))
    (fun t => t.f == 0x0 && t.pc == 0x1002) = true := by
  decide

/-- Vector J15: DJNZ -2 with B = 2 (taken). -/
theorem test_J15 : answers (step (placed [(0x1000, [0x10, 0xFE])]
      { blank with b := 0x2, f := 0xFF }))
    (fun t => t.f == 0xFF && t.b == 0x1 && t.pc == 0x1000) = true := by
  decide

/-- Vector J19: CALL C,#2000 with C = 0 (not taken). -/
theorem test_J19 : answers (step (placed [(0x1000, [0xDC, 0x00, 0x20])]
      { blank with sp := 0x8000, f := 0x0 }))
    (fun t => t.f == 0x0 && t.pc == 0x1003) = true := by
  decide

/-- Vector J21: RST #38. -/
theorem test_J21 : answers (step (placed [(0x1000, [0xFF])]
      { blank with sp := 0x8000 }))
    (fun t => t.f == 0x0 && t.sp == 0x7FFE && t.pc == 0x38 && t.memRead 0x7FFE == 0x1 &&
      t.memRead 0x7FFF == 0x10) = true := by
  decide

/-- Vector J23: RET. -/
theorem test_J23 : answers (step (placed [(0x1000, [0xC9]), (0x7FFE, [0x03, 0x10])]
      { blank with sp := 0x7FFE }))
    (fun t => t.f == 0x0 && t.sp == 0x8000 && t.pc == 0x1003) = true := by
  decide

/-- Vector J24: RET PO with P/V = 0 (taken). -/
theorem test_J24 : answers (step (placed [(0x1000, [0xE0]), (0x7FFE, [0x03, 0x10])]
      { blank with sp := 0x7FFE, f := 0x0 }))
    (fun t => t.f == 0x0 && t.sp == 0x8000 && t.pc == 0x1003) = true := by
  decide

/-- Vector S1: RLCA (S, Z, P/V kept). -/
theorem test_S1 : answers (step (placed [(0x1000, [0x07])]
      { blank with a := 0x81, f := 0xC4 }))
    (fun t => t.a == 0x3 && t.f == 0xC5 && t.pc == 0x1001) = true := by
  decide

/-- Vector S3: RLA with C = 1. -/
theorem test_S3 : answers (step (placed [(0x1000, [0x17])]
      { blank with a := 0x80, f := 0x1 }))
    (fun t => t.a == 0x1 && t.f == 0x1 && t.pc == 0x1001) = true := by
  decide

/-- Vector S4: RRA with C = 1. -/
theorem test_S4 : answers (step (placed [(0x1000, [0x1F])]
      { blank with a := 0x0, f := 0x1 }))
    (fun t => t.a == 0x80 && t.f == 0x0 && t.pc == 0x1001) = true := by
  decide

/-- Vector S5: RLC B. -/
theorem test_S5 : answers (step (placed [(0x1000, [0xCB, 0x00])]
      { blank with b := 0x80 }))
    (fun t => t.f == 0x1 && t.b == 0x1 && t.pc == 0x1002) = true := by
  decide

/-- Vector S6: RLC (HL). -/
theorem test_S6 : answers (step (placed [(0x1000, [0xCB, 0x06]), (0x4000, [0x55])]
      { blank with h := 0x40, l := 0x0 }))
    (fun t => t.f == 0xAC && t.pc == 0x1002 && t.memRead 0x4000 == 0xAA) = true := by
  decide

/-- Vector S7: RRC E. -/
theorem test_S7 : answers (step (placed [(0x1000, [0xCB, 0x0B])]
      { blank with e := 0x1 }))
    (fun t => t.f == 0x81 && t.e == 0x80 && t.pc == 0x1002) = true := by
  decide

/-- Vector S8: RL D with C = 0. -/
theorem test_S8 : answers (step (placed [(0x1000, [0xCB, 0x12])]
      { blank with d := 0x80, f := 0x0 }))
    (fun t => t.f == 0x45 && t.d == 0x0 && t.pc == 0x1002) = true := by
  decide

/-- Vector S12: SRA H (sign kept). -/
theorem test_S12 : answers (step (placed [(0x1000, [0xCB, 0x2C])]
      { blank with h := 0x81, l := 0x0 }))
    (fun t => t.f == 0x85 && t.h == 0xC0 && t.pc == 0x1002) = true := by
  decide

/-- Vector S14: SLI A (bit 0 filled with 1). -/
theorem test_S14 : answers (step (placed [(0x1000, [0xCB, 0x37])]
      { blank with a := 0x80 }))
    (fun t => t.a == 0x1 && t.f == 0x1 && t.pc == 0x1002) = true := by
  decide

/-- Vector S16: SRL L. -/
theorem test_S16 : answers (step (placed [(0x1000, [0xCB, 0x3D])]
      { blank with h := 0x0, l := 0x81 }))
    (fun t => t.f == 0x1 && t.l == 0x40 && t.pc == 0x1002) = true := by
  decide

/-- Vector S18: RLC (IX+2). -/
theorem test_S18 : answers (step (placed [(0x1000, [0xDD, 0xCB, 0x02, 0x06]), (0x4002, [0x88])]
      { blank with ix := 0x4000 }))
    (fun t => t.f == 0x5 && t.pc == 0x1004 && t.memRead 0x4002 == 0x11) = true := by
  decide

/-- Vector S21: RLC B,(IX+2) (complex: memory and B get the result; old B not used). -/
theorem test_S21 : answers (step (placed [(0x1000, [0xDD, 0xCB, 0x02, 0x00]), (0x4002, [0x88])]
      { blank with ix := 0x4000, b := 0x77 }))
    (fun t => t.f == 0x5 && t.b == 0x11 && t.pc == 0x1004 && t.memRead 0x4002 == 0x11) = true := by
  decide

/-- Vector S22: RL H,(IY+1) (complex: H itself, not YH). -/
theorem test_S22 : answers (step (placed [(0x1000, [0xFD, 0xCB, 0x01, 0x14]), (0x4001, [0x81])]
      { blank with iy := 0x4000, h := 0x0, l := 0x0, f := 0x1 }))
    (fun t => t.f == 0x5 && t.h == 0x3 && t.pc == 0x1004 && t.memRead 0x4001 == 0x3) = true := by
  decide

/-- Vector S23: SLI A,(IX-2). -/
theorem test_S23 : answers (step (placed [(0x1000, [0xDD, 0xCB, 0xFE, 0x37]), (0x4000, [0x7F])]
      { blank with ix := 0x4002 }))
    (fun t => t.a == 0xFF && t.f == 0xAC && t.pc == 0x1004 && t.memRead 0x4000 == 0xFF) = true := by
  decide

/-- Vector S25: RLD. -/
theorem test_S25 : answers (step (placed [(0x1000, [0xED, 0x6F]), (0x5000, [0x34])]
      { blank with a := 0x12, h := 0x50, l := 0x0, f := 0x1 }))
    (fun t => t.a == 0x13 && t.f == 0x1 && t.pc == 0x1002 && t.memRead 0x5000 == 0x42) = true := by
  decide

/-- Vector S26: RRD. -/
theorem test_S26 : answers (step (placed [(0x1000, [0xED, 0x67]), (0x5000, [0x34])]
      { blank with a := 0x12, h := 0x50, l := 0x0, f := 0x1 }))
    (fun t => t.a == 0x14 && t.f == 0x5 && t.pc == 0x1002 && t.memRead 0x5000 == 0x23) = true := by
  decide

/-- Vector T1: BIT 0,A (bit is 0: Z = 1, P/V = 1). -/
theorem test_T1 : answers (step (placed [(0x1000, [0xCB, 0x47])]
      { blank with a := 0xFE, f := 0x1 }))
    (fun t => t.f == 0x55 && t.pc == 0x1002) = true := by
  decide

/-- Vector T8: BIT 6,(IX+4) (flags 5, 3 from the high byte 0x28 of the address 0x2804). -/
theorem test_T8 : answers (step (placed [(0x1000, [0xDD, 0xCB, 0x04, 0x76]), (0x2804, [0x40])]
      { blank with ix := 0x2800 }))
    (fun t => t.f == 0x38 && t.pc == 0x1004) = true := by
  decide

/-- Vector T10: SET 7,B. -/
theorem test_T10 : answers (step (placed [(0x1000, [0xCB, 0xF8])]
      { blank with b := 0x1, f := 0xFF }))
    (fun t => t.f == 0xFF && t.b == 0x81 && t.pc == 0x1002) = true := by
  decide

/-- Vector T12: RES 0,A. -/
theorem test_T12 : answers (step (placed [(0x1000, [0xCB, 0x87])]
      { blank with a := 0xFF }))
    (fun t => t.a == 0xFE && t.f == 0x0 && t.pc == 0x1002) = true := by
  decide

/-- Vector T16: SET 1,C,(IX+1) (complex). -/
theorem test_T16 : answers (step (placed [(0x1000, [0xDD, 0xCB, 0x01, 0xC9]), (0x4001, [0x01])]
      { blank with ix := 0x4000, c := 0xF0 }))
    (fun t => t.f == 0x0 && t.c == 0x3 && t.pc == 0x1004 && t.memRead 0x4001 == 0x3) = true := by
  decide

/-- Vector T17: RES 0,L,(IY+0) (complex: L itself). -/
theorem test_T17 : answers (step (placed [(0x1000, [0xFD, 0xCB, 0x00, 0x85]), (0x4000, [0x0F])]
      { blank with iy := 0x4000, h := 0x0, l := 0x0 }))
    (fun t => t.f == 0x0 && t.l == 0xE && t.pc == 0x1004 && t.memRead 0x4000 == 0xE) = true := by
  decide

/-- Vector K1: LDI. -/
theorem test_K1 : answers (step (placed [(0x1000, [0xED, 0xA0]), (0x4000, [0x33])]
      { blank with h := 0x40, l := 0x0, d := 0x50, e := 0x0, b := 0x0, c := 0x2, a := 0x5, f := 0xFF }))
    (fun t => t.f == 0xCD && t.c == 0x1 && t.e == 0x1 && t.l == 0x1 && t.pc == 0x1002 &&
      t.memRead 0x5000 == 0x33) = true := by
  decide

/-- Vector K4: LDIR, first of two iterations (PC stays). -/
theorem test_K4 : answers (step (placed [(0x1000, [0xED, 0xB0]), (0x4000, [0x33, 0x44])]
      { blank with h := 0x40, l := 0x0, d := 0x50, e := 0x0, b := 0x0, c := 0x2, a := 0x5, f := 0xFF }))
    (fun t => t.f == 0xCD && t.c == 0x1 && t.e == 0x1 && t.l == 0x1 && t.pc == 0x1000 &&
      t.memRead 0x5000 == 0x33) = true := by
  decide

/-- Vector K8: CPI, no match. -/
theorem test_K8 : answers (step (placed [(0x1000, [0xED, 0xA1]), (0x4000, [0x10])]
      { blank with a := 0x3B, h := 0x40, l := 0x0, b := 0x0, c := 0x3, f := 0x1 }))
    (fun t => t.f == 0x2F && t.c == 0x2 && t.l == 0x1 && t.pc == 0x1002) = true := by
  decide

/-- Vector P5: OUT (#FE),A. -/
theorem test_P5 : answers (step (placed [(0x1000, [0xD3, 0xFE])]
      { blank with a := 0x7, f := 0xFF }))
    (fun t => t.f == 0xFF && t.pc == 0x1002 && t.ports == [⟨.output, 0x7FE, 0x7⟩]) = true := by
  decide

/-- Vector P7: OUTF (ED 71). -/
theorem test_P7 : answers (step (placed [(0x1000, [0xED, 0x71]), (0x4000, [0x55])]
      { blank with b := 0x12, c := 0x34, h := 0x40, l := 0x0 }))
    (fun t => t.f == 0x0 && t.pc == 0x1002 && t.ports == [⟨.output, 0x1234, 0x0⟩]) = true := by
  decide

/-- Vector P12: OTI. -/
theorem test_P12 : answers (step (placed [(0x1000, [0xED, 0xA3]), (0x4000, [0x41])]
      { blank with b := 0x3, c := 0x10, h := 0x40, l := 0x0 }))
    (fun t => t.b == 0x2 && t.l == 0x1 && t.pc == 0x1002 && t.ports == [⟨.output, 0x310, 0x41⟩]) = true := by
  decide

/-- Vector Y1: NOP. -/
theorem test_Y1 : answers (step (placed [(0x1000, [0x00])]
      { blank with f := 0xA5, r := 0x7F }))
    (fun t => t.f == 0xA5 && t.r == 0x0 && t.pc == 0x1001) = true := by
  decide

/-- Vector Y3: ED 00 (undefined ED opcode). -/
theorem test_Y3 : answers (step (placed [(0x1000, [0xED, 0x00])]
      { blank with a := 0x12, f := 0x34, r := 0x0 }))
    (fun t => t.f == 0x34 && t.r == 0x2 && t.pc == 0x1002) = true := by
  decide

/-- Vector Y6: DD FD: the DD is an ignored prefix (one step). -/
theorem test_Y6 : answers (step (placed [(0x1000, [0xDD, 0xFD, 0x21, 0x34, 0x12])]
      { blank with r := 0x0 }))
    (fun t => t.f == 0x0 && t.r == 0x1 && t.pc == 0x1001) = true := by
  decide

/-- Vector Y9: DI. -/
theorem test_Y9 : answers (step (placed [(0x1000, [0xF3])]
      { blank with iff1 := true, iff2 := true }))
    (fun t => t.f == 0x0 && t.pc == 0x1001 && !t.iff1 && !t.iff2) = true := by
  decide

/-- Vector Y11: IM 2. -/
theorem test_Y11 : answers (step (placed [(0x1000, [0xED, 0x5E])]
      { blank with im := .im0 }))
    (fun t => t.f == 0x0 && t.pc == 0x1002 && t.im == .im2) = true := by
  decide

/-- Vector Y15: RETN. -/
theorem test_Y15 : answers (step (placed [(0x1000, [0xED, 0x45]), (0xFFFC, [0x03, 0x80])]
      { blank with sp := 0xFFFC, iff1 := false, iff2 := true }))
    (fun t => t.f == 0x0 && t.sp == 0xFFFE && t.pc == 0x8003 && t.iff1) = true := by
  decide

/-- Vector Y17: RETI (IFF1 not changed). -/
theorem test_Y17 : answers (step (placed [(0x1000, [0xED, 0x4D]), (0x7000, [0x34, 0x12])]
      { blank with sp := 0x7000, iff1 := false, iff2 := true }))
    (fun t => t.f == 0x0 && t.sp == 0x7002 && t.pc == 0x1234) = true := by
  decide

/-- Vector Y18: HALT. -/
theorem test_Y18 : answers (step (placed [(0x1000, [0x76])] blank))
    (fun t => t.f == 0x0 && t.pc == 0x1001 && t.halted) = true := by
  decide

/-- Vector I1: INT accepted (mode 1): 60_exceptions.md rule R515. -/
theorem test_I1 : answers (step (placed []
      { blank with sp := 0x8000, iff1 := true, iff2 := true, im := .im1, r := 0x0, intLine := true, busByte := 0xFF,
                   pc := 0x1234 }))
    (fun t => t.r == 0x1 && t.sp == 0x7FFE && t.pc == 0x38 && !t.iff1 && !t.iff2 && !t.inhibit &&
      t.memRead 0x7FFE == 0x34 && t.memRead 0x7FFF == 0x12) = true := by
  decide

/-- Vector I2: INT accepted (mode 0): 60_exceptions.md rule R514, b = RST #10. -/
theorem test_I2 : answers (step (placed []
      { blank with sp := 0x8000, iff1 := true, iff2 := true, im := .im0, r := 0x0, intLine := true, busByte := 0xD7,
                   pc := 0x1234 }))
    (fun t => t.r == 0x1 && t.sp == 0x7FFE && t.pc == 0x10 && !t.iff1 && !t.iff2 && !t.inhibit &&
      t.memRead 0x7FFE == 0x34 && t.memRead 0x7FFF == 0x12) = true := by
  decide

/-- Vector I4: INT accepted (mode 2): 60_exceptions.md rule R516. -/
theorem test_I4 : answers (step (placed [(0x80FE, [0x00, 0x20])]
      { blank with sp := 0x8000, iff1 := true, iff2 := true, im := .im2, i := 0x80, r := 0x0, intLine := true,
                   busByte := 0xFE, pc := 0x1234 }))
    (fun t => t.r == 0x1 && t.sp == 0x7FFE && t.pc == 0x2000 && !t.iff1 && !t.iff2 && !t.inhibit &&
      t.memRead 0x7FFE == 0x34 && t.memRead 0x7FFF == 0x12) = true := by
  decide

/-- Vector I6: NMI accepted: 60_exceptions.md rule R510; IFF2 kept. -/
theorem test_I6 : answers (step (placed []
      { blank with sp := 0x8000, iff1 := true, iff2 := true, im := .im1, r := 0x0, nmiPending := true,
                   pc := 0x1234 }))
    (fun t => t.r == 0x1 && t.sp == 0x7FFE && t.pc == 0x66 && !t.iff1 && t.iff2 && !t.inhibit && !t.nmiPending &&
      t.memRead 0x7FFE == 0x34 && t.memRead 0x7FFF == 0x12) = true := by
  decide

/-- Vector I8: NMI accepted: NMI before INT (60_exceptions.md rule R508); INT_LINE stays 1 and is now masked. -/
theorem test_I8 : answers (step (placed []
      { blank with sp := 0x8000, iff1 := true, iff2 := true, im := .im1, r := 0x0, nmiPending := true,
                   intLine := true, busByte := 0xFF, pc := 0x1234 }))
    (fun t => t.r == 0x1 && t.sp == 0x7FFE && t.pc == 0x66 && !t.iff1 && t.iff2 && !t.inhibit && !t.nmiPending &&
      t.memRead 0x7FFE == 0x34 && t.memRead 0x7FFF == 0x12) = true := by
  decide

/-- Vector I10: instruction executes: boundary after EI: INC A runs, the INT is taken at the next boundary. -/
theorem test_I10 : answers (step (placed [(0x1000, [0x3C])]
      { blank with sp := 0x8000, iff1 := true, iff2 := true, im := .im1, a := 0x1, r := 0x0, inhibit := true,
                   intLine := true }))
    (fun t => t.a == 0x2 && t.r == 0x1 && t.pc == 0x1001 && t.iff1 && t.iff2 && !t.inhibit) = true := by
  decide

/-- Vector I12: INT accepted (mode 1): leaves the halted state; the address after the HALT is pushed. -/
theorem test_I12 : answers (step (placed []
      { blank with sp := 0x8000, iff1 := true, iff2 := true, im := .im1, halted := true, r := 0x0, intLine := true,
                   pc := 0x1001 }))
    (fun t => t.r == 0x1 && t.sp == 0x7FFE && t.pc == 0x38 && !t.iff1 && !t.iff2 && !t.halted && !t.inhibit &&
      t.memRead 0x7FFE == 0x1 && t.memRead 0x7FFF == 0x10) = true := by
  decide

/-- Vector I13: halted step: masked INT does not end HALT; only R counts. -/
theorem test_I13 : answers (step (placed []
      { blank with sp := 0x8000, iff1 := false, iff2 := false, im := .im1, halted := true, r := 0x0, intLine := true,
                   pc := 0x1001 }))
    (fun t => t.r == 0x1 && t.pc == 0x1001 && !t.iff1 && !t.iff2 && !t.inhibit) = true := by
  decide

/-- Vector I15: instruction executes: EI sets INHIBIT. -/
theorem test_I15 : answers (step (placed [(0x1000, [0xFB])]
      { blank with sp := 0x8000, iff1 := true, iff2 := true, im := .im1, r := 0x0, intLine := false }))
    (fun t => t.r == 0x1 && t.pc == 0x1001 && t.iff1 && t.iff2 && t.inhibit) = true := by
  decide

/-- Vector I16: instruction executes: ignored prefix sets INHIBIT. -/
theorem test_I16 : answers (step (placed [(0x1000, [0xDD, 0xFD])]
      { blank with sp := 0x8000, iff1 := true, iff2 := true, im := .im1, r := 0x0, intLine := false }))
    (fun t => t.r == 0x1 && t.pc == 0x1001 && t.iff1 && t.iff2 && t.inhibit) = true := by
  decide

/-! ## Witnesses: the hypotheses of the obligations are met -/

/-- The outcome is a next state. -/
def isNext (o : Result) : Bool := answers o fun _ => true

/-- DecodeReadsBackEveryEncoding, both clauses, and a prefix row for the first alone. -/
theorem test_witness_DecodeReadsBackEveryEncoding :
    (Instr.bitIx 6 0 0xFF).wellFormed = true ∧
    Instr.bitIx 6 0 0xFF ∉ [Instr.prefixCb, .prefixDd, .prefixEd, .prefixFd, .prefixDdCb, .prefixFdCb] ∧
    Instr.prefixDdCb.wellFormed = true := by decide

/-- A program byte at PC and a level-sensitive request that is masked. -/
def masked : State := placed [(0x1000, [0x3C])] { blank with intLine := true }

/-- StepRunsTheDecodedInstruction: with INT masked, and with NMI pending while INHIBIT holds. -/
theorem test_witness_StepRunsTheDecodedInstruction :
    (masked.sampleInputs.resetLine = false ∧ masked.sampleInputs.halted = false ∧
      (masked.sampleInputs.nmiPending = false ∧ masked.sampleInputs.iff1 = false) ∧
      decode [masked.sampleInputs.memRead masked.sampleInputs.pc, masked.sampleInputs.memRead (masked.sampleInputs.pc + 1),
        masked.sampleInputs.memRead (masked.sampleInputs.pc + 2), masked.sampleInputs.memRead (masked.sampleInputs.pc + 3)] =
        .ok (.incR .plain .a)) ∧
    { masked with nmiPending := true, inhibit := true }.sampleInputs.inhibit = true := by
  refine ⟨⟨rfl, rfl, ⟨rfl, rfl⟩, ?_⟩, rfl⟩
  rfl

/-- A sample of the inputs. -/
def sample : InputSample := { reset := false, nmi := true, intLine := true, busByte := 0xC7 }

/-- InputsAreSampledOnce: both clauses. -/
theorem test_witness_InputsAreSampledOnce :
    blank.inputs = [] ∧ { blank with inputs := [sample] }.inputs = sample :: [] := by decide

/-- NmiIsTaken: an NMI that the sample brings, and one latched before. -/
theorem test_witness_NmiIsTaken :
    let s := { blank with inputs := [sample] }.sampleInputs
    let u := { blank with nmiPending := true }.sampleInputs
    (s.resetLine = false ∧ s.inhibit = false ∧ s.nmiPending = true) ∧
    (u.resetLine = false ∧ u.inhibit = false ∧ u.nmiPending = true) := by decide

/-- An accepted INT in a mode. -/
def requested (m : IntMode) (v : Byte) : State :=
  { blank with intLine := true, iff1 := true, im := m, busByte := v }

/-- What IntIsTaken asks of a state. -/
def intAcceptable (s : State) : Bool :=
  !s.resetLine && !s.inhibit && !s.nmiPending && s.intLine && s.iff1 && (s.im != .im0 || isRst s.busByte)

/-- IntIsTaken: each interrupt mode, mode 0 with the lowest and the highest RST opcode. -/
theorem test_witness_IntIsTaken :
    [requested .im0 0xC7, requested .im0 0xFF, requested .im1 0x00, requested .im2 0xFF].all
      (fun s => intAcceptable s.sampleInputs) = true := by decide

/-- ModeZeroByteThatIsNoRstIsRefused, at a byte one bit away from an RST opcode. -/
theorem test_witness_ModeZeroByteThatIsNoRstIsRefused :
    let s := (requested .im0 0xC6).sampleInputs
    s.resetLine = false ∧ s.inhibit = false ∧ s.nmiPending = false ∧ s.intLine = true ∧ s.iff1 = true ∧
      s.im = .im0 ∧ s.busByte &&& 0xC7 ≠ 0xC7 := by decide

/-- HaltedStepOnlyCounts: no request, a masked INT, and requests that INHIBIT holds off. -/
theorem test_witness_HaltedStepOnlyCounts :
    let s := { blank with halted := true }.sampleInputs
    let u := { blank with halted := true, intLine := true }.sampleInputs
    let v := { blank with halted := true, nmiPending := true, inhibit := true }.sampleInputs
    (s.resetLine = false ∧ s.halted = true ∧ s.nmiPending = false ∧ s.intLine = false) ∧
    (u.resetLine = false ∧ u.halted = true ∧ u.nmiPending = false ∧ u.iff1 = false) ∧
    (v.resetLine = false ∧ v.halted = true ∧ v.inhibit = true) := by decide

/-- ResetLineResets: RESET with NMI and INT pending. -/
theorem test_witness_ResetLineResets :
    { requested .im1 0 with resetLine := true, nmiPending := true }.sampleInputs.resetLine = true := by decide

/-- StepNeverStopsOnRstBusBytes: the bus byte and the coming samples. -/
theorem test_witness_StepNeverStopsOnRstBusBytes :
    { requested .im0 0xD7 with inputs := [sample] }.busBytesRst = true := by decide

/-- EveryStepKeepsMemoryCanonical: LD (HL),N at the top of memory, writing the byte an unlisted cell reads as. -/
theorem test_witness_EveryStepKeepsMemoryCanonical :
    let s := placed [(0x1000, [0x36, 0x00]), (0xFFFF, [0x12])] { blank with h := 0xFF, l := 0xFF }
    s.memoryWf = true ∧ answers (Machine.step s) (fun t => t.memoryWf && t.memRead 0xFFFF == 0) = true := by decide

/-- OnlyRamChanges: PUSH with the stack in rom, LD (HL),A with HL where there is no memory. -/
theorem test_witness_OnlyRamChanges :
    let m : List Region := [⟨0x4000, 0x100, .rom⟩, ⟨0x5000, 0x100, .unpopulated⟩]
    let s := placed [(0x1000, [0xF5])] { blank with sp := 0x4002, a := 0x12, mem := { cells := [], map := m } }
    let u := placed [(0x1000, [0x77])] { blank with h := 0x50, a := 0x12, mem := { cells := [], map := m } }
    (s.mem.kindAt 0x4001 ≠ .ram ∧ answers (Machine.step s) (fun t => t.sp == 0x4000 && t.memRead 0x4001 == 0) = true) ∧
    (u.mem.kindAt 0x5000 ≠ .ram ∧ isNext (Machine.step u) = true) := by decide

/-- VectorRegisterChangesOnlyByLdIA: LD I,A. -/
theorem test_witness_VectorRegisterChangesOnlyByLdIA :
    let s := placed [(0x1000, [0xED, 0x47])] { blank with a := 0x3F }
    s.sampleInputs.boundary = .instruction ∧ s.sampleInputs.fetched = .ldIA ∧
      answers (Machine.step s) (fun t => t.i == 0x3F) = true := by decide

/-- RefreshBitSevenChangesOnlyByLdRA: LD R,A, and a count past 0x7F that keeps bit 7. -/
theorem test_witness_RefreshBitSevenChangesOnlyByLdRA :
    let s := placed [(0x1000, [0xED, 0x4F])] { blank with a := 0x80 }
    s.sampleInputs.fetched = .ldRA ∧ answers (Machine.step s) (fun t => t.r == 0x80) = true ∧
      answers (Machine.step { blank with r := 0xFF }) (fun t => t.r == 0x80) = true := by decide

/-- ShadowSetChangesOnlyByExchanges: EXX, EX AF,AF' and NOP. -/
theorem test_witness_ShadowSetChangesOnlyByExchanges :
    let s := placed [(0x1000, [0xD9])] { blank with b := 1 }
    let u := placed [(0x1000, [0x08])] { blank with a := 1 }
    s.sampleInputs.resetLine = false ∧ answers (Machine.step s) (fun t => t.b' == 1 && t.a' == 0) = true ∧
      answers (Machine.step u) (fun t => t.a' == 1 && t.b' == 0) = true ∧
      answers (Machine.step blank) (fun t => t.b' == 0) = true := by decide

/-- InterruptControlWriters: EI, RETN, IM 2 and HALT, each from the value that it changes. -/
theorem test_witness_InterruptControlWriters :
    let retn := placed [(0x1000, [0xED, 0x45])] { blank with iff2 := true }
    blank.sampleInputs.resetLine = false ∧
    answers (Machine.step (placed [(0x1000, [0xFB])] blank)) (fun t => t.iff1 && t.iff2) = true ∧
    answers (Machine.step retn) (fun t => t.iff1) = true ∧
    answers (Machine.step (placed [(0x1000, [0xED, 0x5E])] blank)) (fun t => t.im == .im2) = true ∧
    answers (Machine.step (placed [(0x1000, [0x76])] blank)) (fun t => t.halted) = true := by decide

/-- OnePortAccessPerStep: OUT (N),A makes one, NOP none. -/
theorem test_witness_OnePortAccessPerStep :
    answers (Machine.step (placed [(0x1000, [0xD3, 0xFE])] blank)) (fun t => t.ports == [⟨.output, 0x00FE, 0⟩]) = true ∧
    answers (Machine.step blank) (fun t => t.ports == []) = true := by decide

/-- DecimalAdjustGivesDecimalDigits: 15 + 27 = 42 and 99 + 99 = 198, both inside the range. -/
theorem test_witness_DecimalAdjustGivesDecimalDigits :
    (15 < 100 ∧ 27 < 100 ∧ 99 < 100) ∧
    (daa (add8 0x15 0x27 false).1 (add8 0x15 0x27 false).2).1 = 0x42 ∧
    (daa (add8 0x99 0x99 false).1 (add8 0x99 0x99 false).2).1 = 0x98 := by decide

/-- WordsInMemoryAreLittleEndian: ram at the last address and at the first, where the word wraps. -/
theorem test_witness_WordsInMemoryAreLittleEndian :
    blank.mem.kindAt 0xFFFF = .ram ∧ blank.mem.kindAt (0xFFFF + 1) = .ram := by decide

/-- StackPrimitives: SP at 1, where the pushed word wraps. -/
theorem test_witness_StackPrimitives :
    { blank with sp := 1 }.mem.kindAt (1 - 2) = .ram ∧ { blank with sp := 1 }.mem.kindAt (1 - 1) = .ram := by decide

/-- JumpsSetOnlyThePc, CallsPushTheNextAddress, ReturnsPopThePc: each condition holds in one state and fails in
another. -/
theorem test_witness_conditions :
    [Cond.nz, .z, .nc, .c, .po, .pe, .p, .m].all
      (fun q => { blank with f := 0x00 }.cond q != { blank with f := 0xFF }.cond q) = true := by decide

/-- CallsPushTheNextAddress: CALL C,NN taken. -/
theorem test_witness_CallsPushTheNextAddress :
    answers (Machine.step (placed [(0x1000, [0xDC, 0x00, 0x20])] { blank with f := 0x01, sp := 0x8000 }))
      (fun t => t.pc == 0x2000 && t.sp == 0x7FFE && t.memRead 0x7FFE == 0x03 && t.memRead 0x7FFF == 0x10) = true := by
  decide

/-- ReturnsPopThePc: RET NZ not taken. -/
theorem test_witness_ReturnsPopThePc :
    answers (Machine.step (placed [(0x1000, [0xC0])] { blank with f := 0x40, sp := 0x8000 }))
      (fun t => t.pc == 0x1001 && t.sp == 0x8000) = true := by decide

/-- LoadsOfARegister and IncrementsAndDecrementsOfAByte: the other half of an index register, and another register. -/
theorem test_witness_other_register : Half.lo ≠ Half.hi ∧ RegX.xl ≠ RegX.xh := by decide

/-- SystemInstructions: the four codes of IM fall under the three clauses. -/
theorem test_witness_SystemInstructions :
    [0#2, 1#2, 2#2, 3#2].map imOfField = [.im0, .im0, .im1, .im2] := by decide

/-- The port instructions read a byte and go on, whatever the device answers (log 5). -/
theorem test_ports_read :
    [[0xDB, 0x34], [0xED, 0x78], [0xED, 0x70], [0xED, 0xA2], [0xED, 0xBA]].all
      (fun bs => isNext (Machine.step (placed [(0x1000, bs)] blank))) = true := by decide

/-! ## The table's words, and a program's bytes placed from outside -/

/-- The word of INC A runs as the first instruction after reset (log 19). -/
theorem test_withFetchWord :
    answers (Machine.step (State.reset.withFetchWord 8 0x3C)) (fun t => t.a == 0x00 && t.pc == 0x0001) = true := by decide

/-- The word of LD IX,NN, whose operand bytes the table does not give: they are zero (log 18). -/
theorem test_decodeTableWord :
    decodeTableWord 16 0xDD21 = some (.ldIxNn 0x0000) ∧ decodeTableWord 16 0x21DD = some (.ldIxNn 0x0000) := by decide

end Sys2Proof.Tests
end

