-- ==== Sys2Proof/Proofs/Control.lean ====
section
/-! PROOF. The part of the state that few instructions write: I, bit 7 of R, the shadow set, the interrupt flip-flops,
IM and HALTED (10_state.md R32, R45 to R50). `exec_control` and `step_control` say once what an instruction and a step
do to it; the statements about its writers follow from them. -/

namespace Sys2Proof.Machine

/-! ## The control view of a state -/

/-- The registers of 10_state.md R32 and R45 to R50 whose writers the statements name; of R only bit 7, which no fetch
counts (D14). -/
structure Control where
  i : Byte
  r7 : Bool
  a' : Byte
  f' : Byte
  b' : Byte
  c' : Byte
  d' : Byte
  e' : Byte
  h' : Byte
  l' : Byte
  iff1 : Bool
  iff2 : Bool
  im : IntMode
  halted : Bool

/-- The control view of a state. -/
def State.control (s : State) : Control where
  i := s.i
  r7 := s.r.getLsbD 7
  a' := s.a'
  f' := s.f'
  b' := s.b'
  c' := s.c'
  d' := s.d'
  e' := s.e'
  h' := s.h'
  l' := s.l'
  iff1 := s.iff1
  iff2 := s.iff2
  im := s.im
  halted := s.halted

/-- What the acceptance of an interrupt does to the control view (60_exceptions.md R510, R512). -/
def Control.interrupted (c : Control) (keepIff2 : Bool) : Control :=
  { c with halted := false, iff1 := false, iff2 := keepIff2 && c.iff2 }

/-- The control view after an instruction: its nine writers, and every other instruction keeps it. -/
def controlAfter (i : Instr) (s : State) : Control :=
  match i with
  | .exAfAf _ => { s.control with a' := s.a, f' := s.f }
  | .exx _ => { s.control with b' := s.b, c' := s.c, d' := s.d, e' := s.e, h' := s.h, l' := s.l }
  | .halt _ => { s.control with halted := true }
  | .di _ => { s.control with iff1 := false, iff2 := false }
  | .ei _ => { s.control with iff1 := true, iff2 := true }
  | .retn _ => { s.control with iff1 := s.iff2 }
  | .im _ m => { s.control with im := imOfField m }
  | .ldIA => { s.control with i := s.a }
  | .ldRA => { s.control with r7 := s.a.getLsbD 7 }
  | _ => s.control

/-! ## The shared operations -/

section
variable (s : State)

/-- A count of R keeps bit 7 (10_state.md R46). -/
@[simp] theorem State.countR_control (m : Nat) : (s.countR m).control = s.control := by
  simp only [State.control, State.countR_bit7]; rfl
@[simp] theorem State.begin_control (len fetches : Nat) : (s.begin len fetches).control = s.control :=
  s.countR_control fetches
@[simp] theorem State.beginP_control (p : Pfx) (len : Nat) : (s.beginP p len).control = s.control :=
  s.begin_control _ _
@[simp] theorem State.clearInhibit_control : s.clearInhibit.control = s.control := rfl
@[simp] theorem State.sampleInputs_control : s.sampleInputs.control = s.control := by
  unfold State.sampleInputs; split <;> rfl

/-! ### Memory, stack, PC and ports -/

@[simp] theorem State.memWrite_control (a : Word) (v : Byte) : (s.memWrite a v).control = s.control := rfl
@[simp] theorem State.memWrite16_control (a w : Word) : (s.memWrite16 a w).control = s.control := rfl
@[simp] theorem State.exchangeTop_control (w : Word) : (s.exchangeTop w).control = s.control := rfl
@[simp] theorem State.push16_control (w : Word) : (s.push16 w).control = s.control := rfl
@[simp] theorem State.dropWord_control : s.dropWord.control = s.control := rfl
@[simp] theorem State.jump_control (target : Word) : (s.jump target).control = s.control := rfl
@[simp] theorem State.jumpRelative_control (o : Byte) : (s.jumpRelative o).control = s.control := rfl
@[simp] theorem State.call_control (target : Word) : (s.call target).control = s.control := rfl
@[simp] theorem State.ret_control : s.ret.control = s.control := rfl
@[simp] theorem State.portWrite_control (port : Word) (v : Byte) : (s.portWrite port v).control = s.control := rfl
@[simp] theorem State.portInFlags_control : s.portInFlags.control = s.control := rfl

/-! ### Registers and pairs -/

@[simp] theorem State.setReg8_control (r : Reg8) (v : Byte) : (s.setReg8 r v).control = s.control := by
  cases r <;> rfl
@[simp] theorem State.setHalf_control (x : Index) (hf : Half) (v : Byte) : (s.setHalf x hf v).control = s.control := by
  cases x <;> rfl
@[simp] theorem State.setRegX_control (x : Index) (r : RegX) (v : Byte) : (s.setRegX x r v).control = s.control := by
  cases r <;> cases x <;> rfl
@[simp] theorem State.setPair_control (q : Pair) (w : Word) : (s.setPair q w).control = s.control := by
  cases q <;> rfl
@[simp] theorem State.setStackPair_control (q : StackPair) (w : Word) : (s.setStackPair q w).control = s.control := by
  cases q <;> rfl
@[simp] theorem State.setHl_control (w : Word) : (s.setHl w).control = s.control := rfl
@[simp] theorem State.setAf_control (w : Word) : (s.setAf w).control = s.control := rfl
@[simp] theorem State.setAF_control (vf : Byte × Byte) : (s.setAF vf).control = s.control := rfl
@[simp] theorem State.setHlF_control (wf : Word × Byte) : (s.setHlF wf).control = s.control := rfl
@[simp] theorem State.loadAWithFlags_control (v : Byte) : (s.loadAWithFlags v).control = s.control := rfl

/-! ### Arithmetic, shifts and bits -/

@[simp] theorem State.addKeep_control (g : Byte) : (s.addKeep g).control = s.control := rfl
@[simp] theorem State.addA_control (x : Byte) : (s.addA x).control = s.control := rfl
@[simp] theorem State.adcA_control (x : Byte) : (s.adcA x).control = s.control := rfl
@[simp] theorem State.subA_control (x : Byte) : (s.subA x).control = s.control := rfl
@[simp] theorem State.sbcA_control (x : Byte) : (s.sbcA x).control = s.control := rfl
@[simp] theorem State.andA_control (x : Byte) : (s.andA x).control = s.control := rfl
@[simp] theorem State.xorA_control (x : Byte) : (s.xorA x).control = s.control := rfl
@[simp] theorem State.orA_control (x : Byte) : (s.orA x).control = s.control := rfl
@[simp] theorem State.cpA_control (x : Byte) : (s.cpA x).control = s.control := rfl
@[simp] theorem State.stepReg8_control (g : Byte → Byte → Byte × Byte) (r : Reg8) :
    (s.stepReg8 g r).control = s.control := State.setReg8_control s r _
@[simp] theorem State.stepHalf_control (g : Byte → Byte → Byte × Byte) (x : Index) (hf : Half) :
    (s.stepHalf g x hf).control = s.control := State.setHalf_control s x hf _
@[simp] theorem State.stepMem_control (g : Byte → Byte → Byte × Byte) (a : Word) :
    (s.stepMem g a).control = s.control := rfl
@[simp] theorem State.shiftAcc_control (g : Byte → Bool → Byte × Bool) : (s.shiftAcc g).control = s.control := rfl
@[simp] theorem State.shiftReg8_control (g : Byte → Bool → Byte × Bool) (r : Reg8) :
    (s.shiftReg8 g r).control = s.control := State.setReg8_control s r _
@[simp] theorem State.shiftMem_control (g : Byte → Bool → Byte × Bool) (a : Word) :
    (s.shiftMem g a).control = s.control := rfl
@[simp] theorem State.shiftMemReg8_control (g : Byte → Bool → Byte × Bool) (a : Word) (r : Reg8) :
    (s.shiftMemReg8 g a r).control = s.control := State.setReg8_control (s.shiftMem g a) r _
@[simp] theorem State.digitRotate_control (m v : Byte) : (s.digitRotate m v).control = s.control := rfl
@[simp] theorem State.storeBoth_control (a : Word) (r : Reg8) (v : Byte) : (s.storeBoth a r v).control = s.control :=
  State.setReg8_control (s.memWrite a v) r v
@[simp] theorem State.testBitReg_control (b : BitVec 3) (v : Byte) : (s.testBitReg b v).control = s.control := rfl
@[simp] theorem State.readTemp_control : s.readTemp.control = s.control := rfl
@[simp] theorem State.testBitTemp_control (b : BitVec 3) (v : Byte) : (s.testBitTemp b v).control = s.control := rfl
@[simp] theorem State.testBitIndexed_control (b : BitVec 3) (a : Word) :
    (s.testBitIndexed b a).control = s.control := rfl

/-! ### Block instructions -/

@[simp] theorem State.ldStep_control (step : Word) : (s.ldStep step).control = s.control := by
  unfold State.ldStep; rfl
@[simp] theorem State.cpStep_control (step : Word) : (s.cpStep step).control = s.control := by
  unfold State.cpStep; rfl
@[simp] theorem State.inStep_control (step : Word) : (s.inStep step).control = s.control := by
  unfold State.inStep; rfl
@[simp] theorem State.outStep_control (step : Word) : (s.outStep step).control = s.control := by
  unfold State.outStep; rfl
@[simp] theorem State.repeatWhileBc_control : s.repeatWhileBc.control = s.control := by
  unfold State.repeatWhileBc; split <;> rfl
@[simp] theorem State.repeatWhileBcNotZ_control : s.repeatWhileBcNotZ.control = s.control := by
  unfold State.repeatWhileBcNotZ; split <;> rfl
@[simp] theorem State.repeatWhileB_control : s.repeatWhileB.control = s.control := by
  unfold State.repeatWhileB; split <;> rfl

/-! ### Interrupts -/

theorem State.takeInterrupt_control (keepIff2 : Bool) (handler : State → Word) :
    (s.takeInterrupt keepIff2 handler).control = s.control.interrupted keepIff2 :=
  State.countR_control { s with halted := false, iff1 := false, iff2 := keepIff2 && s.iff2 } 1

end

/-! ## An instruction -/

/-- A property of the next state that an outcome is. -/
theorem whenNext_next (u : State) (post : State → Prop) (h : post u) : whenNext (.next u) post := by
  rintro _ ⟨⟩; exact h

/-- The low seven bits that a fetch counts leave bit 7 of R. -/
theorem bit7_of_counted (r : Byte) (m : BitVec 7) : (r.extractLsb' 7 1 ++ m : Byte)[7] = r[7] := by
  rw [BitVec.getElem_append]; simp

/-- What an instruction does to the control view. The cases: the six rows that no bytes decode to, the conditional
instructions, the nine writers, the instructions that write other registers by name, and those made of the shared
operations above. -/
theorem exec_control (i : Instr) (s : State) (hi : i ∉ prefixRows) :
    whenNext (exec i s) fun t => t.control = controlAfter i s := by
  cases i with
  | prefixCb | prefixDd | prefixEd | prefixFd | prefixDdCb | prefixFdCb => simp [prefixRows] at hi
  | djnz | jrCc | retC | jpCNn | callCNn =>
    refine whenNext_next _ _ ?_
    split <;> simp [State.jumpRelative, State.control, controlAfter, bit7_of_counted]
  | exAfAf | exx | halt | di | ei | retn | im | ldIA | ldRA =>
    refine whenNext_next _ _ ?_
    simp [State.control, controlAfter, bit7_of_counted, State.swapBank, State.retFromNmi]
  | addIxRr | addIyRr | incIx16 | incIy16 | decIx16 | decIy16 | cpl | scf | ccf | ldSpHl | ldSpIx | ldSpIy | exDeHl
  | ldIxNn | ldIyNn | ldIxMemNn | ldIyMemNn | popIx | popIy | exSpIx | exSpIy | ldAMemBc | ldAMemDe | ldAMemNn
  | inAN | ignoredNextDd | ignoredNextEd | ignoredNextFd =>
    refine whenNext_next _ _ ?_
    simp [State.control, controlAfter, bit7_of_counted, State.addKeep, State.exchangeTop]
  | _ =>
    refine whenNext_next _ _ ?_
    simp [controlAfter]

/-! ## The writers of each part (the instruction's side) -/

section
variable (i : Instr) (s : State)

theorem controlAfter_i (h : i ≠ .ldIA) : (controlAfter i s).i = s.i := by
  unfold controlAfter
  split <;> first | rfl | exact absurd rfl h

theorem controlAfter_r7 (h : i ≠ .ldRA) : (controlAfter i s).r7 = s.r.getLsbD 7 := by
  unfold controlAfter
  split <;> first | rfl | exact absurd rfl h

theorem controlAfter_bank' : (∃ p, i = .exx p) ∨
    (controlAfter i s).b' = s.b' ∧ (controlAfter i s).c' = s.c' ∧ (controlAfter i s).d' = s.d' ∧
      (controlAfter i s).e' = s.e' ∧ (controlAfter i s).h' = s.h' ∧ (controlAfter i s).l' = s.l' := by
  unfold controlAfter
  split <;> first | exact .inr ⟨rfl, rfl, rfl, rfl, rfl, rfl⟩ | exact .inl ⟨_, rfl⟩

theorem controlAfter_af' :
    (∃ p, i = .exAfAf p) ∨ (controlAfter i s).a' = s.a' ∧ (controlAfter i s).f' = s.f' := by
  unfold controlAfter
  split <;> first | exact .inr ⟨rfl, rfl⟩ | exact .inl ⟨_, rfl⟩

theorem controlAfter_iff1 (h0 : s.iff1 = false) (h1 : (controlAfter i s).iff1 = true) :
    (∃ p, i = .ei p) ∨ ∃ k, i = .retn k ∧ s.iff2 = true := by
  unfold controlAfter at h1
  split at h1 <;> simp_all [State.control]

theorem controlAfter_iff2 (h0 : s.iff2 = false) (h1 : (controlAfter i s).iff2 = true) : ∃ p, i = .ei p := by
  unfold controlAfter at h1
  split at h1 <;> simp_all [State.control]

theorem controlAfter_im (h : (controlAfter i s).im ≠ s.im) : ∃ k m, i = .im k m := by
  unfold controlAfter at h
  split at h <;> simp_all [State.control]

theorem controlAfter_halted (h0 : s.halted = false) (h1 : (controlAfter i s).halted = true) : ∃ p, i = .halt p := by
  unfold controlAfter at h1
  split at h1 <;> simp_all [State.control]

end

/-! ## A step -/

/-- Neither the sampling of the inputs nor the clearing of INHIBIT is seen by a writer of the control view. -/
theorem controlAfter_served (i : Instr) (s : State) :
    controlAfter i s.sampleInputs.clearInhibit = controlAfter i s := by
  unfold controlAfter State.sampleInputs
  split <;> split <;> rfl

/-- No reset event while the RESET input is released (70_reset_and_hazards.md R550). -/
theorem State.boundary_ne_resetEvent (s : State) (h : s.resetLine = false) : s.boundary ≠ .resetEvent := by
  unfold State.boundary
  rw [h, if_neg Bool.false_ne_true]
  split_ifs <;> decide

/-- An accepted maskable interrupt clears both flip-flops (60_exceptions.md R512). -/
theorem State.acceptInt_control (s : State) :
    whenNext s.acceptInt fun t => t.control = s.control.interrupted false := by
  obtain ⟨-, -, h⟩ | ⟨-, -, h⟩ | ⟨-, h⟩ | ⟨-, h⟩ := s.acceptInt_cases <;> rw [h]
  · exact whenNext_next _ _ (s.takeInterrupt_control false _)
  · exact fun _ hn => nomatch hn
  · exact whenNext_next _ _ (s.takeInterrupt_control false _)
  · exact whenNext_next _ _ (s.takeInterrupt_control false _)

/-- What a step does to the control view: a reset event, an interrupt taken, a halted step, an instruction. -/
theorem step_control (s : State) : whenNext (step s) fun t =>
    (s.sampleInputs.boundary = .resetEvent ∧ t = s.sampleInputs.resetEvent) ∨
    (∃ keepIff2, t.control = s.control.interrupted keepIff2) ∨
    t.control = s.control ∨
    (s.sampleInputs.boundary = .instruction ∧ t.control = controlAfter s.sampleInputs.fetched s) := by
  obtain ⟨hb, h⟩ | ⟨-, h⟩ | ⟨-, h⟩ | ⟨-, h⟩ | ⟨hb, h⟩ := step_cases s <;> rw [h]
  · exact whenNext_next _ _ (.inl ⟨hb, rfl⟩)
  · exact whenNext_next _ _ (.inr (.inl ⟨true,
      (State.takeInterrupt_control _ true _).trans (congrArg (·.interrupted true) s.sampleInputs_control)⟩))
  · intro t ht
    have hc := State.acceptInt_control _ t ht
    exact .inr (.inl ⟨false, by simpa using hc⟩)
  · exact whenNext_next _ _ (.inr (.inr (.inl (by simp [State.haltedStep]))))
  · intro t ht
    have hc := exec_control _ _ (decode4_not_prefix _ _ _ _) t ht
    exact .inr (.inr (.inr ⟨hb, hc.trans (controlAfter_served _ s)⟩))

/-- With RESET released a step is one of the last three. -/
theorem step_control_released (s : State) (hr : s.sampleInputs.resetLine = false) : whenNext (step s) fun t =>
    (∃ keepIff2, t.control = s.control.interrupted keepIff2) ∨
    t.control = s.control ∨
    (s.sampleInputs.boundary = .instruction ∧ t.control = controlAfter s.sampleInputs.fetched s) := fun t ht =>
  (step_control s t ht).resolve_left fun h => State.boundary_ne_resetEvent _ hr h.1

/-- A step that runs LD R,A leaves the old A in R (40_load8.md R176). -/
theorem step_ldRA_r (s : State) (hb : s.sampleInputs.boundary = .instruction) (hf : s.sampleInputs.fetched = .ldRA) :
    whenNext (step s) fun t => t.r = s.a := by
  unfold step State.machineStep State.serve
  rw [hb, hf]
  refine whenNext_next _ _ ?_
  simp only [State.begin_a, State.clearInhibit_a]
  rw [State.sampleInputs_eq]

end Sys2Proof.Machine
end

