-- ==== Sys2Proof/Proofs/State.lean ====
section
/-! PROOF. The statements of 10_state.md: the values right after reset, and the only writers of I, of bit 7 of R, of the
shadow set and of the interrupt control registers. Each reads its part off `step_control`. -/

namespace Sys2Proof.Proofs
open Sys2Proof Sys2Proof.Machine

/-- Settles O16: a step's control view, read at I. -/
theorem vectorRegisterChangesOnlyByLdIA : Obligations.VectorRegisterChangesOnlyByLdIA := by
  intro s t ht
  obtain ⟨hb, rfl⟩ | ⟨k, hc⟩ | hc | ⟨hb, hc⟩ := step_control s t ht
  · exact .inr (.inl ⟨hb, rfl⟩)
  · exact .inl (congrArg Control.i hc)
  · exact .inl (congrArg Control.i hc)
  · have hi : t.i = (controlAfter s.sampleInputs.fetched s).i := congrArg Control.i hc
    by_cases hf : s.sampleInputs.fetched = .ldIA
    · rw [hf] at hi
      exact .inr (.inr ⟨hb, hf, hi⟩)
    · exact .inl (hi.trans (controlAfter_i _ s hf))

/-- Settles O17: a step's control view, read at bit 7 of R. -/
theorem refreshBitSevenChangesOnlyByLdRA : Obligations.RefreshBitSevenChangesOnlyByLdRA := by
  intro s t ht
  obtain ⟨hb, -⟩ | ⟨k, hc⟩ | hc | ⟨hb, hc⟩ := step_control s t ht
  · exact .inr (.inl hb)
  · exact .inl (congrArg Control.r7 hc)
  · exact .inl (congrArg Control.r7 hc)
  · by_cases hf : s.sampleInputs.fetched = .ldRA
    · exact .inr (.inr ⟨hb, hf, step_ldRA_r s hb hf t ht⟩)
    · exact .inl ((congrArg Control.r7 hc).trans (controlAfter_r7 _ s hf))

/-- Settles O18: a step's control view, read at the shadow set. -/
theorem shadowSetChangesOnlyByExchanges : Obligations.ShadowSetChangesOnlyByExchanges := by
  intro s hr t ht
  obtain ⟨k, hc⟩ | hc | ⟨hb, hc⟩ := step_control_released s hr t ht
  · simp_all [State.control, Control.interrupted]
  · simp_all [State.control]
  · have hbank := controlAfter_bank' s.sampleInputs.fetched s
    have haf := controlAfter_af' s.sampleInputs.fetched s
    rw [← hc] at hbank haf
    exact ⟨hbank.imp_left fun ⟨p, hp⟩ => ⟨p, hb, hp⟩, haf.imp_left fun ⟨p, hp⟩ => ⟨p, hb, hp⟩⟩

/-- Settles O19: a step's control view, read at IFF1, IFF2, IM and HALTED. An interrupt taken raises none of them. -/
theorem interruptControlWriters : Obligations.InterruptControlWriters := by
  intro s hr t ht
  obtain ⟨k, hc⟩ | hc | ⟨hb, hc⟩ := step_control_released s hr t ht
  · simp_all [State.control, Control.interrupted]
  · simp_all [State.control]
  · have hiff1 : t.iff1 = (controlAfter s.sampleInputs.fetched s).iff1 := congrArg Control.iff1 hc
    have hiff2 : t.iff2 = (controlAfter s.sampleInputs.fetched s).iff2 := congrArg Control.iff2 hc
    have him : t.im = (controlAfter s.sampleInputs.fetched s).im := congrArg Control.im hc
    have hhalted : t.halted = (controlAfter s.sampleInputs.fetched s).halted := congrArg Control.halted hc
    rw [hiff1, hiff2, him, hhalted]
    exact ⟨fun h0 h1 => ⟨hb, controlAfter_iff1 _ s h0 h1⟩, fun h0 h1 => ⟨hb, controlAfter_iff2 _ s h0 h1⟩,
      fun h => ⟨hb, controlAfter_im _ s h⟩, fun h0 h1 => ⟨hb, controlAfter_halted _ s h0 h1⟩⟩

/-- Settles O11: the values of R54, and an empty memory map, which makes every address ram. -/
theorem stateAfterResetIsAsTheSpecSays : Obligations.StateAfterResetIsAsTheSpecSays :=
  ⟨rfl, rfl, rfl, rfl, rfl, rfl, rfl, rfl, rfl, State.reset_mem_wf, rfl, fun _ => rfl⟩

end Sys2Proof.Proofs
end

