-- ==== Sys2Proof/Proofs/Stores.lean ====
section
/-! PROOF. An instruction reaches memory by `MemWrite` alone, and so does a step (20_memory.md R84): `exec_stores` and
`step_stores` say it once, in the relation `Memory.Stores`. What every single write keeps (the canonical form, the map,
the bytes outside ram) every step keeps with it. -/

namespace Sys2Proof.Machine

/-! ## Memory that comes about by writes -/

/-- One `MemWrite` leads from the one memory to the other (20_memory.md R84). -/
def Memory.StoresByte (m n : Memory) : Prop := ∃ a v, n = m.write a v

/-- Any number of writes, one after the other, lead from the one memory to the other. -/
def Memory.Stores : Memory → Memory → Prop := Relation.ReflTransGen Memory.StoresByte

theorem Memory.stores_refl (m : Memory) : m.Stores m := .refl

theorem Memory.stores_write (m : Memory) (a : Word) (v : Byte) : m.Stores (m.write a v) := .single ⟨a, v, rfl⟩

theorem Memory.stores_write_write (m : Memory) (a b : Word) (v w : Byte) :
    m.Stores ((m.write a v).write b w) :=
  (m.stores_write a v).tail ⟨b, w, rfl⟩

/-- A word stored on the stack, as PUSH, the calls and the interrupts do. -/
theorem State.push16_stores (s : State) (w : Word) : s.mem.Stores (s.push16 w).mem :=
  Memory.stores_write_write _ _ _ _ _

/-- Writes keep the canonical form, for one write does. -/
theorem Memory.Stores.wf {m n : Memory} (h : m.Stores n) (hm : m.wf = true) : n.wf = true := by
  induction h with
  | refl => exact hm
  | tail _ hw ih =>
    obtain ⟨a, v, rfl⟩ := hw
    exact Memory.write_wf _ a v ih

/-- Writes leave the map alone. -/
theorem Memory.Stores.map_eq {m n : Memory} (h : m.Stores n) : n.map = m.map := by
  induction h with
  | refl => rfl
  | tail _ hw ih =>
    obtain ⟨a, v, rfl⟩ := hw
    exact (Memory.write_map _ a v).trans ih

/-- Writes leave the kind of every address alone. -/
theorem Memory.Stores.kindAt_eq {m n : Memory} (h : m.Stores n) (x : Word) : n.kindAt x = m.kindAt x :=
  congrArg (regionKind · x.toNat) h.map_eq

/-- Outside ram a write changes nothing (20_memory.md R84, D6). -/
theorem Memory.read_write_outside_ram (m : Memory) (a x : Word) (v : Byte) (hx : m.kindAt x ≠ .ram) :
    (m.write a v).read x = m.read x := by
  rw [Memory.read_write, if_neg]
  rintro ⟨rfl, hram⟩
  exact hx hram

/-- Writes leave every byte outside ram alone. -/
theorem Memory.Stores.read_outside_ram {m n : Memory} (h : m.Stores n) (x : Word) (hx : m.kindAt x ≠ .ram) :
    n.read x = m.read x := by
  induction h with
  | refl => rfl
  | tail hmn hw ih =>
    obtain ⟨a, v, rfl⟩ := hw
    have hkind := Memory.Stores.kindAt_eq hmn x
    exact (Memory.read_write_outside_ram _ a x v (hkind ▸ hx)).trans ih

/-! ## Memory after the shared operations -/

section
variable (s : State)

@[simp] theorem State.sampleInputs_mem : s.sampleInputs.mem = s.mem := by rw [State.sampleInputs_eq]

/-! ### Operations that leave memory alone -/

@[simp] theorem State.jumpRelative_mem (o : Byte) : (s.jumpRelative o).mem = s.mem := rfl
@[simp] theorem State.retFromNmi_mem : s.retFromNmi.mem = s.mem := rfl
@[simp] theorem State.swapBank_mem : s.swapBank.mem = s.mem := rfl
@[simp] theorem State.loadAWithFlags_mem (v : Byte) : (s.loadAWithFlags v).mem = s.mem := rfl
@[simp] theorem State.portInFlags_mem : s.portInFlags.mem = s.mem := rfl
@[simp] theorem State.addKeep_mem (g : Byte) : (s.addKeep g).mem = s.mem := rfl
@[simp] theorem State.addA_mem (x : Byte) : (s.addA x).mem = s.mem := rfl
@[simp] theorem State.adcA_mem (x : Byte) : (s.adcA x).mem = s.mem := rfl
@[simp] theorem State.subA_mem (x : Byte) : (s.subA x).mem = s.mem := rfl
@[simp] theorem State.sbcA_mem (x : Byte) : (s.sbcA x).mem = s.mem := rfl
@[simp] theorem State.andA_mem (x : Byte) : (s.andA x).mem = s.mem := rfl
@[simp] theorem State.xorA_mem (x : Byte) : (s.xorA x).mem = s.mem := rfl
@[simp] theorem State.orA_mem (x : Byte) : (s.orA x).mem = s.mem := rfl
@[simp] theorem State.cpA_mem (x : Byte) : (s.cpA x).mem = s.mem := rfl
@[simp] theorem State.testBitReg_mem (b : BitVec 3) (v : Byte) : (s.testBitReg b v).mem = s.mem := rfl
@[simp] theorem State.readTemp_mem : s.readTemp.mem = s.mem := rfl
@[simp] theorem State.testBitTemp_mem (b : BitVec 3) (v : Byte) : (s.testBitTemp b v).mem = s.mem := rfl
@[simp] theorem State.testBitIndexed_mem (b : BitVec 3) (a : Word) : (s.testBitIndexed b a).mem = s.mem := rfl
@[simp] theorem State.shiftAcc_mem (g : Byte → Bool → Byte × Bool) : (s.shiftAcc g).mem = s.mem := rfl
@[simp] theorem State.stepReg8_mem (g : Byte → Byte → Byte × Byte) (r : Reg8) : (s.stepReg8 g r).mem = s.mem :=
  State.setReg8_mem s r _
@[simp] theorem State.stepHalf_mem (g : Byte → Byte → Byte × Byte) (x : Index) (hf : Half) :
    (s.stepHalf g x hf).mem = s.mem :=
  State.setHalf_mem s x hf _
@[simp] theorem State.shiftReg8_mem (g : Byte → Bool → Byte × Bool) (r : Reg8) : (s.shiftReg8 g r).mem = s.mem :=
  State.setReg8_mem s r _
@[simp] theorem State.cpStep_mem (step : Word) : (s.cpStep step).mem = s.mem := by
  unfold State.cpStep; rfl
@[simp] theorem State.outStep_mem (step : Word) : (s.outStep step).mem = s.mem := by
  unfold State.outStep; rfl
@[simp] theorem State.repeatWhileBc_mem : s.repeatWhileBc.mem = s.mem := by
  unfold State.repeatWhileBc; split <;> rfl
@[simp] theorem State.repeatWhileBcNotZ_mem : s.repeatWhileBcNotZ.mem = s.mem := by
  unfold State.repeatWhileBcNotZ; split <;> rfl
@[simp] theorem State.repeatWhileB_mem : s.repeatWhileB.mem = s.mem := by
  unfold State.repeatWhileB; split <;> rfl

/-! ### Operations that write to memory -/

@[simp] theorem State.exchangeTop_mem (w : Word) :
    (s.exchangeTop w).mem = (s.mem.write (s.sp + 1) (hi w)).write s.sp (lo w) := rfl
@[simp] theorem State.stepMem_mem (g : Byte → Byte → Byte × Byte) (a : Word) :
    (s.stepMem g a).mem = s.mem.write a (g (s.memRead a) s.f).1 := rfl
@[simp] theorem State.shiftMem_mem (g : Byte → Bool → Byte × Bool) (a : Word) :
    (s.shiftMem g a).mem = s.mem.write a (g (s.memRead a) (flagC s.f)).1 := rfl
@[simp] theorem State.shiftMemReg8_mem (g : Byte → Bool → Byte × Bool) (a : Word) (r : Reg8) :
    (s.shiftMemReg8 g a r).mem = s.mem.write a (g (s.memRead a) (flagC s.f)).1 :=
  State.setReg8_mem (s.shiftMem g a) r _
@[simp] theorem State.storeBoth_mem (a : Word) (r : Reg8) (v : Byte) : (s.storeBoth a r v).mem = s.mem.write a v :=
  State.setReg8_mem (s.memWrite a v) r v
@[simp] theorem State.digitRotate_mem (m v : Byte) : (s.digitRotate m v).mem = s.mem.write s.hl m := rfl
@[simp] theorem State.ldStep_mem (step : Word) : (s.ldStep step).mem = s.mem.write s.de (s.memRead s.hl) := by
  unfold State.ldStep; rfl
@[simp] theorem State.inStep_mem (step : Word) : (s.inStep step).mem = s.mem.write s.hl (s.portByte s.bc) := by
  unfold State.inStep; rfl

/-- An interrupt taken stores PC on the stack and nothing else (60_exceptions.md R510, R512). -/
theorem State.takeInterrupt_stores (keepIff2 : Bool) (handler : State → Word) :
    s.mem.Stores (s.takeInterrupt keepIff2 handler).mem := by
  obtain ⟨u, hu, -, hmem, -⟩ := s.takeInterrupt_spec keepIff2 handler
  rw [hu, State.jump_mem, hmem]
  exact s.push16_stores s.pc

end

/-! ## An instruction -/

/-- An instruction reaches memory by writes alone. The cases: the six rows that no bytes decode to, the instructions
that store a byte, those that store a word, the conditional ones, of which CALL stores a word where its condition holds,
and the others, which leave memory as it is. -/
theorem exec_stores (i : Instr) (s : State) (hi : i ∉ prefixRows) :
    whenNext (exec i s) fun t => s.mem.Stores t.mem := by
  cases i with
  | prefixCb | prefixDd | prefixEd | prefixFd | prefixDdCb | prefixFdCb => simp [prefixRows] at hi
  | ldMemBcA | ldMemDeA | ldMemNnA | ldMemHlN | ldMemHlR | ldIxN | ldIxR | ldIyN | ldIyR
  | incMemHl | decMemHl | incIx | decIx | incIy | decIy
  | resMemHl | setMemHl | resIx | setIx | resIy | setIy | resRIx | setRIx | resRIy | setRIy
  | rlcMemHl | rrcMemHl | rlMemHl | rrMemHl | slaMemHl | sraMemHl | sliMemHl | srlMemHl
  | rlcIx | rrcIx | rlIx | rrIx | slaIx | sraIx | sliIx | srlIx
  | rlcIy | rrcIy | rlIy | rrIy | slaIy | sraIy | sliIy | srlIy
  | rlcRIx | rrcRIx | rlRIx | rrRIx | slaRIx | sraRIx | sliRIx | srlRIx
  | rlcRIy | rrcRIy | rlRIy | rrRIy | slaRIy | sraRIy | sliRIy | srlRIy
  | rrd | rld | ldi | ldd | ldir | lddr | ini | ind | inir | indr =>
    refine whenNext_next _ _ ?_
    simp [Memory.stores_write]
  | ldMemNnHl | ldMemNnRr | ldMemNnIx | ldMemNnIy | exSpHl | exSpIx | exSpIy
  | pushRs | pushAf | pushIx | pushIy | callNn | rst =>
    refine whenNext_next _ _ ?_
    simp [Memory.stores_write_write]
  | callCNn =>
    refine whenNext_next _ _ ?_
    split
    · simp [Memory.stores_write_write]
    · exact Memory.stores_refl _
  | djnz | jrCc | retC | jpCNn =>
    refine whenNext_next _ _ ?_
    split <;> simp [Memory.stores_refl]
  | _ =>
    refine whenNext_next _ _ ?_
    simp [Memory.stores_refl]

/-! ## A step -/

/-- An accepted maskable interrupt reaches memory by the push of PC alone. -/
theorem State.acceptInt_stores (s : State) : whenNext s.acceptInt fun t => s.mem.Stores t.mem := by
  obtain ⟨-, -, h⟩ | ⟨-, -, h⟩ | ⟨-, h⟩ | ⟨-, h⟩ := s.acceptInt_cases <;> rw [h]
  · exact whenNext_next _ _ (s.takeInterrupt_stores false _)
  · exact fun _ hn => nomatch hn
  · exact whenNext_next _ _ (s.takeInterrupt_stores false _)
  · exact whenNext_next _ _ (s.takeInterrupt_stores false _)

/-- A step reaches memory by writes alone: a reset event and a halted step make none, an interrupt pushes PC, and an
instruction writes what it writes. -/
theorem step_stores (s : State) : whenNext (step s) fun t => s.mem.Stores t.mem := by
  rw [← s.sampleInputs_mem]
  obtain ⟨-, h⟩ | ⟨-, h⟩ | ⟨-, h⟩ | ⟨-, h⟩ | ⟨-, h⟩ := step_cases s <;> rw [h]
  · exact whenNext_next _ _ (Memory.stores_refl _)
  · exact whenNext_next _ _ (State.takeInterrupt_stores _ true fun _ => 0x0066)
  · exact State.acceptInt_stores s.sampleInputs.clearInhibit
  · exact whenNext_next _ _ (Memory.stores_refl _)
  · exact exec_stores _ s.sampleInputs.clearInhibit (decode4_not_prefix _ _ _ _)

end Sys2Proof.Machine
end

