-- ==== Sys2Proof/Proofs/Memory.lean ====
section
/-! PROOF. The statements of 20_memory.md: what every step keeps of memory, read off `step_stores`, and words in
memory (R85, R87). -/

namespace Sys2Proof.Machine

/-! ## Words in memory -/

/-- `MemRead16` is little-endian. -/
theorem State.toNat_memRead16 (s : State) (a : Word) :
    (s.memRead16 a).toNat = (s.memRead a).toNat + 256 * (s.memRead (a + 1)).toNat := by
  rw [State.memRead16, toNat_join]
  omega

/-- A word whose two bytes are stored in ram reads back, whichever was stored first. -/
theorem State.memRead16_of_storesWord (s t : State) (a w : Word) (h : storesWord a w s t)
    (ha : s.mem.kindAt a = .ram) (hb : s.mem.kindAt (a + 1) = .ram) : t.memRead16 a = w := by
  obtain ⟨hlo, hhi, -⟩ := h
  rw [State.memRead16, hlo, hhi]
  simp only [State.afterStore, ha, hb, join_hi_lo]

end Sys2Proof.Machine

namespace Sys2Proof.Proofs
open Sys2Proof Sys2Proof.Machine

/-- Settles O14: a step reaches memory by writes, and a write keeps the canonical form. -/
theorem everyStepKeepsMemoryCanonical : Obligations.EveryStepKeepsMemoryCanonical :=
  fun s t hwf ht => (step_stores s t ht).wf hwf

/-- Settles O15: a step reaches memory by writes, and a write outside ram changes nothing. -/
theorem onlyRamChanges : Obligations.OnlyRamChanges := fun s t ht =>
  have hstores := step_stores s t ht
  ⟨hstores.map_eq, hstores.read_outside_ram⟩

/-- Settles O29: the word's two bytes are two different cells, at the last address too. -/
theorem wordsInMemoryAreLittleEndian : Obligations.WordsInMemoryAreLittleEndian := by
  intro s a w
  have hstores : storesWord a w s (s.memWrite16 a w) := storesWord_of_writes _ _ a w (.inl rfl)
  exact ⟨s.toNat_memRead16 a, hstores, s.memRead16_of_storesWord _ a w hstores, s.memWrite16_changesOnly a w⟩

end Sys2Proof.Proofs
end

