-- ==== Sys2Proof/Proofs/Fields.lean ====
section
/-! PROOF. The operand fields of an opcode byte, from code to operand and back (30_encoding.md R110, R118 to R123), the
four prefixes (R111), and which opcodes DD and FD leave as they are, read against `Instr.wellFormed` (R131, R134). The
two readings of the maps, from the instruction (Proofs/ReadsBack.lean) and from the bytes (Proofs/Fits.lean), rest on
these. -/

namespace Sys2Proof.Machine

/-! ## The values of a field -/

/-- A 3-bit field by its eight values. -/
theorem bits3_cases {motive : BitVec 3 → Prop} (zero : motive 0#3) (one : motive 1#3) (two : motive 2#3)
    (three : motive 3#3) (four : motive 4#3) (five : motive 5#3) (six : motive 6#3) (seven : motive 7#3)
    (y : BitVec 3) : motive y := by
  have hy : y = 0#3 ∨ y = 1#3 ∨ y = 2#3 ∨ y = 3#3 ∨ y = 4#3 ∨ y = 5#3 ∨ y = 6#3 ∨ y = 7#3 := by
    revert y; decide
  obtain rfl | rfl | rfl | rfl | rfl | rfl | rfl | rfl := hy <;> assumption

/-- A 2-bit field by its four values. -/
theorem bits2_cases {motive : BitVec 2 → Prop} (zero : motive 0#2) (one : motive 1#2) (two : motive 2#2)
    (three : motive 3#2) (x : BitVec 2) : motive x := by
  have hx : x = 0#2 ∨ x = 1#2 ∨ x = 2#2 ∨ x = 3#2 := by revert x; decide
  obtain rfl | rfl | rfl | rfl := hx <;> assumption

/-! ## The operand of a code -/

@[simp] theorem reg8OfCode_code (r : Reg8) : reg8OfCode r.code = some r := by cases r <;> rfl
@[simp] theorem regXOfCode_code (r : RegX) : regXOfCode r.code = some r := by cases r <;> rfl
@[simp] theorem halfOfCode_code (hf : Half) : halfOfCode hf.code = some hf := by cases hf <;> rfl
@[simp] theorem reg8OfCode_memory : reg8OfCode 6#3 = none := rfl
@[simp] theorem halfOfCode_memory : halfOfCode 6#3 = none := rfl
@[simp] theorem pairOfField_code (q : Pair) (b : BitVec 1) : pairOfField (q.code ++ b) = q := by
  revert b; cases q <;> decide
@[simp] theorem pairXOfField_code (q : PairX) (b : BitVec 1) : pairXOfField (q.code ++ b) = q := by
  revert b; cases q <;> decide
@[simp] theorem stackPairOfField_code (q : StackPair) (b : BitVec 1) : stackPairOfField (q.code ++ b) = some q := by
  revert b; cases q <;> decide
@[simp] theorem condOfCode_code (cc : Cond) : condOfCode cc.code = cc := by cases cc <;> rfl
@[simp] theorem odd_append_one (q : BitVec 2) : odd (q ++ 1#1) = true := by revert q; decide
@[simp] theorem odd_append_zero (q : BitVec 2) : odd (q ++ 0#1) = false := by revert q; decide

/-! ### Fields that an instruction keeps as bits (49_system.md R489; `k` of RETN, RETI and IM) -/

theorem extractLsb'_append_bit (k : BitVec 2) (b : BitVec 1) : (k ++ b : BitVec 3).extractLsb' 1 2 = k :=
  BitVec.extractLsb'_append_eq_left
theorem extractLsb'_bit_append (k : BitVec 1) (m : BitVec 2) : (k ++ m : BitVec 3).extractLsb' 2 1 = k :=
  BitVec.extractLsb'_append_eq_left
theorem extractLsb'_append_pair (k : BitVec 1) (m : BitVec 2) : (k ++ m : BitVec 3).extractLsb' 0 2 = m :=
  BitVec.extractLsb'_append_eq_right

/-! ## The code of an operand -/

theorem code_of_reg8OfCode {y : BitVec 3} {r : Reg8} (h : reg8OfCode y = some r) : r.code = y := by
  revert h; cases y using bits3_cases <;> rintro ⟨⟩ <;> rfl
theorem code_of_regXOfCode {y : BitVec 3} {r : RegX} (h : regXOfCode y = some r) : r.code = y := by
  revert h; cases y using bits3_cases <;> rintro ⟨⟩ <;> rfl
theorem code_of_halfOfCode {y : BitVec 3} {hf : Half} (h : halfOfCode y = some hf) : hf.code = y := by
  revert h; cases y using bits3_cases <;> rintro ⟨⟩ <;> rfl
/-- Code 110 is memory, and the only code that is no register. -/
theorem eq_memory_of_reg8OfCode {y : BitVec 3} (h : reg8OfCode y = none) : y = 6#3 := by
  revert y; decide
theorem code_condOfCode (y : BitVec 3) : (condOfCode y).code = y := by revert y; decide
theorem code_pairOfField_odd {y : BitVec 3} (h : odd y = true) : (pairOfField y).code ++ 1#1 = y := by
  revert y; decide
theorem code_pairOfField_even {y : BitVec 3} (h : odd y = false) : (pairOfField y).code ++ 0#1 = y := by
  revert y; decide

/-- A register of the DD or FD map stands where the main map has a register, none where it has memory. -/
theorem exists_reg8OfCode_regX (r : RegX) : ∃ r8, reg8OfCode r.code = some r8 := by cases r <;> exact ⟨_, rfl⟩

/-! ## Prefixes -/

theorem isPrefixByte_eq_false_iff (b : Byte) :
    isPrefixByte b = false ↔ b ≠ 0xCB ∧ b ≠ 0xDD ∧ b ≠ 0xED ∧ b ≠ 0xFD := by
  simp only [isPrefixByte, Bool.or_eq_false_iff, beq_eq_false_iff_ne, and_assoc]

/-- The four prefixes stand in the last quarter of the map. -/
theorem isPrefixByte_opByte_quarter (x : BitVec 2) (y z : BitVec 3) (h : x ≠ 3#2) :
    isPrefixByte (opByte x y z) = false := by
  revert x y z; decide
/-- They stand in its odd rows. -/
theorem isPrefixByte_opByte_row (x : BitVec 2) (y z : BitVec 3) (h : odd y = false) :
    isPrefixByte (opByte x y z) = false := by
  revert x y z; decide
/-- They stand in its columns 3 and 5. -/
theorem isPrefixByte_opByte_column (x : BitVec 2) (y z : BitVec 3) (h3 : z ≠ 3#3) (h5 : z ≠ 5#3) :
    isPrefixByte (opByte x y z) = false := by
  revert x y z; decide

theorem bytes_pfxOf (x : Index) : (pfxOf x).bytes = [x.prefixByte] := by cases x <;> rfl

/-- The index register that the byte DD or FD names (30_encoding.md R111). -/
def indexOfPrefix (b : Byte) : Index := if b = 0xDD then .ix else .iy

/-! ## The terms of `wellFormed` as operand codes -/

theorem unindexedReg_iff (p : Pfx) (r : Reg8) : unindexedReg p r = true ↔ p = .plain ∨ halfOfCode r.code = none := by
  cases p <;> cases r <;> decide
theorem unindexedPair_iff (p : Pfx) (q : Pair) : unindexedPair p q = true ↔ p = .plain ∨ q ≠ .hl := by
  simp [unindexedPair]
theorem unindexedStackPair_iff (p : Pfx) (q : StackPair) : unindexedStackPair p q = true ↔ p = .plain ∨ q ≠ .hl := by
  simp [unindexedStackPair]
theorem namesHalf_eq (rd r : RegX) :
    namesHalf rd r = ((halfOfCode rd.code).isSome || (halfOfCode r.code).isSome) := by
  cases rd <;> cases r <;> rfl
/-- The undefined ED opcodes by their fields (49_system.md R489). -/
theorem undefinedEd_opByte (x : BitVec 2) (y z : BitVec 3) : undefinedEd (opByte x y z) = true ↔
    x = 0#2 ∨ x = 3#2 ∨ (x = 1#2 ∧ z = 7#3 ∧ (y = 6#3 ∨ y = 7#3)) ∨ (x = 2#2 ∧ (y < 4#3 ∨ 4#3 ≤ z)) := by
  revert x y z; decide

/-! ## The opcodes that DD and FD leave as they are (30_encoding.md R134) -/

section
variable (x : Index) (n1 n2 : Byte)

theorem changed0_load16 {y : BitVec 3} (hy : odd y = false) :
    changed0 x y 1#3 n1 n2 = none ↔ pairOfField y ≠ .hl := by
  revert hy
  cases y using bits3_cases <;> simp [changed0, odd, pairOfField]
theorem changed0_step16 (y : BitVec 3) : changed0 x y 3#3 n1 n2 = none ↔ pairOfField y ≠ .hl := by
  cases y using bits3_cases <;> simp [changed0, pairOfField]
theorem changed0_reg8 (r : Reg8) {z : BitVec 3} (hz : z = 4#3 ∨ z = 5#3 ∨ z = 6#3) :
    changed0 x r.code z n1 n2 = none ↔ halfOfCode r.code = none := by
  obtain rfl | rfl | rfl := hz <;> simp only [changed0, reg8OfCode_code] <;> cases halfOfCode r.code <;> simp
theorem changed1_regs (rd r : Reg8) :
    changed1 x rd.code r.code n1 = none ↔ halfOfCode rd.code = none ∧ halfOfCode r.code = none := by
  cases rd <;> cases r <;> simp [changed1, Reg8.code, reg8OfCode, regXOfCode, halfOfCode]
theorem changed2_reg8 (y : BitVec 3) (r : Reg8) : changed2 x y r.code n1 = none ↔ halfOfCode r.code = none := by
  cases h : halfOfCode r.code <;> simp [changed2, h]
theorem changed3_eq_none (y : BitVec 3) {z : BitVec 3} (h1 : z ≠ 1#3) (h3 : z ≠ 3#3) (h5 : z ≠ 5#3) :
    changed3 x y z = none := by
  unfold changed3
  split <;> simp_all

end

end Sys2Proof.Machine
end

