-- ==== Sys2Proof/Proofs/ReadsBack.lean ====
section
/-! PROOF. From the instruction to its bytes and back (30_encoding.md R112, R113): `readsBack` says that the encoding of a
well-formed instruction, whatever stands after it, is read as that instruction. One rule per map brings it to an
equation about that map; `ReadsBack.decode_append` carries it to `decode`. -/

namespace Sys2Proof.Machine
open Sys2Proof.Laws

/-- What the first four bytes of a list are read as; a byte that is not there is read as 0, as in `decode`. -/
def front (bs : List Byte) : Instr := decode4 (bs.getD 0 0) (bs.getD 1 0) (bs.getD 2 0) (bs.getD 3 0)

/-- The encoding is read as the instruction, whatever stands after it. -/
def ReadsBack (i : Instr) : Prop := ∀ rest, front (encode i ++ rest) = i

/-! ## The rules of the maps -/

theorem decode4_main (b0 b1 b2 b3 : Byte) (h : isPrefixByte b0 = false) :
    decode4 b0 b1 b2 b3 = decodeMain .plain b0 b1 b2 := by
  obtain ⟨hcb, hdd, hed, hfd⟩ := (isPrefixByte_eq_false_iff b0).mp h
  rw [decode4, if_neg hcb, if_neg hed, if_neg hdd, if_neg hfd]

theorem decode4_afterIndex (x : Index) (b1 b2 b3 : Byte) :
    decode4 x.prefixByte b1 b2 b3 = decodeAfterIndex x b1 b2 b3 := by cases x <;> rfl

theorem decode4_index (x : Index) (b1 b2 b3 : Byte) (h : isPrefixByte b1 = false) :
    decode4 x.prefixByte b1 b2 b3 = decodeIndex x b1 b2 b3 := by
  obtain ⟨hcb, hdd, hed, hfd⟩ := (isPrefixByte_eq_false_iff b1).mp h
  rw [decode4_afterIndex, decodeAfterIndex, if_neg hdd, if_neg hed, if_neg hfd, if_neg hcb]

/-- The unprefixed map, and behind DD or FD the opcodes that they leave as they are (R126, R134). -/
theorem readsBack_main {i : Instr} (p : Pfx) (op : Byte) (args : List Byte) (henc : encode i = p.bytes ++ op :: args)
    (hop : isPrefixByte op = false) (hsame : p = .plain ∨ ∀ x n1 n2, changed x op n1 n2 = none)
    (hdec : ∀ rest, decodeMain p op ((args ++ rest).getD 0 0) ((args ++ rest).getD 1 0) = i) : ReadsBack i := by
  intro rest
  have behind (x : Index) (hx : pfxOf x = p) (hp : p ≠ .plain) : front (x.prefixByte :: op :: (args ++ rest)) = i := by
    refine (decode4_index x _ _ _ hop).trans ?_
    rw [decodeIndex, hsame.resolve_left hp, hx]
    exact hdec rest
  rw [henc, List.append_assoc]
  cases p with
  | plain => exact (decode4_main _ _ _ _ hop).trans (hdec rest)
  | dd => exact behind .ix rfl (by decide)
  | fd => exact behind .iy rfl (by decide)

/-- The CB map (R128). -/
theorem readsBack_cb {i : Instr} (op : Byte) (henc : encode i = [0xCB, op]) (hdec : decodeCb op = i) :
    ReadsBack i := by
  intro rest
  rw [henc]
  exact hdec

/-- The ED map (R127). -/
theorem readsBack_ed {i : Instr} (op : Byte) (args : List Byte) (henc : encode i = 0xED :: op :: args)
    (hdec : ∀ rest, decodeEd op ((args ++ rest).getD 0 0) ((args ++ rest).getD 1 0) = i) : ReadsBack i := by
  intro rest
  rw [henc]
  exact hdec rest

/-- The opcodes that DD or FD, the byte `b`, changes (R131). -/
theorem readsBack_index {i : Instr} (b op : Byte) (args : List Byte) (henc : encode i = b :: op :: args)
    (hb : b = (indexOfPrefix b).prefixByte) (hop : isPrefixByte op = false)
    (hdec : ∀ rest, changed (indexOfPrefix b) op ((args ++ rest).getD 0 0) ((args ++ rest).getD 1 0) = some i) :
    ReadsBack i := by
  intro rest
  rw [henc, hb]
  refine (decode4_index _ _ _ _ hop).trans ?_
  exact congrArg (Option.getD · _) (hdec rest)

/-- The DDCB and FDCB maps, `b` the byte DD or FD (R129). -/
theorem readsBack_indexCb {i : Instr} (b o op : Byte) (henc : encode i = [b, 0xCB, o, op])
    (hb : b = (indexOfPrefix b).prefixByte) (hdec : decodeIndexCb (indexOfPrefix b) o op = i) : ReadsBack i := by
  intro rest
  rw [henc, hb]
  exact (decode4_afterIndex _ 0xCB o op).trans hdec

/-! ## Two rows with a condition on their operands -/

/-- An undefined ED opcode is no other row of the ED map (49_system.md R489). -/
theorem decodeEd_of_undefinedEd (op n1 n2 : Byte) (h : undefinedEd op = true) : decodeEd op n1 n2 = .nopEd op := by
  rw [← opByte_fields op, undefinedEd_opByte] at h
  unfold decodeEd
  obtain hx | hx | ⟨hx, hz, hy | hy⟩ | ⟨hx, hyz⟩ := h
  · simp [hx]
  · simp [hx]
  · simp [hx, decodeEd1, hz, decodeEd17, hy]
  · simp [hx, decodeEd1, hz, decodeEd17, hy]
  · simp only [hx]
    unfold decodeEd2
    split <;> simp_all

/-- LD d,r with an index half among its operands is a row of the DD or FD map (30_encoding.md R123, R131). -/
theorem changed1_halves (x : Index) (rd r : RegX) (n1 : Byte) (h : namesHalf rd r = true) :
    changed1 x rd.code r.code n1 = some (pick x (.ldXX rd r) (.ldYY rd r)) := by
  obtain ⟨rd8, hrd⟩ := exists_reg8OfCode_regX rd
  obtain ⟨r8, hr⟩ := exists_reg8OfCode_regX r
  rw [namesHalf_eq] at h
  simp only [changed1, hrd, hr, regXOfCode_code, if_pos h]

/-! ## Every instruction -/

/-- The encoding of a well-formed instruction is read as the instruction. The cases follow the maps: the main map with
its prefixes, the main map's rows that DD and FD change, the CB map, the ED map, the DD and FD maps, the DDCB and FDCB
maps. In each, first the rows whose opcode is one byte, then those with an operand field. -/
theorem readsBack (i : Instr) (hwf : i.wellFormed = true) (hrow : i ∉ prefixRows) : ReadsBack i := by
  cases i with
  | prefixCb | prefixDd | prefixEd | prefixFd | prefixDdCb | prefixFdCb => simp [prefixRows] at hrow
  | nop | exAfAf | djnz | jr | ldMemBcA | ldAMemBc | ldMemDeA | ldAMemDe | rlca | rrca | rla | rra | daa | cpl | scf
  | ccf | halt | popAf | ret | exx | outNA | inAN | exDeHl | di | ei | pushAf
  | addN | adcN | subN | sbcN | andN | xorN | orN | cpN =>
    exact readsBack_main _ _ _ rfl rfl (.inr fun _ _ _ => rfl) fun _ => rfl
  | ldMemNnA | ldAMemNn | jpNn | callNn =>
    refine readsBack_main _ _ _ rfl rfl (.inr fun _ _ _ => rfl) fun _ => ?_
    simp [decodeMain, decodeMain0, decodeMain02, decodeMain3, decodeMain33, decodeMain35, xField, yField, zField, odd]
  | jrCc p cc =>
    refine readsBack_main _ _ _ rfl (isPrefixByte_opByte_quarter _ _ _ (by decide)) (.inr fun _ _ _ => ?_) fun _ => ?_
    · simp [changed, changed0]
    · cases cc <;> rfl
  | retC | jpCNn | callCNn | rst =>
    refine readsBack_main _ _ _ rfl (isPrefixByte_opByte_column _ _ _ (by decide) (by decide))
      (.inr fun _ _ _ => ?_) fun _ => ?_
    · simp [changed, changed3_eq_none]
    · simp [decodeMain, decodeMain3]
  | ldRrNn p q | incRr p q | decRr p q =>
    refine readsBack_main p _ _ rfl (isPrefixByte_opByte_quarter _ _ _ (by decide))
      (((unindexedPair_iff p q).mp hwf).imp_right fun hq _ _ _ => ?_) fun _ => ?_
    · simpa [changed, changed0_load16, changed0_step16] using hq
    · simp [decodeMain, decodeMain0]
  | popRs p q | pushRs p q =>
    refine readsBack_main p _ _ rfl (isPrefixByte_opByte_row _ _ _ (odd_append_zero _))
      (((unindexedStackPair_iff p q).mp hwf).imp_right fun hq _ _ _ => ?_) fun _ => ?_
    · cases q with
      | hl => exact absurd rfl hq
      | _ => rfl
    · simp [decodeMain, decodeMain3, decodeMain31, decodeMain35]
  | incR p r | decR p r | ldRN p r
  | addR p r | adcR p r | subR p r | sbcR p r | andR p r | xorR p r | orR p r | cpR p r =>
    refine readsBack_main p _ _ rfl (isPrefixByte_opByte_quarter _ _ _ (by decide))
      (((unindexedReg_iff p r).mp hwf).imp_right fun hr _ _ _ => ?_) fun _ => ?_
    · simpa [changed, changed0_reg8, changed2_reg8] using hr
    · simp [decodeMain, decodeMain0, decodeMain2, aluR]
  | ldDR p rd r =>
    obtain ⟨hrd, hr⟩ := (Bool.and_eq_true _ _).mp hwf
    rw [unindexedReg_iff] at hrd hr
    refine readsBack_main p _ _ rfl (isPrefixByte_opByte_quarter _ _ _ (by decide))
      ((or_and_left.mpr ⟨hrd, hr⟩).imp_right fun hrs _ _ _ => ?_) fun _ => ?_
    · simpa [changed, changed1_regs] using hrs
    · simp [decodeMain, decodeMain1]
  | incMemHl | decMemHl | ldMemHlN | addMemHl | adcMemHl | subMemHl | sbcMemHl | andMemHl | xorMemHl | orMemHl
  | cpMemHl | jpHl | ldSpHl | exSpHl => exact readsBack_main .plain _ _ rfl rfl (.inl rfl) fun _ => rfl
  | ldMemNnHl | ldHlMemNn =>
    refine readsBack_main .plain _ _ rfl rfl (.inl rfl) fun _ => ?_
    simp [decodeMain, decodeMain0, decodeMain02, xField, yField, zField]
  | addHlRr | ldDMemHl | ldMemHlR =>
    refine readsBack_main .plain _ _ rfl (isPrefixByte_opByte_quarter _ _ _ (by decide)) (.inl rfl) fun _ => ?_
    simp [decodeMain, decodeMain0, decodeMain1]
  | rlcMemHl | rrcMemHl | rlMemHl | rrMemHl | slaMemHl | sraMemHl | sliMemHl | srlMemHl =>
    exact readsBack_cb _ rfl rfl
  | rlcR | rrcR | rlR | rrR | slaR | sraR | sliR | srlR | bitR | bitMemHl | resR | resMemHl | setR | setMemHl =>
    refine readsBack_cb _ rfl ?_
    simp [decodeCb, shiftR]
  | inf | outf | ldIA | ldRA | ldAI | ldAR | rrd | rld
  | ldi | ldd | ldir | lddr | cpi | cpd | cpir | cpdr | ini | ind | inir | indr | oti | otd | otir | otdr =>
    exact readsBack_ed _ _ rfl fun _ => rfl
  | inRC | outCR | sbcHlRr | adcHlRr | ldMemNnRr | ldRrMemNn | neg | retn | reti | im =>
    refine readsBack_ed _ _ rfl fun _ => ?_
    simp [decodeEd, decodeEd1, extractLsb'_append_bit, extractLsb'_bit_append, extractLsb'_append_pair]
  | nopEd op => exact readsBack_ed _ _ rfl fun _ => decodeEd_of_undefinedEd op _ _ hwf
  | ignoredNextDd x | ignoredNextEd x | ignoredNextFd x => exact fun _ => decode4_afterIndex x _ _ _
  | incIx | decIx | ldIxN | addIx | adcIx | subIx | sbcIx | andIx | xorIx | orIx | cpIx
  | incIy | decIy | ldIyN | addIy | adcIy | subIy | sbcIy | andIy | xorIy | orIy | cpIy
  | incIx16 | decIx16 | popIx | pushIx | jpIx | ldSpIx | exSpIx
  | incIy16 | decIy16 | popIy | pushIy | jpIy | ldSpIy | exSpIy =>
    exact readsBack_index _ _ _ rfl rfl rfl fun _ => rfl
  | ldIxNn | ldMemNnIx | ldIxMemNn | ldIyNn | ldMemNnIy | ldIyMemNn =>
    refine readsBack_index _ _ _ rfl rfl rfl fun _ => ?_
    simp [changed, changed0, xField, yField, zField, indexOfPrefix, pick, odd]
  | addIxRr | incX | decX | ldXN | ldDIx | ldIxR | addX | adcX | subX | sbcX | andX | xorX | orX | cpX
  | addIyRr | incY | decY | ldYN | ldDIy | ldIyR | addY | adcY | subY | sbcY | andY | xorY | orY | cpY =>
    refine readsBack_index _ _ _ rfl rfl (isPrefixByte_opByte_quarter _ _ _ (by decide)) fun _ => ?_
    simp [changed, changed0, changed1, changed2, aluHalf, indexOfPrefix, pick]
  | ldXX rd r | ldYY rd r =>
    refine readsBack_index _ _ _ rfl rfl (isPrefixByte_opByte_quarter _ _ _ (by decide)) fun _ => ?_
    simpa [changed, indexOfPrefix, pick] using changed1_halves _ rd r _ hwf
  | rlcIx | rrcIx | rlIx | rrIx | slaIx | sraIx | sliIx | srlIx
  | rlcIy | rrcIy | rlIy | rrIy | slaIy | sraIy | sliIy | srlIy => exact readsBack_indexCb _ _ _ rfl rfl rfl
  | rlcRIx | rrcRIx | rlRIx | rrRIx | slaRIx | sraRIx | sliRIx | srlRIx
  | rlcRIy | rrcRIy | rlRIy | rrRIy | slaRIy | sraRIy | sliRIy | srlRIy
  | bitIx | resIx | resRIx | setIx | setRIx | bitIy | resIy | resRIy | setIy | setRIy =>
    refine readsBack_indexCb _ _ _ rfl rfl ?_
    simp [decodeIndexCb, shiftRIndex, indexOfPrefix, pick]

/-! ## The decoder on a list of bytes -/

theorem decode_of_front (bs : List Byte) (hbare : barePrefix bs = none) (hne : bs ≠ [])
    (hsize : size (front bs) ≤ bs.length) : decode bs = .ok (front bs) := by
  cases bs with
  | nil => contradiction
  | cons b rest =>
    unfold decode
    rw [hbare]
    exact if_pos hsize

/-- What the bare prefixes are read as depends on the bytes after them, so none of them holds an instruction's encoding
(30_encoding.md R111). -/
theorem ReadsBack.barePrefix_eq_none {i : Instr} (h : ReadsBack i) (rest : List Byte) :
    barePrefix (encode i ++ rest) = none := by
  have same : ∀ more, front ((encode i ++ rest) ++ more) = i := fun more => by rw [List.append_assoc]; exact h _
  generalize encode i ++ rest = bs at same
  have two : front (bs ++ [0x00, 0x00, 0x00]) = front (bs ++ [0x40, 0x40, 0x40]) := (same _).trans (same _).symm
  unfold barePrefix
  split_ifs with hcb hdd hed hfd hddcb hfdcb
  · exact absurd two (hcb ▸ by decide)
  · exact absurd two (hdd ▸ by decide)
  · exact absurd two (hed ▸ by decide)
  · exact absurd two (hfd ▸ by decide)
  · exact absurd two (hddcb ▸ by decide)
  · exact absurd two (hfdcb ▸ by decide)
  · rfl

/-- Every instruction's encoding is 1 to 4 bytes and covers it: first the rows with an operand `p`. -/
theorem encodeLength (i : Instr) : EncodeLength.Statement i := by
  cases i with
  | nop p | exAfAf p | djnz p | jr p | jrCc p | ldRrNn p | ldMemBcA p | ldAMemBc p | ldMemDeA p | ldAMemDe p
  | ldMemNnA p | ldAMemNn p | incRr p | decRr p | incR p | decR p | ldRN p | rlca p | rrca p | rla p | rra p | daa p
  | cpl p | scf p | ccf p | ldDR p | halt p | addR p | adcR p | subR p | sbcR p | andR p | xorR p | orR p | cpR p
  | retC p | popRs p | popAf p | ret p | exx p | jpCNn p | jpNn p | outNA p | inAN p | exDeHl p | di p | ei p
  | callCNn p | pushRs p | pushAf p | callNn p | addN p | adcN p | subN p | sbcN p | andN p | xorN p | orN p | cpN p
  | rst p => cases p <;> exact encodeLength_of _ rfl
  | _ => exact encodeLength_of _ rfl

theorem ReadsBack.decode_append {i : Instr} (h : ReadsBack i) (rest : List Byte) :
    decode (encode i ++ rest) = .ok i := by
  obtain ⟨hpos, hsize, -⟩ := encodeLength i
  have hlen : (encode i ++ rest).length = (encode i).length + rest.length := List.length_append
  have hne : encode i ++ rest ≠ [] := List.ne_nil_of_length_pos (by omega)
  have hdec := decode_of_front _ (h.barePrefix_eq_none rest) hne
  rw [h rest] at hdec
  exact hdec (by omega)

/-- The six bare prefixes are read as the six rows of `prefixRows` (log 17). -/
theorem decode_prefixRow {i : Instr} (h : i ∈ prefixRows) : decode (encode i) = .ok i := by
  simp only [prefixRows, List.mem_cons, List.not_mem_nil, or_false] at h
  obtain rfl | rfl | rfl | rfl | rfl | rfl := h <;> rfl

end Sys2Proof.Machine
end

