-- ==== Sys2Proof/Proofs/Fits.lean ====
section
/-! PROOF. From the bytes to the instruction (30_encoding.md R113, R138): `fits_decode4` says that any four bytes are
read as a well-formed instruction whose encoding they begin with. One lemma per decoding function, in the order of
Decode.lean; `nn` is the word of the two bytes after the opcode. -/

namespace Sys2Proof.Machine

/-- The instruction is well-formed, and the bytes begin with its encoding. -/
def Fits (bs : List Byte) (i : Instr) : Prop := i.wellFormed = true ∧ encode i <+: bs

/-- Behind the bytes of `p` only the instruction's own bytes have to be compared. -/
theorem fits_append {i : Instr} (p : Pfx) {bs : List Byte} (own : List Byte) (hwf : i.wellFormed = true)
    (henc : encode i = p.bytes ++ own) (hown : own <+: bs) : Fits (p.bytes ++ bs) i :=
  ⟨hwf, henc ▸ (List.prefix_append_right_inj p.bytes).mpr hown⟩

/-! ## The arithmetic rows -/

theorem fits_aluR (p : Pfx) (y : BitVec 3) (r : Reg8) (more : List Byte) (h : unindexedReg p r = true) :
    Fits (p.bytes ++ opByte 2#2 y r.code :: more) (aluR p y r) := by
  cases y using bits3_cases <;> exact fits_append p _ h rfl ⟨_, rfl⟩

theorem fits_aluMemHl (y : BitVec 3) (more : List Byte) : Fits (opByte 2#2 y 6#3 :: more) (aluMemHl y) := by
  cases y using bits3_cases <;> exact ⟨rfl, _, rfl⟩

theorem fits_aluN (p : Pfx) (y : BitVec 3) (n : Byte) (more : List Byte) :
    Fits (p.bytes ++ opByte 3#2 y 6#3 :: n :: more) (aluN p y n) := by
  cases y using bits3_cases <;> exact fits_append p _ rfl rfl ⟨_, rfl⟩

theorem fits_aluHalf (x : Index) (y : BitVec 3) (hf : Half) (more : List Byte) :
    Fits (x.prefixByte :: opByte 2#2 y hf.code :: more) (aluHalf x y hf) := by
  cases x <;> cases y using bits3_cases <;> exact ⟨rfl, _, rfl⟩

theorem fits_aluIndex (x : Index) (y : BitVec 3) (o : Byte) (more : List Byte) :
    Fits (x.prefixByte :: opByte 2#2 y 6#3 :: o :: more) (aluIndex x y o) := by
  cases x <;> cases y using bits3_cases <;> exact ⟨rfl, _, rfl⟩

/-! ## The unprefixed map

Behind DD or FD it is asked only for the opcodes that they leave as they are. -/

theorem fits_decodeMain00 (p : Pfx) (y : BitVec 3) (n1 n2 : Byte) :
    Fits (p.bytes ++ [opByte 0#2 y 0#3, n1, n2]) (decodeMain00 p y n1) := by
  cases y using bits3_cases <;> exact fits_append p _ rfl rfl ⟨_, rfl⟩

theorem fits_decodeMain02 (p : Pfx) (x : Index) (y : BitVec 3) (nn : Word)
    (h : p = .plain ∨ changed0 x y 2#3 (lo nn) (hi nn) = none) :
    Fits (p.bytes ++ [opByte 0#2 y 2#3, lo nn, hi nn]) (decodeMain02 p y nn) := by
  cases y using bits3_cases with
  | four | five =>
    obtain rfl := h.resolve_right nofun
    exact fits_append .plain _ rfl rfl ⟨_, rfl⟩
  | _ => exact fits_append p _ rfl rfl ⟨_, rfl⟩

theorem fits_decodeMain07 (p : Pfx) (y : BitVec 3) (more : List Byte) :
    Fits (p.bytes ++ opByte 0#2 y 7#3 :: more) (decodeMain07 p y) := by
  cases y using bits3_cases <;> exact fits_append p _ rfl rfl ⟨_, rfl⟩

theorem fits_decodeMain0 (p : Pfx) (x : Index) (y z : BitVec 3) (nn : Word)
    (h : p = .plain ∨ changed0 x y z (lo nn) (hi nn) = none) :
    Fits (p.bytes ++ [opByte 0#2 y z, lo nn, hi nn]) (decodeMain0 p y z (lo nn) (hi nn)) := by
  cases z using bits3_cases with
  | zero => exact fits_decodeMain00 p y _ _
  | one =>
    cases hy : odd y with
    | true =>
      obtain rfl := h.resolve_right (by simp [changed0, hy])
      simp only [decodeMain0, hy, ↓reduceIte]
      exact fits_append .plain _ rfl (congrArg ([opByte 0#2 · 1#3]) (code_pairOfField_odd hy)) ⟨_, rfl⟩
    | false =>
      have hwf := (unindexedPair_iff p _).mpr (h.imp_right (changed0_load16 x _ _ hy).mp)
      simp only [decodeMain0, hy, join_hi_lo, Bool.false_eq_true, ↓reduceIte]
      exact fits_append p _ hwf (congrArg (p.bytes ++ [opByte 0#2 · 1#3, lo nn, hi nn]) (code_pairOfField_even hy))
        ⟨_, rfl⟩
  | two => simpa [decodeMain0] using fits_decodeMain02 p x y nn h
  | three =>
    have hwf := (unindexedPair_iff p _).mpr (h.imp_right (changed0_step16 x _ _ y).mp)
    cases hy : odd y with
    | true =>
      simp only [decodeMain0, hy, ↓reduceIte]
      exact fits_append p _ hwf (congrArg (p.bytes ++ [opByte 0#2 · 3#3]) (code_pairOfField_odd hy)) ⟨_, rfl⟩
    | false =>
      simp only [decodeMain0, hy, Bool.false_eq_true, ↓reduceIte]
      exact fits_append p _ hwf (congrArg (p.bytes ++ [opByte 0#2 · 3#3]) (code_pairOfField_even hy)) ⟨_, rfl⟩
  | four | five | six =>
    cases hy : reg8OfCode y with
    | some r =>
      obtain rfl := code_of_reg8OfCode hy
      have hwf := (unindexedReg_iff p r).mpr (h.imp_right (changed0_reg8 x _ _ r (by decide)).mp)
      simp only [decodeMain0, hy]
      exact fits_append p _ hwf rfl ⟨_, rfl⟩
    | none =>
      obtain rfl := eq_memory_of_reg8OfCode hy
      obtain rfl := h.resolve_right nofun
      exact fits_append .plain _ rfl rfl ⟨_, rfl⟩
  | seven => exact fits_decodeMain07 p y _

theorem fits_decodeMain1 (p : Pfx) (x : Index) (y z : BitVec 3) (n1 : Byte) (more : List Byte)
    (h : p = .plain ∨ changed1 x y z n1 = none) : Fits (p.bytes ++ opByte 1#2 y z :: more) (decodeMain1 p y z) := by
  unfold decodeMain1
  split
  next rd r hy hz =>
    obtain rfl := code_of_reg8OfCode hy
    obtain rfl := code_of_reg8OfCode hz
    have hregs := or_and_left.mp (h.imp_right (changed1_regs x n1 rd r).mp)
    simp only [← unindexedReg_iff] at hregs
    exact fits_append p _ ((Bool.and_eq_true _ _).mpr hregs) rfl ⟨_, rfl⟩
  next rd hy hz =>
    obtain rfl := code_of_reg8OfCode hy
    obtain rfl := eq_memory_of_reg8OfCode hz
    obtain rfl := h.resolve_right (by simp [changed1])
    exact fits_append .plain _ rfl rfl ⟨_, rfl⟩
  next r hy hz =>
    obtain rfl := eq_memory_of_reg8OfCode hy
    obtain rfl := code_of_reg8OfCode hz
    obtain rfl := h.resolve_right (by simp [changed1])
    exact fits_append .plain _ rfl rfl ⟨_, rfl⟩
  next hy hz =>
    obtain rfl := eq_memory_of_reg8OfCode hy
    obtain rfl := eq_memory_of_reg8OfCode hz
    exact fits_append p _ rfl rfl ⟨_, rfl⟩

theorem fits_decodeMain2 (p : Pfx) (x : Index) (y z : BitVec 3) (n1 : Byte) (more : List Byte)
    (h : p = .plain ∨ changed2 x y z n1 = none) : Fits (p.bytes ++ opByte 2#2 y z :: more) (decodeMain2 p y z) := by
  unfold decodeMain2
  split
  next r hz =>
    obtain rfl := code_of_reg8OfCode hz
    exact fits_aluR p y r more ((unindexedReg_iff p r).mpr (h.imp_right (changed2_reg8 x n1 y r).mp))
  next hz =>
    obtain rfl := eq_memory_of_reg8OfCode hz
    obtain rfl := h.resolve_right (by simp [changed2])
    exact fits_aluMemHl y more

theorem fits_decodeMain31 (p : Pfx) (x : Index) (y : BitVec 3) (more : List Byte)
    (h : p = .plain ∨ changed3 x y 1#3 = none) : Fits (p.bytes ++ opByte 3#2 y 1#3 :: more) (decodeMain31 p y) := by
  cases y using bits3_cases with
  | zero | two => exact fits_append p _ (by cases p <;> rfl) rfl ⟨_, rfl⟩
  | four | five | seven =>
    obtain rfl := h.resolve_right nofun
    exact fits_append .plain _ rfl rfl ⟨_, rfl⟩
  | one | three | six => exact fits_append p _ rfl rfl ⟨_, rfl⟩

theorem fits_decodeMain33 (p : Pfx) (x : Index) (y : BitVec 3) (nn : Word)
    (hop : isPrefixByte (opByte 3#2 y 3#3) = false) (h : p = .plain ∨ changed3 x y 3#3 = none) :
    Fits (p.bytes ++ [opByte 3#2 y 3#3, lo nn, hi nn]) (decodeMain33 p y (lo nn) (hi nn)) := by
  cases y using bits3_cases with
  | zero => exact fits_append p _ rfl (congrArg (encode <| .jpNn p ·) (join_hi_lo nn)) ⟨_, rfl⟩
  | one => cases hop
  | four =>
    obtain rfl := h.resolve_right nofun
    exact fits_append .plain _ rfl rfl ⟨_, rfl⟩
  | _ => exact fits_append p _ rfl rfl ⟨_, rfl⟩

theorem fits_decodeMain35 (p : Pfx) (x : Index) (y : BitVec 3) (nn : Word)
    (hop : isPrefixByte (opByte 3#2 y 5#3) = false) (h : p = .plain ∨ changed3 x y 5#3 = none) :
    Fits (p.bytes ++ [opByte 3#2 y 5#3, lo nn, hi nn]) (decodeMain35 p y nn) := by
  cases y using bits3_cases with
  | zero | two => exact fits_append p _ (by cases p <;> rfl) rfl ⟨_, rfl⟩
  | three | five | seven => cases hop
  | four =>
    obtain rfl := h.resolve_right nofun
    exact fits_append .plain _ rfl rfl ⟨_, rfl⟩
  | one | six => exact fits_append p _ rfl rfl ⟨_, rfl⟩

theorem fits_decodeMain3 (p : Pfx) (x : Index) (y z : BitVec 3) (nn : Word)
    (hop : isPrefixByte (opByte 3#2 y z) = false) (h : p = .plain ∨ changed3 x y z = none) :
    Fits (p.bytes ++ [opByte 3#2 y z, lo nn, hi nn]) (decodeMain3 p y z (lo nn) (hi nn)) := by
  cases z using bits3_cases with
  | one => exact fits_decodeMain31 p x y _ h
  | three => exact fits_decodeMain33 p x y nn hop h
  | five => simpa [decodeMain3] using fits_decodeMain35 p x y nn hop h
  | six => exact fits_aluN p y _ _
  | seven => exact fits_append p _ rfl rfl ⟨_, rfl⟩
  | zero | two | four =>
    obtain ⟨cc, rfl⟩ : ∃ cc : Cond, cc.code = y := ⟨condOfCode y, code_condOfCode y⟩
    simp only [decodeMain3, condOfCode_code, join_hi_lo]
    exact fits_append p _ rfl rfl ⟨_, rfl⟩

theorem fits_decodeMain (p : Pfx) (x : Index) (op : Byte) (nn : Word) (hop : isPrefixByte op = false)
    (h : p = .plain ∨ changed x op (lo nn) (hi nn) = none) :
    Fits (p.bytes ++ [op, lo nn, hi nn]) (decodeMain p op (lo nn) (hi nn)) := by
  rw [← opByte_fields op] at hop ⊢
  unfold changed at h
  generalize yField op = y, zField op = z at *
  generalize xField op = k at *
  simp only [decodeMain, xField_opByte, yField_opByte, zField_opByte]
  cases k using bits2_cases with
  | zero => exact fits_decodeMain0 p x y z nn h
  | one => exact fits_decodeMain1 p x y z _ _ h
  | two => exact fits_decodeMain2 p x y z _ _ h
  | three => exact fits_decodeMain3 p x y z nn hop h

/-! ## The CB map -/

theorem fits_shiftR (y : BitVec 3) (r : Reg8) (more : List Byte) :
    Fits (0xCB :: opByte 0#2 y r.code :: more) (shiftR y r) := by
  cases y using bits3_cases <;> exact ⟨rfl, _, rfl⟩

theorem fits_shiftMemHl (y : BitVec 3) (more : List Byte) :
    Fits (0xCB :: opByte 0#2 y 6#3 :: more) (shiftMemHl y) := by
  cases y using bits3_cases <;> exact ⟨rfl, _, rfl⟩

theorem fits_decodeCb (op : Byte) (more : List Byte) : Fits (0xCB :: op :: more) (decodeCb op) := by
  rw [← opByte_fields op]
  generalize xField op = k, yField op = y, zField op = z
  simp only [decodeCb, xField_opByte, yField_opByte, zField_opByte]
  cases hz : reg8OfCode z with
  | some r =>
    obtain rfl := code_of_reg8OfCode hz
    cases k using bits2_cases with
    | zero => exact fits_shiftR y r more
    | _ => exact ⟨rfl, _, rfl⟩
  | none =>
    obtain rfl := eq_memory_of_reg8OfCode hz
    cases k using bits2_cases with
    | zero => exact fits_shiftMemHl y more
    | _ => exact ⟨rfl, _, rfl⟩

/-! ## The DDCB and FDCB maps -/

theorem fits_shiftIndex (x : Index) (y : BitVec 3) (o : Byte) :
    Fits [x.prefixByte, 0xCB, o, opByte 0#2 y 6#3] (shiftIndex x y o) := by
  cases x <;> cases y using bits3_cases <;> exact ⟨rfl, _, rfl⟩

theorem fits_shiftRIndex (x : Index) (y : BitVec 3) (r : Reg8) (o : Byte) :
    Fits [x.prefixByte, 0xCB, o, opByte 0#2 y r.code] (shiftRIndex x y r o) := by
  cases x <;> cases y using bits3_cases <;> exact ⟨rfl, _, rfl⟩

theorem fits_decodeIndexCb (x : Index) (o op : Byte) :
    Fits [x.prefixByte, 0xCB, o, op] (decodeIndexCb x o op) := by
  rw [← opByte_fields op]
  generalize xField op = k, yField op = y, zField op = z
  simp only [decodeIndexCb, xField_opByte, yField_opByte, zField_opByte]
  cases hz : reg8OfCode z with
  | some r =>
    obtain rfl := code_of_reg8OfCode hz
    cases k using bits2_cases with
    | zero => exact fits_shiftRIndex x y r o
    | _ => cases x <;> exact ⟨rfl, _, rfl⟩
  | none =>
    obtain rfl := eq_memory_of_reg8OfCode hz
    cases k using bits2_cases with
    | zero => exact fits_shiftIndex x y o
    | _ => cases x <;> exact ⟨rfl, _, rfl⟩

/-! ## The ED map -/

theorem fits_decodeEd1 (y z : BitVec 3) (nn : Word) :
    Fits [0xED, opByte 1#2 y z, lo nn, hi nn] (decodeEd1 (opByte 1#2 y z) nn) := by
  simp only [decodeEd1, decodeEd17, yField_opByte, zField_opByte]
  cases z using bits3_cases with
  | zero | one =>
    cases hy : reg8OfCode y with
    | some r => obtain rfl := code_of_reg8OfCode hy; exact ⟨rfl, _, rfl⟩
    | none => obtain rfl := eq_memory_of_reg8OfCode hy; exact ⟨rfl, _, rfl⟩
  | _ => cases y using bits3_cases <;> exact ⟨rfl, _, rfl⟩

theorem fits_decodeEd2 (y z : BitVec 3) (more : List Byte) :
    Fits (0xED :: opByte 2#2 y z :: more) (decodeEd2 (opByte 2#2 y z)) := by
  simp only [decodeEd2, yField_opByte, zField_opByte]
  cases y using bits3_cases <;> cases z using bits3_cases <;> exact ⟨rfl, _, rfl⟩

theorem fits_decodeEd (op : Byte) (nn : Word) : Fits [0xED, op, lo nn, hi nn] (decodeEd op (lo nn) (hi nn)) := by
  rw [← opByte_fields op]
  generalize xField op = k, yField op = y, zField op = z
  simp only [decodeEd, xField_opByte, join_hi_lo]
  cases k using bits2_cases with
  | zero | three => exact ⟨(undefinedEd_opByte _ _ _).mpr (by simp), _, rfl⟩
  | one => exact fits_decodeEd1 y z nn
  | two => exact fits_decodeEd2 y z _

/-! ## The DD and FD maps -/

theorem fits_changed0 (x : Index) (y z : BitVec 3) (nn : Word) {i : Instr}
    (h : changed0 x y z (lo nn) (hi nn) = some i) : Fits [x.prefixByte, opByte 0#2 y z, lo nn, hi nn] i := by
  unfold changed0 at h
  rw [join_hi_lo] at h
  cases z using bits3_cases with
  | zero | seven => cases h
  | one | two | three => cases y using bits3_cases <;> cases h <;> cases x <;> exact ⟨rfl, _, rfl⟩
  | four | five | six =>
    cases hhalf : halfOfCode y with
    | some hf =>
      obtain rfl := code_of_halfOfCode hhalf
      simp only [hhalf] at h
      cases h
      cases x <;> exact ⟨rfl, _, rfl⟩
    | none =>
      cases hy : reg8OfCode y with
      | some r => simp only [hhalf, hy] at h; cases h
      | none =>
        obtain rfl := eq_memory_of_reg8OfCode hy
        cases h
        cases x <;> exact ⟨rfl, _, rfl⟩

theorem fits_changed1 (x : Index) (y z : BitVec 3) (n1 : Byte) (more : List Byte) {i : Instr}
    (h : changed1 x y z n1 = some i) : Fits (x.prefixByte :: opByte 1#2 y z :: n1 :: more) i := by
  unfold changed1 at h
  split at h
  next rd hy hz =>
    obtain rfl := code_of_reg8OfCode hy
    obtain rfl := eq_memory_of_reg8OfCode hz
    cases h
    cases x <;> exact ⟨rfl, _, rfl⟩
  next r hy hz =>
    obtain rfl := eq_memory_of_reg8OfCode hy
    obtain rfl := code_of_reg8OfCode hz
    cases h
    cases x <;> exact ⟨rfl, _, rfl⟩
  next => cases h
  next =>
    split at h
    next rd r hy hz =>
      obtain rfl := code_of_regXOfCode hy
      obtain rfl := code_of_regXOfCode hz
      split_ifs at h with hhalf
      cases h
      rw [← namesHalf_eq] at hhalf
      cases x <;> exact ⟨hhalf, _, rfl⟩
    next => cases h

theorem fits_changed2 (x : Index) (y z : BitVec 3) (n1 : Byte) (more : List Byte) {i : Instr}
    (h : changed2 x y z n1 = some i) : Fits (x.prefixByte :: opByte 2#2 y z :: n1 :: more) i := by
  unfold changed2 at h
  split at h <;> cases h
  next hf hz =>
    obtain rfl := code_of_halfOfCode hz
    exact fits_aluHalf x y hf _
  next hz =>
    obtain rfl := eq_memory_of_reg8OfCode hz
    exact fits_aluIndex x y n1 more

theorem fits_changed3 (x : Index) (y z : BitVec 3) (more : List Byte) {i : Instr}
    (h : changed3 x y z = some i) : Fits (x.prefixByte :: opByte 3#2 y z :: more) i := by
  unfold changed3 at h
  split at h <;> cases h <;> cases x <;> exact ⟨rfl, _, rfl⟩

theorem fits_changed (x : Index) (op : Byte) (nn : Word) {i : Instr} (h : changed x op (lo nn) (hi nn) = some i) :
    Fits [x.prefixByte, op, lo nn, hi nn] i := by
  unfold changed at h
  rw [← opByte_fields op]
  generalize yField op = y, zField op = z at *
  generalize xField op = k at *
  cases k using bits2_cases with
  | zero => exact fits_changed0 x y z nn h
  | one => exact fits_changed1 x y z _ _ h
  | two => exact fits_changed2 x y z _ _ h
  | three => exact fits_changed3 x y z _ h

theorem fits_decodeIndex (x : Index) (op : Byte) (nn : Word) (hop : isPrefixByte op = false) :
    Fits [x.prefixByte, op, lo nn, hi nn] (decodeIndex x op (lo nn) (hi nn)) := by
  unfold decodeIndex
  cases h : changed x op (lo nn) (hi nn) with
  | some i => exact fits_changed x op nn h
  | none => simpa [bytes_pfxOf] using fits_decodeMain (pfxOf x) x op nn hop (.inr h)

theorem fits_decodeAfterIndex (x : Index) (b1 b2 b3 : Byte) :
    Fits [x.prefixByte, b1, b2, b3] (decodeAfterIndex x b1 b2 b3) := by
  unfold decodeAfterIndex
  split_ifs with hdd hed hfd hcb
  · subst hdd; exact ⟨rfl, _, rfl⟩
  · subst hed; exact ⟨rfl, _, rfl⟩
  · subst hfd; exact ⟨rfl, _, rfl⟩
  · subst hcb; exact fits_decodeIndexCb x b2 b3
  · have hop := (isPrefixByte_eq_false_iff b1).mpr ⟨hcb, hdd, hed, hfd⟩
    simpa using fits_decodeIndex x b1 (join b3 b2) hop

/-! ## The whole decoder -/

/-- Any four bytes are read as a well-formed instruction whose encoding they begin with. -/
theorem fits_decode4 (b0 b1 b2 b3 : Byte) : Fits [b0, b1, b2, b3] (decode4 b0 b1 b2 b3) := by
  unfold decode4
  split_ifs with hcb hed hdd hfd
  · subst hcb; exact fits_decodeCb b1 _
  · subst hed; simpa using fits_decodeEd b1 (join b3 b2)
  · subst hdd; exact fits_decodeAfterIndex .ix b1 b2 b3
  · subst hfd; exact fits_decodeAfterIndex .iy b1 b2 b3
  · have hop := (isPrefixByte_eq_false_iff b0).mpr ⟨hcb, hdd, hed, hfd⟩
    obtain ⟨hwf, henc⟩ := fits_decodeMain .plain .ix b0 (join b2 b1) hop (.inl rfl)
    rw [lo_join, hi_join] at hwf henc
    exact ⟨hwf, henc.trans ⟨[b3], rfl⟩⟩

end Sys2Proof.Machine
end

