-- ==== Sys2Proof/Proofs/Encoding.lean ====
section
/-! PROOF. The statements of 30_encoding.md: decoding and encoding are each other's inverse (R112, R113, R138),
prefixes are part of the instruction they start (R111), and the condition table (R125). -/

namespace Sys2Proof.Machine

/-- An instruction that the maps give completes, and `execMapped`, by which the rows of `prefixRows` run it, gives its
meaning. -/
theorem exec_eq_execMapped (i : Instr) (s : State) (hrow : i ∉ prefixRows) :
    ∃ t, execMapped i s = .next t ∧ exec i s = .next t := by
  cases i with
  | prefixCb | prefixDd | prefixEd | prefixFd | prefixDdCb | prefixFdCb => simp [prefixRows] at hrow
  | _ => exact ⟨_, rfl, rfl⟩

end Sys2Proof.Machine

namespace Sys2Proof.Proofs
open Sys2Proof Sys2Proof.Machine

/-- Settles O1: `readsBack` for every instruction of the maps; the rows of `prefixRows` are read by `barePrefix`. -/
theorem decodeReadsBackEveryEncoding : Obligations.DecodeReadsBackEveryEncoding := by
  intro i hwf
  refine ⟨?_, fun hrow => (readsBack i hwf hrow).decode_append⟩
  by_cases hrow : i ∈ prefixRows
  · exact decode_prefixRow hrow
  · simpa using (readsBack i hwf hrow).decode_append []

/-- Settles O2: `fits_decode4`, and the instruction is no longer than its encoding, so four bytes hold it. -/
theorem everyByteSequenceIsOneInstruction : Obligations.EveryByteSequenceIsOneInstruction := by
  intro b0 b1 b2 b3
  obtain ⟨hwf, henc⟩ := fits_decode4 b0 b1 b2 b3
  obtain ⟨hpos, hsize, -⟩ := encodeLength (decode4 b0 b1 b2 b3)
  have hfour : size (decode4 b0 b1 b2 b3) ≤ 4 := hsize.trans henc.length_le
  have hbare : barePrefix [b0, b1, b2, b3] = none := by simp [barePrefix]
  exact ⟨decode_of_front _ hbare (List.cons_ne_nil _ _) hfour, hwf, hpos, hfour, henc⟩

/-- Settles O58: no four bytes decode to a row of `prefixRows`, and every other instruction completes. -/
theorem prefixBytesRunTheInstructionTheyStart : Obligations.PrefixBytesRunTheInstructionTheyStart :=
  have run (b0 b1 b2 b3 : Byte) (s : State) :=
    exec_eq_execMapped (decode4 b0 b1 b2 b3) s (decode4_not_prefix b0 b1 b2 b3)
  ⟨fun s => run 0xCB _ _ _ s, fun s => run 0xDD _ _ _ s, fun s => run 0xED _ _ _ s, fun s => run 0xFD _ _ _ s,
    fun s => run 0xDD 0xCB _ _ s, fun s => run 0xFD 0xCB _ _ s⟩

/-- Settles O3: each word is the encoding of its instruction, so O1 applies. -/
theorem wordsOfTheMapsDecode : Obligations.WordsOfTheMapsDecode :=
  have word (i : Instr) (hwf : i.wellFormed = true) : decode (encode i) = .ok i :=
    (decodeReadsBackEveryEncoding i hwf).1
  ⟨word (.ldRrNn .plain .hl 0x1225) rfl, word (.srlR .l) rfl, word (.ldRrMemNn .bc 0x4000) rfl,
    word (.ldIxNn 0x3A4B) rfl, word (.ldIyR .d 0x7F) rfl, word (.ldDR .dd .b .c) rfl, word (.rlcRIx .b 0x02) rfl,
    word (.bitIy 6 0 0xFF) rfl, word (.ignoredNextFd .ix) rfl⟩

/-- Settles O28: `holds` on each of the eight codes. -/
theorem conditionTable : Obligations.ConditionTable := by
  refine ⟨fun s => ?_, by decide⟩
  simp [State.cond, condOfCode, holds]

end Sys2Proof.Proofs
end

