-- ==== Sys2Proof/Proofs/Fetched.lean ====
section
/-! PROOF. An instruction as its fetch and one operation after it: what the operation leaves alone the instruction
leaves alone, but for PC and R (10_state.md R33, R46). `completes_fetched` says it once, for every family; the rules
after it are those for an operation that writes one 8-bit register, half an index register or one byte of memory. A
fetch behind an unchanged prefix is a fetch too: `State.beginP` is a `State.begin`. -/

namespace Sys2Proof.Machine

/-! ## After the fetch -/

section
variable {s u : State} {len fetches : Nat} {ps : List Part}

/-- PC and R are those of the fetch where the operation after it leaves them alone. -/
theorem advanced_of_fetched (h : changesOnly ps (s.begin len fetches) u) (hps : ∀ p ∈ ps, p ≠ .pc ∧ p ≠ .r) :
    advanced len fetches s u :=
  have hpc : u.pc = (s.begin len fetches).pc := h .pc fun hp => (hps .pc hp).1 rfl
  have hr : u.r = (s.begin len fetches).r := h .r fun hp => (hps .r hp).2 rfl
  ⟨hpc, counted_of_begin s u len fetches hr⟩

/-- The frame of an operation after the fetch. -/
theorem changesOnly_of_fetched (h : changesOnly ps (s.begin len fetches) u) : changesOnly ([.pc, .r] ++ ps) s u :=
  changesOnly_trans _ _ s _ u (s.begin_changesOnly len fetches) h

/-- An operation after the fetch that writes neither PC nor R completes the instruction; its result is left to show,
with the fetch and the frame given. -/
theorem completes_fetched {post : State → Prop} (h : changesOnly ps (s.begin len fetches) u)
    (hps : ∀ p ∈ ps, p ≠ .pc ∧ p ≠ .r)
    (hpost : advanced len fetches s u → changesOnly ([.pc, .r] ++ ps) s u → post u) : completes (.next u) post :=
  (completes_next u post).mpr (hpost (advanced_of_fetched h hps) (changesOnly_of_fetched h))

end

/-! ## One write after the fetch -/

section
variable (s : State) (len fetches : Nat)

/-- An 8-bit register is written. -/
theorem completes_setReg8 (r : Reg8) (v : Byte) : completes (.next ((s.begin len fetches).setReg8 r v)) fun t =>
    advanced len fetches s t ∧ t.reg8 r = v ∧ changesOnly [.pc, .r, partOfReg8 r] s t :=
  completes_fetched (State.setReg8_changesOnly _ r v) (by cases r <;> decide) fun hadv hframe =>
    ⟨hadv, by simp, hframe⟩

/-- Half an index register is written: the other half is kept. -/
theorem completes_setHalf (x : Index) (y : Half) (v : Byte) :
    completes (.next ((s.begin len fetches).setHalf x y v)) fun t =>
      advanced len fetches s t ∧ t.half x y = v ∧ (∀ z, z ≠ y → t.half x z = s.half x z) ∧
      changesOnly [.pc, .r, partOfIndex x] s t :=
  completes_fetched (State.setHalf_changesOnly _ x y v) (by cases x <;> decide) fun hadv hframe =>
    ⟨hadv, by simp, fun z hz => by simp [hz], hframe⟩

/-- A register of the DD or FD map is written: the others of that map are kept. -/
theorem completes_setRegX (x : Index) (r : RegX) (v : Byte) :
    completes (.next ((s.begin len fetches).setRegX x r v)) fun t =>
      advanced len fetches s t ∧ t.regX x r = v ∧ (∀ q, q ≠ r → t.regX x q = s.regX x q) ∧
      changesOnly [.pc, .r, partOfRegX x r] s t :=
  completes_fetched (State.setRegX_changesOnly _ x r v) (by cases r <;> cases x <;> decide) fun hadv hframe =>
    ⟨hadv, by simp, fun q hq => by simp [hq], hframe⟩

/-- A byte is stored. -/
theorem completes_memWrite (a : Word) (v : Byte) : completes (.next ((s.begin len fetches).memWrite a v)) fun t =>
    advanced len fetches s t ∧ storesByte a v s t ∧ changesOnly [.pc, .r, .bytes] s t :=
  completes_fetched (State.memWrite_changesOnly _ a v) (by decide) fun hadv hframe =>
    ⟨hadv, storesByte_of_write s _ a v rfl, hframe⟩

end

end Sys2Proof.Machine
end

