-- ==== Sys2Proof/Proofs/Load8.lean ====
section
/-! PROOF. The statements of 40_load8.md. A load or a store is one write after the fetch, and its operands (registers,
addresses, bytes in memory) are read after the fetch as they were before it, which holds by computation. -/

namespace Sys2Proof.Machine

/-! ## The special registers -/

theorem State.setI_changesOnly (s : State) (v : Byte) : changesOnly [.i] s { s with i := v } := by
  intro q hq; cases q <;> first | rfl | (intro; rfl) | (exfalso; apply hq; simp)

theorem State.setR_changesOnly (s : State) (v : Byte) : changesOnly [.r] s { s with r := v } := by
  intro q hq; cases q <;> first | rfl | (intro; rfl) | (exfalso; apply hq; simp)

theorem State.loadAWithFlags_changesOnly (s : State) (v : Byte) : changesOnly [.a, .f] s (s.loadAWithFlags v) :=
  s.setAF_changesOnly (v, ldAFlags v s.iff2 s.f)

/-- S and Z of the byte loaded, H and N 0, P/V = IFF2, flags 5, 3 and C kept (40_load8.md R174, R175). -/
theorem flagsAre_ldAFlags (v : Byte) (iff2 : Bool) (f : Byte) :
    flagsAre (ldAFlags v iff2 f) (v.getLsbD 7) (decide (v = 0)) (flag5 f) false (flag3 f) iff2 false (flagC f) := by
  simp [flagsAre, ldAFlags, beq_eq_decide]

end Sys2Proof.Machine

namespace Sys2Proof.Proofs
open Sys2Proof Sys2Proof.Machine

/-- Settles O31: each is one register written after the fetch. -/
theorem loadsOfARegister : Obligations.LoadsOfARegister :=
  ⟨fun _ r n s => completes_setReg8 s _ _ r n,
    fun _ rd r s => completes_setReg8 s _ _ rd (s.reg8 r),
    fun _ nn s => completes_setReg8 s _ _ .a (s.memRead nn),
    fun rd s => completes_setReg8 s _ _ rd (s.memRead s.hl),
    fun _ s => completes_setReg8 s _ _ .a (s.memRead s.bc),
    fun _ s => completes_setReg8 s _ _ .a (s.memRead s.de),
    fun rd o s => completes_setReg8 s _ _ rd (s.memRead (s.ea .ix o)),
    fun x n s => completes_setHalf s _ _ .ix x n,
    fun rd r s => completes_setRegX s _ _ .ix rd (s.regX .ix r),
    fun rd o s => completes_setReg8 s _ _ rd (s.memRead (s.ea .iy o)),
    fun x n s => completes_setHalf s _ _ .iy x n,
    fun rd r s => completes_setRegX s _ _ .iy rd (s.regX .iy r)⟩

/-- Settles O32: each is one byte stored after the fetch. -/
theorem storesOfAByte : Obligations.StoresOfAByte :=
  ⟨fun _ nn s => completes_memWrite s _ _ nn s.a,
    fun r s => completes_memWrite s _ _ s.hl (s.reg8 r),
    fun _ s => completes_memWrite s _ _ s.bc s.a,
    fun _ s => completes_memWrite s _ _ s.de s.a,
    fun n s => completes_memWrite s _ _ s.hl n,
    fun r o s => completes_memWrite s _ _ (s.ea .ix o) (s.reg8 r),
    fun o n s => completes_memWrite s _ _ (s.ea .ix o) n,
    fun r o s => completes_memWrite s _ _ (s.ea .iy o) (s.reg8 r),
    fun o n s => completes_memWrite s _ _ (s.ea .iy o) n,
    fun _ _ => ⟨rfl, rfl⟩⟩

/-- Settles O33: LD A,R reads R after the count for it, and LD R,A writes R after that count, so that PC alone shows
its fetch. -/
theorem loadsOfTheSpecialRegisters : Obligations.LoadsOfTheSpecialRegisters := by
  refine ⟨fun s => ?ldIA, fun s => ?ldRA, fun s => ?ldAI, fun s => ?ldAR⟩
  case ldIA =>
    exact completes_fetched (State.setI_changesOnly _ s.a) (by decide) fun hadv hframe => ⟨hadv, rfl, hframe⟩
  case ldRA =>
    have hframe := changesOnly_of_fetched (State.setR_changesOnly (s.begin 2 2) s.a)
    exact (completes_next _ _).mpr ⟨rfl, rfl, changesOnly_mono _ _ s _ hframe (by decide)⟩
  case ldAI =>
    exact completes_fetched (State.loadAWithFlags_changesOnly _ s.i) (by decide) fun hadv hframe =>
      ⟨hadv, rfl, flagsAre_ldAFlags s.i s.iff2 s.f, hframe⟩
  case ldAR =>
    exact completes_fetched (State.loadAWithFlags_changesOnly _ (s.begin 2 2).r) (by decide) fun hadv hframe =>
      ⟨hadv, rfl, flagsAre_ldAFlags (s.begin 2 2).r s.iff2 s.f, hframe⟩

end Sys2Proof.Proofs
end

