-- ==== Sys2Proof/Proofs/Load16.lean ====
section
/-! PROOF. The statements of 41_load16_exchange_stack.md. A load, a store, a push or an exchange is one operation after
the fetch. A pop and EX (SP) are two: the one that moves SP or writes the stack top, and the one that writes the
register; each is said once for every register, since the second leaves alone what the first did. -/

namespace Sys2Proof.Machine

/-! ## The stack (41_load16_exchange_stack.md R219) -/

/-- A push stores its word at the new SP. -/
theorem State.push16_storesWord (s : State) (w : Word) : storesWord (s.sp - 2) w s (s.push16 w) :=
  storesWord_of_writes s _ _ w (.inr rfl)

/-- A pop undoes a push where both bytes of the new top are ram. -/
theorem State.topOfStack_push16 (s : State) (w : Word) (hlo : s.mem.kindAt (s.sp - 2) = .ram)
    (hhi : s.mem.kindAt (s.sp - 1) = .ram) : (s.push16 w).topOfStack = w := by
  have hnext : s.sp - 2 + 1 = s.sp - 1 := by bv_omega
  exact s.memRead16_of_storesWord _ _ w (s.push16_storesWord w) hlo (hnext ▸ hhi)

/-- A stored word stays stored while no byte of memory changes. -/
theorem storesWord_of_same_bytes {s t u : State} {a w : Word} (h : storesWord a w s t) (hsame : Part.bytes.same t u) :
    storesWord a w s u := by
  obtain ⟨hlo, hhi, hrest⟩ := h
  exact ⟨(hsame a).trans hlo, (hsame (a + 1)).trans hhi, fun x h0 h1 => (hsame x).trans (hrest x h0 h1)⟩

/-! ## The exchanges of registers (41_load16_exchange_stack.md R214, R215, R216) -/

theorem State.exchangeAf_changesOnly (s : State) :
    changesOnly [.a, .f, .a', .f'] s { s with a := s.a', f := s.f', a' := s.a, f' := s.f } := by
  intro q hq
  cases q with
  | a | f | a' | f' => simp at hq
  | bytes => exact fun _ => rfl
  | _ => rfl

theorem State.swapBank_changesOnly (s : State) :
    changesOnly [.b, .c, .d, .e, .h, .l, .b', .c', .d', .e', .h', .l'] s s.swapBank := by
  intro q hq
  cases q with
  | b | c | d | e | h | l | b' | c' | d' | e' | h' | l' => simp at hq
  | bytes => exact fun _ => rfl
  | _ => rfl

theorem State.exchangeDeHl_changesOnly (s : State) :
    changesOnly [.d, .e, .h, .l] s { s with d := s.h, e := s.l, h := s.d, l := s.e } := by
  intro q hq
  cases q with
  | d | e | h | l => simp at hq
  | bytes => exact fun _ => rfl
  | _ => rfl

/-! ## One operation after the fetch -/

section
variable (s : State) (len fetches : Nat)

/-- A register pair is written. -/
theorem completes_setPair (q : Pair) (w : Word) : completes (.next ((s.begin len fetches).setPair q w)) fun t =>
    advanced len fetches s t ∧ t.pair q = w ∧ changesOnly ([.pc, .r] ++ partsOfPair q) s t :=
  completes_fetched (State.setPair_changesOnly _ q w) (by cases q <;> decide) fun hadv hframe =>
    ⟨hadv, State.setPair_pair _ q w, hframe⟩

/-- An index register is written. -/
theorem completes_setIndex (x : Index) (w : Word) : completes (.next ((s.begin len fetches).setIndex x w)) fun t =>
    advanced len fetches s t ∧ t.index x = w ∧ changesOnly [.pc, .r, partOfIndex x] s t :=
  completes_fetched (State.setIndex_changesOnly _ x w) (by cases x <;> decide) fun hadv hframe =>
    ⟨hadv, by simp, hframe⟩

/-- A word is stored, low byte first. -/
theorem completes_memWrite16 (a w : Word) : completes (.next ((s.begin len fetches).memWrite16 a w)) fun t =>
    advanced len fetches s t ∧ storesWord a w s t ∧ changesOnly [.pc, .r, .bytes] s t :=
  completes_fetched (State.memWrite16_changesOnly _ a w) (by decide) fun hadv hframe =>
    ⟨hadv, storesWord_of_writes s _ a w (.inl rfl), hframe⟩

/-- A word is pushed. -/
theorem completes_push16 (w : Word) : completes (.next ((s.begin len fetches).push16 w)) fun t =>
    advanced len fetches s t ∧ t.sp = s.sp - 2 ∧ storesWord (s.sp - 2) w s t ∧
    changesOnly [.pc, .r, .sp, .bytes] s t :=
  completes_fetched (State.push16_changesOnly _ w) (by decide) fun hadv hframe =>
    ⟨hadv, rfl, storesWord_of_writes s _ _ w (.inr rfl), hframe⟩

end

/-! ## A register written after the stack -/

section
variable {s u : State} {len fetches : Nat} {ps : List Part} {post : State → Prop}

/-- A pop: SP has moved past the word, and what is written then leaves SP alone. -/
theorem completes_popped (h : changesOnly ps (s.begin len fetches).dropWord u)
    (hps : ∀ p ∈ ps, p ≠ .pc ∧ p ≠ .r) (hsp : .sp ∉ ps)
    (hpost : advanced len fetches s u → u.sp = s.sp + 2 → changesOnly ([.pc, .r, .sp] ++ ps) s u → post u) :
    completes (.next u) post := by
  have hops := changesOnly_trans _ _ _ _ u (State.dropWord_changesOnly (s.begin len fetches)) h
  have hmoved : u.sp = s.sp + 2 := h .sp hsp
  exact completes_fetched hops (List.forall_mem_cons.mpr ⟨by decide, hps⟩) fun hadv hframe => hpost hadv hmoved hframe

/-- EX (SP): the word has taken the place of the stack top, and what is written then leaves memory alone. -/
theorem completes_exchanged {w : Word} (h : changesOnly ps ((s.begin len fetches).exchangeTop w) u)
    (hps : ∀ p ∈ ps, p ≠ .pc ∧ p ≠ .r) (hbytes : .bytes ∉ ps)
    (hpost : advanced len fetches s u → storesWord s.sp w s u → changesOnly ([.pc, .r, .bytes] ++ ps) s u → post u) :
    completes (.next u) post := by
  have hops := changesOnly_trans _ _ _ _ u (State.exchangeTop_changesOnly (s.begin len fetches) w) h
  have htop : storesWord s.sp w s ((s.begin len fetches).exchangeTop w) := storesWord_of_writes s _ _ w (.inr rfl)
  have hstores : storesWord s.sp w s u := storesWord_of_same_bytes htop (h .bytes hbytes)
  exact completes_fetched hops (List.forall_mem_cons.mpr ⟨by decide, hps⟩) fun hadv hframe =>
    hpost hadv hstores hframe

end

section
variable (s : State) (len fetches : Nat)

/-- A stack pair is popped. -/
theorem completes_popStackPair (q : StackPair) (w : Word) :
    completes (.next ((s.begin len fetches).dropWord.setStackPair q w)) fun t =>
      advanced len fetches s t ∧ t.stackPair q = w ∧ t.sp = s.sp + 2 ∧
      changesOnly ([.pc, .r, .sp] ++ partsOfStackPair q) s t :=
  completes_popped (State.setStackPair_changesOnly _ q w)
    (by cases q <;> decide) (by cases q <;> decide) fun hadv hsp hframe =>
    ⟨hadv, State.setStackPair_stackPair _ q w, hsp, hframe⟩

/-- AF is popped. -/
theorem completes_popAf (w : Word) : completes (.next ((s.begin len fetches).dropWord.setAf w)) fun t =>
    advanced len fetches s t ∧ join t.a t.f = w ∧ t.sp = s.sp + 2 ∧ changesOnly [.pc, .r, .sp, .a, .f] s t :=
  completes_popped (State.setAf_changesOnly _ w) (by decide) (by decide) fun hadv hsp hframe =>
    ⟨hadv, State.setAf_af _ w, hsp, hframe⟩

/-- An index register is popped. -/
theorem completes_popIndex (x : Index) (w : Word) :
    completes (.next ((s.begin len fetches).dropWord.setIndex x w)) fun t =>
      advanced len fetches s t ∧ t.index x = w ∧ t.sp = s.sp + 2 ∧ changesOnly [.pc, .r, .sp, partOfIndex x] s t :=
  completes_popped (State.setIndex_changesOnly _ x w)
    (by cases x <;> decide) (by cases x <;> decide) fun hadv hsp hframe =>
    ⟨hadv, by simp, hsp, hframe⟩

/-- An index register changes places with the stack top. -/
theorem completes_exchangeIndex (x : Index) (w v : Word) :
    completes (.next (((s.begin len fetches).exchangeTop w).setIndex x v)) fun t =>
      advanced len fetches s t ∧ t.index x = v ∧ storesWord s.sp w s t ∧
      changesOnly [.pc, .r, partOfIndex x, .bytes] s t :=
  completes_exchanged (State.setIndex_changesOnly _ x v)
    (by cases x <;> decide) (by cases x <;> decide) fun hadv hstores hframe =>
    ⟨hadv, by simp, hstores, changesOnly_mono _ _ s _ hframe (by cases x <;> decide)⟩

end

end Sys2Proof.Machine

namespace Sys2Proof.Proofs
open Sys2Proof Sys2Proof.Machine

/-- Settles O30: a push is two writes below SP, a pop reads them back where they are ram. -/
theorem stackPrimitives : Obligations.StackPrimitives := fun s w =>
  ⟨rfl, s.push16_storesWord w, s.push16_changesOnly w, rfl, s.toNat_memRead16 s.sp, rfl, s.dropWord_changesOnly,
    fun hlo hhi => ⟨s.topOfStack_push16 w hlo hhi, BitVec.sub_add_cancel s.sp 2⟩⟩

/-- Settles O34: each is one pair or index register written after the fetch. -/
theorem loadsOfAPair : Obligations.LoadsOfAPair :=
  ⟨fun _ q nn s => completes_setPair s _ _ q nn,
    fun nn s => completes_setPair s _ _ .hl (s.memRead16 nn),
    fun q nn s => completes_setPair s _ _ q (s.memRead16 nn),
    fun s => completes_setPair s _ _ .sp s.hl,
    fun nn s => completes_setIndex s _ _ .ix nn,
    fun nn s => completes_setIndex s _ _ .ix (s.memRead16 nn),
    fun s => completes_setPair s _ _ .sp s.ix,
    fun nn s => completes_setIndex s _ _ .iy nn,
    fun nn s => completes_setIndex s _ _ .iy (s.memRead16 nn),
    fun s => completes_setPair s _ _ .sp s.iy⟩

/-- Settles O35: each is one word stored after the fetch. -/
theorem storesOfAWord : Obligations.StoresOfAWord :=
  ⟨fun nn s => completes_memWrite16 s _ _ nn s.hl,
    fun q nn s => completes_memWrite16 s _ _ nn (s.pair q),
    fun nn s => completes_memWrite16 s _ _ nn s.ix,
    fun nn s => completes_memWrite16 s _ _ nn s.iy⟩

/-- Settles O36: each register's new value is its partner's old one, which holds by computation. -/
theorem exchangesOfRegisters : Obligations.ExchangesOfRegisters :=
  ⟨fun _ _ => completes_fetched (State.exchangeAf_changesOnly _) (by decide) fun hadv hframe =>
      ⟨hadv, rfl, rfl, rfl, rfl, hframe⟩,
    fun _ _ => completes_fetched (State.swapBank_changesOnly _) (by decide) fun hadv hframe =>
      ⟨hadv, rfl, rfl, rfl, rfl, rfl, rfl, rfl, rfl, rfl, rfl, rfl, rfl, hframe⟩,
    fun _ _ => completes_fetched (State.exchangeDeHl_changesOnly _) (by decide) fun hadv hframe =>
      ⟨hadv, rfl, rfl, hframe⟩⟩

/-- Settles O37: the old top is read before the register takes its place there. -/
theorem exchangesWithTheStackTop : Obligations.ExchangesWithTheStackTop := by
  refine ⟨fun s => ?hl, fun s => ?ix, fun s => ?iy⟩
  case hl =>
    exact completes_exchanged (State.setHl_changesOnly _ s.topOfStack) (by decide) (by decide)
      fun hadv hstores hframe =>
        ⟨hadv, State.setHl_hl _ s.topOfStack, hstores, changesOnly_mono _ _ s _ hframe (by decide)⟩
  case ix => exact completes_exchangeIndex s _ _ .ix s.ix s.topOfStack
  case iy => exact completes_exchangeIndex s _ _ .iy s.iy s.topOfStack

/-- Settles O38: a push is one operation after the fetch, a pop moves SP and then writes the register. -/
theorem pushesAndPops : Obligations.PushesAndPops :=
  ⟨fun _ q s => completes_push16 s _ _ (s.stackPair q),
    fun _ s => completes_push16 s _ _ s.af,
    fun s => completes_push16 s _ _ s.ix,
    fun s => completes_push16 s _ _ s.iy,
    fun _ q s => completes_popStackPair s _ _ q s.topOfStack,
    fun _ s => completes_popAf s _ _ s.topOfStack,
    fun s => completes_popIndex s _ _ .ix s.topOfStack,
    fun s => completes_popIndex s _ _ .iy s.topOfStack⟩

end Sys2Proof.Proofs
end

