-- ==== Sys2Proof/Proofs/FlagValues.lean ====
section
/-! PROOF. What the flag computations of the two widths have in common: the eight flags of a byte made of eight flags,
signed overflow read as integers (10_state.md R40, D9) and parity as a count of one bits (00_scope.md R12). -/

namespace Sys2Proof.Machine

/-- A byte made of eight flags has these flags. -/
theorem flagsAre_mkFlags (sf zf f5 hf f3 pv nf cf : Bool) :
    flagsAre (mkFlags sf zf f5 hf f3 pv nf cf) sf zf f5 hf f3 pv nf cf := by
  simp [flagsAre]

/-! ## Signed overflow -/

/-- A sum below twice the modulus wraps at most once. -/
theorem mod_cases {x m : Nat} (h : x < 2 * m) : (x < m ∧ x % m = x) ∨ (m ≤ x ∧ x % m + m = x) := by
  obtain hlt | hge := Nat.lt_or_ge x m
  · exact .inl ⟨hlt, Nat.mod_eq_of_lt hlt⟩
  · have hrest : x % m = x - m := by rw [Nat.mod_eq_sub_mod hge, Nat.mod_eq_of_lt (by omega)]
    exact .inr ⟨hge, by omega⟩

section
variable {n : Nat}

/-- The sign bit says whether a word is in the upper half. -/
theorem getLsbD_sign_eq (x : BitVec (n + 1)) : x.getLsbD n = decide (2 ^ n ≤ x.toNat) :=
  x.msb_eq_getLsbD_last.symm.trans x.msb_eq_decide

/-- In the upper half the signed value is one modulus less. -/
theorem toInt_cases (x : BitVec (n + 1)) :
    (x.toNat < 2 ^ n ∧ x.toInt = x.toNat) ∨
    (2 ^ n ≤ x.toNat ∧ x.toNat < 2 * 2 ^ n ∧ x.toInt = x.toNat - 2 * 2 ^ n) := by
  have hlt := x.isLt
  have hint := x.toInt_eq_toNat_cond
  rw [Nat.pow_succ'] at hlt hint
  push_cast at hint
  omega

variable (a b r : BitVec (n + 1)) (cin : Bool)

/-- A sum overflows where the operands have one sign and the result the other. -/
theorem overflow_of_sum (hr : (a.toNat + b.toNat + cin.toNat) % 2 ^ (n + 1) = r.toNat) :
    (a.getLsbD n == b.getLsbD n && r.getLsbD n != a.getLsbD n) =
      decide (a.toInt + b.toInt + cin.toNat < -2 ^ n ∨ 2 ^ n - 1 < a.toInt + b.toInt + cin.toNat) := by
  have hcin := cin.toNat_le
  have hcast : ((2 ^ n : Nat) : Int) = 2 ^ n := by push_cast; rfl
  have ha := toInt_cases a
  have hb := toInt_cases b
  rw [Nat.pow_succ'] at hr
  have hwrap := mod_cases (x := a.toNat + b.toNat + cin.toNat) (m := 2 * 2 ^ n) (by omega)
  rw [Bool.eq_iff_iff]
  simp only [getLsbD_sign_eq, Bool.and_eq_true, beq_iff_eq, bne_iff_ne, ne_eq, decide_eq_decide, decide_eq_true_iff]
  omega

/-- A difference overflows where the operands have different signs and the result is not of the first one's. -/
theorem overflow_of_difference (hr : (r.toNat + b.toNat + cin.toNat) % 2 ^ (n + 1) = a.toNat) :
    (a.getLsbD n != b.getLsbD n && r.getLsbD n != a.getLsbD n) =
      decide (a.toInt - b.toInt - cin.toNat < -2 ^ n ∨ 2 ^ n - 1 < a.toInt - b.toInt - cin.toNat) := by
  have hcin := cin.toNat_le
  have hcast : ((2 ^ n : Nat) : Int) = 2 ^ n := by push_cast; rfl
  have ha := toInt_cases a
  have hb := toInt_cases b
  have hsum := toInt_cases r
  rw [Nat.pow_succ'] at hr
  have hwrap := mod_cases (x := r.toNat + b.toNat + cin.toNat) (m := 2 * 2 ^ n) (by omega)
  rw [Bool.eq_iff_iff]
  simp only [getLsbD_sign_eq, Bool.and_eq_true, bne_iff_ne, ne_eq, decide_eq_decide, decide_eq_true_iff]
  omega

end

/-! ## Parity -/

/-- The exclusive or of bits says whether an odd number of them is one. -/
theorem xor_eq_odd_count (p : Nat → Bool) (ks : List Nat) :
    ks.foldr (fun k t => p k ^^ t) false = decide ((ks.filter p).length % 2 = 1) := by
  induction ks with
  | nil => rfl
  | cons k ks ih =>
    cases h : p k with
    | false => simp [h, ih]
    | true =>
      simp only [List.foldr_cons, List.filter_cons_of_pos h, List.length_cons, h, ih, Bool.true_xor, ← decide_not,
        decide_eq_decide]
      omega

/-- `parity` counts the one bits of a byte. -/
theorem parity_eq (v : Byte) : parity v = decide (onesOf v % 2 = 0) := by
  have hodd : (!parity v) = decide (onesOf v % 2 = 1) := by
    rw [onesOf, ← xor_eq_odd_count v.getLsbD]
    simp [parity, List.range_succ]
  rw [← Bool.not_inj_iff, hodd, ← decide_not, decide_eq_decide]
  omega

end Sys2Proof.Machine
end

