-- ==== Sys2Proof/Proofs/Alu8.lean ====
section
/-! PROOF. The operations of 42_alu8.md on bytes, read as arithmetic on numbers: what each answers, and its flags
(R240 to R247, R306). -/

namespace Sys2Proof.Machine

/-! ## Addition and subtraction (42_alu8.md R240, R241, R247) -/

section
variable (a b : Byte) (cin : Bool)

theorem toNat_add8 : (add8 a b cin).1.toNat = (a.toNat + b.toNat + cin.toNat) % 256 :=
  BitVec.toNat_ofNat _ 8

theorem flagsAre_add8 :
    flagsAre (add8 a b cin).2 ((add8 a b cin).1.getLsbD 7) (decide ((add8 a b cin).1 = 0))
      ((add8 a b cin).1.getLsbD 5) (decide (a.toNat % 16 + b.toNat % 16 + cin.toNat > 15))
      ((add8 a b cin).1.getLsbD 3)
      (decide (a.toInt + b.toInt + cin.toNat < -128 ∨ 127 < a.toInt + b.toInt + cin.toNat)) false
      (decide (a.toNat + b.toNat + cin.toNat > 255)) := by
  have hpv := overflow_of_sum a b (add8 a b cin).1 cin (toNat_add8 a b cin).symm
  exact hpv ▸ flagsAre_mkFlags _ _ _ _ _ _ _ _

/-- Adding back what was subtracted gives the first operand. -/
theorem toNat_sub8 : ((sub8 a b cin).1.toNat + b.toNat + cin.toNat) % 256 = a.toNat := by
  have ha := a.isLt
  have hdiff : ((sub8 a b cin).1.toNat : Int) = (a.toNat - b.toNat - cin.toNat) % 256 := by
    simp [sub8, BitVec.toNat_ofInt]; omega
  omega

theorem flagsAre_sub8 :
    flagsAre (sub8 a b cin).2 ((sub8 a b cin).1.getLsbD 7) (decide ((sub8 a b cin).1 = 0))
      ((sub8 a b cin).1.getLsbD 5) (decide (a.toNat % 16 < b.toNat % 16 + cin.toNat)) ((sub8 a b cin).1.getLsbD 3)
      (decide (a.toInt - b.toInt - cin.toNat < -128 ∨ 127 < a.toInt - b.toInt - cin.toNat)) true
      (decide (a.toNat < b.toNat + cin.toNat)) := by
  have hpv := overflow_of_difference a b (sub8 a b cin).1 cin (toNat_sub8 a b cin)
  have hborrow : decide ((a.toNat : Int) - b.toNat - cin.toNat < 0) = decide (a.toNat < b.toNat + cin.toNat) :=
    decide_eq_decide.mpr (by omega)
  exact hpv ▸ hborrow ▸ flagsAre_mkFlags _ _ _ _ _ _ _ _

/-- The flags of a comparison are those of the difference but for flags 5 and 3, which are the operand's (D8). -/
theorem flagsAre_cp8 :
    flagsAre (cp8 a b) (flagS (sub8 a b false).2) (flagZ (sub8 a b false).2) (b.getLsbD 5)
      (flagH (sub8 a b false).2) (b.getLsbD 3) (flagPV (sub8 a b false).2) true (flagC (sub8 a b false).2) := by
  have hn : flagN (sub8 a b false).2 = true := flagN_mkFlags _ _ _ _ _ _ _ _
  exact hn ▸ flagsAre_mkFlags _ _ _ _ _ _ _ _

end

/-! ## Logic (42_alu8.md R242 to R244) -/

theorem flagsAre_parityFlags (res : Byte) (hf cf : Bool) :
    flagsAre (parityFlags res hf cf) (res.getLsbD 7) (decide (res = 0)) (res.getLsbD 5) hf (res.getLsbD 3)
      (decide (onesOf res % 2 = 0)) false cf :=
  parity_eq res ▸ flagsAre_mkFlags _ _ _ _ _ _ _ _

/-! ## Steps by one (42_alu8.md R245, R246) -/

section
variable (v f : Byte)

theorem inc8_fst : (inc8 v f).1 = (add8 v 1 false).1 :=
  BitVec.eq_of_toNat_eq (toNat_add8 v 1 false).symm

theorem dec8_fst : (dec8 v f).1 = (sub8 v 1 false).1 := by
  have hback := toNat_sub8 v 1 false
  have hdec : (dec8 v f).1 = v - 1 := rfl
  rw [hdec]
  bv_omega

/-- The greatest signed byte is the only one whose successor overflows. -/
theorem flagPV_add8_one : flagPV (add8 v 1 false).2 = decide (v = 0x7F) := by
  obtain ⟨-, -, -, -, -, hpv, -⟩ := flagsAre_add8 v 1 false
  have htop : v = 0x7F ↔ v.toInt = 127 := BitVec.toInt_inj.symm
  have hrange := toInt_cases v
  have hone : (1 : Byte).toInt = 1 := rfl
  rw [hpv, decide_eq_decide, htop, hone, Bool.toNat_false]
  omega

/-- The least signed byte is the only one whose predecessor overflows. -/
theorem flagPV_sub8_one : flagPV (sub8 v 1 false).2 = decide (v = 0x80) := by
  obtain ⟨-, -, -, -, -, hpv, -⟩ := flagsAre_sub8 v 1 false
  have hleast : v = 0x80 ↔ v.toInt = -128 := BitVec.toInt_inj.symm
  have hrange := toInt_cases v
  have hone : (1 : Byte).toInt = 1 := rfl
  rw [hpv, decide_eq_decide, hleast, hone, Bool.toNat_false]
  omega

theorem flagsAre_inc8 :
    flagsAre (inc8 v f).2 (flagS (add8 v 1 false).2) (flagZ (add8 v 1 false).2) (flag5 (add8 v 1 false).2)
      (flagH (add8 v 1 false).2) (flag3 (add8 v 1 false).2) (decide (v = 0x7F)) false (flagC f) := by
  obtain ⟨hs, hz, h5, hh, h3, -⟩ := flagsAre_add8 v 1 false
  have hcarry : decide (v.toNat % 16 = 15) = flagH (add8 v 1 false).2 := by
    rw [hh, decide_eq_decide, Bool.toNat_false]
    bv_omega
  rw [hs, hz, h5, h3, ← hcarry, ← inc8_fst v f]
  exact flagsAre_mkFlags _ _ _ _ _ _ _ _

theorem flagsAre_dec8 :
    flagsAre (dec8 v f).2 (flagS (sub8 v 1 false).2) (flagZ (sub8 v 1 false).2) (flag5 (sub8 v 1 false).2)
      (flagH (sub8 v 1 false).2) (flag3 (sub8 v 1 false).2) (decide (v = 0x80)) true (flagC f) := by
  obtain ⟨hs, hz, h5, hh, h3, -⟩ := flagsAre_sub8 v 1 false
  have hborrow : decide (v.toNat % 16 = 0) = flagH (sub8 v 1 false).2 := by
    rw [hh, decide_eq_decide, Bool.toNat_false]
    bv_omega
  rw [hs, hz, h5, h3, ← hborrow, ← dec8_fst v f]
  exact flagsAre_mkFlags _ _ _ _ _ _ _ _

end

/-! ## Decimal adjustment (42_alu8.md R306) -/

/-- Two decimal digits in a byte. -/
def packed (n : Nat) : Byte := BitVec.ofNat 8 (n / 10 * 16 + n % 10)

theorem toNat_packed {n : Nat} (h : n < 100) : (packed n).toNat = n / 10 * 16 + n % 10 := by
  rw [packed, BitVec.toNat_ofNat, Nat.mod_eq_of_lt (by omega)]

/-- The two parts of the correction have no bit in common, so that together they are their sum. -/
theorem toNat_daaCorrection (a f : Byte) :
    (daaCorrection a f).toNat = (if flagH f ∨ a.toNat % 16 > 9 then 6 else 0) +
      (if flagC f ∨ a.toNat > 0x99 then 0x60 else 0) := by
  unfold daaCorrection
  split <;> split <;> rfl

/-- After an addition DAA adds the correction, after a subtraction it subtracts it. -/
theorem daa_fst (a f : Byte) : (daa a f).1 = if flagN f then a - daaCorrection a f else a + daaCorrection a f := rfl

/-- DAA sets C where its test for 0x60 holds. -/
theorem flagC_daa (a f : Byte) : flagC (daa a f).2 = true ↔ flagC f = true ∨ a.toNat > 0x99 := by
  simp [daa]

/-- The sum of two digit pairs, as ADD leaves it in A and F. -/
def decimalSum (x y : Nat) : Byte × Byte := add8 (packed x) (packed y) false

/-- The difference of two digit pairs, as SUB leaves it in A and F. -/
def decimalDifference (x y : Nat) : Byte × Byte := sub8 (packed x) (packed y) false

section
variable {x y : Nat} (hx : x < 100) (hy : y < 100)
include hx hy

/-! ### After an addition -/

theorem toNat_decimalSum :
    (decimalSum x y).1.toNat = (x / 10 * 16 + x % 10 + (y / 10 * 16 + y % 10)) % 256 := by
  rw [decimalSum, toNat_add8, toNat_packed hx, toNat_packed hy, Bool.toNat_false, Nat.add_zero]

/-- H says that the low digits sum past 15, C that the bytes sum past 255. -/
theorem decimalSum_carries :
    (flagH (decimalSum x y).2 = true ↔ x % 10 + y % 10 > 15) ∧
    (flagC (decimalSum x y).2 = true ↔ x / 10 * 16 + x % 10 + (y / 10 * 16 + y % 10) > 255) := by
  obtain ⟨-, -, -, hh, -, -, -, hc⟩ := flagsAre_add8 (packed x) (packed y) false
  rw [decimalSum, hh, hc, decide_eq_true_iff, decide_eq_true_iff, toNat_packed hx, toNat_packed hy, Bool.toNat_false]
  omega

/-- DAA's test for 0x06 says that the low digits carry. -/
theorem decimalSum_low_test :
    (flagH (decimalSum x y).2 = true ∨ (decimalSum x y).1.toNat % 16 > 9) ↔ x % 10 + y % 10 > 9 := by
  obtain ⟨hh, -⟩ := decimalSum_carries hx hy
  rw [hh, toNat_decimalSum hx hy]
  omega

/-- DAA's test for 0x60 says that the sum has three digits: below 100 the high digits sum to 9 only where the low ones
do not carry. -/
theorem decimalSum_high_test :
    (flagC (decimalSum x y).2 = true ∨ (decimalSum x y).1.toNat > 0x99) ↔ x + y ≥ 100 := by
  obtain ⟨-, hc⟩ := decimalSum_carries hx hy
  have hwrap := mod_cases (x := x / 10 * 16 + x % 10 + (y / 10 * 16 + y % 10)) (m := 256) (by omega)
  rw [hc, toNat_decimalSum hx hy]
  omega

theorem daa_decimalSum_fst : (daa (decimalSum x y).1 (decimalSum x y).2).1 = packed ((x + y) % 100) := by
  have hn : flagN (decimalSum x y).2 = false := flagN_mkFlags _ _ _ _ _ _ _ _
  have hcorrection : (daaCorrection (decimalSum x y).1 (decimalSum x y).2).toNat =
      (if x % 10 + y % 10 > 9 then 6 else 0) + (if x + y ≥ 100 then 0x60 else 0) := by
    simp only [toNat_daaCorrection, decimalSum_low_test hx hy, decimalSum_high_test hx hy]
  rw [daa_fst, hn, if_neg Bool.false_ne_true]
  apply BitVec.eq_of_toNat_eq
  rw [BitVec.toNat_add, hcorrection, toNat_decimalSum hx hy, toNat_packed (by omega)]
  split <;> split <;> omega

theorem flagC_daa_decimalSum : flagC (daa (decimalSum x y).1 (decimalSum x y).2).2 = decide (x + y ≥ 100) := by
  rw [Bool.eq_iff_iff, flagC_daa, decimalSum_high_test hx hy, decide_eq_true_iff]

/-! ### After a subtraction -/

theorem decimalDifference_add_back :
    ((decimalDifference x y).1.toNat + (y / 10 * 16 + y % 10)) % 256 = x / 10 * 16 + x % 10 := by
  have hback := toNat_sub8 (packed x) (packed y) false
  rwa [toNat_packed hx, toNat_packed hy, Bool.toNat_false, Nat.add_zero] at hback

/-- H says that the low digits need a borrow, C that the numbers do. -/
theorem decimalDifference_borrows :
    (flagH (decimalDifference x y).2 = true ↔ x % 10 < y % 10) ∧
    (flagC (decimalDifference x y).2 = true ↔ x < y) := by
  obtain ⟨-, -, -, hh, -, -, -, hc⟩ := flagsAre_sub8 (packed x) (packed y) false
  rw [decimalDifference, hh, hc, decide_eq_true_iff, decide_eq_true_iff, toNat_packed hx, toNat_packed hy,
    Bool.toNat_false]
  omega

/-- DAA's test for 0x06 says that the low digits borrow: where they do not, their difference is a digit. -/
theorem decimalDifference_low_test :
    (flagH (decimalDifference x y).2 = true ∨ (decimalDifference x y).1.toNat % 16 > 9) ↔ x % 10 < y % 10 := by
  obtain ⟨hh, -⟩ := decimalDifference_borrows hx hy
  have hback := decimalDifference_add_back hx hy
  rw [hh]
  omega

/-- DAA's test for 0x60 says that the difference is negative: where it is not, the byte is at most 0x99. -/
theorem decimalDifference_high_test :
    (flagC (decimalDifference x y).2 = true ∨ (decimalDifference x y).1.toNat > 0x99) ↔ x < y := by
  obtain ⟨-, hc⟩ := decimalDifference_borrows hx hy
  have hback := decimalDifference_add_back hx hy
  rw [hc]
  omega

theorem daa_decimalDifference_fst :
    (daa (decimalDifference x y).1 (decimalDifference x y).2).1 = packed ((x + 100 - y) % 100) := by
  have hn : flagN (decimalDifference x y).2 = true := flagN_mkFlags _ _ _ _ _ _ _ _
  have hcorrection : (daaCorrection (decimalDifference x y).1 (decimalDifference x y).2).toNat =
      (if x % 10 < y % 10 then 6 else 0) + (if x < y then 0x60 else 0) := by
    simp only [toNat_daaCorrection, decimalDifference_low_test hx hy, decimalDifference_high_test hx hy]
  have hback := decimalDifference_add_back hx hy
  rw [daa_fst, hn, if_pos rfl]
  apply BitVec.eq_of_toNat_eq
  rw [BitVec.toNat_sub, hcorrection, toNat_packed (by omega)]
  split <;> split <;> omega

theorem flagC_daa_decimalDifference :
    flagC (daa (decimalDifference x y).1 (decimalDifference x y).2).2 = decide (x < y) := by
  rw [Bool.eq_iff_iff, flagC_daa, decimalDifference_high_test hx hy, decide_eq_true_iff]

end

end Sys2Proof.Machine

namespace Sys2Proof.Proofs
open Sys2Proof Sys2Proof.Machine

/-- Settles O21: the carries and the overflow of the sum as numbers. -/
theorem additionAndItsFlags : Obligations.AdditionAndItsFlags := fun a b cin =>
  ⟨toNat_add8 a b cin, flagsAre_add8 a b cin⟩

/-- Settles O22: the difference is what the second operand and the borrow add back to the first. -/
theorem subtractionAndItsFlags : Obligations.SubtractionAndItsFlags := fun a b cin =>
  ⟨toNat_sub8 a b cin, flagsAre_sub8 a b cin, flagsAre_cp8 a b⟩

/-- Settles O23: the three set their flags by one rule, whose P/V counts the one bits of the result. -/
theorem logicalOperationsAndTheirFlags : Obligations.LogicalOperationsAndTheirFlags := fun a b =>
  ⟨⟨rfl, flagsAre_parityFlags (a &&& b) true false⟩, ⟨rfl, flagsAre_parityFlags (a ||| b) false false⟩,
    ⟨rfl, flagsAre_parityFlags (a ^^^ b) false false⟩⟩

/-- Settles O24: each is the addition or subtraction of 1, whose own carry is left out. -/
theorem stepByOneKeepsCarry : Obligations.StepByOneKeepsCarry := fun v f =>
  ⟨inc8_fst v f, flagsAre_inc8 v f, flagPV_add8_one v, dec8_fst v f, flagsAre_dec8 v f, flagPV_sub8_one v⟩

/-- Settles O25: the two tests of DAA are those for a carry, or a borrow, out of a decimal digit. -/
theorem decimalAdjustGivesDecimalDigits : Obligations.DecimalAdjustGivesDecimalDigits := fun _ _ hx hy =>
  ⟨daa_decimalSum_fst hx hy, flagC_daa_decimalSum hx hy, daa_decimalDifference_fst hx hy,
    flagC_daa_decimalDifference hx hy⟩

end Sys2Proof.Proofs
end

