-- ==== Sys2Proof/Proofs/Alu8Instr.lean ====
section
/-! PROOF. The instructions of 42_alu8.md. Each is one operation after the fetch: it writes A and F, or F alone, or
steps one byte by one. Its operands are read after the fetch as they were before it, which holds by computation. -/

namespace Sys2Proof.Machine

/-! ## Complement (42_alu8.md R303) -/

theorem flagsAre_cplFlags (a f : Byte) :
    flagsAre (cplFlags (a ^^^ 0xFF) f) (flagS f) (flagZ f) ((~~~a).getLsbD 5) true ((~~~a).getLsbD 3) (flagPV f) true
      (flagC f) :=
  (BitVec.xor_allOnes (x := a)) ▸ flagsAre_mkFlags _ _ _ _ _ _ _ _

/-! ## One operation after the fetch -/

section
variable (s : State)

theorem State.stepReg8_changesOnly (g : Byte → Byte → Byte × Byte) (r : Reg8) :
    changesOnly [.f, partOfReg8 r] s (s.stepReg8 g r) :=
  changesOnly_mono _ _ s _
    (changesOnly_trans _ _ s _ _ (State.setReg8_changesOnly s r _) (State.setF_changesOnly _ _)) (by simp)

theorem State.stepHalf_changesOnly (g : Byte → Byte → Byte × Byte) (x : Index) (y : Half) :
    changesOnly [.f, partOfIndex x] s (s.stepHalf g x y) :=
  changesOnly_mono _ _ s _
    (changesOnly_trans _ _ s _ _ (State.setHalf_changesOnly s x y _) (State.setF_changesOnly _ _)) (by simp)

/-- The write of F after that of the register leaves the register as it is. -/
theorem State.stepReg8_reg8 (g : Byte → Byte → Byte × Byte) (r : Reg8) :
    (s.stepReg8 g r).reg8 r = (g (s.reg8 r) s.f).1 := by
  cases r <;> rfl

theorem State.stepHalf_half (g : Byte → Byte → Byte × Byte) (x : Index) (y z : Half) :
    (s.stepHalf g x y).half x z = if z = y then (g (s.half x y) s.f).1 else s.half x z := by
  rw [← State.setHalf_half]
  cases x <;> rfl

variable (len fetches : Nat)

/-- A and F are written. -/
theorem completes_setAF (vf : Byte × Byte) : completes (.next ((s.begin len fetches).setAF vf)) fun t =>
    advanced len fetches s t ∧ (t.a, t.f) = vf ∧ changesOnly [.pc, .r, .a, .f] s t :=
  completes_fetched (State.setAF_changesOnly _ vf) (by decide) fun hadv hframe => ⟨hadv, rfl, hframe⟩

/-- F alone is written. -/
theorem completes_setF (f : Byte) : completes (.next { s.begin len fetches with f := f }) fun t =>
    advanced len fetches s t ∧ t.f = f ∧ changesOnly [.pc, .r, .f] s t :=
  completes_fetched (State.setF_changesOnly _ f) (by decide) fun hadv hframe => ⟨hadv, rfl, hframe⟩

variable (g : Byte → Byte → Byte × Byte)

/-- A register is stepped. -/
theorem completes_stepReg8 (r : Reg8) : completes (.next ((s.begin len fetches).stepReg8 g r)) fun t =>
    advanced len fetches s t ∧ (t.reg8 r, t.f) = g (s.reg8 r) s.f ∧ changesOnly [.pc, .r, .f, partOfReg8 r] s t :=
  completes_fetched (State.stepReg8_changesOnly _ g r) (by cases r <;> decide) fun hadv hframe =>
    ⟨hadv, Prod.ext (State.stepReg8_reg8 _ g r) rfl, hframe⟩

/-- Half an index register is stepped: the other half is kept. -/
theorem completes_stepHalf (x : Index) (y : Half) : completes (.next ((s.begin len fetches).stepHalf g x y)) fun t =>
    advanced len fetches s t ∧ (t.half x y, t.f) = g (s.half x y) s.f ∧ (∀ z, z ≠ y → t.half x z = s.half x z) ∧
    changesOnly [.pc, .r, .f, partOfIndex x] s t :=
  completes_fetched (State.stepHalf_changesOnly _ g x y) (by cases x <;> decide) fun hadv hframe =>
    ⟨hadv, Prod.ext (by simp [State.stepHalf_half]) rfl, fun z hz => by simp [State.stepHalf_half, hz], hframe⟩

/-- A byte of memory is stepped: F is written also where the store changes nothing. -/
theorem completes_stepMem (a : Word) : completes (.next ((s.begin len fetches).stepMem g a)) fun t =>
    advanced len fetches s t ∧ storesByte a (g (s.memRead a) s.f).1 s t ∧ t.f = (g (s.memRead a) s.f).2 ∧
    changesOnly [.pc, .r, .f, .bytes] s t :=
  completes_fetched (State.stepMem_changesOnly _ g a) (by decide) fun hadv hframe =>
    ⟨hadv, storesByte_of_write s _ a _ rfl, rfl, hframe⟩

end

end Sys2Proof.Machine

namespace Sys2Proof.Proofs
open Sys2Proof Sys2Proof.Machine

/-- Settles O39: each is one write of A and F after the fetch. -/
theorem accumulatorArithmetic : Obligations.AccumulatorArithmetic :=
  ⟨fun _ r s => completes_setAF s _ _ (add8 s.a (s.reg8 r) false),
    fun _ n s => completes_setAF s _ _ (add8 s.a n false),
    fun s => completes_setAF s _ _ (add8 s.a (s.memRead s.hl) false),
    fun x s => completes_setAF s _ _ (add8 s.a (s.half .ix x) false),
    fun x s => completes_setAF s _ _ (add8 s.a (s.half .iy x) false),
    fun o s => completes_setAF s _ _ (add8 s.a (s.memRead (s.ea .ix o)) false),
    fun o s => completes_setAF s _ _ (add8 s.a (s.memRead (s.ea .iy o)) false),
    fun _ r s => completes_setAF s _ _ (add8 s.a (s.reg8 r) (flagC s.f)),
    fun _ n s => completes_setAF s _ _ (add8 s.a n (flagC s.f)),
    fun s => completes_setAF s _ _ (add8 s.a (s.memRead s.hl) (flagC s.f)),
    fun x s => completes_setAF s _ _ (add8 s.a (s.half .ix x) (flagC s.f)),
    fun x s => completes_setAF s _ _ (add8 s.a (s.half .iy x) (flagC s.f)),
    fun o s => completes_setAF s _ _ (add8 s.a (s.memRead (s.ea .ix o)) (flagC s.f)),
    fun o s => completes_setAF s _ _ (add8 s.a (s.memRead (s.ea .iy o)) (flagC s.f)),
    fun _ r s => completes_setAF s _ _ (sub8 s.a (s.reg8 r) false),
    fun _ n s => completes_setAF s _ _ (sub8 s.a n false),
    fun s => completes_setAF s _ _ (sub8 s.a (s.memRead s.hl) false),
    fun x s => completes_setAF s _ _ (sub8 s.a (s.half .ix x) false),
    fun x s => completes_setAF s _ _ (sub8 s.a (s.half .iy x) false),
    fun o s => completes_setAF s _ _ (sub8 s.a (s.memRead (s.ea .ix o)) false),
    fun o s => completes_setAF s _ _ (sub8 s.a (s.memRead (s.ea .iy o)) false),
    fun _ r s => completes_setAF s _ _ (sub8 s.a (s.reg8 r) (flagC s.f)),
    fun _ n s => completes_setAF s _ _ (sub8 s.a n (flagC s.f)),
    fun s => completes_setAF s _ _ (sub8 s.a (s.memRead s.hl) (flagC s.f)),
    fun x s => completes_setAF s _ _ (sub8 s.a (s.half .ix x) (flagC s.f)),
    fun x s => completes_setAF s _ _ (sub8 s.a (s.half .iy x) (flagC s.f)),
    fun o s => completes_setAF s _ _ (sub8 s.a (s.memRead (s.ea .ix o)) (flagC s.f)),
    fun o s => completes_setAF s _ _ (sub8 s.a (s.memRead (s.ea .iy o)) (flagC s.f))⟩

/-- Settles O40: AND, OR and XOR are one write of A and F after the fetch, CP one write of F. -/
theorem accumulatorLogicAndCompare : Obligations.AccumulatorLogicAndCompare :=
  ⟨fun _ r s => completes_setAF s _ _ (and8 s.a (s.reg8 r)),
    fun _ n s => completes_setAF s _ _ (and8 s.a n),
    fun s => completes_setAF s _ _ (and8 s.a (s.memRead s.hl)),
    fun x s => completes_setAF s _ _ (and8 s.a (s.half .ix x)),
    fun x s => completes_setAF s _ _ (and8 s.a (s.half .iy x)),
    fun o s => completes_setAF s _ _ (and8 s.a (s.memRead (s.ea .ix o))),
    fun o s => completes_setAF s _ _ (and8 s.a (s.memRead (s.ea .iy o))),
    fun _ r s => completes_setAF s _ _ (or8 s.a (s.reg8 r)),
    fun _ n s => completes_setAF s _ _ (or8 s.a n),
    fun s => completes_setAF s _ _ (or8 s.a (s.memRead s.hl)),
    fun x s => completes_setAF s _ _ (or8 s.a (s.half .ix x)),
    fun x s => completes_setAF s _ _ (or8 s.a (s.half .iy x)),
    fun o s => completes_setAF s _ _ (or8 s.a (s.memRead (s.ea .ix o))),
    fun o s => completes_setAF s _ _ (or8 s.a (s.memRead (s.ea .iy o))),
    fun _ r s => completes_setAF s _ _ (xor8 s.a (s.reg8 r)),
    fun _ n s => completes_setAF s _ _ (xor8 s.a n),
    fun s => completes_setAF s _ _ (xor8 s.a (s.memRead s.hl)),
    fun x s => completes_setAF s _ _ (xor8 s.a (s.half .ix x)),
    fun x s => completes_setAF s _ _ (xor8 s.a (s.half .iy x)),
    fun o s => completes_setAF s _ _ (xor8 s.a (s.memRead (s.ea .ix o))),
    fun o s => completes_setAF s _ _ (xor8 s.a (s.memRead (s.ea .iy o))),
    fun _ r s => completes_setF s _ _ (cp8 s.a (s.reg8 r)),
    fun _ n s => completes_setF s _ _ (cp8 s.a n),
    fun s => completes_setF s _ _ (cp8 s.a (s.memRead s.hl)),
    fun x s => completes_setF s _ _ (cp8 s.a (s.half .ix x)),
    fun x s => completes_setF s _ _ (cp8 s.a (s.half .iy x)),
    fun o s => completes_setF s _ _ (cp8 s.a (s.memRead (s.ea .ix o))),
    fun o s => completes_setF s _ _ (cp8 s.a (s.memRead (s.ea .iy o)))⟩

/-- Settles O41: each is one register, half or byte stepped after the fetch. -/
theorem incrementsAndDecrementsOfAByte : Obligations.IncrementsAndDecrementsOfAByte :=
  ⟨fun _ r s => completes_stepReg8 s _ _ inc8 r,
    fun x s => completes_stepHalf s _ _ inc8 .ix x,
    fun x s => completes_stepHalf s _ _ inc8 .iy x,
    fun s => completes_stepMem s _ _ inc8 s.hl,
    fun o s => completes_stepMem s _ _ inc8 (s.ea .ix o),
    fun o s => completes_stepMem s _ _ inc8 (s.ea .iy o),
    fun _ r s => completes_stepReg8 s _ _ dec8 r,
    fun x s => completes_stepHalf s _ _ dec8 .ix x,
    fun x s => completes_stepHalf s _ _ dec8 .iy x,
    fun s => completes_stepMem s _ _ dec8 s.hl,
    fun o s => completes_stepMem s _ _ dec8 (s.ea .ix o),
    fun o s => completes_stepMem s _ _ dec8 (s.ea .iy o)⟩

/-- Settles O42: each is one write of A and F, or of F alone, after the fetch. -/
theorem accumulatorAndCarryOperations : Obligations.AccumulatorAndCarryOperations := by
  refine ⟨fun _ s => ?cpl, fun _ s => ?neg, fun _ s => ?ccf, fun _ s => ?scf, fun _ s => ?daa⟩
  case cpl =>
    exact completes_fetched (State.setAF_changesOnly _ (s.a ^^^ 0xFF, cplFlags (s.a ^^^ 0xFF) s.f)) (by decide)
      fun hadv hframe => ⟨hadv, BitVec.xor_allOnes, flagsAre_cplFlags s.a s.f, hframe⟩
  case neg => exact completes_setAF s _ _ (sub8 0 s.a false)
  case ccf =>
    exact completes_fetched (State.setF_changesOnly _ (ccfFlags s.a s.f)) (by decide) fun hadv hframe =>
      ⟨hadv, flagsAre_mkFlags _ _ _ _ _ _ _ _, hframe⟩
  case scf =>
    exact completes_fetched (State.setF_changesOnly _ (scfFlags s.a s.f)) (by decide) fun hadv hframe =>
      ⟨hadv, flagsAre_mkFlags _ _ _ _ _ _ _ _, hframe⟩
  case daa => exact completes_setAF s _ _ (daa s.a s.f)

end Sys2Proof.Proofs
end

