-- ==== Sys2Proof/Proofs/Alu16.lean ====
section
/-! PROOF. The statements of 43_alu16.md. `add16` and `sbc16` are read as arithmetic on numbers (R320 to R322, D29);
each instruction is one operation after the fetch, which writes a pair, an index register, HL and F, or the target of
an ADD with the flags that R323 keeps. -/

namespace Sys2Proof.Machine

/-! ## Addition and subtraction (43_alu16.md R320, R321, R322) -/

section
variable (a b : Word) (cin : Bool)

theorem toNat_add16 : (add16 a b cin).1.toNat = (a.toNat + b.toNat + cin.toNat) % 65536 :=
  BitVec.toNat_ofNat _ 16

/-- Without a carry in, the result is the sum of words. -/
theorem add16_fst : (add16 a b false).1 = a + b :=
  BitVec.eq_of_toNat_eq (toNat_add16 a b false)

theorem flagsAre_add16 :
    flagsAre (add16 a b cin).2 ((add16 a b cin).1.getLsbD 15) (decide ((add16 a b cin).1 = 0))
      ((add16 a b cin).1.getLsbD 13) (decide (a.toNat % 4096 + b.toNat % 4096 + cin.toNat > 4095))
      ((add16 a b cin).1.getLsbD 11)
      (decide (a.toInt + b.toInt + cin.toNat < -32768 ∨ 32767 < a.toInt + b.toInt + cin.toNat)) false
      (decide (a.toNat + b.toNat + cin.toNat > 65535)) := by
  have hpv := overflow_of_sum a b (add16 a b cin).1 cin (toNat_add16 a b cin).symm
  exact hpv ▸ flagsAre_mkFlags _ _ _ _ _ _ _ _

/-- Adding back what was subtracted gives the first operand. -/
theorem toNat_sbc16 : ((sbc16 a b cin).1.toNat + b.toNat + cin.toNat) % 65536 = a.toNat := by
  have ha := a.isLt
  have hdiff : ((sbc16 a b cin).1.toNat : Int) = (a.toNat - b.toNat - cin.toNat) % 65536 := by
    rw [sbc16, BitVec.toNat_ofInt]
    exact Int.toNat_of_nonneg (Int.emod_nonneg _ (by decide))
  omega

theorem flagsAre_sbc16 :
    flagsAre (sbc16 a b cin).2 ((sbc16 a b cin).1.getLsbD 15) (decide ((sbc16 a b cin).1 = 0))
      ((sbc16 a b cin).1.getLsbD 13) (decide (a.toNat % 4096 < b.toNat % 4096 + cin.toNat))
      ((sbc16 a b cin).1.getLsbD 11)
      (decide (a.toInt - b.toInt - cin.toNat < -32768 ∨ 32767 < a.toInt - b.toInt - cin.toNat)) true
      (decide (a.toNat < b.toNat + cin.toNat)) := by
  have hpv := overflow_of_difference a b (sbc16 a b cin).1 cin (toNat_sbc16 a b cin)
  have hborrow : decide ((a.toNat : Int) - b.toNat - cin.toNat < 0) = decide (a.toNat < b.toNat + cin.toNat) :=
    decide_eq_decide.mpr (by omega)
  exact hpv ▸ hborrow ▸ flagsAre_mkFlags _ _ _ _ _ _ _ _

end

/-! ## The flags of ADD (43_alu16.md R323) -/

/-- S, Z and P/V are those of the old F, C, H, 5 and 3 those of the sum. -/
theorem flagsAre_add16KeepFlags (g f : Byte) :
    flagsAre (add16KeepFlags g f) (flagS f) (flagZ f) (flag5 g) (flagH g) (flag3 g) (flagPV f) false (flagC g) :=
  flagsAre_mkFlags _ _ _ _ _ _ _ _

theorem State.addKeep_changesOnly (s : State) (g : Byte) : changesOnly [.f] s (s.addKeep g) :=
  s.setF_changesOnly (add16KeepFlags g s.f)

@[simp] theorem State.hl_addKeep (s : State) (g : Byte) : (s.addKeep g).hl = s.hl := rfl

/-! ## One operation after the fetch -/

section
variable (s : State) (len fetches : Nat)

/-- HL and F are written. -/
theorem completes_setHlF (wf : Word × Byte) : completes (.next ((s.begin len fetches).setHlF wf)) fun t =>
    advanced len fetches s t ∧ (t.hl, t.f) = wf ∧ changesOnly [.pc, .r, .h, .l, .f] s t :=
  completes_fetched (State.setHlF_changesOnly _ wf) (by decide) fun hadv hframe =>
    ⟨hadv, Prod.ext (join_hi_lo wf.1) rfl, hframe⟩

/-- A word is added to HL. -/
theorem completes_addHl (w : Word) :
    completes (.next (((s.begin len fetches).setHl (add16 s.hl w false).1).addKeep (add16 s.hl w false).2)) fun t =>
      advanced len fetches s t ∧ t.hl = s.hl + w ∧
      flagsAre t.f (flagS s.f) (flagZ s.f) (flag5 (add16 s.hl w false).2) (flagH (add16 s.hl w false).2)
        (flag3 (add16 s.hl w false).2) (flagPV s.f) false (flagC (add16 s.hl w false).2) ∧
      changesOnly [.pc, .r, .h, .l, .f] s t := by
  have hops := changesOnly_trans _ _ _ _ _ (State.setHl_changesOnly (s.begin len fetches) (add16 s.hl w false).1)
    (State.addKeep_changesOnly _ (add16 s.hl w false).2)
  exact completes_fetched hops (by decide) fun hadv hframe =>
    ⟨hadv, by simp [add16_fst], flagsAre_add16KeepFlags _ s.f, hframe⟩

/-- A word is added to an index register. -/
theorem completes_addIndex (x : Index) (w : Word) :
    completes (.next (((s.begin len fetches).addKeep (add16 (s.index x) w false).2).setIndex x
      (add16 (s.index x) w false).1)) fun t =>
      advanced len fetches s t ∧ t.index x = s.index x + w ∧
      flagsAre t.f (flagS s.f) (flagZ s.f) (flag5 (add16 (s.index x) w false).2)
        (flagH (add16 (s.index x) w false).2) (flag3 (add16 (s.index x) w false).2) (flagPV s.f) false
        (flagC (add16 (s.index x) w false).2) ∧
      changesOnly [.pc, .r, partOfIndex x, .f] s t := by
  have hops := changesOnly_trans _ _ _ _ _
    (State.addKeep_changesOnly (s.begin len fetches) (add16 (s.index x) w false).2)
    (State.setIndex_changesOnly _ x (add16 (s.index x) w false).1)
  exact completes_fetched hops (by cases x <;> decide) fun hadv hframe =>
    ⟨hadv, by simp [add16_fst], by rw [State.setIndex_f]; exact flagsAre_add16KeepFlags _ s.f,
      changesOnly_mono _ _ s _ hframe (by cases x <;> decide)⟩

end

end Sys2Proof.Machine

namespace Sys2Proof.Proofs
open Sys2Proof Sys2Proof.Machine

/-- Settles O26: the carries and the overflow of the sum and of the difference as numbers. -/
theorem wordArithmeticAndItsFlags : Obligations.WordArithmeticAndItsFlags := fun a b cin =>
  ⟨toNat_add16 a b cin, flagsAre_add16 a b cin, toNat_sbc16 a b cin, flagsAre_sbc16 a b cin⟩

/-- Settles O43: ADD keeps three flags of the old F, ADC and SBC write HL and F together, INC and DEC write no flag. -/
theorem arithmeticOnPairs : Obligations.ArithmeticOnPairs :=
  ⟨fun q s => completes_addHl s _ _ (s.pair q),
    fun q s => completes_setHlF s _ _ (add16 s.hl (s.pair q) (flagC s.f)),
    fun q s => completes_setHlF s _ _ (sbc16 s.hl (s.pair q) (flagC s.f)),
    fun q s => completes_addIndex s _ _ .ix (s.pairX .ix q),
    fun q s => completes_addIndex s _ _ .iy (s.pairX .iy q),
    fun _ q s => completes_setPair s _ _ q (s.pair q + 1),
    fun _ q s => completes_setPair s _ _ q (s.pair q - 1),
    fun s => completes_setIndex s _ _ .ix (s.ix + 1),
    fun s => completes_setIndex s _ _ .ix (s.ix - 1),
    fun s => completes_setIndex s _ _ .iy (s.iy + 1),
    fun s => completes_setIndex s _ _ .iy (s.iy - 1)⟩

end Sys2Proof.Proofs
end

