-- ==== Sys2Proof/Proofs/Jumps.lean ====
section
/-! PROOF. The statements of 44_control.md, and RETI and RETN of 49_system.md. Each instruction is one operation after
the fetch that writes PC and leaves R to the fetch. A conditional one is first brought to the form of an unconditional
one: a conditional jump is a jump to one of two addresses, a taken CALL or RET is the plain CALL or RET. -/

namespace Sys2Proof.Machine

/-! ## A jump on a condition -/

/-- A jump on a condition is a jump: where the condition fails, to where PC is already. -/
theorem State.ite_jump (s : State) (c : Prop) [Decidable c] (target : Word) :
    (if c then s.jump target else s) = s.jump (if c then target else s.pc) := by
  split
  · rfl
  · rfl

/-! ## An operation after the fetch that writes PC -/

/-- An operation after the fetch that leaves R alone completes the instruction; its result is left to show, with the
count and the frame given. -/
theorem completes_transferred {s u : State} {len fetches : Nat} {ps qs : List Part} {post : State → Prop}
    (h : changesOnly ps (s.begin len fetches) u) (hps : .r ∉ ps) (hqs : ∀ p ∈ [.pc, .r] ++ ps, p ∈ qs)
    (hpost : counted fetches s u → changesOnly qs s u → post u) : completes (.next u) post :=
  have hcount : counted fetches s u := counted_of_begin s u len fetches (h .r hps)
  have hframe : changesOnly qs s u := changesOnly_mono _ _ s u (changesOnly_of_fetched h) hqs
  (completes_next u post).mpr (hpost hcount hframe)

section
variable (s : State) (len fetches : Nat)

/-- Nothing follows the fetch: an untaken instruction only passes itself. -/
theorem completes_begin : completes (.next (s.begin len fetches)) fun t =>
    advanced len fetches s t ∧ changesOnly [.pc, .r] s t :=
  completes_fetched (changesOnly_refl [] _) (by decide) fun hadv hframe => ⟨hadv, hframe⟩

/-- PC is set. -/
theorem completes_jump (target : Word) : completes (.next ((s.begin len fetches).jump target)) fun t =>
    t.pc = target ∧ counted fetches s t ∧ changesOnly [.pc, .r] s t :=
  completes_transferred (State.jump_changesOnly _ target) (by decide) (by decide) fun hcount hframe =>
    ⟨rfl, hcount, hframe⟩

/-- PC is set where a condition holds, and otherwise stays past the instruction. -/
theorem completes_jumpIf (c : Prop) [Decidable c] (target : Word) :
    completes (.next (if c then (s.begin len fetches).jump target else s.begin len fetches)) fun t =>
      t.pc = (if c then target else s.pc + BitVec.ofNat 16 len) ∧ counted fetches s t ∧
      changesOnly [.pc, .r] s t := by
  rw [State.ite_jump]
  exact completes_jump s len fetches (if c then target else s.pc + BitVec.ofNat 16 len)

/-- PC is pushed and then set (44_control.md R348): what is stored is the address after the fetch. -/
theorem completes_call (target : Word) : completes (.next ((s.begin len fetches).call target)) fun t =>
    t.pc = target ∧ counted fetches s t ∧ t.sp = s.sp - 2 ∧
    storesWord (s.sp - 2) (s.pc + BitVec.ofNat 16 len) s t ∧ changesOnly [.pc, .r, .sp, .bytes] s t :=
  completes_transferred (State.call_changesOnly _ target) (by decide) (by decide) fun hcount hframe =>
    ⟨rfl, hcount, rfl, storesWord_of_writes s _ _ _ (.inr rfl), hframe⟩

/-- PC is popped (44_control.md R351). -/
theorem completes_ret : completes (.next (s.begin len fetches).ret) fun t =>
    t.pc = s.memRead16 s.sp ∧ counted fetches s t ∧ t.sp = s.sp + 2 ∧ changesOnly [.pc, .r, .sp] s t :=
  completes_transferred (State.ret_changesOnly _) (by decide) (by decide) fun hcount hframe =>
    ⟨rfl, hcount, rfl, hframe⟩

/-- PC is popped and IFF2 copied to IFF1 (49_system.md R486). -/
theorem completes_retFromNmi : completes (.next (s.begin len fetches).retFromNmi) fun t =>
    t.pc = s.memRead16 s.sp ∧ counted fetches s t ∧ t.sp = s.sp + 2 ∧ t.iff1 = s.iff2 ∧
    changesOnly [.pc, .r, .sp, .iff1] s t :=
  completes_transferred (State.retFromNmi_changesOnly _) (by decide) (by decide) fun hcount hframe =>
    ⟨rfl, hcount, rfl, rfl, hframe⟩

end

/-! ## The conditional instructions and DJNZ -/

section
variable (p : Pfx) (s : State)

/-- DJNZ counts B down and jumps, unless B was 1 (44_control.md R346). -/
theorem exec_djnz (o : Byte) : exec (.djnz p o) s =
    .next (((s.beginP p 2).setReg8 .b (s.b - 1)).jump
      (if s.b = 1 then (s.beginP p 2).pc else (s.beginP p 2).pc + sext16 o)) := by
  have hlast : s.b - 1 = 0 ↔ s.b = 1 := sub_eq_zero
  by_cases hb : s.b = 1
  · rw [if_pos hb]
    exact congrArg Host.Outcome.next (if_neg (not_not.mpr (hlast.mpr hb)))
  · rw [if_neg hb]
    exact congrArg Host.Outcome.next (if_pos (mt hlast.mp hb))

/-- B is written and then PC. -/
theorem completes_countedJump (len fetches : Nat) (v : Byte) (target : Word) :
    completes (.next (((s.begin len fetches).setReg8 .b v).jump target)) fun t =>
      t.pc = target ∧ counted fetches s t ∧ t.b = v ∧ changesOnly [.pc, .r, .b] s t :=
  have hops := changesOnly_trans _ _ _ _ _ (State.setReg8_changesOnly (s.begin len fetches) .b v)
    (State.jump_changesOnly _ target)
  completes_transferred hops (by decide) (by decide) fun hcount hframe => ⟨rfl, hcount, rfl, hframe⟩

variable {s} {cc : Cond}

/-- A taken CALL c is a CALL (44_control.md R349). -/
theorem exec_callCNn_taken (nn : Word) (h : holds s.f cc = true) : exec (.callCNn p cc nn) s = exec (.callNn p nn) s :=
  congrArg Host.Outcome.next (if_pos h)

theorem exec_callCNn_untaken (nn : Word) (h : holds s.f cc = false) :
    exec (.callCNn p cc nn) s = .next (s.beginP p 3) :=
  congrArg Host.Outcome.next (if_neg (ne_true_of_eq_false h))

/-- A taken RET c is a RET (44_control.md R352). -/
theorem exec_retC_taken (h : holds s.f cc = true) : exec (.retC p cc) s = exec (.ret p) s :=
  congrArg Host.Outcome.next (if_pos h)

theorem exec_retC_untaken (h : holds s.f cc = false) : exec (.retC p cc) s = .next (s.beginP p 1) :=
  congrArg Host.Outcome.next (if_neg (ne_true_of_eq_false h))

end

end Sys2Proof.Machine

namespace Sys2Proof.Proofs
open Sys2Proof Sys2Proof.Machine

/-- Settles O44: each sets PC after the fetch, DJNZ after B. -/
theorem jumpsSetOnlyThePc : Obligations.JumpsSetOnlyThePc := by
  refine ⟨fun _ nn s => ?jpNn, fun s => ?jpHl, fun s => ?jpIx, fun s => ?jpIy, fun p cc nn s => ?jpCNn,
    fun p o s => ?jr, fun p cc o s => ?jrCc, fun p o s => ?djnz⟩
  case jpNn => exact completes_jump s _ _ nn
  case jpHl => exact completes_jump s _ _ s.hl
  case jpIx => exact completes_jump s _ _ s.ix
  case jpIy => exact completes_jump s _ _ s.iy
  case jpCNn => exact completes_jumpIf s _ _ (holds s.f cc) nn
  case jr => exact completes_jump s _ _ (s.pc + BitVec.ofNat 16 (2 + prefixLength p) + sext16 o)
  case jrCc =>
    exact completes_jumpIf s _ _ (holds s.f (condOfJr cc)) (s.pc + BitVec.ofNat 16 (2 + prefixLength p) + sext16 o)
  case djnz =>
    rw [exec_djnz]
    exact completes_countedJump s _ _ (s.b - 1) _

/-- Settles O45: RST is a CALL to one of eight fixed addresses. -/
theorem callsPushTheNextAddress : Obligations.CallsPushTheNextAddress := by
  have call (p : Pfx) (nn : Word) (s : State) := completes_call s (3 + prefixLength p) (1 + prefixLength p) nn
  refine ⟨call, fun p v s => ?rst, fun p cc nn s h => ?taken, fun p cc nn s h => ?untaken⟩
  case rst =>
    rw [Nat.mul_comm 8]
    exact completes_call s _ _ (rstTarget v)
  case taken =>
    rw [exec_callCNn_taken p nn h]
    exact call p nn s
  case untaken =>
    rw [exec_callCNn_untaken p nn h]
    exact completes_begin s _ _

/-- Settles O46: RETI is RET with two fetches, RETN alone writes IFF1. -/
theorem returnsPopThePc : Obligations.ReturnsPopThePc := by
  refine ⟨fun p s => ?ret, fun k s => ?reti, fun k s => ?retn, fun p cc s h => ?taken, fun p cc s h => ?untaken⟩
  case ret => exact completes_ret s _ _
  case reti => exact completes_ret s _ _
  case retn => exact completes_retFromNmi s _ _
  case taken =>
    rw [exec_retC_taken p h]
    exact completes_ret s _ _
  case untaken =>
    rw [exec_retC_untaken p h]
    exact completes_begin s _ _

end Sys2Proof.Proofs
end

