-- ==== Sys2Proof/Proofs/Rotate.lean ====
section
/-! PROOF. The statements of 45_rotate_shift.md. The eight shift functions are `rl` and `rr` with one bit or another
that enters; each instruction is one operation after the fetch, the same for every shift function. -/

namespace Sys2Proof.Machine

/-! ## The shift functions (45_rotate_shift.md R370) -/

section
variable (v : Byte) (c : Bool)

theorem getLsbD_bitByte (k : Nat) : (bitByte c).getLsbD k = (decide (k = 0) && c) := by
  cases k with
  | zero => cases c <;> rfl
  | succ n => simp [bitByte]

/-- The sign bit of a byte in its place, as SRA lets it enter. -/
theorem and_sign_eq_bitByte : v &&& (0x80 : Byte) = bitByte (v.getLsbD 7) <<< 7 := by
  have hbit : v &&& (0x80 : Byte) = if v.getLsbD 7 then BitVec.twoPow 8 7 else 0#8 := BitVec.and_twoPow v 7
  rw [hbit]
  cases v.getLsbD 7 <;> rfl

theorem rlc_eq_rl : rlc v c = rl v (v.getLsbD 7) := rfl
theorem rrc_eq_rr : rrc v c = rr v (v.getLsbD 0) := rfl
theorem sla_eq_rl : sla v c = rl v false := Prod.ext (BitVec.or_zero (x := v <<< 1)).symm rfl
theorem sra_eq_rr : sra v c = rr v (v.getLsbD 7) :=
  Prod.ext (congrArg (v >>> 1 ||| ·) (and_sign_eq_bitByte v)) rfl
theorem sli_eq_rl : sli v c = rl v true := rfl
theorem srl_eq_rr : srl v c = rr v false := Prod.ext (BitVec.or_zero (x := v >>> 1)).symm rfl

theorem getLsbD_rl {k : Nat} (hk : k < 8) :
    (rl v c).1.getLsbD k = if k = 0 then c else v.getLsbD (k - 1) := by
  have hshift : (rl v c).1.getLsbD k = ((v <<< 1).getLsbD k || (bitByte c).getLsbD k) := BitVec.getLsbD_or
  rw [hshift, getLsbD_bitByte, BitVec.getLsbD_shiftLeft]
  by_cases h0 : k = 0
  · simp [h0]
  · simp [h0, hk]

theorem getLsbD_rr {k : Nat} (hk : k < 8) :
    (rr v c).1.getLsbD k = if k = 7 then c else v.getLsbD (k + 1) := by
  have hshift : (rr v c).1.getLsbD k = ((v >>> 1).getLsbD k || (bitByte c <<< 7).getLsbD k) := BitVec.getLsbD_or
  rw [hshift, BitVec.getLsbD_shiftLeft, getLsbD_bitByte, BitVec.getLsbD_ushiftRight, Nat.add_comm 1 k]
  by_cases h7 : k = 7
  · simp [h7]
  · have hlow : k < 7 := by omega
    simp [h7, hlow]

end

/-! ## Flags (45_rotate_shift.md R409, R410) -/

theorem shiftFlagsAre_shiftFlags (res : Byte) (cout : Bool) : shiftFlagsAre (shiftFlags res cout) res cout :=
  flagsAre_parityFlags res false cout

/-! ## One shift after the fetch -/

section
variable (s : State) (g : Byte → Bool → Byte × Bool)

theorem State.shiftReg8_changesOnly (r : Reg8) : changesOnly [.f, partOfReg8 r] s (s.shiftReg8 g r) :=
  changesOnly_mono _ _ s _
    (changesOnly_trans _ _ s _ _ (State.setReg8_changesOnly s r _) (State.setF_changesOnly _ _)) (by simp)

theorem State.shiftMemReg8_changesOnly (a : Word) (r : Reg8) :
    changesOnly [.f, .bytes, partOfReg8 r] s (s.shiftMemReg8 g a r) :=
  changesOnly_trans _ _ s _ _ (s.shiftMem_changesOnly g a) (State.setReg8_changesOnly _ r _)

/-- The write of F after that of the register leaves the register as it is. -/
theorem State.shiftReg8_reg8 (r : Reg8) : (s.shiftReg8 g r).reg8 r = (g (s.reg8 r) (flagC s.f)).1 := by
  cases r <;> rfl

variable (len fetches : Nat)

/-- A is shifted: S, Z and P/V are kept (R410). -/
theorem completes_shiftAcc : completes (.next ((s.begin len fetches).shiftAcc g)) fun t =>
    advanced len fetches s t ∧ t.a = (g s.a (flagC s.f)).1 ∧
    flagsAre t.f (flagS s.f) (flagZ s.f) (t.a.getLsbD 5) false (t.a.getLsbD 3) (flagPV s.f) false
      (g s.a (flagC s.f)).2 ∧
    changesOnly [.pc, .r, .a, .f] s t :=
  completes_fetched (State.shiftAcc_changesOnly _ g) (by decide) fun hadv hframe =>
    ⟨hadv, rfl, flagsAre_mkFlags _ _ _ _ _ _ _ _, hframe⟩

/-- A register is shifted. -/
theorem completes_shiftReg8 (r : Reg8) : completes (.next ((s.begin len fetches).shiftReg8 g r)) fun t =>
    advanced len fetches s t ∧ t.reg8 r = (g (s.reg8 r) (flagC s.f)).1 ∧
    shiftFlagsAre t.f (g (s.reg8 r) (flagC s.f)).1 (g (s.reg8 r) (flagC s.f)).2 ∧
    changesOnly [.pc, .r, .f, partOfReg8 r] s t :=
  completes_fetched (State.shiftReg8_changesOnly _ g r) (by cases r <;> decide) fun hadv hframe =>
    ⟨hadv, State.shiftReg8_reg8 _ g r, shiftFlagsAre_shiftFlags _ _, hframe⟩

/-- A byte of memory is shifted: F is written also where the store changes nothing. -/
theorem completes_shiftMem (a : Word) : completes (.next ((s.begin len fetches).shiftMem g a)) fun t =>
    advanced len fetches s t ∧ storesByte a (g (s.memRead a) (flagC s.f)).1 s t ∧
    shiftFlagsAre t.f (g (s.memRead a) (flagC s.f)).1 (g (s.memRead a) (flagC s.f)).2 ∧
    changesOnly [.pc, .r, .f, .bytes] s t :=
  completes_fetched (State.shiftMem_changesOnly _ g a) (by decide) fun hadv hframe =>
    ⟨hadv, storesByte_of_write s _ a _ rfl, shiftFlagsAre_shiftFlags _ _, hframe⟩

/-- A byte of memory is shifted into a register as well, whose write leaves F and memory alone (R412). -/
theorem completes_shiftMemReg8 (a : Word) (r : Reg8) :
    completes (.next ((s.begin len fetches).shiftMemReg8 g a r)) fun t =>
      advanced len fetches s t ∧ t.reg8 r = (g (s.memRead a) (flagC s.f)).1 ∧
      storesByte a (g (s.memRead a) (flagC s.f)).1 s t ∧
      shiftFlagsAre t.f (g (s.memRead a) (flagC s.f)).1 (g (s.memRead a) (flagC s.f)).2 ∧
      changesOnly [.pc, .r, .f, .bytes, partOfReg8 r] s t :=
  completes_fetched (State.shiftMemReg8_changesOnly _ g a r) (by cases r <;> decide) fun hadv hframe =>
    ⟨hadv, by simp [State.shiftMemReg8],
      storesByte_of_write s _ a _ (State.shiftMemReg8_mem _ g a r),
      (State.setReg8_f _ r _).symm ▸ shiftFlagsAre_shiftFlags _ _, hframe⟩

end

/-! ## The digits of a byte (45_rotate_shift.md R407, R408) -/

section
variable (a v x y : Byte)

/-- A byte put together from the low digit of one and a second digit. -/
theorem toNat_shiftLeft_or_digit (hy : y.toNat < 16) : (x <<< 4 ||| y).toNat = x.toNat % 16 * 16 + y.toNat := by
  have hhigh : (x <<< 4).toNat = (x.toNat % 16) <<< 4 := by
    rw [BitVec.toNat_shiftLeft, Nat.shiftLeft_eq, Nat.shiftLeft_eq]
    omega
  rw [BitVec.toNat_or, hhigh, ← Nat.shiftLeft_add_eq_or_of_lt hy, Nat.shiftLeft_eq]

theorem toNat_lowDigit : (v &&& 0x0F).toNat = v.toNat % 16 :=
  Nat.and_two_pow_sub_one_eq_mod v.toNat 4

theorem toNat_highDigit : (v >>> 4).toNat = v.toNat / 16 :=
  Nat.shiftRight_eq_div_pow v.toNat 4

theorem and_highDigit_eq : a &&& (0xF0 : Byte) = a >>> 4 <<< 4 :=
  (BitVec.shiftLeft_ushiftRight (x := a) (n := 4)).symm

theorem toNat_rldMem : (rldMem a v).toNat = v.toNat % 16 * 16 + a.toNat % 16 := by
  have hdigit := toNat_lowDigit a
  rw [rldMem, toNat_shiftLeft_or_digit _ _ (by omega), hdigit]

theorem toNat_rrdMem : (rrdMem a v).toNat = a.toNat % 16 * 16 + v.toNat / 16 := by
  have hdigit := toNat_highDigit v
  rw [rrdMem, toNat_shiftLeft_or_digit _ _ (by omega), hdigit]

/-- The high digit of a byte with a second digit below it. -/
theorem toNat_and_highDigit_or (hy : y.toNat < 16) :
    (a &&& (0xF0 : Byte) ||| y).toNat = a.toNat / 16 * 16 + y.toNat := by
  rw [and_highDigit_eq, toNat_shiftLeft_or_digit _ _ hy, toNat_highDigit]
  omega

theorem toNat_rldAcc : (rldAcc a v).toNat = a.toNat / 16 * 16 + v.toNat / 16 := by
  have hdigit := toNat_highDigit v
  exact hdigit ▸ toNat_and_highDigit_or a (v >>> 4) (by omega)

theorem toNat_rrdAcc : (rrdAcc a v).toNat = a.toNat / 16 * 16 + v.toNat % 16 := by
  have hdigit := toNat_lowDigit v
  exact hdigit ▸ toNat_and_highDigit_or a (v &&& 0x0F) (by omega)

end

/-- A and the byte at HL are written, `n` and `k` the numbers they become. -/
theorem completes_digitRotate (s : State) (len fetches : Nat) {mem acc : Byte} {n k : Nat}
    (hmem : mem.toNat = n) (hacc : acc.toNat = k) :
    completes (.next ((s.begin len fetches).digitRotate mem acc)) fun t =>
      advanced len fetches s t ∧ (∃ m : Byte, m.toNat = n ∧ storesByte s.hl m s t) ∧ t.a.toNat = k ∧
      flagsAre t.f (t.a.getLsbD 7) (decide (t.a = 0)) (t.a.getLsbD 5) false (t.a.getLsbD 3)
        (decide (onesOf t.a % 2 = 0)) false (flagC s.f) ∧
      changesOnly [.pc, .r, .a, .f, .bytes] s t :=
  completes_fetched (State.digitRotate_changesOnly _ mem acc) (by decide) fun hadv hframe =>
    ⟨hadv, ⟨mem, hmem, storesByte_of_write s _ s.hl mem rfl⟩, hacc,
      flagsAre_parityFlags acc false (flagC s.f), hframe⟩

end Sys2Proof.Machine

namespace Sys2Proof.Proofs
open Sys2Proof Sys2Proof.Machine

/-- Settles O27: each function is `rl` or `rr` with the bit that enters, and each row reads back its own encoding. -/
theorem shiftFunctionsMoveOneBit : Obligations.ShiftFunctionsMoveOneBit := by
  have word (i : Instr) (hwf : i.wellFormed = true) : decode (encode i) = .ok i :=
    (decodeReadsBackEveryEncoding i hwf).1
  refine ⟨fun v c => ?functions, ?rows⟩
  case functions =>
    rw [rlc_eq_rl, rrc_eq_rr, sla_eq_rl, sra_eq_rr, sli_eq_rl, srl_eq_rr]
    have left (b : Bool) : (rl v b).2 = v.getLsbD 7 ∧
        ∀ k, k < 8 → (rl v b).1.getLsbD k = if k = 0 then b else v.getLsbD (k - 1) :=
      ⟨rfl, fun _ hk => getLsbD_rl v b hk⟩
    have right (b : Bool) : (rr v b).2 = v.getLsbD 0 ∧
        ∀ k, k < 8 → (rr v b).1.getLsbD k = if k = 7 then b else v.getLsbD (k + 1) :=
      ⟨rfl, fun _ hk => getLsbD_rr v b hk⟩
    exact ⟨left _, right _, left c, right c, left false, right _, left true, right false⟩
  case rows =>
    exact ⟨word .rlcMemHl rfl, word (.rlcIx 0) rfl, word (.rlcIy 0) rfl,
      word .rrcMemHl rfl, word (.rrcIx 0) rfl, word (.rrcIy 0) rfl,
      word .rlMemHl rfl, word (.rlIx 0) rfl, word (.rlIy 0) rfl,
      word .rrMemHl rfl, word (.rrIx 0) rfl, word (.rrIy 0) rfl,
      word .slaMemHl rfl, word (.slaIx 0) rfl, word (.slaIy 0) rfl,
      word .sraMemHl rfl, word (.sraIx 0) rfl, word (.sraIy 0) rfl,
      word .sliMemHl rfl, word (.sliIx 0) rfl, word (.sliIy 0) rfl,
      word .srlMemHl rfl, word (.srlIx 0) rfl, word (.srlIy 0) rfl⟩

/-- Settles O47: the accumulator forms keep three flags, the CB forms are one rule for all eight functions. -/
theorem shiftsOfRegisters : Obligations.ShiftsOfRegisters :=
  ⟨fun _ s => completes_shiftAcc s rlc _ _,
    fun _ s => completes_shiftAcc s rrc _ _,
    fun _ s => completes_shiftAcc s rl _ _,
    fun _ s => completes_shiftAcc s rr _ _,
    fun r s => completes_shiftReg8 s rlc _ _ r,
    fun r s => completes_shiftReg8 s rrc _ _ r,
    fun r s => completes_shiftReg8 s rl _ _ r,
    fun r s => completes_shiftReg8 s rr _ _ r,
    fun r s => completes_shiftReg8 s sla _ _ r,
    fun r s => completes_shiftReg8 s sra _ _ r,
    fun r s => completes_shiftReg8 s sli _ _ r,
    fun r s => completes_shiftReg8 s srl _ _ r⟩

/-- Settles O48: the three forms of each function differ in the address alone. -/
theorem shiftsOfMemory : Obligations.ShiftsOfMemory :=
  ⟨fun s => completes_shiftMem s rlc _ _ s.hl,
    fun o s => completes_shiftMem s rlc _ _ (s.ea .ix o),
    fun o s => completes_shiftMem s rlc _ _ (s.ea .iy o),
    fun s => completes_shiftMem s rrc _ _ s.hl,
    fun o s => completes_shiftMem s rrc _ _ (s.ea .ix o),
    fun o s => completes_shiftMem s rrc _ _ (s.ea .iy o),
    fun s => completes_shiftMem s rl _ _ s.hl,
    fun o s => completes_shiftMem s rl _ _ (s.ea .ix o),
    fun o s => completes_shiftMem s rl _ _ (s.ea .iy o),
    fun s => completes_shiftMem s rr _ _ s.hl,
    fun o s => completes_shiftMem s rr _ _ (s.ea .ix o),
    fun o s => completes_shiftMem s rr _ _ (s.ea .iy o),
    fun s => completes_shiftMem s sla _ _ s.hl,
    fun o s => completes_shiftMem s sla _ _ (s.ea .ix o),
    fun o s => completes_shiftMem s sla _ _ (s.ea .iy o),
    fun s => completes_shiftMem s sra _ _ s.hl,
    fun o s => completes_shiftMem s sra _ _ (s.ea .ix o),
    fun o s => completes_shiftMem s sra _ _ (s.ea .iy o),
    fun s => completes_shiftMem s sli _ _ s.hl,
    fun o s => completes_shiftMem s sli _ _ (s.ea .ix o),
    fun o s => completes_shiftMem s sli _ _ (s.ea .iy o),
    fun s => completes_shiftMem s srl _ _ s.hl,
    fun o s => completes_shiftMem s srl _ _ (s.ea .ix o),
    fun o s => completes_shiftMem s srl _ _ (s.ea .iy o)⟩

/-- Settles O49: the register is written after the byte and takes no part in the shift. -/
theorem shiftsOfMemoryIntoARegister : Obligations.ShiftsOfMemoryIntoARegister :=
  ⟨fun r o s => completes_shiftMemReg8 s rlc _ _ (s.ea .ix o) r,
    fun r o s => completes_shiftMemReg8 s rlc _ _ (s.ea .iy o) r,
    fun r o s => completes_shiftMemReg8 s rrc _ _ (s.ea .ix o) r,
    fun r o s => completes_shiftMemReg8 s rrc _ _ (s.ea .iy o) r,
    fun r o s => completes_shiftMemReg8 s rl _ _ (s.ea .ix o) r,
    fun r o s => completes_shiftMemReg8 s rl _ _ (s.ea .iy o) r,
    fun r o s => completes_shiftMemReg8 s rr _ _ (s.ea .ix o) r,
    fun r o s => completes_shiftMemReg8 s rr _ _ (s.ea .iy o) r,
    fun r o s => completes_shiftMemReg8 s sla _ _ (s.ea .ix o) r,
    fun r o s => completes_shiftMemReg8 s sla _ _ (s.ea .iy o) r,
    fun r o s => completes_shiftMemReg8 s sra _ _ (s.ea .ix o) r,
    fun r o s => completes_shiftMemReg8 s sra _ _ (s.ea .iy o) r,
    fun r o s => completes_shiftMemReg8 s sli _ _ (s.ea .ix o) r,
    fun r o s => completes_shiftMemReg8 s sli _ _ (s.ea .iy o) r,
    fun r o s => completes_shiftMemReg8 s srl _ _ (s.ea .ix o) r,
    fun r o s => completes_shiftMemReg8 s srl _ _ (s.ea .iy o) r⟩

/-- Settles O50: the byte stored and the new A, each written as two digits. -/
theorem digitRotates : Obligations.DigitRotates :=
  ⟨fun s => completes_digitRotate s _ _ (toNat_rldMem s.a (s.memRead s.hl)) (toNat_rldAcc s.a (s.memRead s.hl)),
    fun s => completes_digitRotate s _ _ (toNat_rrdMem s.a (s.memRead s.hl)) (toNat_rrdAcc s.a (s.memRead s.hl))⟩

end Sys2Proof.Proofs
end

