-- ==== Sys2Proof/Proofs/Bit.lean ====
section
/-! PROOF. The statements of 46_bit.md. SET and RES write one bit of a byte, which `writesBit` says for both; each form
is then a write after the fetch. BIT writes F and, in its memory forms, TEMP. -/

namespace Sys2Proof.Machine

/-! ## One bit of a byte (46_bit.md R423) -/

section
variable (b : BitVec 3) (v : Byte)

/-- `m` is `v` with bit `b` made `bit` and the seven other bits kept. -/
def writesBit (b : BitVec 3) (bit : Bool) (v m : Byte) : Prop :=
  ∀ k, k < 8 → m.getLsbD k = if k = b.toNat then bit else v.getLsbD k

theorem getLsbD_bitMask {k : Nat} (hk : k < 8) : (bitMask b).getLsbD k = decide (k = b.toNat) := by
  rw [bitMask, BitVec.getLsbD_shiftLeft, BitVec.getLsbD_one]
  grind

theorem writesBit_setBit : writesBit b true v (setBit b v) := fun k hk => by
  rw [setBit, BitVec.getLsbD_or, getLsbD_bitMask b hk]
  by_cases hb : k = b.toNat <;> simp [hb]

theorem writesBit_resBit : writesBit b false v (resBit b v) := fun k hk => by
  rw [resBit, BitVec.getLsbD_and, BitVec.getLsbD_not, getLsbD_bitMask b hk]
  by_cases hb : k = b.toNat <;> simp [hb, hk]

end

/-! ## SET and RES after the fetch -/

section
variable (s : State)

theorem State.storeBoth_changesOnly (a : Word) (r : Reg8) (v : Byte) :
    changesOnly [.bytes, partOfReg8 r] s (s.storeBoth a r v) :=
  changesOnly_trans _ _ s _ _ (s.memWrite_changesOnly a v) (State.setReg8_changesOnly _ r v)

variable (len fetches : Nat) {b : BitVec 3} {bit : Bool} {v : Byte}

/-- One bit of a register is written. -/
theorem completes_writeBitReg8 (r : Reg8) (hbit : writesBit b bit (s.reg8 r) v) :
    completes (.next ((s.begin len fetches).setReg8 r v)) fun t =>
      advanced len fetches s t ∧ writesBit b bit (s.reg8 r) (t.reg8 r) ∧ changesOnly [.pc, .r, partOfReg8 r] s t := by
  obtain ⟨t, ht, hadv, hreg, hframe⟩ := completes_setReg8 s len fetches r v
  exact ⟨t, ht, hadv, hreg ▸ hbit, hframe⟩

/-- One bit of a byte of memory is written. -/
theorem completes_writeBitMem (a : Word) (hbit : writesBit b bit (s.memRead a) v) :
    completes (.next ((s.begin len fetches).memWrite a v)) fun t =>
      advanced len fetches s t ∧ (∃ m : Byte, writesBit b bit (s.memRead a) m ∧ storesByte a m s t) ∧
      changesOnly [.pc, .r, .bytes] s t := by
  obtain ⟨t, ht, hadv, hstore, hframe⟩ := completes_memWrite s len fetches a v
  exact ⟨t, ht, hadv, ⟨v, hbit, hstore⟩, hframe⟩

/-- The complex forms: one byte is stored to memory and to a register, also where the store changes nothing (R430,
R431). -/
theorem completes_writeBitBoth (a : Word) (r : Reg8) (hbit : writesBit b bit (s.memRead a) v) :
    completes (.next ((s.begin len fetches).storeBoth a r v)) fun t =>
      advanced len fetches s t ∧ writesBit b bit (s.memRead a) (t.reg8 r) ∧ storesByte a (t.reg8 r) s t ∧
      changesOnly [.pc, .r, .bytes, partOfReg8 r] s t :=
  completes_fetched (State.storeBoth_changesOnly _ a r v) (by cases r <;> decide) fun hadv hframe =>
    have hreg : ((s.begin len fetches).storeBoth a r v).reg8 r = v := by simp [State.storeBoth]
    ⟨hadv, hreg.symm ▸ hbit, hreg.symm ▸ storesByte_of_write s _ a v (State.storeBoth_mem _ a r v), hframe⟩

end

/-! ## The flags of BIT (46_bit.md R427 to R429) -/

theorem flagsAre_bitFlags (tested : Bool) (b : BitVec 3) (f5 f3 : Bool) (f : Byte) :
    flagsAre (bitFlags tested b f5 f3 f) (decide (b = 7) && tested) (!tested) f5 true f3 (!tested) false (flagC f) :=
  flagsAre_mkFlags _ _ _ _ _ _ _ _

/-- A flag that shows the tested bit where that is bit `n`, shows bit `n` of the operand. -/
theorem and_testedBit (b n : BitVec 3) (v : Byte) :
    (b == n && testedBit b v) = (decide (b = n) && v.getLsbD n.toNat) := by
  by_cases hb : b = n <;> simp [hb, testedBit]

/-- TEMP shows the high byte of the address in the two bits that the mask 0x28 keeps (10_state.md R49). -/
theorem getLsbD_tempOfAddress (a : Word) (other : Byte) :
    (tempOfAddress a other).getLsbD 5 = a.getLsbD 13 ∧ (tempOfAddress a other).getLsbD 3 = a.getLsbD 11 := by
  simp [tempOfAddress, hi]

/-! ## BIT after the fetch -/

section
variable (s : State)

theorem State.setTemp_changesOnly (v : Byte) : changesOnly [.temp] s { s with temp := v } := by
  intro q hq; cases q <;> first | rfl | (intro; rfl) | (exfalso; apply hq; simp)

theorem State.testBitReg_changesOnly (b : BitVec 3) (v : Byte) : changesOnly [.f] s (s.testBitReg b v) :=
  s.setF_changesOnly _

theorem State.readTemp_changesOnly : changesOnly [.draws, .temp] s s.readTemp :=
  changesOnly_trans _ _ s _ _ s.drawn_changesOnly (State.setTemp_changesOnly _ _)

/-- BIT b,(HL) reads TEMP and writes F. -/
theorem State.testBitReadTemp_changesOnly (b : BitVec 3) (v : Byte) :
    changesOnly [.f, .temp, .draws] s (s.readTemp.testBitTemp b v) :=
  changesOnly_mono _ _ s _ (changesOnly_trans _ _ s _ _ s.readTemp_changesOnly (State.setF_changesOnly _ _)) (by decide)

theorem State.testBitIndexed_changesOnly (b : BitVec 3) (a : Word) :
    changesOnly [.f, .temp, .draws] s (s.testBitIndexed b a) :=
  have htemp := changesOnly_trans _ _ s _ _ s.drawn_changesOnly
    (State.setTemp_changesOnly _ (tempOfAddress a (Config.tempValue s.draws)))
  changesOnly_mono _ _ s _ (changesOnly_trans _ _ s _ _ htemp (State.setF_changesOnly _ _)) (by decide)

variable (len fetches : Nat) (b : BitVec 3)

/-- A bit of `v` is tested: flags 5 and 3 are bits of `v` (R427). -/
theorem completes_testBitReg (v : Byte) : completes (.next ((s.begin len fetches).testBitReg b v)) fun t =>
    advanced len fetches s t ∧
    flagsAre t.f (decide (b = 7) && v.getLsbD b.toNat) (!v.getLsbD b.toNat) (decide (b = 5) && v.getLsbD 5) true
      (decide (b = 3) && v.getLsbD 3) (!v.getLsbD b.toNat) false (flagC s.f) ∧
    changesOnly [.pc, .r, .f] s t := by
  refine completes_fetched (State.testBitReg_changesOnly _ b v) (by decide) fun hadv hframe => ⟨hadv, ?_, hframe⟩
  have hflag5 : (b == 5 && testedBit b v) = (decide (b = 5) && v.getLsbD 5) := and_testedBit b 5 v
  have hflag3 : (b == 3 && testedBit b v) = (decide (b = 3) && v.getLsbD 3) := and_testedBit b 3 v
  exact hflag5 ▸ hflag3 ▸ flagsAre_bitFlags (testedBit b v) b _ _ s.f

/-- A bit of `v` is tested: flags 5 and 3 are those of the TEMP that was read (R428). -/
theorem completes_testBitTemp (v : Byte) :
    completes (.next ((s.begin len fetches).readTemp.testBitTemp b v)) fun t =>
      advanced len fetches s t ∧
      flagsAre t.f (decide (b = 7) && v.getLsbD b.toNat) (!v.getLsbD b.toNat) (t.temp.getLsbD 5) true
        (t.temp.getLsbD 3) (!v.getLsbD b.toNat) false (flagC s.f) ∧
      changesOnly [.pc, .r, .f, .temp, .draws] s t :=
  completes_fetched (State.testBitReadTemp_changesOnly _ b v) (by decide) fun hadv hframe =>
    ⟨hadv, flagsAre_bitFlags _ b _ _ s.f, hframe⟩

/-- A bit of the byte at `a` is tested: flags 5 and 3, and those bits of TEMP, are bits 13 and 11 of `a` (R429). -/
theorem completes_testBitIndexed (a : Word) :
    completes (.next ((s.begin len fetches).testBitIndexed b a)) fun t =>
      advanced len fetches s t ∧
      flagsAre t.f (decide (b = 7) && (s.memRead a).getLsbD b.toNat) (!(s.memRead a).getLsbD b.toNat)
        (a.getLsbD 13) true (a.getLsbD 11) (!(s.memRead a).getLsbD b.toNat) false (flagC s.f) ∧
      t.temp.getLsbD 5 = a.getLsbD 13 ∧ t.temp.getLsbD 3 = a.getLsbD 11 ∧
      changesOnly [.pc, .r, .f, .temp, .draws] s t :=
  completes_fetched (State.testBitIndexed_changesOnly _ b a) (by decide) fun hadv hframe =>
    have ⟨htemp5, htemp3⟩ := getLsbD_tempOfAddress a (Config.tempValue s.draws)
    ⟨hadv, flagsAre_bitFlags _ b _ _ s.f, htemp5, htemp3, hframe⟩

end

end Sys2Proof.Machine

namespace Sys2Proof.Proofs
open Sys2Proof Sys2Proof.Machine

/-- Settles O51: SET and RES differ in the bit written alone, the six forms of each in where the byte is and goes. -/
theorem setAndResetOfOneBit : Obligations.SetAndResetOfOneBit :=
  ⟨fun b r s => completes_writeBitReg8 s _ _ r (writesBit_setBit b _),
    fun b s => completes_writeBitMem s _ _ s.hl (writesBit_setBit b _),
    fun b o s => completes_writeBitMem s _ _ (s.ea .ix o) (writesBit_setBit b _),
    fun b o s => completes_writeBitMem s _ _ (s.ea .iy o) (writesBit_setBit b _),
    fun b r o s => completes_writeBitBoth s _ _ (s.ea .ix o) r (writesBit_setBit b _),
    fun b r o s => completes_writeBitBoth s _ _ (s.ea .iy o) r (writesBit_setBit b _),
    fun b r s => completes_writeBitReg8 s _ _ r (writesBit_resBit b _),
    fun b s => completes_writeBitMem s _ _ s.hl (writesBit_resBit b _),
    fun b o s => completes_writeBitMem s _ _ (s.ea .ix o) (writesBit_resBit b _),
    fun b o s => completes_writeBitMem s _ _ (s.ea .iy o) (writesBit_resBit b _),
    fun b r o s => completes_writeBitBoth s _ _ (s.ea .ix o) r (writesBit_resBit b _),
    fun b r o s => completes_writeBitBoth s _ _ (s.ea .iy o) r (writesBit_resBit b _)⟩

/-- Settles O52: the last byte's free field takes no part in the test. -/
theorem testsOfOneBit : Obligations.TestsOfOneBit :=
  ⟨fun b r s => completes_testBitReg s _ _ b (s.reg8 r),
    fun b s => completes_testBitTemp s _ _ b (s.memRead s.hl),
    fun b _ o s => completes_testBitIndexed s _ _ b (s.ea .ix o),
    fun b _ o s => completes_testBitIndexed s _ _ b (s.ea .iy o)⟩

end Sys2Proof.Proofs
end

