-- ==== Sys2Proof/Proofs/Block.lean ====
section
/-! PROOF. The statements of 47_block.md. A block instruction is an element step after the fetch and then a jump: past
the instruction, or back to it while it repeats. One rule for the transfers and one for the searches, for every step
and every target of that jump, cover the four forms of each. -/

namespace Sys2Proof.Machine

/-! ## Counting down and repeating (47_block.md R440) -/

/-- BC has not run out just where it was not 1. -/
theorem sub_one_ne_zero_iff (w : Word) : w - 1 ≠ 0 ↔ w ≠ 1 := not_congr sub_eq_zero

theorem bne_zero_sub_one (w : Word) : (w - 1 != 0) = decide (w ≠ 1) :=
  Bool.eq_iff_iff.mpr (by rw [bne_iff_ne, decide_eq_true_iff]; exact sub_one_ne_zero_iff w)

/-- To repeat on a condition is a jump: back over the instruction, or to where PC is already. -/
theorem State.ite_again (s : State) (c : Prop) [Decidable c] (len : Nat) :
    (if c then s.again len else s) = s.jump (if c then s.pc - BitVec.ofNat 16 len else s.pc) :=
  s.ite_jump c (s.pc - BitVec.ofNat 16 len)

/-! ## The flags of a transfer and of a search (47_block.md R445, R450) -/

/-- Flags 5 and 3 are bits 1 and 3 of the byte moved plus A. -/
theorem flagsAre_blockLdFlags (v a : Byte) (bc : Word) (f : Byte) :
    flagsAre (blockLdFlags v a (bc - 1) f) (flagS f) (flagZ f) ((v + a).getLsbD 1) false ((v + a).getLsbD 3)
      (decide (bc ≠ 1)) false (flagC f) :=
  bne_zero_sub_one bc ▸ flagsAre_mkFlags _ _ _ _ _ _ _ _

/-- Without a borrow in, the result is the difference of bytes. -/
theorem sub8_fst (a b : Byte) : (sub8 a b false).1 = a - b :=
  eq_sub_of_add_eq (BitVec.eq_of_toNat_eq ((BitVec.toNat_add _ _).trans (toNat_sub8 a b false)))

/-- A difference is zero just where the operands are equal. -/
theorem flagZ_sub8 (a b : Byte) : flagZ (sub8 a b false).2 = decide (a = b) := by
  obtain ⟨_, hz, _⟩ := flagsAre_sub8 a b false
  rw [hz, sub8_fst]
  exact decide_eq_decide.mpr sub_eq_zero

theorem bitByte_eq_ite (c : Bool) : bitByte c = if c then 1 else 0 := by
  cases c with
  | false => rfl
  | true => rfl

/-- Flags 5 and 3 are bits 1 and 3 of the difference less the new H (D28). -/
theorem flagsAre_blockCpFlags (a x : Byte) (bc : Word) (f : Byte) :
    flagsAre (blockCpFlags a x (bc - 1) f) (flagS (sub8 a x false).2) (decide (a = x))
      ((a - x - (if flagH (sub8 a x false).2 then 1 else 0)).getLsbD 1) (flagH (sub8 a x false).2)
      ((a - x - (if flagH (sub8 a x false).2 then 1 else 0)).getLsbD 3) (decide (bc ≠ 1)) true (flagC f) :=
  bitByte_eq_ite _ ▸ bne_zero_sub_one bc ▸ flagZ_sub8 a x ▸ flagsAre_mkFlags _ _ _ _ _ _ _ _

/-! ## The element steps -/

section
variable (s : State) (step : Word)

@[simp] theorem State.ldStep_hl : (s.ldStep step).hl = s.hl + step := join_hi_lo _
@[simp] theorem State.ldStep_de : (s.ldStep step).de = s.de + step := join_hi_lo _
@[simp] theorem State.ldStep_bc : (s.ldStep step).bc = s.bc - 1 := join_hi_lo _
@[simp] theorem State.ldStep_pc : (s.ldStep step).pc = s.pc := rfl

@[simp] theorem State.cpStep_hl : (s.cpStep step).hl = s.hl + step := join_hi_lo _
@[simp] theorem State.cpStep_bc : (s.cpStep step).bc = s.bc - 1 := join_hi_lo _
@[simp] theorem State.cpStep_pc : (s.cpStep step).pc = s.pc := rfl
@[simp] theorem State.cpStep_f : (s.cpStep step).f = blockCpFlags s.a (s.memRead s.hl) (s.bc - 1) s.f := rfl

/-- Z is clear after a search step that has not found its byte. -/
theorem State.flagZ_cpStep_eq_false_iff : flagZ (s.cpStep step).f = false ↔ s.a ≠ s.memRead s.hl := by
  obtain ⟨_, hz, _⟩ := flagsAre_blockCpFlags s.a (s.memRead s.hl) s.bc s.f
  rw [State.cpStep_f, hz, decide_eq_false_iff_not]

/-! ## The repeating forms (47_block.md R443, R448) -/

/-- A repeating transfer goes back to the instruction, unless BC was 1. -/
theorem State.repeatWhileBc_ldStep : ((s.begin 2 2).ldStep step).repeatWhileBc =
    ((s.begin 2 2).ldStep step).jump (if s.bc ≠ 1 then s.pc else s.pc + BitVec.ofNat 16 2) := by
  rw [State.repeatWhileBc, State.ite_again]
  simp only [State.ldStep_bc, State.ldStep_pc, State.bc_begin, State.begin_pc, sub_one_ne_zero_iff,
    add_sub_cancel_right]

/-- A repeating search goes back to the instruction, unless BC was 1 or the byte was found. -/
theorem State.repeatWhileBcNotZ_cpStep : ((s.begin 2 2).cpStep step).repeatWhileBcNotZ =
    ((s.begin 2 2).cpStep step).jump
      (if s.bc ≠ 1 ∧ s.a ≠ s.memRead s.hl then s.pc else s.pc + BitVec.ofNat 16 2) := by
  rw [State.repeatWhileBcNotZ, State.ite_again]
  simp only [State.flagZ_cpStep_eq_false_iff, State.cpStep_bc, State.cpStep_pc, State.bc_begin, State.hl_begin,
    State.memRead_begin, State.begin_a, State.begin_pc, sub_one_ne_zero_iff, add_sub_cancel_right]

/-! ## An element step after the fetch, and the jump -/

variable (target : Word)

/-- A byte is moved. -/
theorem completes_blockTransfer : completes (.next (((s.begin 2 2).ldStep step).jump target)) fun t =>
    t.pc = target ∧ counted 2 s t ∧
    storesByte s.de (s.memRead s.hl) s t ∧ t.hl = s.hl + step ∧ t.de = s.de + step ∧ t.bc = s.bc - 1 ∧
    flagsAre t.f (flagS s.f) (flagZ s.f) ((s.memRead s.hl + s.a).getLsbD 1) false ((s.memRead s.hl + s.a).getLsbD 3)
      (decide (s.bc ≠ 1)) false (flagC s.f) ∧
    changesOnly [.pc, .r, .b, .c, .d, .e, .h, .l, .f, .bytes] s t :=
  have hops := changesOnly_trans _ _ _ _ _ (State.ldStep_changesOnly (s.begin 2 2) step)
    (State.jump_changesOnly _ target)
  completes_transferred hops (by decide) (by decide) fun hcount hframe =>
    ⟨rfl, hcount, storesByte_of_write s _ s.de (s.memRead s.hl) rfl, State.ldStep_hl (s.begin 2 2) step,
      State.ldStep_de (s.begin 2 2) step, State.ldStep_bc (s.begin 2 2) step,
      flagsAre_blockLdFlags (s.memRead s.hl) s.a s.bc s.f, hframe⟩

/-- A byte is compared. -/
theorem completes_blockSearch : completes (.next (((s.begin 2 2).cpStep step).jump target)) fun t =>
    t.pc = target ∧ counted 2 s t ∧ t.hl = s.hl + step ∧ t.bc = s.bc - 1 ∧
    flagsAre t.f (flagS (sub8 s.a (s.memRead s.hl) false).2) (decide (s.a = s.memRead s.hl))
      ((s.a - s.memRead s.hl - (if flagH (sub8 s.a (s.memRead s.hl) false).2 then 1 else 0)).getLsbD 1)
      (flagH (sub8 s.a (s.memRead s.hl) false).2)
      ((s.a - s.memRead s.hl - (if flagH (sub8 s.a (s.memRead s.hl) false).2 then 1 else 0)).getLsbD 3)
      (decide (s.bc ≠ 1)) true (flagC s.f) ∧
    changesOnly [.pc, .r, .b, .c, .h, .l, .f] s t :=
  have hops := changesOnly_trans _ _ _ _ _ (State.cpStep_changesOnly (s.begin 2 2) step)
    (State.jump_changesOnly _ target)
  completes_transferred hops (by decide) (by decide) fun hcount hframe =>
    ⟨rfl, hcount, State.cpStep_hl (s.begin 2 2) step, State.cpStep_bc (s.begin 2 2) step,
      flagsAre_blockCpFlags s.a (s.memRead s.hl) s.bc s.f, hframe⟩

end

/-! ## The repeating instructions as jumps -/

section
variable (s : State)

theorem exec_ldir : exec .ldir s = .next (((s.begin 2 2).ldStep 1).jump
    (if s.bc ≠ 1 then s.pc else s.pc + BitVec.ofNat 16 2)) :=
  congrArg Host.Outcome.next (s.repeatWhileBc_ldStep 1)

theorem exec_lddr : exec .lddr s = .next (((s.begin 2 2).ldStep (-1)).jump
    (if s.bc ≠ 1 then s.pc else s.pc + BitVec.ofNat 16 2)) :=
  congrArg Host.Outcome.next (s.repeatWhileBc_ldStep (-1))

theorem exec_cpir : exec .cpir s = .next (((s.begin 2 2).cpStep 1).jump
    (if s.bc ≠ 1 ∧ s.a ≠ s.memRead s.hl then s.pc else s.pc + BitVec.ofNat 16 2)) :=
  congrArg Host.Outcome.next (s.repeatWhileBcNotZ_cpStep 1)

theorem exec_cpdr : exec .cpdr s = .next (((s.begin 2 2).cpStep (-1)).jump
    (if s.bc ≠ 1 ∧ s.a ≠ s.memRead s.hl then s.pc else s.pc + BitVec.ofNat 16 2)) :=
  congrArg Host.Outcome.next (s.repeatWhileBcNotZ_cpStep (-1))

end

end Sys2Proof.Machine

namespace Sys2Proof.Proofs
open Sys2Proof Sys2Proof.Machine

/-- Settles O53: up is a step by 1 and down one by -1; LDI and LDD stay past the instruction, LDIR and LDDR go back to
it unless BC was 1. -/
theorem blockTransfers : Obligations.BlockTransfers := by
  refine ⟨fun s => ?ldi, fun s => ?ldd, fun s => ?ldir, fun s => ?lddr⟩
  case ldi => exact completes_blockTransfer s 1 (s.pc + BitVec.ofNat 16 2)
  case ldd =>
    rw [sub_eq_add_neg s.hl, sub_eq_add_neg s.de]
    exact completes_blockTransfer s (-1) (s.pc + BitVec.ofNat 16 2)
  case ldir =>
    rw [exec_ldir]
    exact completes_blockTransfer s 1 _
  case lddr =>
    rw [exec_lddr, sub_eq_add_neg s.hl, sub_eq_add_neg s.de]
    exact completes_blockTransfer s (-1) _

/-- Settles O54: CPIR and CPDR go back to the instruction unless BC was 1 or the byte was found. -/
theorem blockSearches : Obligations.BlockSearches := by
  refine ⟨fun s => ?cpi, fun s => ?cpd, fun s => ?cpir, fun s => ?cpdr⟩
  case cpi => exact completes_blockSearch s 1 (s.pc + BitVec.ofNat 16 2)
  case cpd =>
    rw [sub_eq_add_neg s.hl]
    exact completes_blockSearch s (-1) (s.pc + BitVec.ofNat 16 2)
  case cpir =>
    rw [exec_cpir]
    exact completes_blockSearch s 1 _
  case cpdr =>
    rw [exec_cpdr, sub_eq_add_neg s.hl]
    exact completes_blockSearch s (-1) _

end Sys2Proof.Proofs
end

section
/-! PROOF. The statements of 48_io.md. An input or output is one port access after the fetch and the writes that go with
it. A block instruction is an element step after the fetch and then a jump, as in 47_block.md: one rule for the inputs
and one for the outputs, for every step and every target of that jump, cover the four forms of each. -/

namespace Sys2Proof.Machine

/-! ## The flags (48_io.md R461, R462, R471) -/

/-- S, Z, 5, 3 and the parity of the byte read, H and N 0, C kept. -/
theorem flagsAre_byteFlagsKeepC (v f : Byte) :
    flagsAre (byteFlagsKeepC v f) (v.getLsbD 7) (decide (v = 0)) (v.getLsbD 5) false (v.getLsbD 3)
      (decide (onesOf v % 2 = 0)) false (flagC f) :=
  flagsAre_parityFlags v false (flagC f)

/-- Whatever the other flags are, N is 1 after a block output. -/
theorem flagN_or_n (f : Byte) : flagN (f ||| 0x02) = true := by
  rw [flagN, BitVec.getLsbD_or]
  exact Bool.or_true _

/-! ## One access after the fetch -/

section
variable (s : State)

theorem State.portReadA_changesOnly (port : Word) (v : Byte) :
    changesOnly [.ports, .a] s { s.portRead port with a := v } :=
  changesOnly_trans _ _ s _ _ (s.portRead_changesOnly port) (State.setA_changesOnly _ v)

theorem State.portInFlags_changesOnly : changesOnly [.ports, .f] s s.portInFlags :=
  changesOnly_trans _ _ s _ _ (s.portRead_changesOnly s.bc) (State.setF_changesOnly _ _)

variable (len fetches : Nat)

/-- A byte is read into A, and no flag is written. -/
theorem completes_portReadA (port : Word) :
    completes (.next { (s.begin len fetches).portRead port with a := s.portByte port }) fun t =>
      advanced len fetches s t ∧ (∃ v : Byte, t.a = v ∧ t.ports = ⟨.input, port, v⟩ :: s.ports) ∧
      changesOnly [.pc, .r, .a, .ports] s t :=
  completes_fetched (State.portReadA_changesOnly _ port _) (by decide) fun hadv hframe =>
    ⟨hadv, ⟨s.portByte port, rfl, rfl⟩, changesOnly_mono _ _ s _ hframe (by decide)⟩

/-- A byte is read from port BC into the flags alone. -/
theorem completes_portInFlags : completes (.next (s.begin len fetches).portInFlags) fun t =>
    advanced len fetches s t ∧
    (∃ v : Byte, t.ports = ⟨.input, s.bc, v⟩ :: s.ports ∧
      flagsAre t.f (v.getLsbD 7) (decide (v = 0)) (v.getLsbD 5) false (v.getLsbD 3) (decide (onesOf v % 2 = 0)) false
        (flagC s.f)) ∧
    changesOnly [.pc, .r, .f, .ports] s t :=
  completes_fetched (State.portInFlags_changesOnly _) (by decide) fun hadv hframe =>
    ⟨hadv, ⟨s.portByte s.bc, rfl, flagsAre_byteFlagsKeepC _ s.f⟩, changesOnly_mono _ _ s _ hframe (by decide)⟩

/-- A byte is read from port BC into the flags and then a register, whose write leaves the flags and the history
alone. -/
theorem completes_portInReg8 (r : Reg8) :
    completes (.next ((s.begin len fetches).portInFlags.setReg8 r (s.portByte s.bc))) fun t =>
      advanced len fetches s t ∧
      (∃ v : Byte, t.reg8 r = v ∧ t.ports = ⟨.input, s.bc, v⟩ :: s.ports ∧
        flagsAre t.f (v.getLsbD 7) (decide (v = 0)) (v.getLsbD 5) false (v.getLsbD 3) (decide (onesOf v % 2 = 0)) false
          (flagC s.f)) ∧
      changesOnly [.pc, .r, .f, .ports, partOfReg8 r] s t := by
  have hops := changesOnly_trans _ _ _ _ _ (State.portInFlags_changesOnly (s.begin len fetches))
    (State.setReg8_changesOnly _ r (s.portByte s.bc))
  refine completes_fetched hops (by cases r <;> decide) fun hadv hframe =>
    ⟨hadv, ⟨s.portByte s.bc, by simp, State.setReg8_ports _ r _, ?_⟩,
      changesOnly_mono _ _ s _ hframe (by cases r <;> decide)⟩
  rw [State.setReg8_f]
  exact flagsAre_byteFlagsKeepC _ s.f

/-- A byte is written to a port. -/
theorem completes_portWrite (port : Word) (v : Byte) :
    completes (.next ((s.begin len fetches).portWrite port v)) fun t =>
      advanced len fetches s t ∧ t.ports = ⟨.output, port, v⟩ :: s.ports ∧ changesOnly [.pc, .r, .ports] s t :=
  completes_fetched (State.portWrite_changesOnly _ port v) (by decide) fun hadv hframe => ⟨hadv, rfl, hframe⟩

end

/-! ## The element steps of the block instructions (48_io.md R463, R464, R472) -/

section
variable (s : State) (step target : Word)

/-- A byte of port BC is stored at HL. -/
theorem completes_blockInput : completes (.next (((s.begin 2 2).inStep step).jump target)) fun t =>
    t.pc = target ∧ counted 2 s t ∧
    (∃ v : Byte, t.ports = ⟨.input, s.bc, v⟩ :: s.ports ∧ storesByte s.hl v s t) ∧
    t.hl = s.hl + step ∧ t.b = s.b - 1 ∧
    changesOnly [.pc, .r, .b, .h, .l, .f, .bytes, .ports, .draws] s t :=
  have hops := changesOnly_trans _ _ _ _ _ (State.inStep_changesOnly (s.begin 2 2) step)
    (State.jump_changesOnly _ target)
  completes_transferred hops (by decide) (by decide) fun hcount hframe =>
    ⟨rfl, hcount, ⟨s.portByte s.bc, rfl, storesByte_of_write s _ s.hl _ rfl⟩, join_hi_lo (s.hl + step), rfl, hframe⟩

/-- The byte at HL is written to port BC. -/
theorem completes_blockOutput : completes (.next (((s.begin 2 2).outStep step).jump target)) fun t =>
    t.pc = target ∧ counted 2 s t ∧
    t.ports = ⟨.output, s.bc, s.memRead s.hl⟩ :: s.ports ∧
    t.hl = s.hl + step ∧ t.b = s.b - 1 ∧ flagN t.f = true ∧
    changesOnly [.pc, .r, .b, .h, .l, .f, .ports, .draws] s t :=
  have hops := changesOnly_trans _ _ _ _ _ (State.outStep_changesOnly (s.begin 2 2) step)
    (State.jump_changesOnly _ target)
  completes_transferred hops (by decide) (by decide) fun hcount hframe =>
    ⟨rfl, hcount, rfl, join_hi_lo (s.hl + step), rfl, flagN_or_n _, hframe⟩

/-! ## The repeating instructions as jumps (48_io.md R463, R466) -/

/-- After a step that has counted B down, the instruction repeats unless B was 1. -/
theorem State.repeatWhileB_eq_jump {u : State} (hb : u.b = s.b - 1) (hpc : u.pc = s.pc + BitVec.ofNat 16 2) :
    u.repeatWhileB = u.jump (if s.b ≠ 1 then s.pc else s.pc + BitVec.ofNat 16 2) := by
  have hlast : s.b - 1 ≠ 0 ↔ s.b ≠ 1 := not_congr sub_eq_zero
  rw [State.repeatWhileB, State.ite_again, hb, hpc]
  simp only [hlast, add_sub_cancel_right]

theorem exec_inir : exec .inir s = .next (((s.begin 2 2).inStep 1).jump
    (if s.b ≠ 1 then s.pc else s.pc + BitVec.ofNat 16 2)) :=
  congrArg Host.Outcome.next (s.repeatWhileB_eq_jump rfl rfl)

theorem exec_indr : exec .indr s = .next (((s.begin 2 2).inStep (-1)).jump
    (if s.b ≠ 1 then s.pc else s.pc + BitVec.ofNat 16 2)) :=
  congrArg Host.Outcome.next (s.repeatWhileB_eq_jump rfl rfl)

theorem exec_otir : exec .otir s = .next (((s.begin 2 2).outStep 1).jump
    (if s.b ≠ 1 then s.pc else s.pc + BitVec.ofNat 16 2)) :=
  congrArg Host.Outcome.next (s.repeatWhileB_eq_jump rfl rfl)

theorem exec_otdr : exec .otdr s = .next (((s.begin 2 2).outStep (-1)).jump
    (if s.b ≠ 1 then s.pc else s.pc + BitVec.ofNat 16 2)) :=
  congrArg Host.Outcome.next (s.repeatWhileB_eq_jump rfl rfl)

end

end Sys2Proof.Machine

namespace Sys2Proof.Proofs
open Sys2Proof Sys2Proof.Machine

/-- Settles O55: each is one port access after the fetch, an input with the writes that go with it. -/
theorem portReadsAndWrites : Obligations.PortReadsAndWrites :=
  ⟨fun _ n s => completes_portReadA s _ _ (join s.a n),
    fun r s => completes_portInReg8 s _ _ r,
    fun s => completes_portInFlags s _ _,
    fun _ n s => completes_portWrite s _ _ (join s.a n) s.a,
    fun r s => completes_portWrite s _ _ s.bc (s.reg8 r),
    fun s => completes_portWrite s _ _ s.bc Config.outfValue⟩

/-- Settles O56: up is a step by 1 and down one by -1; the repeating forms go back to the instruction unless B was
1. -/
theorem blockInputsAndOutputs : Obligations.BlockInputsAndOutputs := by
  refine ⟨fun s => ?ini, fun s => ?ind, fun s => ?inir, fun s => ?indr, fun s => ?oti, fun s => ?otd, fun s => ?otir,
    fun s => ?otdr⟩
  case ini => exact completes_blockInput s 1 (s.pc + BitVec.ofNat 16 2)
  case ind =>
    rw [sub_eq_add_neg s.hl]
    exact completes_blockInput s (-1) (s.pc + BitVec.ofNat 16 2)
  case inir =>
    rw [exec_inir]
    exact completes_blockInput s 1 _
  case indr =>
    rw [exec_indr, sub_eq_add_neg s.hl]
    exact completes_blockInput s (-1) _
  case oti => exact completes_blockOutput s 1 (s.pc + BitVec.ofNat 16 2)
  case otd =>
    rw [sub_eq_add_neg s.hl]
    exact completes_blockOutput s (-1) (s.pc + BitVec.ofNat 16 2)
  case otir =>
    rw [exec_otir]
    exact completes_blockOutput s 1 _
  case otdr =>
    rw [exec_otdr, sub_eq_add_neg s.hl]
    exact completes_blockOutput s (-1) _

end Sys2Proof.Proofs
end

section
/-! PROOF. The statements of 60_exceptions.md and 70_reset_and_hazards.md: the sampling of the inputs, then what each of
the five things a boundary can serve leaves. Which one it is, is read off the inputs first (R504, R508); NMI and INT are
both `State.takeInterrupt`, of which `State.takeInterrupt_effect` says once what they share. -/

namespace Sys2Proof.Machine

/-! ## Sampling (60_exceptions.md R506, R507) -/

section
variable (s : State)

theorem State.sampleInputs_of_nil (h : s.inputs = []) : s.sampleInputs = s := by
  unfold State.sampleInputs
  rw [h]

theorem State.sampleInputs_of_cons {x : InputSample} {rest : List InputSample} (h : s.inputs = x :: rest) :
    s.sampleInputs = { s with
      resetLine := x.reset, nmiPending := s.nmiPending || x.nmi, intLine := x.intLine, busByte := x.busByte
      inputs := rest } := by
  unfold State.sampleInputs
  rw [h]

theorem State.sampleInputs_changesOnly :
    changesOnly [.resetLine, .intLine, .busByte, .nmiPending, .inputs] s s.sampleInputs := by
  rw [State.sampleInputs_eq]
  intro q hq
  cases q with
  | resetLine | intLine | busByte | nmiPending | inputs => simp at hq
  | bytes => exact fun _ => rfl
  | _ => rfl

end

/-! ## What a boundary serves (60_exceptions.md R504, R505, R508) -/

section
variable {s : State}

theorem State.boundary_reset (hr : s.resetLine = true) : s.boundary = .resetEvent := by simp [State.boundary, hr]

theorem State.boundary_nmi (hr : s.resetLine = false) (hi : s.inhibit = false) (hn : s.nmiPending = true) :
    s.boundary = .nmi := by simp [State.boundary, hr, hi, hn]

theorem State.boundary_int (hr : s.resetLine = false) (hi : s.inhibit = false) (hn : s.nmiPending = false)
    (hint : s.intLine = true) (hiff : s.iff1 = true) : s.boundary = .int := by
  simp [State.boundary, hr, hi, hn, hint, hiff]

/-- With no request that can be accepted, HALTED alone decides. -/
theorem State.boundary_quiet (hr : s.resetLine = false)
    (hquiet : s.inhibit = true ∨ (s.nmiPending = false ∧ (s.intLine = false ∨ s.iff1 = false))) :
    s.boundary = if s.halted then .haltedStep else .instruction := by
  obtain hi | ⟨hn, hint | hiff⟩ := hquiet
  · simp [State.boundary, hr, hi]
  · simp [State.boundary, hr, hn, hint]
  · simp [State.boundary, hr, hn, hiff]

/-- Where INHIBIT is 0 there is nothing to clear. -/
theorem State.clearInhibit_eq_self (hi : s.inhibit = false) : s.clearInhibit = s := by
  rw [State.clearInhibit, ← hi]

/-- The four bytes at PC decode to the instruction that a step runs (30_encoding.md R113). -/
theorem State.fetched_of_decode {i : Instr}
    (h : decode [s.memRead s.pc, s.memRead (s.pc + 1), s.memRead (s.pc + 2), s.memRead (s.pc + 3)] = .ok i) :
    s.fetched = i := by
  obtain ⟨hdec, -⟩ := Proofs.everyByteSequenceIsOneInstruction (s.memRead s.pc) (s.memRead (s.pc + 1))
    (s.memRead (s.pc + 2)) (s.memRead (s.pc + 3))
  have hfirst : s.codeByte 0 = s.memRead s.pc := congrArg s.memRead (BitVec.add_zero s.pc)
  have hi : decode4 (s.codeByte 0) (s.codeByte 1) (s.codeByte 2) (s.codeByte 3) = i :=
    hfirst ▸ Except.ok.inj (hdec.symm.trans h)
  exact hi

end

/-- A step serves what the boundary after the sampling says. -/
theorem step_eq_serve {s : State} {b : Boundary} (h : s.sampleInputs.boundary = b) :
    step s = s.sampleInputs.serve b := h ▸ rfl

/-! ## Reset (70_reset_and_hazards.md R550) -/

/-- A reset event leaves memory, its map, the port history and the inputs as they are. -/
theorem State.resetEvent_same (s : State) :
    ∀ p ∈ [Part.bytes, .map, .ports, .resetLine, .intLine, .busByte, .inputs], p.same s s.resetEvent := by
  intro p hp
  cases p with
  | bytes => exact fun _ => rfl
  | map | ports | resetLine | intLine | busByte | inputs => rfl
  | _ => simp at hp

/-! ## Taking an interrupt (60_exceptions.md R510, R512 to R516) -/

section
variable (s : State)

/-- Whatever its handler, an interrupt pushes PC, clears HALTED and IFF1 and counts R by 1. -/
theorem State.takeInterrupt_effect (keepIff2 : Bool) (handler : State → Word) :
    let t := s.takeInterrupt keepIff2 handler
    t.sp = s.sp - 2 ∧ storesWord (s.sp - 2) s.pc s t ∧ t.halted = false ∧ t.iff1 = false ∧ counted 1 s t := by
  obtain ⟨u, hu, hsp, hmem, hhalted, hiff1, -, hr⟩ := s.takeInterrupt_spec keepIff2 handler
  rw [hu]
  refine ⟨hsp, storesWord_of_writes s _ _ s.pc (.inr hmem), hhalted, hiff1, ?_⟩
  rw [counted, State.jump_r, hr]
  exact s.toNat_countR_r 1

/-- The address of the handler of an accepted INT, by the interrupt mode; mode 2 reads it after the push. -/
def State.intHandler : State → Word :=
  match s.im with
  | .im0 => fun _ => rstTarget (yField s.busByte)
  | .im1 => fun _ => 0x0038
  | .im2 => fun t => t.memRead16 (join t.i t.busByte)

theorem State.acceptInt_eq (h : s.im = .im0 → isRst s.busByte = true) :
    s.acceptInt = .next (s.takeInterrupt false s.intHandler) := by
  unfold State.acceptInt State.intHandler
  cases him : s.im with
  | im0 => simp [h him]
  | im1 => rfl
  | im2 => rfl

theorem isRst_iff (b : Byte) : isRst b = true ↔ b &&& 0xC7 = 0xC7 := by
  revert b; decide

/-- The target of an RST opcode is its middle field in place. -/
theorem toNat_rstTarget (b : Byte) : (rstTarget (yField b)).toNat = (b &&& 0x38).toNat := by
  revert b; decide

end

end Sys2Proof.Machine

namespace Sys2Proof.Proofs
open Sys2Proof Sys2Proof.Machine

/-- Settles O4: HALTED is 0, so the step runs what the four bytes at PC decode to. -/
theorem stepRunsTheDecodedInstruction : Obligations.StepRunsTheDecodedInstruction := by
  intro s i hr hhalted hquiet hdec
  have hb : s.sampleInputs.boundary = .instruction := by rw [State.boundary_quiet hr hquiet, hhalted]; rfl
  rw [step_eq_serve hb, State.serve, State.fetched_of_decode hdec]
  rfl

/-- Settles O5: `State.sampleInputs` with and without a coming sample. -/
theorem inputsAreSampledOnce : Obligations.InputsAreSampledOnce := by
  refine fun s => ⟨s.sampleInputs_of_nil, fun x rest hin => ?_⟩
  have hframe := s.sampleInputs_changesOnly
  rw [s.sampleInputs_of_cons hin] at hframe ⊢
  exact ⟨rfl, rfl, rfl, rfl, rfl, hframe⟩

/-- Settles O6: with INHIBIT 0 the step is `State.acceptNmi` on the sampled state. -/
theorem nmiIsTaken : Obligations.NmiIsTaken := by
  intro s hr hi hn
  rw [step_eq_serve (State.boundary_nmi hr hi hn), State.serve, State.clearInhibit_eq_self hi]
  obtain ⟨hsp, hstores, hhalted, hiff1, hcount⟩ :=
    State.takeInterrupt_effect { s.sampleInputs with nmiPending := false } true fun _ => 0x0066
  exact (completes_next _ _).mpr
    ⟨rfl, hsp, hstores, rfl, hhalted, hiff1, hcount, s.sampleInputs.acceptNmi_changesOnly⟩

/-- Settles O7: the three modes differ in the handler's address alone. -/
theorem intIsTaken : Obligations.IntIsTaken := by
  intro s hr hi hn hint hiff hrst
  rw [step_eq_serve (State.boundary_int hr hi hn hint hiff), State.serve, State.clearInhibit_eq_self hi,
    State.acceptInt_eq _ hrst]
  generalize s.sampleInputs = u
  obtain ⟨hsp, hstores, hhalted, hiff1, hcount⟩ := u.takeInterrupt_effect false u.intHandler
  refine (completes_next _ _).mpr ⟨fun him => ?mode0, fun him => ?mode1, fun him => ?mode2, hsp, hstores, hhalted,
    hiff1, rfl, hcount, u.takeInterrupt_changesOnly false u.intHandler⟩
  case mode0 =>
    rw [State.intHandler, him]
    exact toNat_rstTarget u.busByte
  case mode1 =>
    rw [State.intHandler, him]
    rfl
  case mode2 =>
    rw [State.intHandler, him]
    rfl

/-- Settles O8: the byte is no RST opcode, and mode 0 knows no other. -/
theorem modeZeroByteThatIsNoRstIsRefused : Obligations.ModeZeroByteThatIsNoRstIsRefused := by
  intro s hr hi hn hint hiff him hbyte
  have hrst : isRst s.sampleInputs.busByte = false := Bool.eq_false_iff.mpr (mt (isRst_iff _).mp hbyte)
  rw [step_eq_serve (State.boundary_int hr hi hn hint hiff), State.serve, State.clearInhibit_eq_self hi,
    State.acceptInt, him]
  exact if_neg (ne_true_of_eq_false hrst)

/-- Settles O9: HALTED is 1, so the step is the count of R after INHIBIT is cleared. -/
theorem haltedStepOnlyCounts : Obligations.HaltedStepOnlyCounts := by
  intro s hr hhalted hquiet
  have hb : s.sampleInputs.boundary = .haltedStep := by rw [State.boundary_quiet hr hquiet, hhalted]; rfl
  rw [step_eq_serve hb]
  exact (completes_next _ _).mpr ⟨rfl, s.sampleInputs.toNat_countR_r 1,
    changesOnly_trans _ _ _ _ _ s.sampleInputs.clearInhibit_changesOnly (State.haltedStep_changesOnly _)⟩

/-- Settles O10: RESET is the first test of a boundary. -/
theorem resetLineResets : Obligations.ResetLineResets := by
  intro s hr
  rw [step_eq_serve (State.boundary_reset hr)]
  exact (completes_next _ _).mpr ⟨rfl, rfl, rfl, rfl, rfl, rfl, rfl, rfl, rfl, s.sampleInputs.resetEvent_same⟩

end Sys2Proof.Proofs
end

section
/-! PROOF. What lies outside the processor and its memory: the input lines, the coming samples and the history of port
accesses (20_memory.md R92, 60_exceptions.md R506, R512). `exec_environment` and `step_environment` say it once: an
instruction, and so a step after its sample is taken, adds at most one port access and leaves the rest alone. Since no
instruction can fail (R500), only the bus byte of an INT in mode 0 can stop a step (R514). -/

namespace Sys2Proof.Machine

/-! ## The environment view of a state -/

/-- What the environment drives, and the port accesses it has seen. -/
structure Environment where
  resetLine : Bool
  intLine : Bool
  busByte : Byte
  inputs : List InputSample
  ports : List PortEvent

/-- The environment view of a state. -/
def State.environment (s : State) : Environment where
  resetLine := s.resetLine
  intLine := s.intLine
  busByte := s.busByte
  inputs := s.inputs
  ports := s.ports

/-- At most one port access leads from the one environment to the other, and nothing else. -/
def Environment.Accessed (e e' : Environment) : Prop :=
  e' = e ∨ ∃ access, e' = { e with ports := access :: e.ports }

theorem Environment.Accessed.ports_eq {e e' : Environment} (h : e.Accessed e') :
    e'.ports = e.ports ∨ ∃ access, e'.ports = access :: e.ports :=
  h.imp (congrArg Environment.ports) fun ⟨access, he⟩ => ⟨access, congrArg Environment.ports he⟩

/-- The bus byte and the coming samples stay, and with them what an interrupt in mode 0 could meet. -/
theorem busBytesRst_of_accessed {s t : State} (h : s.environment.Accessed t.environment) :
    t.busBytesRst = s.busBytesRst := by
  have hbus : t.busByte = s.busByte ∧ t.inputs = s.inputs := by
    obtain he | ⟨_, he⟩ := h
    · exact ⟨congrArg Environment.busByte he, congrArg Environment.inputs he⟩
    · exact ⟨congrArg Environment.busByte he, congrArg Environment.inputs he⟩
  rw [State.busBytesRst, hbus.1, hbus.2, State.busBytesRst]

/-! ## An instruction -/

/-- An instruction's only way to its environment is one port access. The cases: the six rows that no bytes decode to,
the instructions of 48_io.md, the repeating ones and the conditional ones of the other families, and the rest. -/
theorem exec_environment (i : Instr) (s : State) (hi : i ∉ prefixRows) :
    whenNext (exec i s) fun t => s.environment.Accessed t.environment := by
  cases i with
  | prefixCb | prefixDd | prefixEd | prefixFd | prefixDdCb | prefixFdCb => simp [prefixRows] at hi
  | inAN | inRC | inf | outNA | outCR | outf | ini | ind | oti | otd =>
    refine whenNext_next _ _ (.inr ?_)
    simp [State.environment, State.portInFlags, State.inStep, State.outStep]
  | inir | indr | otir | otdr =>
    simp only [exec_inir, exec_indr, exec_otir, exec_otdr]
    refine whenNext_next _ _ (.inr ?_)
    simp [State.environment, State.inStep, State.outStep]
  | ldir | lddr | cpir | cpdr =>
    simp only [exec_ldir, exec_lddr, exec_cpir, exec_cpdr]
    refine whenNext_next _ _ (.inl ?_)
    simp [State.environment, State.ldStep, State.cpStep]
  | djnz | jrCc | retC | jpCNn | callCNn =>
    refine whenNext_next _ _ (.inl ?_)
    split <;> simp [State.environment, State.jumpRelative]
  | _ =>
    refine whenNext_next _ _ (.inl ?_)
    simp [State.environment, State.jumpRelative, State.retFromNmi, State.swapBank, State.loadAWithFlags,
      State.addKeep, State.addA, State.adcA, State.subA, State.sbcA, State.andA, State.xorA, State.orA, State.cpA,
      State.stepReg8, State.stepHalf, State.stepMem, State.testBitReg, State.readTemp, State.testBitTemp,
      State.testBitIndexed, State.storeBoth, State.shiftAcc, State.shiftReg8, State.shiftMem, State.shiftMemReg8,
      State.digitRotate, State.exchangeTop, State.ldStep, State.cpStep]

/-- Every instruction completes: a row of `prefixRows` as the instruction it starts, the others by themselves. -/
theorem exec_completes (i : Instr) (s : State) : ∃ t, exec i s = .next t := by
  by_cases hrow : i ∈ prefixRows
  · obtain ⟨hcb, hdd, hed, hfd, hddcb, hfdcb⟩ := Proofs.prefixBytesRunTheInstructionTheyStart
    simp only [prefixRows, List.mem_cons, List.not_mem_nil, or_false] at hrow
    obtain rfl | rfl | rfl | rfl | rfl | rfl := hrow
    · exact (hcb s).imp fun _ h => h.1
    · exact (hdd s).imp fun _ h => h.1
    · exact (hed s).imp fun _ h => h.1
    · exact (hfd s).imp fun _ h => h.1
    · exact (hddcb s).imp fun _ h => h.1
    · exact (hfdcb s).imp fun _ h => h.1
  · exact (exec_eq_execMapped i s hrow).imp fun _ h => h.2

/-! ## A step -/

section
variable (s : State)

theorem State.takeInterrupt_environment (keepIff2 : Bool) (handler : State → Word) :
    (s.takeInterrupt keepIff2 handler).environment = s.environment := by
  simp [State.environment, State.takeInterrupt]

/-- An INT that is accepted reaches the environment no more than an NMI does. -/
theorem State.acceptInt_environment : whenNext s.acceptInt fun t => t.environment = s.environment := by
  obtain ⟨-, -, h⟩ | ⟨-, -, h⟩ | ⟨-, h⟩ | ⟨-, h⟩ := s.acceptInt_cases <;> rw [h]
  · exact whenNext_next _ _ (s.takeInterrupt_environment false _)
  · exact fun _ hn => nomatch hn
  · exact whenNext_next _ _ (s.takeInterrupt_environment false _)
  · exact whenNext_next _ _ (s.takeInterrupt_environment false _)

/-- After the sample is taken a step reaches the environment by at most one port access: only an instruction can make
one. -/
theorem step_environment : whenNext (step s) fun t => s.sampleInputs.environment.Accessed t.environment := by
  obtain ⟨-, h⟩ | ⟨-, h⟩ | ⟨-, h⟩ | ⟨-, h⟩ | ⟨-, h⟩ := step_cases s <;> rw [h]
  · exact whenNext_next _ _ (.inl rfl)
  · exact whenNext_next _ _ (.inl (State.takeInterrupt_environment _ true _))
  · exact fun t ht => .inl (State.acceptInt_environment s.sampleInputs.clearInhibit t ht)
  · exact whenNext_next _ _ (.inl rfl)
  · exact exec_environment _ s.sampleInputs.clearInhibit (decode4_not_prefix _ _ _ _)

/-- A step completes where the sample leaves an RST opcode on the bus. -/
theorem step_completes (h : isRst s.sampleInputs.busByte = true) : ∃ t, step s = .next t := by
  obtain ⟨-, hstep⟩ | ⟨-, hstep⟩ | ⟨-, hstep⟩ | ⟨-, hstep⟩ | ⟨-, hstep⟩ := step_cases s <;> rw [hstep]
  · exact ⟨_, rfl⟩
  · exact ⟨_, rfl⟩
  · exact ⟨_, State.acceptInt_eq s.sampleInputs.clearInhibit fun _ => h⟩
  · exact ⟨_, rfl⟩
  · exact exec_completes _ s.sampleInputs.clearInhibit

/-- Sampling puts the next sample's byte on the bus, or leaves the one that is there. -/
theorem State.busBytesRst_sampleInputs (h : s.busBytesRst = true) : s.sampleInputs.busBytesRst = true := by
  unfold State.sampleInputs
  cases hin : s.inputs with
  | nil => exact h
  | cons x rest =>
    rw [State.busBytesRst, hin, List.all_cons, Bool.and_eq_true] at h
    exact h.2

end

end Sys2Proof.Machine

namespace Sys2Proof.Proofs
open Sys2Proof Sys2Proof.Machine

/-- Settles O12: no instruction can fail, the rows of `prefixRows` included. -/
theorem everyInstructionCompletes : Obligations.EveryInstructionCompletes := exec_completes

/-- Settles O13: the sample leaves an RST opcode on the bus, so the step completes, and the bus bytes to come are not
the machine's to change. -/
theorem stepNeverStopsOnRstBusBytes : Obligations.StepNeverStopsOnRstBusBytes := by
  intro s hs
  have hsampled := s.busBytesRst_sampleInputs hs
  obtain ⟨hbus, -⟩ := Bool.and_eq_true_iff.mp hsampled
  obtain ⟨t, ht⟩ := step_completes s hbus
  exact ⟨t, ht, (busBytesRst_of_accessed (step_environment s t ht)).trans hsampled⟩

/-- Settles O20: `step_environment`, and sampling makes no port access. -/
theorem onePortAccessPerStep : Obligations.OnePortAccessPerStep := fun s t ht =>
  have hsampled : s.sampleInputs.ports = s.ports := s.sampleInputs_changesOnly .ports (by decide)
  hsampled ▸ (step_environment s t ht).ports_eq

end Sys2Proof.Proofs
end

section
/-! PROOF. The statements of 49_system.md, and the ignored prefixes (30_encoding.md R137). NOP and the undefined ED
opcodes are the fetch alone; each of the others writes, after the fetch, the interrupt control that its rule names. -/

namespace Sys2Proof.Machine

/-! ## The mode of IM (49_system.md R484) -/

theorem imOfField_eq (m : BitVec 2) :
    (m = 0 ∨ m = 1 → imOfField m = .im0) ∧ (m = 2 → imOfField m = .im1) ∧ (m = 3 → imOfField m = .im2) := by
  revert m; decide

/-! ## The writes of the interrupt control -/

section
variable (s : State)

theorem State.setEnables_changesOnly (v w : Bool) : changesOnly [.iff1, .iff2] s { s with iff1 := v, iff2 := w } := by
  intro q hq
  cases q with
  | iff1 | iff2 => simp at hq
  | bytes => exact fun _ => rfl
  | _ => rfl

theorem State.setInhibit_changesOnly (v : Bool) : changesOnly [.inhibit] s { s with inhibit := v } := by
  intro q hq
  cases q with
  | inhibit => simp at hq
  | bytes => exact fun _ => rfl
  | _ => rfl

theorem State.setIm_changesOnly (m : IntMode) : changesOnly [.im] s { s with im := m } := by
  intro q hq
  cases q with
  | im => simp at hq
  | bytes => exact fun _ => rfl
  | _ => rfl

theorem State.setHalted_changesOnly (v : Bool) : changesOnly [.halted] s { s with halted := v } := by
  intro q hq
  cases q with
  | halted => simp at hq
  | bytes => exact fun _ => rfl
  | _ => rfl

/-- EI writes both enables and then INHIBIT. -/
theorem State.enableInhibited_changesOnly :
    changesOnly [.iff1, .iff2, .inhibit] s { s with iff1 := true, iff2 := true, inhibit := true } :=
  changesOnly_trans _ _ s _ _ (s.setEnables_changesOnly true true) (State.setInhibit_changesOnly _ true)

variable (len fetches : Nat)

/-- INHIBIT is set: all that an ignored DD or FD does (30_encoding.md R137). -/
theorem completes_setInhibit : completes (.next { s.begin len fetches with inhibit := true }) fun t =>
    advanced len fetches s t ∧ t.inhibit = true ∧ changesOnly [.pc, .r, .inhibit] s t :=
  completes_fetched (State.setInhibit_changesOnly _ true) (by decide) fun hadv hframe => ⟨hadv, rfl, hframe⟩

end

end Sys2Proof.Machine

namespace Sys2Proof.Proofs
open Sys2Proof Sys2Proof.Machine

/-- Settles O57: each is the fetch, or one write of the interrupt control after it. -/
theorem systemInstructions : Obligations.SystemInstructions := by
  refine ⟨fun _ s => ?nop, fun _ s => ?nopEd, fun _ s => ?di, fun _ s => ?ei, fun _ m s => ?im, fun _ s => ?halt,
    fun _ s => ?nextDd, fun _ s => ?nextEd, fun _ s => ?nextFd⟩
  case nop => exact completes_begin s _ _
  case nopEd => exact completes_begin s _ _
  case di =>
    exact completes_fetched (State.setEnables_changesOnly _ false false) (by decide) fun hadv hframe =>
      ⟨hadv, rfl, rfl, hframe⟩
  case ei =>
    exact completes_fetched (State.enableInhibited_changesOnly _) (by decide) fun hadv hframe =>
      ⟨hadv, rfl, rfl, rfl, hframe⟩
  case im =>
    obtain ⟨him0, him1, him2⟩ := imOfField_eq m
    exact completes_fetched (State.setIm_changesOnly _ (imOfField m)) (by decide) fun hadv hframe =>
      ⟨hadv, him0, him1, him2, hframe⟩
  case halt =>
    exact completes_fetched (State.setHalted_changesOnly _ true) (by decide) fun hadv hframe => ⟨hadv, rfl, hframe⟩
  case nextDd => exact completes_setInhibit s 1 1
  case nextEd => exact completes_setInhibit s 1 1
  case nextFd => exact completes_setInhibit s 1 1

end Sys2Proof.Proofs
end
